-- ==== Sys2Proof/Word.lean ====
section
/-! DEFINITION. The word types of the DAP engine (00_scope R7, R9, R11). -/

namespace Sys2Proof

/-- `u8` of rule R11: one byte of a request or response, a request byte, an ACK or result code. -/
abbrev Byte := BitVec 8

/-- `u16` of rule R11. -/
abbrev Half := BitVec 16

/-- `Word` of rule R11: 32 bits. No value of the block is signed. -/
abbrev Word := BitVec 32

end Sys2Proof
end

