-- ==== Sys2Proof/Syntax.lean ====
section
/-! DEFINITION. The instructions: one constructor per row of spec/opcode_table.json. -/

namespace Sys2Proof

/-- A[3:2] of a request: bit 0 is A2, bit 1 is A3 (R110). Offsets 0x0, 0x4, 0x8, 0xC are 0, 1, 2, 3. -/
abbrev RegAddr := BitVec 2

/-- One constructor per row of the opcode table. The row TRANSFER stands twice in the table, as a host command
(`transfer`) and as the Transfer Engine's internal operation (`transferOp`). -/
inductive Instr where
  /-- CONNECT, code 0x02 (R287) -/
  | connect (port : Byte)
  /-- DISCONNECT, code 0x03 (R288) -/
  | disconnect
  /-- XFER_CFG, code 0x04 (R290) -/
  | xferCfg (idle : Byte) (waitRetry matchRetry : Half)
  /-- TRANSFER, code 0x05: the command's header (R240); its requests are instructions of their own -/
  | transfer (index count : Byte)
  /-- TRANSFER_BLOCK, code 0x06: the command's header (R260); its request byte is an instruction of its own -/
  | transferBlock (index : Byte) (count : Half)
  /-- SWJ_CLOCK, code 0x11 (R291) -/
  | swjClock (hz : Word)
  /-- SWD_CFG, code 0x13 (R292) -/
  | swdCfg (config : Byte)
  /-- JTAG_CFG, code 0x15 (R293); the count byte is the list's length -/
  | jtagCfg (lens : List Byte)
  /-- EXEC, code 0x7f: the batch header (R282); its inner commands are instructions of their own -/
  | execCommands (count : Byte)
  /-- DP_R a: plain DP read (R248) -/
  | dpR (a : RegAddr)
  /-- AP_R a: plain AP read (R249) -/
  | apR (a : RegAddr)
  /-- DP_RM a v: DP match read with match value v (R247) -/
  | dpRM (a : RegAddr) (v : Word)
  /-- AP_RM a v: AP match read with match value v (R247) -/
  | apRM (a : RegAddr) (v : Word)
  /-- DP_W a v: DP write (R250) -/
  | dpW (a : RegAddr) (v : Word)
  /-- AP_W a v: AP write (R251) -/
  | apW (a : RegAddr) (v : Word)
  /-- MASK v: load the match mask (R252) -/
  | mask (v : Word)
  /-- TB_READ: a Transfer Block's request byte with RnW = 1 (R260) -/
  | tbRead (apndp : Bool) (a : RegAddr)
  /-- TB_WRITE: a Transfer Block's request byte with RnW = 0 (R260) -/
  | tbWrite (apndp : Bool) (a : RegAddr)
  /-- SWD_HEADER: the 8 header cycles of port request r (R114) -/
  | swdHeader (r : BitVec 4)
  /-- SWD_PACKET (R202) -/
  | swdPacket (req : Byte) (wdata : Word)
  /-- SET_IR (R175) -/
  | setIr (ir : Byte)
  /-- READ_DR32 (R180) -/
  | readDr32
  /-- JTAG_TRANSFER_SCAN (R185) -/
  | jtagTransferScan (req : Byte) (wdata : Word)
  /-- TRANSFER, the internal operation (R230) -/
  | transferOp (req : Byte) (w : Word)
  /-- TRANSFER_RETRY (R233) -/
  | transferRetry (req : Byte) (w : Word)
  /-- MATCH_READ (R247) -/
  | matchRead (req : Byte) (mv : Word)
  /-- HALF_DELAY (R152) -/
  | halfDelay (rate : Word)
  /-- CLOCK_CYCLE (R156) -/
  | clockCycle
  /-- WRITE_CYCLE (R157) -/
  | writeCycle (bit : Bool)
  /-- READ_CYCLE (R158) -/
  | readCycle
  /-- READ_WRITE_CYCLE (R159) -/
  | readWriteCycle (bit : Bool)
  /-- SWD_OUT_ENABLE (R155) -/
  | swdOutEnable (v : Bool)
  /-- SWD_OUT_DISABLE (R155) -/
  | swdOutDisable
  /-- JCYCLE (R160) -/
  | jcycle (tms tdi : Bool)
  deriving DecidableEq, Repr

/-- The four places an encoding is read in (the introduction of 30_encoding): a command code, a request byte of a
Transfer, the request byte of a Transfer Block, and the header of an SWD packet on the wire. -/
inductive Context where
  | command
  | request
  | blockRequest
  | wireHeader
  deriving DecidableEq, Repr

/-- Where an instruction is read from; the engine's internal operations have no encoding. -/
def Instr.context : Instr → Option Context
  | .connect _ | .disconnect | .xferCfg _ _ _ | .transfer _ _ | .transferBlock _ _
  | .swjClock _ | .swdCfg _ | .jtagCfg _ | .execCommands _ => some .command
  | .dpR _ | .apR _ | .dpRM _ _ | .apRM _ _ | .dpW _ _ | .apW _ _ | .mask _ => some .request
  | .tbRead _ _ | .tbWrite _ _ => some .blockRequest
  | .swdHeader _ => some .wireHeader
  | .swdPacket _ _ | .setIr _ | .readDr32 | .jtagTransferScan _ _ | .transferOp _ _
  | .transferRetry _ _ | .matchRead _ _ | .halfDelay _ | .clockCycle | .writeCycle _
  | .readCycle | .readWriteCycle _ | .swdOutEnable _ | .swdOutDisable | .jcycle _ _ => none

end Sys2Proof
end

