-- ==== Sys2Proof/WellFormed.lean ====
section
/-! DEFINITION. Which terms of `Instr` stand for an instruction of the spec. -/

namespace Sys2Proof

/-- JTAG Configure carries its count in one byte, so at most 255 lengths (R101, R293); HalfDelay's rate is at least 1
(R152). Every other term is an instruction at every operand value. -/
def Instr.wellFormed : Instr → Bool
  | .jtagCfg lens => lens.length ≤ 255
  | .halfDelay rate => rate != 0#32
  | .connect _ | .disconnect | .xferCfg _ _ _ | .transfer _ _ | .transferBlock _ _
  | .swjClock _ | .swdCfg _ | .execCommands _
  | .dpR _ | .apR _ | .dpRM _ _ | .apRM _ _ | .dpW _ _ | .apW _ _ | .mask _
  | .tbRead _ _ | .tbWrite _ _ | .swdHeader _
  | .swdPacket _ _ | .setIr _ | .readDr32 | .jtagTransferScan _ _ | .transferOp _ _
  | .transferRetry _ _ | .matchRead _ _ | .clockCycle | .writeCycle _
  | .readCycle | .readWriteCycle _ | .swdOutEnable _ | .swdOutDisable | .jcycle _ _ => true

/-- The well-formed instructions. -/
abbrev WellFormed (i : Instr) : Prop := i.wellFormed = true

end Sys2Proof
end

