-- ==== Sys2Proof/Decode.lean ====
section
/-! DEFINITION. The decoder and the encoder, both written from 30_encoding. -/

namespace Sys2Proof

/-! ### Little-endian fields (20_memory R76) -/

/-- The u16 whose bytes are `b0` (low) and `b1`. -/
def le16 (b0 b1 : Byte) : Half := b1 ++ b0

/-- The u32 whose bytes are `b0` (lowest) to `b3`. -/
def le32 (b0 b1 b2 b3 : Byte) : Word := b3 ++ b2 ++ b1 ++ b0

/-- The bytes of a u16, low byte first. -/
def bytes16 (v : Half) : List Byte := [v.extractLsb' 0 8, v.extractLsb' 8 8]

/-- The bytes of a u32, low byte first. -/
def bytes32 (v : Word) : List Byte :=
  [v.extractLsb' 0 8, v.extractLsb' 8 8, v.extractLsb' 16 8, v.extractLsb' 24 8]

/-! ### What decoding can answer -/

/-- The outcome of decoding the bytes at the cursor. -/
inductive Decoded where
  /-- an instruction, and how many bytes it takes -/
  | instr (i : Instr) (len : Nat)
  /-- a field of `width` bytes is expected at offset `at_` and fewer bytes remain (R72, R321) -/
  | short (at_ width : Nat)
  /-- a command code no rule of the spec gives a meaning (R284, R285) -/
  | noRule (code : Byte)
  /-- a byte that is no SWD header (R114) -/
  | notHeader (b : Byte)
  deriving DecidableEq, Repr

/-! ### Commands (R101) -/

/-- JTAG Configure's fields after the code: the count byte, then that many lengths (R293). -/
def decodeJtagCfg : List Byte → Decoded
  | [] => .short 1 1
  | n :: lens =>
    if n.toNat ≤ lens.length then .instr (.jtagCfg (lens.take n.toNat)) (2 + n.toNat)
    else .short (2 + lens.length) 1

/-- XFER_CFG's fields after the code (R290). -/
def decodeXferCfg : List Byte → Decoded
  | i :: w0 :: w1 :: m0 :: m1 :: _ => .instr (.xferCfg i (le16 w0 w1) (le16 m0 m1)) 6
  | _ :: _ :: _ :: _ => .short 4 2
  | _ :: _ => .short 2 2
  | [] => .short 1 1

/-- TRANSFER's header after the code (R240). -/
def decodeTransfer : List Byte → Decoded
  | i :: n :: _ => .instr (.transfer i n) 3
  | [_] => .short 2 1
  | [] => .short 1 1

/-- TRANSFER_BLOCK's header after the code, up to the request byte (R260). -/
def decodeTransferBlock : List Byte → Decoded
  | i :: n0 :: n1 :: _ => .instr (.transferBlock i (le16 n0 n1)) 4
  | _ :: _ => .short 2 2
  | [] => .short 1 1

/-- A command whose only field is one byte. -/
def decodeByteField (mk : Byte → Instr) : List Byte → Decoded
  | b :: _ => .instr (mk b) 2
  | [] => .short 1 1

/-- SWJ_CLOCK's field after the code (R291). -/
def decodeSwjClock : List Byte → Decoded
  | b0 :: b1 :: b2 :: b3 :: _ => .instr (.swjClock (le32 b0 b1 b2 b3)) 5
  | _ => .short 1 4

/-- A command: its code, then its fields (R100, R101). -/
def decodeCommand : List Byte → Decoded
  | [] => .short 0 1
  | c :: rest =>
    if c = 0x02#8 then decodeByteField .connect rest
    else if c = 0x03#8 then .instr .disconnect 1
    else if c = 0x04#8 then decodeXferCfg rest
    else if c = 0x05#8 then decodeTransfer rest
    else if c = 0x06#8 then decodeTransferBlock rest
    else if c = 0x11#8 then decodeSwjClock rest
    else if c = 0x13#8 then decodeByteField .swdCfg rest
    else if c = 0x15#8 then decodeJtagCfg rest
    else if c = 0x7f#8 then decodeByteField .execCommands rest
    else .noRule c

/-! ### The request byte (R110, R111) -/

/-- Bit 0 of a request byte. -/
def reqAPnDP (b : Byte) : Bool := b.getLsbD 0
/-- Bit 1 of a request byte. -/
def reqRnW (b : Byte) : Bool := b.getLsbD 1
/-- Bits 3:2 of a request byte. -/
def reqAddr (b : Byte) : RegAddr := b.extractLsb' 2 2
/-- Bit 4 of a request byte: it counts for reads only. -/
def reqMatchValue (b : Byte) : Bool := b.getLsbD 4
/-- Bit 5 of a request byte: it counts for writes only. -/
def reqMatchMask (b : Byte) : Bool := b.getLsbD 5

/-- `HasData(req)` of R241, R104: writes and match reads carry a word. -/
def reqHasData (b : Byte) : Bool := !reqRnW b || reqMatchValue b

/-- The request of byte `b` with word `w` (`w` counts only where `reqHasData b`). -/
def requestOf (b : Byte) (w : Word) : Instr :=
  if reqRnW b then
    if reqMatchValue b then
      if reqAPnDP b then .apRM (reqAddr b) w else .dpRM (reqAddr b) w
    else if reqAPnDP b then .apR (reqAddr b) else .dpR (reqAddr b)
  else if reqMatchMask b then .mask w
  else if reqAPnDP b then .apW (reqAddr b) w else .dpW (reqAddr b) w

/-- `Parse()` of R241: one request and its word. -/
def decodeRequest : List Byte → Decoded
  | [] => .short 0 1
  | b :: rest =>
    if reqHasData b then
      match rest with
      | b0 :: b1 :: b2 :: b3 :: _ => .instr (requestOf b (le32 b0 b1 b2 b3)) 5
      | _ => .short 1 4
    else .instr (requestOf b 0#32) 1

/-- The request byte of a Transfer Block: bits 4 to 7 are ignored (R260, D22). -/
def decodeBlockRequest : List Byte → Decoded
  | [] => .short 0 1
  | b :: _ =>
    .instr (if reqRnW b then .tbRead (reqAPnDP b) (reqAddr b) else .tbWrite (reqAPnDP b) (reqAddr b)) 1

/-- The request byte with the given fields; reserved bits are 0 (R110). -/
def requestByte (apndp rnw : Bool) (a : RegAddr) (matchValue matchMask : Bool) : Byte :=
  0#2 ++ BitVec.ofBool matchMask ++ BitVec.ofBool matchValue ++ a ++ BitVec.ofBool rnw ++ BitVec.ofBool apndp

/-! ### The SWD header (R114) -/

/-- `parity(v) = popcount(v) mod 2` (R11, R205). -/
def parityOf {n : Nat} (v : BitVec n) : Bool :=
  (List.range n).foldl (fun p k => p ^^ v.getLsbD k) false

/-- The header of port request `r`: start 1, APnDP, RnW, A2, A3, parity, stop 0, park 1, from bit 0 up (R114). -/
def headerByte (r : BitVec 4) : Byte :=
  1#1 ++ 0#1 ++ BitVec.ofBool (parityOf r) ++ r ++ 1#1

/-- A header is read back only when start, stop, park and parity are right. -/
def decodeHeader : List Byte → Decoded
  | [] => .short 0 1
  | b :: _ =>
    if b = headerByte (b.extractLsb' 1 4) then .instr (.swdHeader (b.extractLsb' 1 4)) 1 else .notHeader b

/-! ### The decoder and the encoder -/

/-- Decode the bytes at the cursor, in the context the cursor stands in. -/
def decode (c : Context) (bs : List Byte) : Decoded :=
  match c with
  | .command => decodeCommand bs
  | .request => decodeRequest bs
  | .blockRequest => decodeBlockRequest bs
  | .wireHeader => decodeHeader bs

/-- The bytes of an instruction, from the same tables (R101, R104, R110, R114); none for an internal operation. -/
def encode : Instr → Option (List Byte)
  | .connect p => some [0x02#8, p]
  | .disconnect => some [0x03#8]
  | .xferCfg i w m => some ([0x04#8, i] ++ bytes16 w ++ bytes16 m)
  | .transfer i n => some [0x05#8, i, n]
  | .transferBlock i n => some ([0x06#8, i] ++ bytes16 n)
  | .swjClock hz => some (0x11#8 :: bytes32 hz)
  | .swdCfg c => some [0x13#8, c]
  | .jtagCfg lens => some (0x15#8 :: BitVec.ofNat 8 lens.length :: lens)
  | .execCommands n => some [0x7f#8, n]
  | .dpR a => some [requestByte false true a false false]
  | .apR a => some [requestByte true true a false false]
  | .dpRM a v => some (requestByte false true a true false :: bytes32 v)
  | .apRM a v => some (requestByte true true a true false :: bytes32 v)
  | .dpW a v => some (requestByte false false a false false :: bytes32 v)
  | .apW a v => some (requestByte true false a false false :: bytes32 v)
  | .mask v => some (requestByte false false 0#2 false true :: bytes32 v)
  | .tbRead p a => some [requestByte p true a false false]
  | .tbWrite p a => some [requestByte p false a false false]
  | .swdHeader r => some [headerByte r]
  | .swdPacket _ _ | .setIr _ | .readDr32 | .jtagTransferScan _ _ | .transferOp _ _
  | .transferRetry _ _ | .matchRead _ _ | .halfDelay _ | .clockCycle | .writeCycle _
  | .readCycle | .readWriteCycle _ | .swdOutEnable _ | .swdOutDisable | .jcycle _ _ => none

/-! ### The opcode table's words -/

/-- The bytes of a table word: its `nbits` bits, low byte first, and zeros up to the longest instruction (a JTAG
Configure of 255 lengths, 257 bytes). -/
def tableBytes (nbits w : Nat) : List Byte :=
  (List.range (nbits / 8)).map (fun k => BitVec.ofNat 8 (w / 256 ^ k)) ++ List.replicate (257 - nbits / 8) 0#8

/-- Where a table word is read: the table's rows belong to several encoding spaces, and one byte can be a row of each
(30_encoding's introduction). A word is a command where its code has a rule, else a wire header where it is one, else a
transfer request (Log 23). -/
def tableContext (nbits w : Nat) : Context :=
  match decode .command (tableBytes nbits w) with
  | .instr _ _ => .command
  | .short _ _ | .noRule _ | .notHeader _ =>
    match decode .wireHeader (tableBytes nbits w) with
    | .instr _ _ => .wireHeader
    | .short _ _ | .noRule _ | .notHeader _ => .request

/-- The instruction the decoder reads from a table word. -/
def decodeTableWord (nbits w : Nat) : Option Instr :=
  match decode (tableContext nbits w) (tableBytes nbits w) with
  | .instr i _ => some i
  | .short _ _ | .noRule _ | .notHeader _ => none

end Sys2Proof
end

