-- ==== Sys2Proof/Config.lean ====
section
/-! DEFINITION. The constants the spec fixes, and the free values it leaves open (93_implementation_defined Part 1).
The named parameters of 00_scope R8 are the field `params` of the state (Log 5), so that every statement holds for
each of their values. -/

namespace Sys2Proof.Config

/-- `MAX_CHAIN = 4` (R7). -/
def maxChain : Nat := 4

/-- `RDBUFF_READ = 0x0E`: the DP read of offset 0xC (R112). -/
def rdbuffRead : Byte := 0x0E#8

/-- The DPACC instruction value (R125). -/
def dpacc : Byte := 0x0A#8

/-- The APACC instruction value (R125). -/
def apacc : Byte := 0x0B#8

/-- FREE VALUE: the n-th TDO sample that no queued input supplies (`Oracle.tdo()`, R45, R160; Log 2). -/
opaque tdo : Nat → Bool

/-- FREE VALUE: the n-th SWDIO sample that no queued input supplies (`Oracle.swdio()`, R45, R158; Log 2). -/
opaque swdio : Nat → Bool

/-- FREE VALUE: the level found where a rule reads a pin the model holds as unknown (R42; Log 8). -/
opaque unknownPin : Nat → Bool

/-- FREE VALUE: the `rdata` of a packet or scan on a path that does not define it (R186, R202; Log 9). -/
opaque undefinedRdata : Nat → Word

/-- FREE VALUE: HalfDelay at rate 0, which no rule passes (R152; Log 10). -/
opaque halfDelayOfZero : Word

end Sys2Proof.Config
end

