-- ==== Sys2Proof/Machine/State.lean ====
section
/-! DEFINITION. The state of the machine: Driver State (10_state R30 to R37), the buffers (R39, R40), the pins (R41),
the working state of the Transfer Engine (R43, R44), the command loop's place in a request, and the inputs and outputs
through which the target and the host meet the block. -/

namespace Sys2Proof.Machine

/-! ### Driver State -/

/-- The electrical configuration (R31). -/
inductive Port where
  | disabled
  | jtag
  | swd
  deriving DecidableEq, Repr

/-- One entry of the JTAG chain (R33). -/
structure Device where
  irLength : Byte
  irBitsBefore : Half
  irBitsAfter : Half
  deriving DecidableEq, Repr

/-- The Driver State record (R30). -/
structure Driver where
  port : Port
  /-- Hz (R32) -/
  clockRate : Word
  /-- nanoseconds (R32) -/
  halfDelay : Word
  /-- the entries; `count` is the length (R33) -/
  chain : List Device
  /-- the selected device (R33) -/
  index : Byte
  /-- `turnaround_cycles - 1`, the 2-bit field (R36, R7) -/
  trnField : BitVec 2
  /-- `generate_data_phase` (R36) -/
  dataPhase : Bool
  idleCycles : Byte
  waitRetry : Half
  matchRetry : Half
  matchMask : Word
  deriving DecidableEq, Repr

/-! ### Buffers -/

/-- The request buffer with its cursor and the response buffer (R39, R40, 20_memory R70). -/
structure Memory where
  req : List Byte
  rd : Nat
  resp : List Byte
  deriving DecidableEq, Repr

/-! ### Pins and the trace -/

/-- A pin level; `unknown` is R42's unspecified level. -/
inductive Level where
  | low
  | high
  | unknown
  deriving DecidableEq, Repr

/-- The driven signals (R41). -/
structure Pins where
  clk : Level
  tms : Level
  tdi : Level
  swdioOut : Level
  /-- high: the probe drives SWDIO -/
  swdioOe : Level
  deriving DecidableEq, Repr

/-- A cycle record (R151). -/
inductive Cycle where
  /-- `JRec`: TMS, TDI, the sampled TDO, and the half-cycle delay in force -/
  | jtag (tms tdi tdo : Bool) (h : Word)
  /-- `SRec`: whether the probe drives SWDIO, the level it drives, the level sampled, and the half-cycle delay -/
  | swd (oe : Bool) (out : Option Bool) (inp : Option Bool) (h : Word)
  deriving DecidableEq, Repr

/-- The 16 TAP states of R171. -/
inductive Tap where
  | testLogicReset
  | runTestIdle
  | selectDrScan
  | captureDr
  | shiftDr
  | exit1Dr
  | pauseDr
  | exit2Dr
  | updateDr
  | selectIrScan
  | captureIr
  | shiftIr
  | exit1Ir
  | pauseIr
  | exit2Ir
  | updateIr
  deriving DecidableEq, Repr

/-! ### Working state and the command loop -/

/-- What the IR cache can hold (R43). -/
inductive IrSel where
  | dpacc
  | apacc
  deriving DecidableEq, Repr

/-- The working state of one Transfer or Transfer Block command (R43, R44 and the locals of R240 to R260). -/
structure Work where
  irCache : Option IrSel
  postRead : Bool
  checkWrite : Bool
  completed : Byte
  /-- `res` of R243, R244: the last result code -/
  lastAck : Byte
  /-- requests not yet parsed (`count - n`) -/
  left : Nat
  /-- the remaining requests are parsed and discarded (R240, R242) -/
  draining : Bool
  slotCompleted : Nat
  slotAck : Nat
  /-- Transfer Block's header, until its request byte is read (R260) -/
  blockIndex : Byte
  blockCount : Half
  deriving DecidableEq, Repr

/-- Where the command loop stands (R280, R282, R332). -/
inductive Phase where
  /-- waiting in `recv` for a request -/
  | idle
  /-- at a command code -/
  | command
  /-- at a request of a Transfer -/
  | request
  /-- at the request byte of a Transfer Block -/
  | blockRequest
  /-- the response is complete and is handed to `send` next -/
  | respond
  deriving DecidableEq, Repr

/-- What a FramingError records: the cursor and the width asked (R321). -/
structure FramingError where
  rd : Nat
  width : Nat
  deriving DecidableEq, Repr

/-! ### Parameters, inputs, outputs -/

/-- The reset values of `swd_config` and `transfer_config`, which are named parameters (00_scope R8, D29). -/
structure ConfigDefaults where
  /-- `turnaround_cycles - 1` -/
  trnField : BitVec 2
  dataPhase : Bool
  idleCycles : Byte
  waitRetry : Half
  matchRetry : Half
  matchMask : Word
  deriving DecidableEq, Repr

/-- The named parameters (00_scope R8; R284 for the codes known to be unimplemented). No step writes them. -/
structure Params where
  requestCapacity : Nat
  responseCapacity : Nat
  defaultClockHz : Word
  configDefaults : ConfigDefaults
  resetOnFramingError : Bool
  unimplemented : List Byte
  deriving DecidableEq, Repr

/-- An event at `recv` (R280, R329). -/
inductive HostEvent where
  /-- one complete request -/
  | request (bytes : List Byte)
  /-- `recv` returned `Shutdown` or `Error`: a transport disconnect -/
  | disconnect
  deriving DecidableEq, Repr

/-- What the world outside will answer: the target's samples (R45), the pin-direction draws (R326), the host's events
and the outcome of `send` (R329). -/
structure Input where
  /-- the next TDO samples; when the list is empty a sample is a free value -/
  tdo : List Bool
  tdoDrawn : Nat
  /-- the next SWDIO samples; when the list is empty a sample is a free value -/
  swdio : List Bool
  swdioDrawn : Nat
  /-- `some k`: after k more good direction changes one fails; `none`: none fails -/
  dirFail : Option Nat
  /-- events waiting at `recv`, oldest first -/
  recv : List HostEvent
  /-- whether each of the next sends fails, in order; the sends beyond the list succeed -/
  sendFail : List Bool
  deriving DecidableEq, Repr

/-- The values an engine operation returns when it is run as an instruction of its own. -/
structure Returned where
  bit : Bool
  res : Byte
  data : Word
  deriving DecidableEq, Repr

/-- The state. -/
structure State where
  params : Params
  driver : Driver
  mem : Memory
  pins : Pins
  /-- the pin trace, in emission order (R151) -/
  trace : List Cycle
  work : Work
  phase : Phase
  /-- `some k`: inside Execute Commands, with k inner commands not begun (R282) -/
  batch : Option Nat
  /-- the FramingError of the last request, if it ended in one (R321) -/
  framing : Option FramingError
  input : Input
  /-- the responses handed to the transport, oldest first (R280) -/
  sent : List (List Byte)
  /-- the ideal-TAP observer of each chain place (R47) -/
  taps : List Tap
  ret : Returned
  /-- how many free values have been used -/
  free : Nat
  deriving DecidableEq, Repr

/-! ### Why a step can stop -/

/-- The faults. -/
inductive Fault where
  /-- `Fatal` of R326: a pin-direction change failed. Raised by SWD_OUT_ENABLE, SWD_OUT_DISABLE, the packet's direction
  changes, CONNECT and DISCONNECT. Safe: the spec takes no step from it. -/
  | fatal
  /-- A transfer was issued with `port = Disabled`, which R230 says no caller does. Raised by TRANSFER (the operation),
  TRANSFER_RETRY, MATCH_READ and the request kinds in states no run reaches. Safe. -/
  | transferWhileDisabled
  /-- A scan was started with `index >= count`, which R172 says no caller does. Raised by SET_IR, READ_DR32,
  JTAG_TRANSFER_SCAN and what calls them, in states no run reaches. Safe. -/
  | scanIndexOutOfRange
  /-- `recv` was given a request longer than REQUEST_CAPACITY, for which the spec states nothing. Raised by the step
  that waits in `recv`. Safe. -/
  | requestOverCapacity
  deriving DecidableEq, Repr

/-- The refusals. -/
inductive Refusal where
  /-- An instruction with no meaning in this model. Raised by exec's refused arms only; safe. -/
  | notModelled (mnemonic : String)
  /-- A command code the spec gives no rule (R285). Raised by the step that reads the code; safe. -/
  | commandWithoutRule (code : Byte)
  deriving DecidableEq, Repr

/-! ### Reset -/

/-- The reset values of `swd_config` and `transfer_config` that D29 decides: turnaround 1, no data phase, idle 0, wait
retry limit 100, match retry limit 0, match mask 0 (R50). -/
def ConfigDefaults.decided : ConfigDefaults := ⟨0#2, false, 0#8, 100#16, 0#16, 0#32⟩

/-- Driver State after reset: the parameters' values, with DEFAULT_CLOCK_HZ's half-cycle delay (R50). -/
def Driver.reset (p : Params) (half : Word) : Driver where
  port := .disabled
  clockRate := p.defaultClockHz
  halfDelay := half
  chain := []
  index := 0#8
  trnField := p.configDefaults.trnField
  dataPhase := p.configDefaults.dataPhase
  idleCycles := p.configDefaults.idleCycles
  waitRetry := p.configDefaults.waitRetry
  matchRetry := p.configDefaults.matchRetry
  matchMask := p.configDefaults.matchMask

/-- The parameters' values: D29's and D30's decisions, the capacities of Log 5, and no code known to be
unimplemented. -/
def Params.decided : Params := ⟨1024, 1024, 1000000#32, ConfigDefaults.decided, false, []⟩

/-- Both buffers empty, `rd = 0` (R50). -/
def Memory.empty : Memory := ⟨[], 0, []⟩

/-- Every pin unspecified (R42). -/
def Pins.unspecified : Pins := ⟨.unknown, .unknown, .unknown, .unknown, .unknown⟩

/-- The working state at a command's start and after its end (R43, R44, R243). -/
def Work.initial : Work where
  irCache := none
  postRead := false
  checkWrite := false
  completed := 0#8
  lastAck := 0#8
  left := 0
  draining := false
  slotCompleted := 0
  slotAck := 0
  blockIndex := 0#8
  blockCount := 0#16

/-- The machine right after process init (R50, R350, R351): waiting for the first request. -/
def State.reset : State where
  params := Params.decided
  driver := Driver.reset Params.decided 500#32
  mem := Memory.empty
  pins := Pins.unspecified
  trace := []
  work := Work.initial
  phase := .idle
  batch := none
  framing := none
  input := ⟨[], 0, [], 0, none, [], []⟩
  sent := []
  taps := [.runTestIdle, .runTestIdle, .runTestIdle, .runTestIdle]
  ret := ⟨false, 0#8, 0#32⟩
  free := 0

end Sys2Proof.Machine
end

