-- ==== Sys2Proof/Machine/Flags.lean ====
section
/-! DEFINITION. Parity, ACK values and result codes (30_encoding R120 to R123, 42_swd_packet R205). The block has no
flags register; these are the codes that take its place. -/

namespace Sys2Proof.Machine

/-- OK = 1 (R120, R123). -/
def ackOk : Byte := 1#8
/-- WAIT = 2 (R120, R123). -/
def ackWait : Byte := 2#8
/-- FAULT = 4 on SWD (R120). -/
def ackFault : Byte := 4#8
/-- ERROR: an SWD read's parity did not match (R121). -/
def resultError : Byte := 0x08#8
/-- VALUE_MISMATCH, OR-ed into the last poll's ACK (R121). -/
def resultMismatch : Byte := 0x10#8

/-- The weight of one ACK bit. -/
def ackBit (b : Bool) (weight : Nat) : Byte := if b then BitVec.ofNat 8 weight else 0#8

/-- The SWD wire ACK: `ACK[0] + 2*ACK[1] + 4*ACK[2]` (R120). -/
def swdAck (a0 a1 a2 : Bool) : Byte := ackBit a0 1 + ackBit a1 2 + ackBit a2 4

/-- The JTAG wire ACK: `2*t0 + t1 + 4*t2` (R122). -/
def jtagAck (t0 t1 t2 : Bool) : Byte := ackBit t0 2 + ackBit t1 1 + ackBit t2 4

/-- The parity bit of a data word (R205). -/
def dataParity (v : Word) : Bool := parityOf v

/-- The result of an SWD read whose wire ACK was OK: ERROR exactly when the parity bit is wrong (R202, R205). -/
def readResult (v : Word) (p : Bool) : Byte := if p = dataParity v then ackOk else resultError

/-- A status byte: 0x00 = OK (R102). -/
def statusOk : Byte := 0x00#8
/-- A status byte: 0xff = generic error (R102). -/
def statusError : Byte := 0xff#8

end Sys2Proof.Machine
end

