-- ==== Sys2Proof/Machine/Operands.lean ====
section
/-! DEFINITION. Operand forms: bits of values in wire order, request bytes, IR values, configuration fields. -/

namespace Sys2Proof.Machine

/-! ### Values on the pins, least significant bit first (20_memory R77) -/

/-- The bits of a value, bit 0 first. -/
def bitsOf {n : Nat} (v : BitVec n) : List Bool := (List.range n).map v.getLsbD

/-- The number whose bits are given, bit 0 first. -/
def natOfBits : List Bool → Nat
  | [] => 0
  | b :: bs => b.toNat + 2 * natOfBits bs

/-- The word whose bits are given, bit 0 first. -/
def wordOfBits (bs : List Bool) : Word := BitVec.ofNat 32 (natOfBits bs)

/-! ### Requests -/

/-- The request byte a request kind puts on the wire; only bits 3:0 reach it (R110, R111). -/
def portRequest (apndp rnw : Bool) (a : RegAddr) : Byte := requestByte apndp rnw a false false

/-- `r = req[3:0]` (R111). -/
def portNibble (req : Byte) : BitVec 4 := req.extractLsb' 0 4

/-- The SWD header of a request byte (R114). -/
def swdHeaderOf (req : Byte) : Byte := headerByte (portNibble req)

/-- "APnDP bit picks APACC vs DPACC" (R230). -/
def neededIr (req : Byte) : IrSel := if reqAPnDP req then .apacc else .dpacc

/-- The IR value of a selection (R125). -/
def irValue : IrSel → Byte
  | .dpacc => Config.dpacc
  | .apacc => Config.apacc

/-! ### Configuration fields -/

/-- `turnaround_cycles`, 1 to 4 (R36). -/
def turnaround (d : Driver) : Nat := d.trnField.toNat + 1

/-- Bits [1:0] of SWD Configure's byte (R105). -/
def configTrn (c : Byte) : BitVec 2 := c.extractLsb' 0 2

/-- Bit 2 of SWD Configure's byte (R105). -/
def configDataPhase (c : Byte) : Bool := c.getLsbD 2

/-- The sum of IR lengths. -/
def sumLens (lens : List Byte) : Nat := (lens.map BitVec.toNat).sum

/-- The chain entries of the given IR lengths, `before` bits being already placed (R35, R293). -/
def chainFrom (before : Nat) : List Byte → List Device
  | [] => []
  | l :: ls => ⟨l, BitVec.ofNat 16 before, BitVec.ofNat 16 (sumLens ls)⟩ :: chainFrom (before + l.toNat) ls

/-- The chain JTAG Configure builds (R293). -/
def chainOf (lens : List Byte) : List Device := chainFrom 0 lens

/-- `result_port` of R103: 1 for SWD, 2 for JTAG, 0 for failed; with the port selected. -/
def connectPort (p : Byte) : Option Port :=
  if p = 0#8 ∨ p = 2#8 then some .jtag else if p = 1#8 then some .swd else none

end Sys2Proof.Machine
end

