-- ==== Sys2Proof/Machine/Ops.lean ====
section
/-! DEFINITION. The named operations over the buffers, the inputs and the command loop, and FramingError, the one
exception entry of the block (60_exceptions R321). -/

namespace Sys2Proof.Machine

/-- How an operation ends: with a value, in a FramingError (R321), or in a fault. -/
inductive Res (α : Type) where
  | ok (a : α) (s : State)
  | framing (e : FramingError) (s : State)
  | fault (f : Fault)
  deriving DecidableEq, Repr

/-- Go on where the operation ended with a value. -/
def Res.bind {α β : Type} (r : Res α) (k : α → State → Res β) : Res β :=
  match r with
  | .ok a s => k a s
  | .framing e s => .framing e s
  | .fault f => .fault f

/-! ### HalfDelay and reset -/

/-- `HalfDelay(rate) = floor(500 000 000 / rate)` nanoseconds (R152); at rate 0, which no rule passes, a free value. -/
def halfDelayOf (rate : Word) : Word :=
  if rate = 0#32 then Config.halfDelayOfZero else 500000000#32 / rate

/-- Reset of Driver State, buffers and pins at a transport disconnect (R329, R350). What lies outside the block stays:
the trace, the responses sent, the inputs, the observer. -/
def resetDriver (s : State) : State :=
  { s with
    driver := Driver.reset s.params (halfDelayOf s.params.defaultClockHz)
    mem := Memory.empty
    pins := Pins.unspecified
    work := Work.initial
    phase := .idle
    batch := none }

/-- Taking a FramingError (R281, R321): the response is dropped, the request ends, cursor and width are recorded, and
Driver State and pins keep what was written, unless RESET_ON_FRAMING_ERROR. -/
def takeFramingError (e : FramingError) (s : State) : State :=
  let s1 : State :=
    { s with mem := Memory.empty, work := Work.initial, phase := .idle, batch := none, framing := some e }
  if s.params.resetOnFramingError then resetDriver s1 else s1

/-- An operation's end as the end of a step: FramingError is never fatal to the process (R321). -/
def Res.outcome (r : Res Unit) : Host.Outcome State Fault Refusal :=
  match r with
  | .ok _ s => .next s
  | .framing e s => .next (takeFramingError e s)
  | .fault f => .fault f

/-! ### Inputs -/

/-- The schedule of the fatal failure, of which there is at most one: does this attempt fail, and what is left. -/
def drawFailure : Option Nat → Bool × Option Nat
  | none => (false, none)
  | some 0 => (true, none)
  | some (k + 1) => (false, some k)

/-- `Oracle.pin_dir_ok()` (R326): false ends the run in `Fatal`. -/
def pinDirection (s : State) : Res Unit :=
  let d := drawFailure s.input.dirFail
  if d.1 then .fault .fatal else .ok () { s with input := { s.input with dirFail := d.2 } }

/-- `Oracle.tdo()` (R45, R160). -/
def drawTdo (s : State) : Bool × State :=
  match s.input.tdo with
  | b :: bs => (b, { s with input := { s.input with tdo := bs, tdoDrawn := s.input.tdoDrawn + 1 } })
  | [] => (Config.tdo s.input.tdoDrawn, { s with input := { s.input with tdoDrawn := s.input.tdoDrawn + 1 } })

/-- `Oracle.swdio()` (R45, R158). -/
def drawSwdio (s : State) : Bool × State :=
  match s.input.swdio with
  | b :: bs => (b, { s with input := { s.input with swdio := bs, swdioDrawn := s.input.swdioDrawn + 1 } })
  | [] => (Config.swdio s.input.swdioDrawn, { s with input := { s.input with swdioDrawn := s.input.swdioDrawn + 1 } })

/-- The level of a pin as a bit; where the model holds it as unknown, a free value (R42; Log 8). -/
def readLevel (l : Level) (s : State) : Bool × State :=
  match l with
  | .low => (false, s)
  | .high => (true, s)
  | .unknown => (Config.unknownPin s.free, { s with free := s.free + 1 })

/-- An `rdata` that no rule defines: a free value (R186, R202; Log 9). -/
def undefinedData (s : State) : Word × State := (Config.undefinedRdata s.free, { s with free := s.free + 1 })

/-- The level of a driven bit. -/
def levelOf (b : Bool) : Level := if b then .high else .low

/-! ### The request buffer (20_memory R72, R73) -/

/-- `ReqRead_N` as bytes: N bytes from the cursor, or a FramingError. -/
def reqRead (n : Nat) (s : State) : Res (List Byte) :=
  if s.mem.rd + n ≤ s.mem.req.length then
    .ok ((s.mem.req.drop s.mem.rd).take n) { s with mem := { s.mem with rd := s.mem.rd + n } }
  else .framing ⟨s.mem.rd, n⟩ s

/-- The u32 of four bytes, little-endian. -/
def wordOfBytes (bs : List Byte) : Word :=
  match bs with
  | [b0, b1, b2, b3] => le32 b0 b1 b2 b3
  | _ => 0#32

/-- `ReqRead_4()` (R72). -/
def reqRead4 (s : State) : Res Word := (reqRead 4 s).bind fun bs s1 => .ok (wordOfBytes bs) s1

/-- `repeat n: ReqSkip_4()` (R73, R260). -/
def reqSkip4 : Nat → State → Res Unit
  | 0, s => .ok () s
  | n + 1, s => (reqRead 4 s).bind fun _ s1 => reqSkip4 n s1

/-! ### The response buffer (20_memory R74, R75) -/

/-- `RespWrite_N`: append the bytes, or a FramingError when the response would exceed RESPONSE_CAPACITY (R74). -/
def respWrite (bs : List Byte) (s : State) : Res Unit :=
  if s.mem.resp.length + bs.length ≤ s.params.responseCapacity then
    .ok () { s with mem := { s.mem with resp := s.mem.resp ++ bs } }
  else .framing ⟨s.mem.rd, bs.length⟩ s

/-- `RespWrite_1` of two bytes in a row: a command code and its result byte. -/
def respPair (a b : Byte) (s : State) : Res Unit := (respWrite [a] s).bind fun _ s1 => respWrite [b] s1

/-- `RespWrite_4` (R74). -/
def respWrite4 (d : Word) (s : State) : Res Unit := respWrite (bytes32 d) s

/-- `RespReserve_N` (R75): the slot token is the offset of the first placeholder byte. -/
def respReserve (n : Nat) (s : State) : Res Nat :=
  (respWrite (List.replicate n 0#8) s).bind fun _ s1 => .ok s.mem.resp.length s1

/-- The list with the bytes `bs` written over those from offset `slot` on; nothing is ever appended. -/
def overwrite (slot : Nat) (bs l : List Byte) : List Byte :=
  (l.take slot ++ bs ++ l.drop (slot + bs.length)).take l.length

/-- `RespPatch_N` (R75). -/
def respPatch (slot : Nat) (bs : List Byte) (s : State) : State :=
  { s with mem := { s.mem with resp := overwrite slot bs s.mem.resp } }

/-! ### The command loop (R280, R282) -/

/-- The request ends normally: its response is handed to `send` next (R280). -/
def endRequest (s : State) : State := { s with work := Work.initial, phase := .respond }

/-- A command ends normally: the next inner command of a batch, or the end of the request (R280, R282). -/
def endCommand (s : State) : State :=
  match s.batch with
  | some (k + 1) => { s with work := Work.initial, phase := .command, batch := some k }
  | some 0 => endRequest s
  | none => endRequest s

/-- The end of a command whose whole response is a code and a result byte. -/
def answer (code result : Byte) (s : State) : Res Unit :=
  (respPair code result s).bind fun _ s1 => .ok () (endCommand s1)

/-- A response of the single byte 0xff after which the rest of the request is not processed: a nested batch (R282), an
unimplemented code (R284). -/
def answerError (s : State) : Res Unit :=
  (respWrite [statusError] s).bind fun _ s1 => .ok () (endRequest s1)

/-! ### The buffers' canonical form -/

/-- The cursor lies within the request, and both buffers within their capacity (R39, R70, R74). -/
def Memory.wf (p : Params) (m : Memory) : Bool :=
  decide (m.rd ≤ m.req.length) && decide (m.req.length ≤ p.requestCapacity) &&
    decide (m.resp.length ≤ p.responseCapacity)

end Sys2Proof.Machine
end

