-- ==== Sys2Proof/Machine/BitEngine.lean ====
section
/-! DEFINITION. The Bit Engine (40_bit_engine): the cycle primitives every higher engine reaches the pins through, and
their meanings as instructions. -/

namespace Sys2Proof.Machine

/-! ### The TAP next-state table (R171) -/

/-- The state after a rising edge with TMS = t (R171). -/
def Tap.next (t : Bool) : Tap → Tap
  | .testLogicReset => if t then .testLogicReset else .runTestIdle
  | .runTestIdle => if t then .selectDrScan else .runTestIdle
  | .selectDrScan => if t then .selectIrScan else .captureDr
  | .captureDr => if t then .exit1Dr else .shiftDr
  | .shiftDr => if t then .exit1Dr else .shiftDr
  | .exit1Dr => if t then .updateDr else .pauseDr
  | .pauseDr => if t then .exit2Dr else .pauseDr
  | .exit2Dr => if t then .updateDr else .shiftDr
  | .updateDr => if t then .selectDrScan else .runTestIdle
  | .selectIrScan => if t then .testLogicReset else .captureIr
  | .captureIr => if t then .exit1Ir else .shiftIr
  | .shiftIr => if t then .exit1Ir else .shiftIr
  | .exit1Ir => if t then .updateIr else .pauseIr
  | .pauseIr => if t then .exit2Ir else .pauseIr
  | .exit2Ir => if t then .updateIr else .shiftIr
  | .updateIr => if t then .selectDrScan else .runTestIdle

/-- The state after a sequence of TMS values. -/
def Tap.run (t : Tap) (tms : List Bool) : Tap := tms.foldl (fun q b => Tap.next b q) t

/-! ### Primitives -/

/-- Append a cycle record; the cycle ends with the clock raised (R150, R151, R153). -/
def emit (c : Cycle) (s : State) : State :=
  { s with pins := { s.pins with clk := .high }, trace := s.trace ++ [c] }

/-- The level the probe drives in a cycle, given whether it drives (R151: present iff `oe`). -/
def drivenOut (oe : Bool) (s : State) : Option Bool × State :=
  if oe then
    let b := readLevel s.pins.swdioOut s
    (some b.1, b.2)
  else (none, s)

/-- `clock_cycle()` (R156). -/
def clockCycle (s : State) : State :=
  let oe := readLevel s.pins.swdioOe s
  let out := drivenOut oe.1 oe.2
  emit (.swd oe.1 out.1 none s.driver.halfDelay) out.2

/-- `write_cycle(b)` (R157). -/
def writeCycle (b : Bool) (s : State) : State :=
  emit (.swd true (some b) none s.driver.halfDelay) { s with pins := { s.pins with swdioOut := levelOf b } }

/-- `read_cycle()` (R158). -/
def readCycle (s : State) : Bool × State :=
  let r := drawSwdio s
  (r.1, emit (.swd false none (some r.1) s.driver.halfDelay) r.2)

/-- `read_write_cycle(b)` (R159). -/
def readWriteCycle (b : Bool) (s : State) : Bool × State :=
  let r := drawSwdio { s with pins := { s.pins with swdioOut := levelOf b } }
  let oe := readLevel s.pins.swdioOe r.2
  (r.1, emit (.swd oe.1 (if oe.1 then some b else none) (some r.1) s.driver.halfDelay) oe.2)

/-- `SwdOutEnable(v)` (R155); the direction change can be fatal (R326). -/
def swdOutEnable (v : Bool) (s : State) : Res Unit :=
  (pinDirection s).bind fun _ s1 =>
    .ok () { s1 with pins := { s1.pins with swdioOut := levelOf v, swdioOe := .high } }

/-- `SwdOutDisable()` (R155); the direction change can be fatal (R326). -/
def swdOutDisable (s : State) : Res Unit :=
  (pinDirection s).bind fun _ s1 => .ok () { s1 with pins := { s1.pins with swdioOe := .low } }

/-- `JCycle(tms, tdi)` (R160), with the TAP observer's step (R47). -/
def jcycle (tms tdi : Bool) (s : State) : Bool × State :=
  let r := drawTdo { s with pins := { s.pins with tms := levelOf tms, tdi := levelOf tdi } }
  (r.1, emit (.jtag tms tdi r.1 s.driver.halfDelay) { r.2 with taps := r.2.taps.map (Tap.next tms) })

/-! ### Sequences of primitives -/

/-- `repeat n: clock_cycle()`. -/
def clockCycles : Nat → State → State
  | 0, s => s
  | n + 1, s => clockCycles n (clockCycle s)

/-- `write_cycle` of each bit, first bit first (R77). -/
def writeBits : List Bool → State → State
  | [], s => s
  | b :: bs, s => writeBits bs (writeCycle b s)

/-- `n` read cycles; the bits in the order they were sampled. -/
def readBits : Nat → State → List Bool × State
  | 0, s => ([], s)
  | n + 1, s =>
    let r := readCycle s
    let rest := readBits n r.2
    (r.1 :: rest.1, rest.2)

/-- A sequence of JTAG cycles given as (TMS, TDI); the TDO bits in the order they were sampled. -/
def jrun : List (Bool × Bool) → State → List Bool × State
  | [], s => ([], s)
  | d :: ds, s =>
    let r := jcycle d.1 d.2 s
    let rest := jrun ds r.2
    (r.1 :: rest.1, rest.2)

/-! ### Values an operation returns when it is run as an instruction (Log 13) -/

/-- Hand back a sampled bit. -/
def retBit (r : Bool × State) : State := { r.2 with ret := { r.2.ret with bit := r.1 } }

/-- Hand back a result code and a word. -/
def retPair (r : Byte × Word) (s : State) : Res Unit :=
  .ok () { s with ret := { s.ret with res := r.1, data := r.2 } }

/-- Hand back a result code. -/
def retCode (r : Byte) (s : State) : Res Unit := .ok () { s with ret := { s.ret with res := r } }

/-! ### Meanings -/

/-- HALF_DELAY (R152): writes `half_cycle_delay` and returns it. -/
def execHalfDelay (rate : Word) (s : State) : Host.Outcome State Fault Refusal :=
  .next { s with driver := { s.driver with halfDelay := halfDelayOf rate }
                 ret := { s.ret with data := halfDelayOf rate } }

/-- CLOCK_CYCLE (R156). -/
def execClockCycle (s : State) : Host.Outcome State Fault Refusal := .next (clockCycle s)

/-- WRITE_CYCLE (R157). -/
def execWriteCycle (bit : Bool) (s : State) : Host.Outcome State Fault Refusal := .next (writeCycle bit s)

/-- READ_CYCLE (R158). -/
def execReadCycle (s : State) : Host.Outcome State Fault Refusal := .next (retBit (readCycle s))

/-- READ_WRITE_CYCLE (R159). -/
def execReadWriteCycle (bit : Bool) (s : State) : Host.Outcome State Fault Refusal :=
  .next (retBit (readWriteCycle bit s))

/-- SWD_OUT_ENABLE (R155, R326). -/
def execSwdOutEnable (v : Bool) (s : State) : Host.Outcome State Fault Refusal := (swdOutEnable v s).outcome

/-- SWD_OUT_DISABLE (R155, R326). -/
def execSwdOutDisable (s : State) : Host.Outcome State Fault Refusal := (swdOutDisable s).outcome

/-- JCYCLE (R160). -/
def execJcycle (tms tdi : Bool) (s : State) : Host.Outcome State Fault Refusal := .next (retBit (jcycle tms tdi s))

end Sys2Proof.Machine
end

