-- ==== Sys2Proof/Machine/JtagScan.lean ====
section
/-! DEFINITION. The JTAG Scan Engine (41_jtag_scan): the Set-IR scan, the plain 32-bit DR read and the transfer scan, each
an explicit sequence of (TMS, TDI) cycles. -/

namespace Sys2Proof.Machine

/-- The cycles that shift the given TDI bits, TMS = 1 on the last one only. -/
def shiftOut : List Bool → List (Bool × Bool)
  | [] => []
  | [b] => [(true, b)]
  | b :: b' :: bs => (false, b) :: shiftOut (b' :: bs)

/-- Idle to Shift-IR (R175). -/
def toShiftIr : List (Bool × Bool) := [(true, true), (true, true), (false, true), (false, true)]

/-- Idle to Shift-DR (R180, R185). -/
def toShiftDr : List (Bool × Bool) := [(true, true), (false, true), (false, true)]

/-- Exit1 to Update to Idle (R175, R180, R185). -/
def toIdle : List (Bool × Bool) := [(true, true), (false, true)]

/-- `n` cycles with TMS = 0 and TDI = 1: bypass bits before the target, or idle cycles (R173, R180, R185). -/
def stay (n : Nat) : List (Bool × Bool) := List.replicate n (false, true)

/-- The selected device (R172): every scan requires `index < count`. -/
def selected (d : Driver) : Option Device := d.chain[d.index.toNat]?

/-- The bits of a Set-IR shift: B ones, the L low bits of `ir`, A ones (R175). -/
def setIrBits (d : Device) (ir : Byte) : List Bool :=
  List.replicate d.irBitsBefore.toNat true ++ (List.range d.irLength.toNat).map ir.getLsbD ++
    List.replicate d.irBitsAfter.toNat true

/-- The cycles of a Set-IR scan (R175). -/
def setIrCycles (d : Device) (ir : Byte) : List (Bool × Bool) := toShiftIr ++ shiftOut (setIrBits d ir) ++ toIdle

/-- `set_instruction_register(ir)` (R174, R175); the sampled bits are discarded. -/
def setInstructionRegister (ir : Byte) (s : State) : Res Unit :=
  match selected s.driver with
  | some d => .ok () (jrun (setIrCycles d ir) s).2
  | none => .fault .scanIndexOutOfRange

/-- The cycles of the plain 32-bit read of device `i` (R180). -/
def readDrCycles (i : Nat) : List (Bool × Bool) :=
  toShiftDr ++ stay i ++ shiftOut (List.replicate 32 true) ++ toIdle

/-- `read_data_register_32()` (R180). -/
def readDataRegister32 (s : State) : Res Word :=
  match selected s.driver with
  | some _ =>
    let r := jrun (readDrCycles s.driver.index.toNat) s
    .ok (wordOfBits ((r.1.drop (3 + s.driver.index.toNat)).take 32)) r.2
  | none => .fault .scanIndexOutOfRange

/-- The transfer scan up to the third ACK bit (R185). -/
def scanHead (i : Nat) (req : Byte) : List (Bool × Bool) :=
  toShiftDr ++ stay i ++ [(false, req.getLsbD 1), (false, req.getLsbD 2), (false, req.getLsbD 3)]

/-- `din` of R185: ones for a read, the write data otherwise. -/
def scanData (req : Byte) (wdata : Word) : List Bool :=
  if reqRnW req then List.replicate 32 true else bitsOf wdata

/-- The rest of an OK scan: 32 data bits and `m` after-bypass bits, then Update, Idle and the idle cycles (R185). -/
def scanOkTail (m idle : Nat) (req : Byte) (wdata : Word) : List (Bool × Bool) :=
  shiftOut (scanData req wdata ++ List.replicate m true) ++ toIdle ++ stay idle

/-- The rest of a scan whose ACK is not OK: the shift is aborted (R185). -/
def scanAbortTail (idle : Nat) : List (Bool × Bool) := [(true, true)] ++ toIdle ++ stay idle

/-- The ACK of the sampled bits of a scan's head (R122, R185). -/
def scanAck (i : Nat) (sampled : List Bool) : Byte :=
  match sampled.drop (3 + i) with
  | [t0, t1, t2] => jtagAck t0 t1 t2
  | _ => 0#8

/-- `jtag_transfer_scan(req, wdata)` (R185); without an OK ACK `rdata` is a free value (Log 9). -/
def jtagTransferScan (req : Byte) (wdata : Word) (s : State) : Res (Byte × Word) :=
  match selected s.driver with
  | some _ =>
    let i := s.driver.index.toNat
    let h := jrun (scanHead i req) s
    let ack := scanAck i h.1
    if ack = ackOk then
      let r := jrun (scanOkTail (s.driver.chain.length - 1 - i) s.driver.idleCycles.toNat req wdata) h.2
      .ok (ack, wordOfBits (r.1.take 32)) r.2
    else
      let u := undefinedData (jrun (scanAbortTail s.driver.idleCycles.toNat) h.2).2
      .ok (ack, u.1) u.2
  | none => .fault .scanIndexOutOfRange

/-! ### Meanings -/

/-- SET_IR (R175). -/
def execSetIr (ir : Byte) (s : State) : Host.Outcome State Fault Refusal := (setInstructionRegister ir s).outcome

/-- READ_DR32 (R180): returns the word. -/
def execReadDr32 (s : State) : Host.Outcome State Fault Refusal :=
  ((readDataRegister32 s).bind fun w s1 => .ok () { s1 with ret := { s1.ret with data := w } }).outcome

/-- JTAG_TRANSFER_SCAN (R185): returns the ACK and the word. -/
def execJtagTransferScan (req : Byte) (wdata : Word) (s : State) : Host.Outcome State Fault Refusal :=
  ((jtagTransferScan req wdata s).bind retPair).outcome

end Sys2Proof.Machine
end

