-- ==== Sys2Proof/Machine/SwdPacket.lean ====
section
/-! DEFINITION. The SWD Packet Engine (42_swd_packet): the packet and its five outcome paths. -/

namespace Sys2Proof.Machine

/-- The header cycles, start bit first (R114, R202). -/
def sendHeader (hdr : Byte) (s : State) : State := writeBits (bitsOf hdr) s

/-- `SWDIO_OUT <- 1`, no cycle (R202). -/
def parkHigh (s : State) : State := { s with pins := { s.pins with swdioOut := .high } }

/-- The three ACK bits (R120, R202). -/
def readAck (s : State) : Byte × State :=
  let r0 := readCycle s
  let r1 := readCycle r0.2
  let r2 := readCycle r1.2
  (swdAck r0.1 r1.1 r2.1, r2.2)

/-- The end of an OK packet: the idle clocks at low SWDIO, then park (R202). -/
def idleAndPark (s : State) : State :=
  parkHigh (writeBits (List.replicate s.driver.idleCycles.toNat false) s)

/-- The OK path of a read: 32 data bits, parity, turnaround, idle, park (R202, R206). -/
def packetReadOk (s : State) : Res (Byte × Word) :=
  let d := readBits 32 s
  let p := readCycle d.2
  let w := wordOfBits d.1
  (swdOutEnable false (clockCycles (turnaround s.driver) p.2)).bind fun _ s1 =>
    .ok (readResult w p.1, w) (idleAndPark s1)

/-- The OK path of a write: turnaround, 32 data bits, parity, idle, park (R202, D13); `rdata` is a free value. -/
def packetWriteOk (wdata : Word) (s : State) : Res (Byte × Word) :=
  (swdOutEnable false (clockCycles (turnaround s.driver) s)).bind fun _ s1 =>
    let u := undefinedData (idleAndPark (writeCycle (dataParity wdata) (writeBits (bitsOf wdata) s1)))
    .ok (ackOk, u.1) u.2

/-- The WAIT and FAULT path: the dummy data phase before the turnaround on a read, after it on a write (R202, D14). -/
def packetWaitFault (req a : Byte) (s : State) : Res (Byte × Word) :=
  let s0 := if s.driver.dataPhase && reqRnW req then clockCycles 33 s else s
  (swdOutEnable true (clockCycles (turnaround s.driver) s0)).bind fun _ s1 =>
    let s2 := if s1.driver.dataPhase && !reqRnW req then writeBits (List.replicate 33 false) s1 else s1
    let u := undefinedData (parkHigh s2)
    .ok (a, u.1) u.2

/-- The protocol-error path: `trn + 33` released clocks, then the line is taken (R202, D15). -/
def packetProtocolError (a : Byte) (s : State) : Res (Byte × Word) :=
  (swdOutEnable true (clockCycles (turnaround s.driver + 33) s)).bind fun _ s1 =>
    let u := undefinedData s1
    .ok (a, u.1) u.2

/-- `swd_packet(req, wdata)` (R202). -/
def swdPacket (req : Byte) (wdata : Word) (s : State) : Res (Byte × Word) :=
  (swdOutDisable (sendHeader (swdHeaderOf req) s)).bind fun _ s1 =>
    let a := readAck (clockCycles (turnaround s1.driver) s1)
    if a.1 = ackOk then
      if reqRnW req then packetReadOk a.2 else packetWriteOk wdata a.2
    else if a.1 = ackWait ∨ a.1 = ackFault then packetWaitFault req a.1 a.2
    else packetProtocolError a.1 a.2

/-! ### Meanings -/

/-- SWD_HEADER (R114): the 8 header cycles. -/
def execSwdHeader (r : BitVec 4) (s : State) : Host.Outcome State Fault Refusal := .next (sendHeader (headerByte r) s)

/-- SWD_PACKET (R202): returns the result code and the word. -/
def execSwdPacket (req : Byte) (wdata : Word) (s : State) : Host.Outcome State Fault Refusal :=
  ((swdPacket req wdata s).bind retPair).outcome

end Sys2Proof.Machine
end

