-- ==== Sys2Proof/Machine/Transfer.lean ====
section
/-! DEFINITION. The Transfer Engine (43_transfer_engine): the single transfer, its retry, the match read, and one request
of a Transfer command. A Transfer's requests are separate steps; the loop's variables are the field `work` (Log 1). -/

namespace Sys2Proof.Machine

/-! ### Single transfer and retry -/

/-- Load the IR when the cache does not hold it (R230, R232). -/
def selectIr (need : IrSel) (s : State) : Res Unit :=
  if s.work.irCache = some need then .ok () s
  else
    (setInstructionRegister (irValue need) s).bind fun _ s1 =>
      .ok () { s1 with work := { s1.work with irCache := some need } }

/-- `transfer(req, w)` (R230). -/
def transfer (req : Byte) (w : Word) (s : State) : Res (Byte × Word) :=
  match s.driver.port with
  | .swd => swdPacket req w s
  | .jtag => (selectIr (neededIr req) s).bind fun _ s1 => jtagTransferScan req w s1
  | .disabled => .fault .transferWhileDisabled

/-- The retry loop with `n` retries left (R233). -/
def retryLoop (req : Byte) (w : Word) : Nat → State → Res (Byte × Word)
  | 0, s => transfer req w s
  | n + 1, s =>
    (transfer req w s).bind fun r s1 => if r.1 = ackWait then retryLoop req w n s1 else .ok r s1

/-- `transfer_retry(req, w)` (R233). -/
def transferRetry (req : Byte) (w : Word) (s : State) : Res (Byte × Word) :=
  retryLoop req w s.driver.waitRetry.toNat s

/-! ### Match read (R247) -/

/-- The polling loop with `n` polls left after this one (R247). -/
def pollLoop (req : Byte) (mv : Word) : Nat → State → Res Byte
  | 0, s =>
    (transferRetry req 0#32 s).bind fun r s1 =>
      if r.1 ≠ ackOk then .ok r.1 s1
      else if r.2 &&& s1.driver.matchMask = mv then .ok r.1 s1
      else .ok (ackOk ||| resultMismatch) s1
  | n + 1, s =>
    (transferRetry req 0#32 s).bind fun r s1 =>
      if r.1 ≠ ackOk then .ok r.1 s1
      else if r.2 &&& s1.driver.matchMask = mv then .ok r.1 s1
      else pollLoop req mv n s1

/-- A match read posts first on JTAG and for an AP (R247). -/
def matchPosts (req : Byte) (d : Driver) : Bool := decide (d.port = .jtag) || reqAPnDP req

/-- `MatchRead(req, mv)` (R247): the result code. -/
def matchRead (req : Byte) (mv : Word) (s : State) : Res Byte :=
  if matchPosts req s.driver then
    (transferRetry req 0#32 s).bind fun r s1 =>
      if r.1 ≠ ackOk then .ok r.1 s1 else pollLoop req mv s1.driver.matchRetry.toNat s1
  else pollLoop req mv s.driver.matchRetry.toNat s

/-! ### Working-state updates -/

/-- `post_read <- b`. -/
def setPostRead (b : Bool) (s : State) : State := { s with work := { s.work with postRead := b } }

/-- `check_write <- b`. -/
def setCheckWrite (b : Bool) (s : State) : State := { s with work := { s.work with checkWrite := b } }

/-- `if res != 1: stop`, else go on. The result code of a stopped request is its value. -/
def onOk (r : Byte) (s : State) (k : State → Res Byte) : Res Byte := if r = ackOk then k s else .ok r s

/-- Write the word of an OK result to the response. -/
def writeCollected (r : Byte × Word) (s : State) : Res Byte :=
  onOk r.1 s fun s1 => (respWrite4 r.2 s1).bind fun _ s2 => .ok r.1 s2

/-- A read collects the outstanding read through RDBUFF; `post_read` is cleared whatever the result (R243, R244). -/
def collectRdbuff (s : State) : Res Byte :=
  (transferRetry Config.rdbuffRead 0#32 s).bind fun r s1 => writeCollected r (setPostRead false s1)

/-- Collect the word that the transfer `req` returns, `post_read` as it was: a read of the same space, which posts itself,
or RDBUFF before a write (R243, R244). -/
def collectSame (req : Byte) (s : State) : Res Byte :=
  (transferRetry req 0#32 s).bind fun r s1 => writeCollected r s1

/-- Post a read (R243, R244). -/
def postRead (req : Byte) (s : State) : Res Byte :=
  (transferRetry req 0#32 s).bind fun r s1 => onOk r.1 s1 fun s2 => .ok r.1 (setPostRead true s2)

/-! ### One request of the sequence -/

/-- A read collects the outstanding read in the scan or packet that posts it: on SWD an AP read, on JTAG a read of the
space the IR holds; never a match read (R243, R244). -/
def collectsItself (req : Byte) (mv : Option Word) (s : State) : Bool :=
  match s.driver.port with
  | .swd => reqAPnDP req && mv.isNone
  | .jtag => decide (s.work.irCache = some (neededIr req)) && mv.isNone
  | .disabled => false

/-- The first part of a read: collect the outstanding read, if there is one (R243, R244). -/
def collectForRead (req : Byte) (mv : Option Word) (s : State) : Res Byte :=
  if s.work.postRead then
    if collectsItself req mv s then collectSame req s else collectRdbuff s
  else .ok ackOk s

/-- A read that is no match read is posted on JTAG and for an AP, and immediate for a DP on SWD (R243, R244). -/
def plainRead (req : Byte) (s : State) : Res Byte :=
  if decide (s.driver.port = .jtag) || reqAPnDP req then
    if s.work.postRead then .ok ackOk s else postRead req s
  else collectSame req s

/-- A read request; `mv` is the match value of a match read (R243, R244, R247). -/
def readRequest (req : Byte) (mv : Option Word) (s : State) : Res Byte :=
  (collectForRead req mv s).bind fun r s1 =>
    onOk r s1 fun s2 =>
      ((match mv with
        | some v => matchRead req v s2
        | none => plainRead req s2)).bind fun r2 s3 =>
          onOk r2 s3 fun s4 => .ok ackOk (setCheckWrite false s4)

/-- The first part of a write: collect the outstanding read through RDBUFF, if there is one; `post_read` is cleared after an
OK result only, and stays set where the sequence stops here (R243, R244). -/
def collectForWrite (s : State) : Res Byte :=
  if s.work.postRead then
    (collectSame Config.rdbuffRead s).bind fun r s1 => onOk r s1 fun s2 => .ok r (setPostRead false s2)
  else .ok ackOk s

/-- A write request that reaches the target; SWD remembers to check it (R243, R244, R250, R251). -/
def writeRequest (req : Byte) (w : Word) (s : State) : Res Byte :=
  (collectForWrite s).bind fun r s1 =>
    onOk r s1 fun s2 =>
      (transferRetry req w s2).bind fun r2 s3 =>
        onOk r2.1 s3 fun s4 => .ok ackOk (if s4.driver.port = .swd then setCheckWrite true s4 else s4)

/-- A MatchMask write: no target access (R252). -/
def maskRequest (w : Word) (s : State) : Res Byte :=
  (collectForWrite s).bind fun r s1 =>
    onOk r s1 fun s2 => .ok ackOk { s2 with driver := { s2.driver with matchMask := w } }

/-! ### The end of a request and of the sequence -/

/-- The trailing RDBUFF read; its word is written where a read is outstanding (R243, R244). -/
def trailerRead (write : Bool) (s : State) : Res Byte :=
  (transferRetry Config.rdbuffRead 0#32 s).bind fun r s1 => if write then writeCollected r s1 else .ok r.1 s1

/-- The trailer of the port (R243, R244): the final result code. -/
def trailer (s : State) : Res Byte :=
  if s.work.lastAck = ackOk then
    match s.driver.port with
    | .swd =>
      if s.work.postRead then trailerRead true s
      else if s.work.checkWrite then trailerRead false s
      else .ok ackOk s
    | .jtag => trailerRead s.work.postRead s
    | .disabled => .ok ackOk s
  else .ok s.work.lastAck s

/-- The epilogue (R242): trailer, then the two slots, and the command ends. -/
def epilogue (s : State) : Res Unit :=
  (trailer s).bind fun r s1 =>
    .ok () (endCommand (respPatch s1.work.slotAck [r] (respPatch s1.work.slotCompleted [s1.work.completed] s1)))

/-- One request fewer is left; after the last one the epilogue runs (R242). -/
def nextRequest (s : State) : Res Unit :=
  let s1 : State := { s with work := { s.work with left := s.work.left - 1 } }
  if s1.work.left = 0 then epilogue s1 else .ok () { s1 with phase := .request }

/-- Record a request's result: a completed request is counted, a failed one starts the draining of the rest (R242). -/
def recordResult (r : Byte) (s : State) : State :=
  if r = ackOk then { s with work := { s.work with lastAck := r, completed := s.work.completed + 1#8 } }
  else { s with work := { s.work with lastAck := r, draining := true } }

/-- One request of a Transfer: discarded while draining (R240, R242), else run by `body`. -/
def runRequest (body : State → Res Byte) (s : State) : Host.Outcome State Fault Refusal :=
  if s.work.draining then (nextRequest s).outcome
  else ((body s).bind fun r s1 => nextRequest (recordResult r s1)).outcome

/-! ### The Transfer command -/

/-- The configuration precondition of Transfer and Transfer Block (R240, R260, R323). -/
def preconditionFails (index : Byte) (d : Driver) : Bool :=
  match d.port with
  | .disabled => true
  | .jtag => decide (d.chain.length ≤ index.toNat)
  | .swd => false

/-- On JTAG the index byte selects the device; on SWD it is ignored (R240, R260, D33). -/
def selectIndex (index : Byte) (s : State) : State :=
  if s.driver.port = .jtag then { s with driver := { s.driver with index := index } } else s

/-- The state in which a Transfer's requests are run: working state initialised, slots reserved, index selected; or, when
the precondition fails, the requests drained (R240). -/
def beginTransfer (index count : Byte) (slotCompleted slotAck : Nat) (s : State) : State :=
  let fails := preconditionFails index s.driver
  let s1 : State :=
    { s with work := { Work.initial with left := count.toNat, draining := fails,
                                         slotCompleted := slotCompleted, slotAck := slotAck } }
  if fails then s1 else selectIndex index s1

/-- TRANSFER, the command's header (R240); with no requests the epilogue runs at once (R242). -/
def execTransfer (index count : Byte) (s : State) : Host.Outcome State Fault Refusal :=
  ((respWrite [0x05#8] s).bind fun _ s1 =>
    (respReserve 1 s1).bind fun slotCompleted s2 =>
      (respReserve 1 s2).bind fun slotAck s3 =>
        let s4 := beginTransfer index count slotCompleted slotAck s3
        if s4.work.left = 0 then epilogue s4 else .ok () { s4 with phase := .request }).outcome

/-! ### Meanings of the request kinds -/

/-- DP_R (R248). -/
def execDpR (a : RegAddr) (s : State) : Host.Outcome State Fault Refusal :=
  runRequest (readRequest (portRequest false true a) none) s

/-- AP_R (R249). -/
def execApR (a : RegAddr) (s : State) : Host.Outcome State Fault Refusal :=
  runRequest (readRequest (portRequest true true a) none) s

/-- DP_RM (R247). -/
def execDpRM (a : RegAddr) (v : Word) (s : State) : Host.Outcome State Fault Refusal :=
  runRequest (readRequest (portRequest false true a) (some v)) s

/-- AP_RM (R247). -/
def execApRM (a : RegAddr) (v : Word) (s : State) : Host.Outcome State Fault Refusal :=
  runRequest (readRequest (portRequest true true a) (some v)) s

/-- DP_W (R250). -/
def execDpW (a : RegAddr) (v : Word) (s : State) : Host.Outcome State Fault Refusal :=
  runRequest (writeRequest (portRequest false false a) v) s

/-- AP_W (R251). -/
def execApW (a : RegAddr) (v : Word) (s : State) : Host.Outcome State Fault Refusal :=
  runRequest (writeRequest (portRequest true false a) v) s

/-- MASK (R252). -/
def execMask (v : Word) (s : State) : Host.Outcome State Fault Refusal := runRequest (maskRequest v) s

/-! ### Meanings of the internal operations -/

/-- TRANSFER, the operation (R230): returns the result code and the word. -/
def execTransferOp (req : Byte) (w : Word) (s : State) : Host.Outcome State Fault Refusal :=
  ((transfer req w s).bind retPair).outcome

/-- TRANSFER_RETRY (R233): returns the result code and the word. -/
def execTransferRetry (req : Byte) (w : Word) (s : State) : Host.Outcome State Fault Refusal :=
  ((transferRetry req w s).bind retPair).outcome

/-- MATCH_READ (R247): returns the result code. -/
def execMatchRead (req : Byte) (mv : Word) (s : State) : Host.Outcome State Fault Refusal :=
  ((matchRead req mv s).bind retCode).outcome

end Sys2Proof.Machine
end

