-- ==== Sys2Proof/Machine/Block.lean ====
section
/-! DEFINITION. The Transfer Block command (43_transfer_engine R260): the header, and the block its request byte starts. -/

namespace Sys2Proof.Machine

/-- TRANSFER_BLOCK, the command's header (R260): index and count are held until the request byte is read. -/
def execTransferBlock (index : Byte) (count : Half) (s : State) : Host.Outcome State Fault Refusal :=
  .next { s with work := { Work.initial with blockIndex := index, blockCount := count }, phase := .blockRequest }

/-- The reads of a block with `n` words to come: the last of a posted block is the RDBUFF read (R260). The value is the
result code and the number of completed words. -/
def blockReadLoop (req : Byte) (posted : Bool) : Nat → Half → State → Res (Byte × Half)
  | 0, c, s => .ok (ackOk, c) s
  | n + 1, c, s =>
    (transferRetry (if posted && n == 0 then Config.rdbuffRead else req) 0#32 s).bind fun r s1 =>
      if r.1 = ackOk then
        (respWrite4 r.2 s1).bind fun _ s2 => blockReadLoop req posted n (c + 1#16) s2
      else .ok (r.1, c) s1

/-- A read block of `n` words (R260): posted on JTAG and for an AP. -/
def blockRead (req : Byte) (n : Nat) (s : State) : Res (Byte × Half) :=
  if decide (s.driver.port = .jtag) || reqAPnDP req then
    (transferRetry req 0#32 s).bind fun r s1 =>
      if r.1 = ackOk then blockReadLoop req true n 0#16 s1 else .ok (r.1, 0#16) s1
  else blockReadLoop req false n 0#16 s

/-- The writes of a block with `n` words to come, then the RDBUFF read (R260). A failed write drains the words after it
(`ReqSkip_4`). The value is the result code and the number of completed words. -/
def blockWriteLoop (req : Byte) : Nat → Half → State → Res (Byte × Half)
  | 0, c, s => (transferRetry Config.rdbuffRead 0#32 s).bind fun r s1 => .ok (r.1, c) s1
  | n + 1, c, s =>
    (reqRead4 s).bind fun w s1 =>
      (transferRetry req w s1).bind fun r s2 =>
        if r.1 = ackOk then blockWriteLoop req n (c + 1#16) s2
        else (reqSkip4 n s2).bind fun _ s3 => .ok (r.1, c) s3

/-- What a block does whose precondition fails or whose count is 0: a write block's words are drained (R260, D34). -/
def blockDrain (rnw : Bool) (n : Nat) (s : State) : Res (Byte × Half) :=
  if rnw then .ok (0#8, 0#16) s else (reqSkip4 n s).bind fun _ s1 => .ok (0#8, 0#16) s1

/-- The body of a block of request byte `req` (R260). -/
def blockBody (req : Byte) (s : State) : Res (Byte × Half) :=
  if preconditionFails s.work.blockIndex s.driver then blockDrain (reqRnW req) s.work.blockCount.toNat s
  else
    let s1 := selectIndex s.work.blockIndex s
    if s1.work.blockCount = 0#16 then blockDrain (reqRnW req) 0 s1
    else if reqRnW req then blockRead req s1.work.blockCount.toNat s1
    else blockWriteLoop req s1.work.blockCount.toNat 0#16 s1

/-- A whole block (R260): the response's code and slots, the body, the two patches. -/
def runBlock (req : Byte) (s : State) : Host.Outcome State Fault Refusal :=
  ((respWrite [0x06#8] s).bind fun _ s1 =>
    (respReserve 2 s1).bind fun slotCompleted s2 =>
      (respReserve 1 s2).bind fun slotAck s3 =>
        (blockBody req { s3 with work := { s3.work with irCache := none } }).bind fun r s4 =>
          .ok () (endCommand (respPatch slotAck [r.1] (respPatch slotCompleted (bytes16 r.2) s4)))).outcome

/-! ### Meanings -/

/-- TB_READ (R260): match bits are ignored (D22). -/
def execTbRead (apndp : Bool) (a : RegAddr) (s : State) : Host.Outcome State Fault Refusal :=
  runBlock (portRequest apndp true a) s

/-- TB_WRITE (R260): match bits are ignored (D22). -/
def execTbWrite (apndp : Bool) (a : RegAddr) (s : State) : Host.Outcome State Fault Refusal :=
  runBlock (portRequest apndp false a) s

end Sys2Proof.Machine
end

