-- ==== Sys2Proof/Machine/Commands.lean ====
section
/-! DEFINITION. The host commands of 44_commands other than Transfer and Transfer Block. -/

namespace Sys2Proof.Machine

/-! ### Port commands -/

/-- The pins Connect sets for a port (R287, D32): on JTAG also TMS and TDI. -/
def connectPins (p : Port) (pins : Pins) : Pins :=
  match p with
  | .jtag => ⟨.high, .high, .high, .high, .high⟩
  | .swd => { pins with clk := .high, swdioOe := .high, swdioOut := .high }
  | .disabled => pins

/-- `result_port` (R103). -/
def resultPort : Option Port → Byte
  | some .swd => 1#8
  | some .jtag => 2#8
  | some .disabled => 0#8
  | none => 0#8

/-- Connect's pin set-up and port (R287); the set-up can be fatal (R326). No cycle is emitted. -/
def setPort (p : Port) (s : State) : Res Unit :=
  (pinDirection s).bind fun _ s1 =>
    .ok () { s1 with driver := { s1.driver with port := p }, pins := connectPins p s1.pins }

/-- CONNECT (R287): an unlisted port value fails and changes nothing (D25). -/
def execConnect (port : Byte) (s : State) : Host.Outcome State Fault Refusal :=
  ((match connectPort port with
    | some p => setPort p s
    | none => .ok () s).bind fun _ s1 => answer 0x02#8 (resultPort (connectPort port)) s1).outcome

/-- DISCONNECT (R288): SWDIO is released, the other levels become unspecified; the set-up can be fatal (R326). -/
def execDisconnect (s : State) : Host.Outcome State Fault Refusal :=
  ((pinDirection s).bind fun _ s1 =>
    answer 0x03#8 statusOk
      { s1 with driver := { s1.driver with port := .disabled }
                pins := { Pins.unspecified with swdioOe := .low } }).outcome

/-! ### Configuration commands -/

/-- `idle_cycles <- v`. -/
def setIdleCycles (v : Byte) (s : State) : State := { s with driver := { s.driver with idleCycles := v } }

/-- `wait_retry_limit <- v`, unclamped (D23). -/
def setWaitRetry (v : Half) (s : State) : State := { s with driver := { s.driver with waitRetry := v } }

/-- `match_retry_limit <- v`, unclamped (D23). -/
def setMatchRetry (v : Half) (s : State) : State := { s with driver := { s.driver with matchRetry := v } }

/-- XFER_CFG (R290). -/
def execXferCfg (idle : Byte) (waitRetry matchRetry : Half) (s : State) : Host.Outcome State Fault Refusal :=
  (answer 0x04#8 statusOk (setMatchRetry matchRetry (setWaitRetry waitRetry (setIdleCycles idle s)))).outcome

/-- `clock_rate <- c; half_cycle_delay <- HalfDelay(c)`, atomically (R32, R291). -/
def setClock (c : Word) (s : State) : State :=
  { s with driver := { s.driver with clockRate := c, halfDelay := halfDelayOf c } }

/-- SWJ_CLOCK (R291): 0 is rejected (D26). -/
def execSwjClock (hz : Word) (s : State) : Host.Outcome State Fault Refusal :=
  (if hz = 0#32 then answer 0x11#8 statusError s else answer 0x11#8 statusOk (setClock hz s)).outcome

/-- SWD_CFG (R292, R105). -/
def execSwdCfg (config : Byte) (s : State) : Host.Outcome State Fault Refusal :=
  (answer 0x13#8 statusOk
    { s with driver := { s.driver with trnField := configTrn config, dataPhase := configDataPhase config } }).outcome

/-- JTAG Configure rejects more than MAX_CHAIN devices and an IR length of 0 (R293, D27). -/
def chainRejected (lens : List Byte) : Bool := decide (Config.maxChain < lens.length) || lens.any (fun l => l == 0#8)

/-- JTAG_CFG (R293). -/
def execJtagCfg (lens : List Byte) (s : State) : Host.Outcome State Fault Refusal :=
  (if chainRejected lens then answer 0x15#8 statusError s
   else answer 0x15#8 statusOk { s with driver := { s.driver with chain := chainOf lens, index := 0#8 } }).outcome

/-! ### Batch -/

/-- EXEC (R282): the echo header, then `count` inner commands; inside a batch it is refused (D41). -/
def execExecCommands (count : Byte) (s : State) : Host.Outcome State Fault Refusal :=
  (if s.batch.isSome then answerError s
   else (respPair 0x7f#8 count s).bind fun _ s1 => .ok () (endCommand { s1 with batch := some count.toNat })).outcome

end Sys2Proof.Machine
end

