-- ==== Sys2Proof/Machine/Dispatch.lean ====
section
/-! DEFINITION. exec: one arm per instruction, each one call of its meaning. -/

namespace Sys2Proof.Machine

def exec (i : Instr) (s : State) : Host.Outcome State Fault Refusal :=
  match i with
  | .connect port => Sys2Proof.Machine.execConnect port s
  | .disconnect => Sys2Proof.Machine.execDisconnect s
  | .xferCfg idle waitRetry matchRetry => Sys2Proof.Machine.execXferCfg idle waitRetry matchRetry s
  | .transfer index count => Sys2Proof.Machine.execTransfer index count s
  | .transferBlock index count => Sys2Proof.Machine.execTransferBlock index count s
  | .swjClock hz => Sys2Proof.Machine.execSwjClock hz s
  | .swdCfg config => Sys2Proof.Machine.execSwdCfg config s
  | .jtagCfg lens => Sys2Proof.Machine.execJtagCfg lens s
  | .execCommands count => Sys2Proof.Machine.execExecCommands count s
  | .dpR a => Sys2Proof.Machine.execDpR a s
  | .apR a => Sys2Proof.Machine.execApR a s
  | .dpRM a v => Sys2Proof.Machine.execDpRM a v s
  | .apRM a v => Sys2Proof.Machine.execApRM a v s
  | .dpW a v => Sys2Proof.Machine.execDpW a v s
  | .apW a v => Sys2Proof.Machine.execApW a v s
  | .mask v => Sys2Proof.Machine.execMask v s
  | .tbRead apndp a => Sys2Proof.Machine.execTbRead apndp a s
  | .tbWrite apndp a => Sys2Proof.Machine.execTbWrite apndp a s
  | .swdHeader r => Sys2Proof.Machine.execSwdHeader r s
  | .swdPacket req wdata => Sys2Proof.Machine.execSwdPacket req wdata s
  | .setIr ir => Sys2Proof.Machine.execSetIr ir s
  | .readDr32 => Sys2Proof.Machine.execReadDr32 s
  | .jtagTransferScan req wdata => Sys2Proof.Machine.execJtagTransferScan req wdata s
  | .transferOp req w => Sys2Proof.Machine.execTransferOp req w s
  | .transferRetry req w => Sys2Proof.Machine.execTransferRetry req w s
  | .matchRead req mv => Sys2Proof.Machine.execMatchRead req mv s
  | .halfDelay rate => Sys2Proof.Machine.execHalfDelay rate s
  | .clockCycle => Sys2Proof.Machine.execClockCycle s
  | .writeCycle bit => Sys2Proof.Machine.execWriteCycle bit s
  | .readCycle => Sys2Proof.Machine.execReadCycle s
  | .readWriteCycle bit => Sys2Proof.Machine.execReadWriteCycle bit s
  | .swdOutEnable v => Sys2Proof.Machine.execSwdOutEnable v s
  | .swdOutDisable => Sys2Proof.Machine.execSwdOutDisable s
  | .jcycle tms tdi => Sys2Proof.Machine.execJcycle tms tdi s

end Sys2Proof.Machine
end

