-- ==== Sys2Proof/Machine/Fetch.lean ====
section
/-! DEFINITION. What a step does before an instruction's meaning: waiting in `recv`, handing a response to `send`, and
reading the instruction at the cursor (44_commands R280 to R285, 60_exceptions R321, R329). -/

namespace Sys2Proof.Machine

/-! ### The host's side -/

/-- A request arrives: the response buffer is cleared, `rd <- 0`, and its first command is next (R280). -/
def acceptRequest (bytes : List Byte) (s : State) : State :=
  { s with mem := ⟨bytes, 0, []⟩, phase := .command, batch := none, framing := none }

/-- Waiting in `recv` (R280, R329, R332): with no event the block stays suspended; a disconnect resets it. -/
def receive (s : State) : Host.Outcome State Fault Refusal :=
  match s.input.recv with
  | [] => .next s
  | .disconnect :: evs => .next (resetDriver { s with input := { s.input with recv := evs } })
  | .request bytes :: evs =>
    if bytes.length ≤ s.params.requestCapacity then
      .next (acceptRequest bytes { s with input := { s.input with recv := evs } })
    else .fault .requestOverCapacity

/-- `send` (R280): the response is handed over and the request buffer cleared; a failing `send` counts as a disconnect
(R329). Whether the host has seen a response whose `send` fails the spec leaves open: DESIGN CHOICE, it is not in `sent`
(Log 31). -/
def sendResponse (s : State) : State :=
  let s1 : State := { s with input := { s.input with sendFail := s.input.sendFail.tail } }
  if s.input.sendFail.head? = some true then resetDriver s1
  else
    { s1 with sent := s.sent ++ [s.mem.resp], mem := { s.mem with req := [], rd := 0 }, phase := .idle, batch := none }

/-! ### Reading an instruction -/

/-- The bytes from the cursor on. -/
def pending (s : State) : List Byte := s.mem.req.drop s.mem.rd

/-- The cursor moves past `n` bytes (R39). -/
def advance (n : Nat) (s : State) : State := { s with mem := { s.mem with rd := s.mem.rd + n } }

/-- Transfer Configure writes each field when it has read it, so a field before the missing one is already written
(R290, R321, D40, vector C-8). No other command writes state before its last field is read. -/
def shortXferCfg (fields : List Byte) (s : State) : State :=
  match fields with
  | i :: w0 :: w1 :: _ => setWaitRetry (le16 w0 w1) (setIdleCycles i s)
  | i :: _ => setIdleCycles i s
  | [] => s

/-- What the handler of a truncated instruction has written before the missing field. -/
def writesBeforeShort (c : Context) (bs : List Byte) (s : State) : State :=
  match c, bs with
  | .command, code :: fields => if code = 0x04#8 then shortXferCfg fields s else s
  | .command, [] => s
  | .request, _ => s
  | .blockRequest, _ => s
  | .wireHeader, _ => s

/-- Queue Commands' code (R282, R283). -/
def queueCommandsCode : Byte := 0x7e#8

/-- Inside a batch the codes 0x7f and 0x7e are refused before any field is read (R282, D41). -/
def isNestedBatch (s : State) : Bool :=
  s.batch.isSome && (match pending s with
    | code :: _ => code == 0x7f#8 || code == queueCommandsCode
    | [] => false)

/-- What reading the instruction at the cursor gives. -/
inductive Fetched where
  /-- an instruction, and the state with the cursor past it -/
  | run (i : Instr) (s : State)
  /-- no instruction is run in this step -/
  | done (o : Host.Outcome State Fault Refusal)

/-- A code with no rule: 0xff where it is known to be unimplemented (R284), else refused by name (R285). -/
def codeWithoutRule (code : Byte) (s : State) : Host.Outcome State Fault Refusal :=
  if s.params.unimplemented.contains code then (answerError (advance 1 s)).outcome
  else .refused (.commandWithoutRule code)

/-- Read the instruction at the cursor (R72, R280). -/
def fetchIn (c : Context) (s : State) : Fetched :=
  match decode c (pending s) with
  | .instr i n => .run i (advance n s)
  | .short at_ width =>
    .done (.next (takeFramingError ⟨s.mem.rd + at_, width⟩ (writesBeforeShort c (pending s) s)))
  | .noRule code => .done (codeWithoutRule code s)
  | .notHeader code => .done (codeWithoutRule code s)

/-- The command code at the cursor: a nested batch is refused first (R282). -/
def fetchCommand (s : State) : Fetched :=
  if isNestedBatch s then .done (answerError (advance 1 s)).outcome else fetchIn .command s

/-- The part of a step before an instruction's meaning. -/
def fetch (s : State) : Fetched :=
  match s.phase with
  | .idle => .done (receive s)
  | .command => fetchCommand s
  | .request => fetchIn .request s
  | .blockRequest => fetchIn .blockRequest s
  | .respond => .done (.next (sendResponse s))

/-! ### Placing a table word -/

/-- The state with a table word as the next instruction: a command as the request just received; a transfer request as
the one request of a Transfer whose header has just run (Log 23). -/
def placeFetchWord (s : State) (nbits w : Nat) : State :=
  match tableContext nbits w with
  | .request =>
    { s with mem := ⟨tableBytes nbits w, 0, [0x05#8, 0x00#8, 0x00#8]⟩, phase := .request, batch := none
             work := { Work.initial with left := 1, draining := preconditionFails s.driver.index s.driver,
                                         slotCompleted := 1, slotAck := 2 } }
  | .command | .blockRequest | .wireHeader =>
    { s with mem := ⟨tableBytes nbits w, 0, []⟩, phase := .command, batch := none }

end Sys2Proof.Machine
end

