-- ==== Sys2Proof/Machine/Step.lean ====
section
/-! DEFINITION. One step: read the instruction at the cursor and run its meaning, or do what the command loop does
between instructions. -/

namespace Sys2Proof.Machine

/-- One step of the command loop. -/
def step (s : State) : Host.Outcome State Fault Refusal :=
  match fetch s with
  | .run i s1 => exec i s1
  | .done o => o

/-- The state with an opcode-table word placed as the next instruction (Log 23). -/
def State.withFetchWord (s : State) (nbits w : Nat) : State := placeFetchWord s nbits w

end Sys2Proof.Machine
end

