-- ==== Sys2Proof/Safety.lean ====
section
/-! DEFINITION. The terms claims are stated in: the invariants of the block, what counts as a safe run, and the frames
(what an operation leaves unchanged). -/

namespace Sys2Proof.Machine

/-! ### Invariants -/

/-- `half_cycle_delay = HalfDelay(clock_rate)` and `clock_rate` is never 0 (R32). -/
def ClockInv (s : State) : Prop :=
  s.driver.clockRate ≠ 0#32 ∧ s.driver.halfDelay = halfDelayOf s.driver.clockRate

/-- At most MAX_CHAIN entries, no IR length 0, and the bookkeeping of R34, R35: the entries are those of their IR
lengths. -/
def ChainInv (s : State) : Prop :=
  s.driver.chain.length ≤ Config.maxChain ∧ (∀ d ∈ s.driver.chain, d.irLength ≠ 0#8) ∧
    s.driver.chain = chainOf (s.driver.chain.map Device.irLength)

/-- The line-ownership invariant: on SWD the probe drives SWDIO at level 1 between packets (R200). -/
def ParkInv (s : State) : Prop :=
  s.driver.port = .swd → s.pins.swdioOe = .high ∧ s.pins.swdioOut = .high

/-- Every TAP of the ideal observer is in Run-Test/Idle (R170, R364). -/
def TapsIdle (s : State) : Prop := ∀ t ∈ s.taps, t = .runTestIdle

/-- A Transfer in progress: some request is left; a sequence that is not drained has a port, and on JTAG a device in
range (R240); a drained one has no OK result (R242). -/
def TransferInv (s : State) : Prop :=
  s.phase = .request →
    1 ≤ s.work.left ∧ s.work.left ≤ 255 ∧
      (s.work.draining = false → preconditionFails s.driver.index s.driver = false) ∧
      (s.work.draining = true → s.work.lastAck ≠ ackOk)

/-- All of them, with the buffers' canonical form and a usable default clock. -/
def BlockInv (s : State) : Prop :=
  s.params.defaultClockHz ≠ 0#32 ∧ ClockInv s ∧ ChainInv s ∧ ParkInv s ∧ TapsIdle s ∧
    Memory.wf s.params s.mem = true ∧ TransferInv s

/-! ### Safe runs -/

/-- The faults that are no event of the spec: a caller broke R172 or R230. -/
def Fault.internal : Fault → Bool
  | .transferWhileDisabled => true
  | .scanIndexOutOfRange => true
  | .fatal => false
  | .requestOverCapacity => false

/-- A step that ends in no internal fault. -/
def SafeOutcome : Host.Outcome State Fault Refusal → Prop
  | .next _ => True
  | .fault f => f.internal = false
  | .refused _ => True

/-- No step of a run of any length ends in an internal fault. -/
def SafeRun (s : State) : Prop := ∀ k, SafeOutcome (Host.Core.run core k s)

/-! ### Frames -/

/-- Only the wire side changed: pins, trace, observer, the inputs drawn (samples and pin-direction draws), the count of
free values. Everything else is as before. -/
structure WireFrame (s t : State) : Prop where
  params : t.params = s.params
  driver : t.driver = s.driver
  mem : t.mem = s.mem
  work : t.work = s.work
  phase : t.phase = s.phase
  batch : t.batch = s.batch
  framing : t.framing = s.framing
  recv : t.input.recv = s.input.recv
  sendFail : t.input.sendFail = s.input.sendFail
  sent : t.sent = s.sent
  ret : t.ret = s.ret

/-- As `WireFrame`, but the IR cache may also have changed (a transfer, R230). -/
structure TransferFrame (s t : State) : Prop where
  params : t.params = s.params
  driver : t.driver = s.driver
  mem : t.mem = s.mem
  work : { t.work with irCache := none } = { s.work with irCache := none }
  phase : t.phase = s.phase
  batch : t.batch = s.batch
  framing : t.framing = s.framing
  recv : t.input.recv = s.input.recv
  sendFail : t.input.sendFail = s.input.sendFail
  sent : t.sent = s.sent
  ret : t.ret = s.ret

/-- Nothing outside Driver State, the buffers and the command loop changed: no pin moved, no cycle was emitted, nothing
was drawn or sent. -/
structure QuietFrame (s t : State) : Prop where
  params : t.params = s.params
  pins : t.pins = s.pins
  trace : t.trace = s.trace
  input : t.input = s.input
  sent : t.sent = s.sent
  taps : t.taps = s.taps
  ret : t.ret = s.ret
  free : t.free = s.free

/-! ### The trace a sequence leaves -/

/-- The records of JTAG cycles with the given (TMS, TDI) and samples (R151, R160). -/
def jtagRecords (cycles : List (Bool × Bool)) (samples : List Bool) (h : Word) : List Cycle :=
  List.zipWith (fun c b => Cycle.jtag c.1 c.2 b h) cycles samples

/-- The records of `write_cycle` of each bit (R157). -/
def writeRecords (bits : List Bool) (h : Word) : List Cycle := bits.map fun b => Cycle.swd true (some b) none h

/-- The records of `read_cycle` with the given samples (R158). -/
def readRecords (samples : List Bool) (h : Word) : List Cycle := samples.map fun b => Cycle.swd false none (some b) h

/-- The records of `n` clock cycles with SWDIO released (R156). -/
def releasedRecords (n : Nat) (h : Word) : List Cycle := List.replicate n (Cycle.swd false none none h)

/-- The half-cycle delay of a record. -/
def cycleDelay : Cycle → Word
  | .jtag _ _ _ h => h
  | .swd _ _ _ h => h

/-! ### What a target answers on the wire -/

/-- An SWD read answered OK with word `v` and parity bit `p` (R120, R202). -/
def swdReadAnswer (v : Word) (p : Bool) : List Bool := [true, false, false] ++ bitsOf v ++ [p]

/-- An SWD read answered OK with word `v` and the right parity. -/
def swdOkRead (v : Word) : List Bool := swdReadAnswer v (dataParity v)

/-- An SWD write answered OK. -/
def swdOkWrite : List Bool := [true, false, false]

/-- A transfer scan answered OK with word `v`: what TDO gives before the ACK (`pre`), ACK 0 1 0, the word, what TDO gives
after it (`post`) (R122, R185). -/
def jtagOkAnswer (pre : List Bool) (v : Word) (post : List Bool) : List Bool :=
  pre ++ [false, true, false] ++ bitsOf v ++ post

/-! ### The cycles of a packet (R202) -/

/-- Header, turnaround and ACK. -/
def packetHead (d : Driver) (req : Byte) (ack : List Bool) : List Cycle :=
  writeRecords (bitsOf (swdHeaderOf req)) d.halfDelay ++ releasedRecords (turnaround d) d.halfDelay ++
    readRecords ack d.halfDelay

/-- The idle clocks of an OK packet. -/
def packetIdle (d : Driver) : List Cycle := writeRecords (List.replicate d.idleCycles.toNat false) d.halfDelay

/-- A read packet answered OK. -/
def readPacket (d : Driver) (req : Byte) (v : Word) (p : Bool) : List Cycle :=
  packetHead d req (swdReadAnswer v p) ++ releasedRecords (turnaround d) d.halfDelay ++ packetIdle d

/-- A write packet answered OK. -/
def writePacket (d : Driver) (req : Byte) (w : Word) : List Cycle :=
  packetHead d req swdOkWrite ++ releasedRecords (turnaround d) d.halfDelay ++
    writeRecords (bitsOf w ++ [dataParity w]) d.halfDelay ++ packetIdle d

/-- A packet answered WAIT or FAULT, with the data phase if it is generated: 33 released cycles before the turnaround on a
read, 33 driven low after it on a write. -/
def refusedPacket (d : Driver) (req : Byte) (ack : List Bool) : List Cycle :=
  packetHead d req ack ++ (if d.dataPhase && req.getLsbD 1 then releasedRecords 33 d.halfDelay else []) ++
    releasedRecords (turnaround d) d.halfDelay ++
    (if d.dataPhase && !req.getLsbD 1 then writeRecords (List.replicate 33 false) d.halfDelay else [])

/-! ### The cycles of a scan, as (TMS, TDI), written out from the pseudocode (R173, R175, R185) -/

/-- The cycles that shift the given bits: TMS = 1 on the last of them only. -/
def shiftLines (bits : List Bool) : List (Bool × Bool) :=
  bits.zipIdx.map fun b => (decide (b.2 + 1 = bits.length), b.1)

/-- A Set-IR scan that loads `ir` into device `e` (R175). -/
def setIrLines (e : Device) (ir : Byte) : List (Bool × Bool) :=
  [(true, true), (true, true), (false, true), (false, true)] ++
    shiftLines (List.replicate e.irBitsBefore.toNat true ++ (List.range e.irLength.toNat).map (fun k => ir.getLsbD k) ++
      List.replicate e.irBitsAfter.toNat true) ++
    [(true, true), (false, true)]

/-- A transfer scan of the selected device up to the third ACK bit (R185). -/
def scanHeadLines (d : Driver) (req : Byte) : List (Bool × Bool) :=
  [(true, true), (false, true), (false, true)] ++ List.replicate d.index.toNat (false, true) ++
    [(false, req.getLsbD 1), (false, req.getLsbD 2), (false, req.getLsbD 3)]

/-- The whole OK transfer scan of the selected device (R185). -/
def okScanCycles (d : Driver) (req : Byte) (w : Word) : List (Bool × Bool) :=
  scanHeadLines d req ++
    shiftLines ((if req.getLsbD 1 then List.replicate 32 true else bitsOf w) ++
      List.replicate (d.chain.length - 1 - d.index.toNat) true) ++
    [(true, true), (false, true)] ++ List.replicate d.idleCycles.toNat (false, true)

/-- A transfer scan that is cut short after a non-OK ACK (R185). -/
def cutScanCycles (d : Driver) (req : Byte) : List (Bool × Bool) :=
  scanHeadLines d req ++ [(true, true), (true, true), (false, true)] ++
    List.replicate d.idleCycles.toNat (false, true)

/-! ### Transfers on the wire -/

/-- One transfer answered OK: the request byte, the word written (if it is a write), the word answered (if it is a
read). -/
structure Access where
  req : Byte
  word : Word
  answer : Word
  deriving DecidableEq, Repr

/-- The register space a request byte reaches (R230). -/
def spaceOf (req : Byte) : IrSel := if req.getLsbD 0 then .apacc else .dpacc

/-- The cycles of the Set-IR scan before a transfer: none when the IR already holds the space's instruction (R230,
R232). -/
def irLines (d : Driver) (ir : Option IrSel) (req : Byte) : List (Bool × Bool) :=
  if ir = some (spaceOf req) then []
  else match d.chain[d.index.toNat]? with
    | some e => setIrLines e (if req.getLsbD 0 then 0x0b#8 else 0x0a#8)
    | none => []

/-- The cycles of transfers answered OK, one after the other, when the IR holds `ir` at first. -/
def jtagLinesOf (d : Driver) : Option IrSel → List Access → List (Bool × Bool)
  | _, [] => []
  | ir, x :: xs => irLines d ir x.req ++ okScanCycles d x.req x.word ++ jtagLinesOf d (some (spaceOf x.req)) xs

/-- `ans` is what TDO gives during these transfers: anything, but for the ACK 0 1 0 and the answered words. -/
def JtagAnswers (d : Driver) : Option IrSel → List Access → List Bool → Prop
  | _, [], ans => ans = []
  | ir, x :: xs, ans => ∃ irs pre post more, ans = irs ++ jtagOkAnswer pre x.answer post ++ more ∧
      irs.length = (irLines d ir x.req).length ∧ pre.length = d.index.toNat + 3 ∧
      post.length = d.chain.length - 1 - d.index.toNat + 2 + d.idleCycles.toNat ∧
      JtagAnswers d (some (spaceOf x.req)) xs more

/-- One attempt on SWD that is not OK: what SWDIO answers, the records, the result code (R121, R202). -/
def SwdRefuses (d : Driver) (req : Byte) (ans : List Bool) (cs : List Cycle) (code : Byte) : Prop :=
  (∃ a, ans = [false, a, !a] ∧ cs = refusedPacket d req ans ∧ code = if a then 2#8 else 4#8) ∨
  (∃ a0 a1 a2, ans = [a0, a1, a2] ∧ ans ∉ [[true, false, false], [false, true, false], [false, false, true]] ∧
    cs = packetHead d req ans ++ releasedRecords (turnaround d + 33) d.halfDelay ∧
    code.toNat = a0.toNat + 2 * a1.toNat + 4 * a2.toNat) ∨
  (req.getLsbD 1 = true ∧ ∃ v p, p ≠ dataParity v ∧ ans = swdReadAnswer v p ∧ cs = readPacket d req v p ∧ code = 0x08#8)

/-- A transfer on SWD that fails with `n` retries left: at once, or after a WAIT that is retried (R233). -/
def SwdFails (d : Driver) (req : Byte) : Nat → List Bool → List Cycle → Byte → Prop
  | 0, ans, cs, code => SwdRefuses d req ans cs code
  | n + 1, ans, cs, code => SwdRefuses d req ans cs code ∧ code ≠ 2#8 ∨
      ∃ more cs', ans = [false, true, false] ++ more ∧ cs = refusedPacket d req [false, true, false] ++ cs' ∧
        SwdFails d req n more cs' code

/-- One attempt on JTAG that is not OK: what TDO answers, the cycles, the result code (R122, R185). -/
def JtagRefuses (d : Driver) (ir : Option IrSel) (req : Byte) (ans : List Bool) (cs : List (Bool × Bool)) (code : Byte) :
    Prop :=
  ∃ irs pre t0 t1 t2 post, ans = irs ++ pre ++ [t0, t1, t2] ++ post ∧ irs.length = (irLines d ir req).length ∧
    pre.length = d.index.toNat + 3 ∧ post.length = 3 + d.idleCycles.toNat ∧ (t0, t1, t2) ≠ (false, true, false) ∧
    cs = irLines d ir req ++ cutScanCycles d req ∧ code.toNat = 2 * t0.toNat + t1.toNat + 4 * t2.toNat

/-- A transfer on JTAG that fails with `n` retries left (R233). -/
def JtagFails (d : Driver) (req : Byte) : Nat → Option IrSel → List Bool → List (Bool × Bool) → Byte → Prop
  | 0, ir, ans, cs, code => JtagRefuses d ir req ans cs code
  | n + 1, ir, ans, cs, code => JtagRefuses d ir req ans cs code ∧ code ≠ 2#8 ∨
      ∃ a more c1 cs', ans = a ++ more ∧ cs = c1 ++ cs' ∧ JtagRefuses d ir req a c1 2#8 ∧
        JtagFails d req n (some (spaceOf req)) more cs' code

/-- The request byte and the word of a plain request: a read or write of a DP or AP register (R110, R248 to R251). -/
def plainRequest : Instr → Option (Byte × Word)
  | .dpR a => some (0x02#8 ||| (a.zeroExtend 8 <<< 2), 0#32)
  | .apR a => some (0x03#8 ||| (a.zeroExtend 8 <<< 2), 0#32)
  | .dpW a w => some (a.zeroExtend 8 <<< 2, w)
  | .apW a w => some (0x01#8 ||| (a.zeroExtend 8 <<< 2), w)
  | .connect _ | .disconnect | .xferCfg _ _ _ | .transfer _ _ | .transferBlock _ _ | .swjClock _ | .swdCfg _
  | .jtagCfg _ | .execCommands _ | .dpRM _ _ | .apRM _ _ | .mask _ | .tbRead _ _ | .tbWrite _ _ | .swdHeader _
  | .swdPacket _ _ | .setIr _ | .readDr32 | .jtagTransferScan _ _ | .transferOp _ _ | .transferRetry _ _
  | .matchRead _ _ | .halfDelay _ | .clockCycle | .writeCycle _ | .readCycle | .readWriteCycle _
  | .swdOutEnable _ | .swdOutDisable | .jcycle _ _ => none

/-- A read outstanding is collected by the request itself: on SWD by an AP read (R243), on JTAG by a read of the space that
the IR holds (R244). -/
def collectsOutstanding (s : State) (req : Byte) : Bool :=
  req.getLsbD 1 && (if s.driver.port = .jtag then decide (s.work.irCache = some (spaceOf req)) else req.getLsbD 0)

/-- The first transfer of a request: RDBUFF when a read is outstanding that the request does not collect itself (R243,
R244). -/
def firstTransfer (s : State) (req : Byte) : Byte :=
  if s.work.postRead && !collectsOutstanding s req then 0x0e#8 else req

/-! ### Transfers on either port -/

/-- The queue of answers of the port in use: TDO on JTAG, SWDIO on SWD. -/
def queue (s : State) : List Bool := if s.driver.port = .jtag then s.input.tdo else s.input.swdio

/-- What SWDIO answers to transfers that are all answered OK. -/
def swdAnswersOf (xs : List Access) : List Bool :=
  xs.flatMap fun x => if x.req.getLsbD 1 then swdOkRead x.answer else swdOkWrite

/-- The records of packets that are all answered OK. -/
def swdRecordsOf (d : Driver) (xs : List Access) : List Cycle :=
  xs.flatMap fun x =>
    if x.req.getLsbD 1 then readPacket d x.req x.answer (dataParity x.answer) else writePacket d x.req x.word

/-- What the IR holds after these transfers (R230, R232). -/
def irAfter : Option IrSel → List Access → Option IrSel
  | ir, [] => ir
  | _, x :: xs => irAfter (some (spaceOf x.req)) xs

/-- On the port in use the target answers the transfers `xs` OK, one after the other; `cs` are their records, and `rest`
is what stays queued. -/
def Answers (s : State) (xs : List Access) (cs : List Cycle) (rest : List Bool) : Prop :=
  match s.driver.port with
  | .swd => s.input.dirFail = none ∧ s.input.swdio = swdAnswersOf xs ++ rest ∧ cs = swdRecordsOf s.driver xs
  | .jtag => s.driver.index.toNat < s.driver.chain.length ∧
      ∃ ans, JtagAnswers s.driver s.work.irCache xs ans ∧ s.input.tdo = ans ++ rest ∧
        cs = jtagRecords (jtagLinesOf s.driver s.work.irCache xs) ans s.driver.halfDelay
  | .disabled => False

/-- As `Answers`, and then a transfer of `req` fails with `code`, after the retries (R231, R233). -/
def AnswersThenFails (s : State) (xs : List Access) (req code : Byte) (cs : List Cycle) (rest : List Bool) : Prop :=
  match s.driver.port with
  | .swd => s.input.dirFail = none ∧
      ∃ bad bs, SwdFails s.driver req s.driver.waitRetry.toNat bad bs code ∧
        s.input.swdio = swdAnswersOf xs ++ bad ++ rest ∧ cs = swdRecordsOf s.driver xs ++ bs
  | .jtag => s.driver.index.toNat < s.driver.chain.length ∧
      ∃ ans bad bs, JtagAnswers s.driver s.work.irCache xs ans ∧
        JtagFails s.driver req s.driver.waitRetry.toNat (irAfter s.work.irCache xs) bad bs code ∧
        s.input.tdo = ans ++ bad ++ rest ∧
        cs = jtagRecords (jtagLinesOf s.driver s.work.irCache xs) ans s.driver.halfDelay ++
          jtagRecords bs bad s.driver.halfDelay
  | .disabled => False

/-! ### What a request of a Transfer does (R243, R244), written out from the pseudocode -/

/-- The request byte and the match value of a match read (R110, R247). -/
def matchRequest : Instr → Option (Byte × Word)
  | .dpRM a v => some (0x02#8 ||| (a.zeroExtend 8 <<< 2), v)
  | .apRM a v => some (0x03#8 ||| (a.zeroExtend 8 <<< 2), v)
  | .connect _ | .disconnect | .xferCfg _ _ _ | .transfer _ _ | .transferBlock _ _ | .swjClock _ | .swdCfg _
  | .jtagCfg _ | .execCommands _ | .dpR _ | .apR _ | .dpW _ _ | .apW _ _ | .mask _ | .tbRead _ _ | .tbWrite _ _
  | .swdHeader _ | .swdPacket _ _ | .setIr _ | .readDr32 | .jtagTransferScan _ _ | .transferOp _ _
  | .transferRetry _ _ | .matchRead _ _ | .halfDelay _ | .clockCycle | .writeCycle _ | .readCycle
  | .readWriteCycle _ | .swdOutEnable _ | .swdOutDisable | .jcycle _ _ => none

/-- The RDBUFF read that collects an outstanding read, where there is one; `v` is the word it is answered. -/
def collectReads (s : State) (v : Word) : List Access := if s.work.postRead then [⟨0x0e#8, 0#32, v⟩] else []

/-- The word that it writes to the response. -/
def collectWords (s : State) (v : Word) : List Word := if s.work.postRead then [v] else []

/-- The post step of a match read, on JTAG and for an AP (R247). -/
def matchPost (s : State) (req : Byte) (v : Word) : List Access :=
  if s.driver.port = .jtag ∨ req.getLsbD 0 = true then [⟨req, 0#32, v⟩] else []

/-- The polls of a match read, with the words they are answered. -/
def polls (req : Byte) (vs : List Word) : List Access := vs.map fun v => ⟨req, 0#32, v⟩

/-- What a completed request has done: its transfers, the words it wrote to the response, and the values it leaves in
`post_read`, `check_write` and `match_mask`. -/
structure Effect where
  accesses : List Access
  words : List Word
  post : Bool
  check : Bool
  mask : Word
  deriving DecidableEq, Repr

/-- Request `i` completes with this effect, when its transfers are answered OK (R243, R244). -/
inductive Completes (s : State) : Instr → Effect → Prop
  /-- a read that collects the outstanding read itself and stays outstanding -/
  | collected (i : Instr) (req : Byte) (v : Word) : plainRequest i = some (req, 0#32) → s.work.postRead = true →
      collectsOutstanding s req = true → Completes s i ⟨[⟨req, 0#32, v⟩], [v], true, false, s.driver.matchMask⟩
  /-- a read that is posted, an outstanding one collected through RDBUFF first -/
  | posted (i : Instr) (req : Byte) (v0 v : Word) : plainRequest i = some (req, 0#32) → req.getLsbD 1 = true →
      s.driver.port = .jtag ∨ req.getLsbD 0 = true → (s.work.postRead = true → collectsOutstanding s req = false) →
      Completes s i
        ⟨collectReads s v0 ++ [⟨req, 0#32, v⟩], collectWords s v0, true, false, s.driver.matchMask⟩
  /-- a DP read on SWD -/
  | immediate (i : Instr) (req : Byte) (v0 v : Word) : plainRequest i = some (req, 0#32) → req.getLsbD 1 = true →
      s.driver.port = .swd → req.getLsbD 0 = false →
      Completes s i
        ⟨collectReads s v0 ++ [⟨req, 0#32, v⟩], collectWords s v0 ++ [v], false, false, s.driver.matchMask⟩
  /-- a match read whose last poll matches -/
  | matched (i : Instr) (req : Byte) (mv v0 v1 v : Word) (vs : List Word) : matchRequest i = some (req, mv) →
      vs.length ≤ s.driver.matchRetry.toNat → (∀ x ∈ vs, x &&& s.driver.matchMask ≠ mv) →
      v &&& s.driver.matchMask = mv →
      Completes s i ⟨collectReads s v0 ++ matchPost s req v1 ++ polls req (vs ++ [v]), collectWords s v0, false, false,
        s.driver.matchMask⟩
  /-- a write -/
  | written (i : Instr) (req : Byte) (w v0 v : Word) : plainRequest i = some (req, w) → req.getLsbD 1 = false →
      Completes s i ⟨collectReads s v0 ++ [⟨req, w, v⟩], collectWords s v0, false,
        decide (s.driver.port = .swd) || s.work.checkWrite, s.driver.matchMask⟩
  /-- a MatchMask write -/
  | masked (m v0 : Word) :
      Completes s (.mask m) ⟨collectReads s v0, collectWords s v0, false, s.work.checkWrite, m⟩

/-- Request `i` stops at a transfer of `req`, after the transfers `xs` answered OK have written the words `ws`, with
`post_read` then at `post` (R243, R244, R247). -/
inductive StopsAt (s : State) : Instr → List Access → List Word → Bool → Byte → Prop
  /-- at RDBUFF before a read, which has cleared `post_read` -/
  | rdbuffOfRead (i : Instr) (req : Byte) (w : Word) : plainRequest i = some (req, w) → req.getLsbD 1 = true →
      s.work.postRead = true → collectsOutstanding s req = false → StopsAt s i [] [] false 0x0e#8
  /-- at RDBUFF before a match read, which has cleared `post_read` -/
  | rdbuffOfMatch (i : Instr) (req : Byte) (mv : Word) : matchRequest i = some (req, mv) → s.work.postRead = true →
      StopsAt s i [] [] false 0x0e#8
  /-- at RDBUFF before a write, where `post_read` is not yet cleared -/
  | rdbuffOfWrite (i : Instr) (req : Byte) (w : Word) : plainRequest i = some (req, w) → req.getLsbD 1 = false →
      s.work.postRead = true → StopsAt s i [] [] true 0x0e#8
  /-- the same before a MatchMask write -/
  | rdbuffOfMask (m : Word) : s.work.postRead = true → StopsAt s (.mask m) [] [] true 0x0e#8
  /-- at a read that collects the outstanding read itself -/
  | collecting (i : Instr) (req : Byte) (w : Word) : plainRequest i = some (req, w) → s.work.postRead = true →
      collectsOutstanding s req = true → StopsAt s i [] [] true req
  /-- at the request's own transfer -/
  | own (i : Instr) (req : Byte) (w v0 : Word) : plainRequest i = some (req, w) →
      (s.work.postRead = true → collectsOutstanding s req = false) →
      StopsAt s i (collectReads s v0) (collectWords s v0) false req
  /-- at the post step of a match read -/
  | post (i : Instr) (req : Byte) (mv v0 : Word) : matchRequest i = some (req, mv) →
      s.driver.port = .jtag ∨ req.getLsbD 0 = true →
      StopsAt s i (collectReads s v0) (collectWords s v0) false req
  /-- at a poll of a match read -/
  | poll (i : Instr) (req : Byte) (mv v0 v1 : Word) (vs : List Word) : matchRequest i = some (req, mv) →
      vs.length ≤ s.driver.matchRetry.toNat → (∀ x ∈ vs, x &&& s.driver.matchMask ≠ mv) →
      StopsAt s i (collectReads s v0 ++ matchPost s req v1 ++ polls req vs) (collectWords s v0) false req

/-- The trailer reads RDBUFF after an OK sequence: always on JTAG, on SWD where a read is outstanding or a write is to be
checked (R243, R244). -/
def Trails (s : State) (e : Effect) : Prop := s.driver.port = .jtag ∨ e.post = true ∨ e.check = true

/-- The Transfer has ended (R242): the words are written, the slots hold `completed` and `code`, the working state is
initial, the command is over; `cs` are the records it left since `s`. -/
structure TransferEnds (s t : State) (words : List Word) (completed code : Byte) (cs : List Cycle) (rest : List Bool) :
    Prop where
  mem : t.mem = { s.mem with
    resp := overwrite s.work.slotAck [code]
      (overwrite s.work.slotCompleted [completed] (s.mem.resp ++ words.flatMap bytes32)) }
  work : t.work = Work.initial
  phase : s.batch = none → t.phase = .respond
  trace : t.trace = s.trace ++ cs
  left : queue t = rest

/-! ### A Transfer Block (R260) -/

/-- The state in which a block's transfers run: the IR cache is empty and, on JTAG, the block's index selected. -/
def atBlock (s : State) : State :=
  { s with
    driver := if s.driver.port = .jtag then { s.driver with index := s.work.blockIndex } else s.driver
    work := { s.work with irCache := none } }

/-- The command has ended in a FramingError (R281, R321): no response, `e` recorded, the block waits for the next request;
the records `cs` it left since `s` stay, and Driver State is `d` or, with RESET_ON_FRAMING_ERROR, reset. -/
structure FramingEnds (s t : State) (e : FramingError) (d : Driver) (cs : List Cycle) : Prop where
  framing : t.framing = some e
  sent : t.sent = s.sent
  mem : t.mem = ⟨[], 0, []⟩
  work : t.work = Work.initial
  phase : t.phase = .idle
  batch : t.batch = none
  trace : t.trace = s.trace ++ cs
  kept : s.params.resetOnFramingError = false → t.driver = d
  reset : s.params.resetOnFramingError = true →
    t.driver = Driver.reset s.params (halfDelayOf s.params.defaultClockHz) ∧ t.pins = Pins.unspecified

/-! ### What a TAP shifts -/

/-- The TDI bits of the cycles that begin in TAP state `q`, of a TAP that starts in `t` (R171: "Shifts in this cycle" is
judged on the state at the start of the cycle). -/
def tdiShiftedIn (q : Tap) : Tap → List (Bool × Bool) → List Bool
  | _, [] => []
  | t, c :: cs => (if t = q then [c.2] else []) ++ tdiShiftedIn q (Tap.next c.1 t) cs

/-- The (TMS, TDI) of the JTAG records among these. -/
def tmsTdiOf (cs : List Cycle) : List (Bool × Bool) :=
  cs.filterMap fun c => match c with
    | .jtag tms tdi _ _ => some (tms, tdi)
    | .swd _ _ _ _ => none

/-! ### Other terms -/

/-- `n` more bytes fit into the response (R74). -/
def Fits (s : State) (n : Nat) : Prop := s.mem.resp.length + n ≤ s.params.responseCapacity

/-- Driver State, buffers and pins hold the reset values of the named parameters (R8, R50): port Disabled, the default
clock and its half-cycle delay, an empty chain, the configurations' defaults. -/
def ResetTable (s : State) : Prop :=
  s.driver.port = .disabled ∧ s.driver.clockRate = s.params.defaultClockHz ∧
    s.driver.halfDelay = halfDelayOf s.params.defaultClockHz ∧ s.driver.chain = [] ∧ s.driver.index = 0#8 ∧
    s.driver.trnField = s.params.configDefaults.trnField ∧ s.driver.dataPhase = s.params.configDefaults.dataPhase ∧
    s.driver.idleCycles = s.params.configDefaults.idleCycles ∧ s.driver.waitRetry = s.params.configDefaults.waitRetry ∧
    s.driver.matchRetry = s.params.configDefaults.matchRetry ∧ s.driver.matchMask = s.params.configDefaults.matchMask ∧
    s.mem.req = [] ∧ s.mem.resp = [] ∧ s.mem.rd = 0 ∧
    s.pins = ⟨.unknown, .unknown, .unknown, .unknown, .unknown⟩

/-- Driver State, buffers and pins hold the values that R50's table gives. -/
def DecidedReset (s : State) : Prop :=
  s.driver.port = .disabled ∧ s.driver.clockRate = 1000000#32 ∧ s.driver.halfDelay = 500#32 ∧ s.driver.chain = [] ∧
    s.driver.index = 0#8 ∧ turnaround s.driver = 1 ∧ s.driver.dataPhase = false ∧ s.driver.idleCycles = 0#8 ∧
    s.driver.waitRetry = 100#16 ∧ s.driver.matchRetry = 0#16 ∧ s.driver.matchMask = 0#32 ∧
    s.mem.req = [] ∧ s.mem.resp = [] ∧ s.mem.rd = 0 ∧
    s.pins = ⟨.unknown, .unknown, .unknown, .unknown, .unknown⟩

/-- The probe drives SWDIO at level 1 (R200). -/
def Parked (s : State) : Prop := s.pins.swdioOe = .high ∧ s.pins.swdioOut = .high

/-- The trace only grew, and every new record carries the half-cycle delay in force (R32, R151). -/
def TraceGrows (s t : State) : Prop :=
  ∃ cs, t.trace = s.trace ++ cs ∧ ∀ c ∈ cs, cycleDelay c = s.driver.halfDelay

end Sys2Proof.Machine
end

