-- ==== Sys2Proof/Certificates/Slice0/Obligations.lean ====
section
/-! DEFINITION. The statements for the provers. Each docstring names the rule of spec/ it formalises. -/

open Sys2Proof Sys2Proof.Machine

/-! ### Encodings -/

/-- Words written out from 30_encoding R101, R110 and R114 decode to the instructions they stand for. -/
def Obligations.SpecWordsDecode : Prop :=
  decode .command [0x02#8, 0x01#8] = .instr (.connect 1#8) 2 ∧
  decode .command [0x03#8] = .instr .disconnect 1 ∧
  decode .command [0x04#8, 0x02#8, 0x64#8, 0x00#8, 0x05#8, 0x01#8] = .instr (.xferCfg 2#8 100#16 261#16) 6 ∧
  decode .command [0x11#8, 0x20#8, 0x4e#8, 0x00#8, 0x00#8] = .instr (.swjClock 20000#32) 5 ∧
  decode .command [0x15#8, 0x01#8, 0x05#8] = .instr (.jtagCfg [5#8]) 3 ∧
  decode .request [0x0e#8] = .instr (.dpR 3#2) 1 ∧
  decode .request [0x13#8, 0x01#8, 0x00#8, 0x00#8, 0x80#8] = .instr (.apRM 0#2 0x80000001#32) 5 ∧
  decode .request [0x20#8, 0xff#8, 0x00#8, 0x00#8, 0x00#8] = .instr (.mask 255#32) 5 ∧
  decode .blockRequest [0x0d#8] = .instr (.tbWrite true 3#2) 1 ∧
  decode .wireHeader [0xa5#8] = .instr (.swdHeader 2#4) 1

/-- R115: the 16 SWD headers; and R114: the header of port request r is `0x81 | (r << 1) | (parity(r) << 5)`, bit by bit. -/
def Obligations.HeaderFormula : Prop :=
  ((List.range 16).map fun r => headerByte (BitVec.ofNat 4 r)) =
      [0x81#8, 0xa3#8, 0xa5#8, 0x87#8, 0xa9#8, 0x8b#8, 0x8d#8, 0xaf#8,
        0xb1#8, 0x93#8, 0x95#8, 0xb7#8, 0x99#8, 0xbb#8, 0xbd#8, 0x9f#8] ∧
  ∀ r : BitVec 4,
    headerByte r =
        0x81#8 ||| (r.zeroExtend 8 <<< 1) ||| ((BitVec.ofBool (parityOf r)).zeroExtend 8 <<< 5) ∧
      (headerByte r).getLsbD 0 = true ∧ (headerByte r).getLsbD 1 = r.getLsbD 0 ∧
      (headerByte r).getLsbD 2 = r.getLsbD 1 ∧ (headerByte r).getLsbD 3 = r.getLsbD 2 ∧
      (headerByte r).getLsbD 4 = r.getLsbD 3 ∧
      (headerByte r).getLsbD 5 = (r.getLsbD 0 ^^ r.getLsbD 1 ^^ r.getLsbD 2 ^^ r.getLsbD 3) ∧
      (headerByte r).getLsbD 6 = false ∧ (headerByte r).getLsbD 7 = true

/-- Decoding an encoded well-formed instruction gives it back, at every operand value and whatever bytes follow
(30_encoding R100, R101, R104, R110, R114). -/
def Obligations.DecodeEncode : Prop :=
  ∀ (i : Instr) (c : Context) (bs tail : List Byte),
    WellFormed i → i.context = some c → encode i = some bs → decode c (bs ++ tail) = .instr i bs.length

/-- What the decoder answers is a well-formed instruction of its context, of at least one and at most the bytes there. -/
def Obligations.DecodedIsWellFormed : Prop :=
  ∀ (c : Context) (bs : List Byte) (i : Instr) (n : Nat),
    decode c bs = .instr i n → WellFormed i ∧ i.context = some c ∧ 1 ≤ n ∧ n ≤ bs.length

/-- An instruction is read from its own bytes only: what follows its last field is not read (44_commands R280). -/
def Obligations.DecodeReadsOnlyItsBytes : Prop :=
  ∀ (c : Context) (bs tail : List Byte) (i : Instr) (n : Nat),
    decode c bs = .instr i n → decode c (bs.take n ++ tail) = .instr i n

/-- The ignored bits of a request byte (R110, R111, R131; D18, D22): only req[3:0] reaches the wire, MatchValue counts for reads and
MatchMask for writes only, and bits 6 and 7 never; a MASK ignores APnDP, A2 and A3 too (R252); and a Transfer Block's request byte
ignores bits 4 to 7, so that its MatchValue or MatchMask makes no match read and loads no mask (R260). -/
def Obligations.IgnoredRequestBits : Prop :=
  (∀ (b b' : Byte) (w : Word) (rest : List Byte), b.extractLsb' 0 4 = b'.extractLsb' 0 4 →
    (if b.getLsbD 1 then b.getLsbD 4 = b'.getLsbD 4 else b.getLsbD 5 = b'.getLsbD 5) →
      requestOf b w = requestOf b' w ∧ reqHasData b = reqHasData b' ∧
        decode .request (b :: rest) = decode .request (b' :: rest)) ∧
  (∀ (b b' : Byte) (w : Word) (s : State), b.extractLsb' 0 4 = b'.extractLsb' 0 4 →
    exec (.swdPacket b w) s = exec (.swdPacket b' w) s ∧
      exec (.jtagTransferScan b w) s = exec (.jtagTransferScan b' w) s) ∧
  (∀ (b b' : Byte) (w : Word) (rest : List Byte), b.getLsbD 1 = false → b.getLsbD 5 = true → b'.getLsbD 1 = false →
    b'.getLsbD 5 = true →
      requestOf b w = requestOf b' w ∧ requestOf b w = .mask w ∧
        decode .request (b :: rest) = decode .request (b' :: rest) ∧
        decode .request (b :: (bytes32 w ++ rest)) = .instr (.mask w) 5) ∧
  (∀ (b b' : Byte) (rest rest' : List Byte), b.extractLsb' 0 4 = b'.extractLsb' 0 4 →
    decode .blockRequest (b :: rest) = decode .blockRequest (b' :: rest') ∧
      decode .blockRequest (b :: rest) =
        .instr (if b.getLsbD 1 then .tbRead (b.getLsbD 0) (b.extractLsb' 2 2)
          else .tbWrite (b.getLsbD 0) (b.extractLsb' 2 2)) 1)

/-! ### The step and the command loop -/

/-- When the bytes at the cursor decode to an instruction, the step is exec of it with the cursor past its bytes
(R39, R280); a nested batch, which is refused before its fields are read (R282), is stated in NestedBatchRefused. -/
def Obligations.StepRunsDecoded : Prop :=
  ∀ (s : State) (i : Instr) (n : Nat),
    (s.phase = .command → isNestedBatch s = false → decode .command (pending s) = .instr i n →
      step s = exec i { s with mem := { s.mem with rd := s.mem.rd + n } }) ∧
    (s.phase = .request → decode .request (pending s) = .instr i n →
      step s = exec i { s with mem := { s.mem with rd := s.mem.rd + n } }) ∧
    (s.phase = .blockRequest → decode .blockRequest (pending s) = .instr i n →
      step s = exec i { s with mem := { s.mem with rd := s.mem.rd + n } })

/-- R72: `ReqRead_N` gives the N bytes at the cursor, little-endian for four, and moves it; with fewer bytes left it is
FramingError(rd, N). R74: a write appends its bytes to the response; one that would exceed RESPONSE_CAPACITY is a FramingError,
which ends the command without a response (R321): so does a configuration command whose answer does not fit, and a read of
a Transfer whose word does not fit, after its packet. -/
def Obligations.ReqReadRule : Prop :=
  (∀ (n : Nat) (s : State), s.mem.rd + n ≤ s.mem.req.length →
    reqRead n s = .ok ((s.mem.req.drop s.mem.rd).take n) { s with mem := { s.mem with rd := s.mem.rd + n } }) ∧
  (∀ (n : Nat) (s : State), s.mem.req.length < s.mem.rd + n → reqRead n s = .framing ⟨s.mem.rd, n⟩ s) ∧
  (∀ (s : State) (b0 b1 b2 b3 : Byte) (rest : List Byte), s.mem.req.drop s.mem.rd = b0 :: b1 :: b2 :: b3 :: rest →
    ∃ v t, reqRead4 s = .ok v t ∧ t.mem.rd = s.mem.rd + 4 ∧
      v.toNat = b0.toNat + 256 * b1.toNat + 65536 * b2.toNat + 16777216 * b3.toNat) ∧
  (∀ (bs : List Byte) (s : State),
    (s.mem.resp.length + bs.length ≤ s.params.responseCapacity →
      respWrite bs s = .ok () { s with mem := { s.mem with resp := s.mem.resp ++ bs } }) ∧
    (s.params.responseCapacity < s.mem.resp.length + bs.length →
      respWrite bs s = .framing ⟨s.mem.rd, bs.length⟩ s)) ∧
  (∀ (s : State) (i : Instr), s.params.responseCapacity < s.mem.resp.length + 2 →
    (∃ a b c, i = .xferCfg a b c) ∨ (∃ c, i = .swjClock c) ∨ (∃ c, i = .swdCfg c) ∨ (∃ l, i = .jtagCfg l) →
      ∃ t, exec i s = .next t ∧ t.framing = some ⟨s.mem.rd, 1⟩ ∧ t.sent = s.sent ∧ t.mem = ⟨[], 0, []⟩ ∧
        t.phase = .idle ∧ t.batch = none ∧ t.trace = s.trace) ∧
  (∀ (s : State) (a : RegAddr) (v : Word) (rest : List Bool), s.driver.port = .swd → s.input.dirFail = none →
    s.work.draining = false → s.work.postRead = false → s.params.responseCapacity < s.mem.resp.length + 4 →
    s.input.swdio = swdOkRead v ++ rest →
      ∃ t, exec (.dpR a) s = .next t ∧ t.framing = some ⟨s.mem.rd, 4⟩ ∧ t.sent = s.sent ∧ t.mem = ⟨[], 0, []⟩ ∧
        t.phase = .idle ∧ t.batch = none ∧
        t.trace = s.trace ++ readPacket s.driver (0x02#8 ||| (a.zeroExtend 8 <<< 2)) v (dataParity v))

/-- R281: a truncated instruction ends the request in a FramingError: no response is sent, cursor and width are recorded,
nothing is put on the pins, and the block waits for the next request. With RESET_ON_FRAMING_ERROR Driver State is reset
(R321); without it a truncated command or request has written nothing, but for Transfer Configure, which has written the
fields before the missing one (vector C-8). -/
def Obligations.TruncatedRequest : Prop :=
  (∀ (s : State) (c : Context) (off width : Nat),
    (s.phase = .command ∧ c = .command ∧ isNestedBatch s = false ∨ s.phase = .request ∧ c = .request ∨
      s.phase = .blockRequest ∧ c = .blockRequest) →
    decode c (pending s) = .short off width →
      ∃ t, step s = .next t ∧ t.framing = some ⟨s.mem.rd + off, width⟩ ∧ t.sent = s.sent ∧ t.trace = s.trace ∧
        t.input = s.input ∧ t.params = s.params ∧ t.mem = ⟨[], 0, []⟩ ∧ t.phase = .idle ∧ t.batch = none ∧
        (s.params.resetOnFramingError = false → t.pins = s.pins ∧
          (c ≠ .command ∨ (pending s).head? ≠ some 0x04#8 → t.driver = s.driver)) ∧
        (s.params.resetOnFramingError = true → t.pins = Pins.unspecified ∧
          t.driver = Driver.reset s.params (halfDelayOf s.params.defaultClockHz))) ∧
  (∀ (s : State) (idle w0 w1 m0 : Byte), s.phase = .command → isNestedBatch s = false →
    s.params.resetOnFramingError = false →
      (pending s = [0x04#8] →
        ∃ t, step s = .next t ∧ t.framing = some ⟨s.mem.rd + 1, 1⟩ ∧ t.driver = s.driver) ∧
      (pending s = [0x04#8, idle] ∨ pending s = [0x04#8, idle, w0] →
        ∃ t, step s = .next t ∧ t.framing = some ⟨s.mem.rd + 2, 2⟩ ∧
          t.driver = { s.driver with idleCycles := idle }) ∧
      (pending s = [0x04#8, idle, w0, w1] ∨ pending s = [0x04#8, idle, w0, w1, m0] →
        ∃ t, step s = .next t ∧ t.framing = some ⟨s.mem.rd + 4, 2⟩ ∧
          t.driver = { s.driver with idleCycles := idle, waitRetry := w1 ++ w0 }))

/-- R280: a request that arrives clears the response, sets the cursor to 0 and starts its first command; a finished
response is handed to the transport and the request buffer is cleared; with no event the block waits. -/
def Obligations.HostExchange : Prop :=
  (∀ (s : State) (bytes : List Byte) (evs : List HostEvent), s.phase = .idle →
    s.input.recv = .request bytes :: evs → bytes.length ≤ s.params.requestCapacity →
      ∃ t, step s = .next t ∧ t.mem.req = bytes ∧ t.mem.rd = 0 ∧ t.mem.resp = [] ∧ t.phase = .command ∧
        t.batch = none ∧ t.driver = s.driver ∧ t.pins = s.pins ∧ t.trace = s.trace ∧ t.sent = s.sent ∧
        t.input.recv = evs) ∧
  (∀ s : State, s.phase = .respond → s.input.sendFail.head? ≠ some true →
    ∃ t, step s = .next t ∧ t.sent = s.sent ++ [s.mem.resp] ∧ t.mem.req = [] ∧ t.mem.rd = 0 ∧
      t.mem.resp = s.mem.resp ∧ t.phase = .idle ∧ t.driver = s.driver ∧ t.pins = s.pins ∧ t.trace = s.trace ∧
      t.input = { s.input with sendFail := s.input.sendFail.tail }) ∧
  (∀ s : State, s.phase = .idle → s.input.recv = [] → step s = .next s)

/-- R329, R350: a transport disconnect, and a failing `send`, reset Driver State to R50, clear the buffers, leave the pins
unspecified and emit nothing. A response whose `send` fails is not counted as sent (the model's choice, log 31). -/
def Obligations.DisconnectResets : Prop :=
  ∀ s : State,
    (s.phase = .idle ∧ (∃ evs, s.input.recv = .disconnect :: evs) ∨ s.phase = .respond ∧ s.input.sendFail.head? = some true) →
      ∃ t, step s = .next t ∧
        t.driver = Driver.reset s.params (halfDelayOf s.params.defaultClockHz) ∧
        t.mem.req = [] ∧ t.mem.rd = 0 ∧ t.mem.resp = [] ∧ t.pins = Pins.unspecified ∧ t.phase = .idle ∧
        t.trace = s.trace ∧ t.sent = s.sent ∧ t.params = s.params

/-- A host event is taken only between requests (R79, R329): a step anywhere else neither takes one nor depends on which
are waiting. -/
def Obligations.EventsOnlyBetweenRequests : Prop :=
  ∀ s t : State, s.phase ≠ .idle → step s = .next t →
    t.input.recv = s.input.recv ∧
      ∀ evs : List HostEvent,
        step { s with input := { s.input with recv := evs } } = .next { t with input := { t.input with recv := evs } }

/-- R50: the values Driver State, buffers and pins hold after init, and after a transport disconnect: the table's values,
where those of the named parameters of R8 (the default clock, the reset values of `swd_config` and `transfer_config`) are
what the machine's parameters hold, which State.reset takes from the table. -/
def Obligations.ResetValues : Prop :=
  (ResetTable State.reset ∧ DecidedReset State.reset) ∧
  (∀ (s : State) (evs : List HostEvent), s.phase = .idle → s.input.recv = .disconnect :: evs →
    ∃ t, step s = .next t ∧ ResetTable t ∧ t.params = s.params ∧
      (s.params.defaultClockHz = 1000000#32 → s.params.configDefaults = ⟨0#2, false, 0#8, 100#16, 0#16, 0#32⟩ →
        DecidedReset t))

/-- R285: a code that no rule of the spec gives a meaning is refused by name; one known to be unimplemented is answered
0xff, and no further byte of the request is read (R284). -/
def Obligations.CodesWithoutRule : Prop :=
  ∀ (s : State) (code : Byte) (rest : List Byte), s.phase = .command → isNestedBatch s = false →
    pending s = code :: rest →
    code ∉ [0x02#8, 0x03#8, 0x04#8, 0x05#8, 0x06#8, 0x11#8, 0x13#8, 0x15#8, 0x7f#8] →
      (code ∉ s.params.unimplemented → step s = .refused (.commandWithoutRule code)) ∧
      (code ∈ s.params.unimplemented → Fits s 1 →
        ∃ t, step s = .next t ∧ t.mem.resp = s.mem.resp ++ [0xff#8] ∧ t.mem.rd = s.mem.rd + 1 ∧
          t.phase = .respond ∧ t.driver = s.driver ∧ t.pins = s.pins ∧ t.trace = s.trace)

/-- R282: inside a batch the codes 0x7f and 0x7e are answered 0xff and end the request, without a byte after the code
being read. -/
def Obligations.NestedBatchRefused : Prop :=
  ∀ (s : State) (k : Nat) (code : Byte) (rest : List Byte), s.phase = .command → s.batch = some k →
    pending s = code :: rest → (code = 0x7f#8 ∨ code = 0x7e#8) → Fits s 1 →
      ∃ t, step s = .next t ∧ t.mem.resp = s.mem.resp ++ [0xff#8] ∧ t.mem.rd = s.mem.rd + 1 ∧ t.phase = .respond ∧
        t.driver = s.driver ∧ t.pins = s.pins ∧ t.trace = s.trace

/-! ### Commands -/

/-- R287: Connect selects the port, sets the pins and answers the port; an unlisted value answers 0 and changes nothing.
No cycle is emitted. Issuing it twice with the same argument gives the same response bytes and the same final pins and
Driver State as issuing it once. -/
def Obligations.ConnectSelects : Prop :=
  (∀ s : State, Fits s 2 → s.input.dirFail = none →
    (∀ p : Byte, p = 0#8 ∨ p = 2#8 → exec (.connect p) s = .next (endCommand { s with
      driver := { s.driver with port := .jtag }
      pins := { clk := .high, tms := .high, tdi := .high, swdioOut := .high, swdioOe := .high }
      mem := { s.mem with resp := s.mem.resp ++ [0x02#8, 2#8] } })) ∧
    exec (.connect 1#8) s = .next (endCommand { s with
      driver := { s.driver with port := .swd }
      pins := { s.pins with clk := .high, swdioOut := .high, swdioOe := .high }
      mem := { s.mem with resp := s.mem.resp ++ [0x02#8, 1#8] } }) ∧
    (∀ p : Byte, 3 ≤ p.toNat → exec (.connect p) s = .next (endCommand { s with
      mem := { s.mem with resp := s.mem.resp ++ [0x02#8, 0#8] } }))) ∧
  (∀ (s t u : State) (p : Byte), s.input.dirFail = none → Fits s 4 →
    exec (.connect p) s = .next t → exec (.connect p) t = .next u →
      u.pins = t.pins ∧ u.driver = t.driver ∧ u.trace = s.trace ∧
        ∃ r, t.mem.resp = s.mem.resp ++ r ∧ u.mem.resp = t.mem.resp ++ r)

/-- A direction change sets SWDIO's direction and level without a cycle (R155); when its draw fails the run ends in Fatal
(R326), as it does in Connect and Disconnect, and inside a packet: at its SwdOutDisable, which draws first, and at its SwdOutEnable
after the ACK, which draws second (R202). So end the operations (R230, R233, R247), the requests of a Transfer (R243; a MASK where a
read is outstanding, or where it is the last one and a write is still to be checked, R252) and the blocks (R260) whose first packet it
is. A packet whose two draws succeed completes as one without a failure to come, whatever comes later. That failures come by the
schedule `dirFail`, and that Connect and Disconnect take one draw each, is the model's choice (log 3). -/
def Obligations.DirectionChanges : Prop :=
  (∀ (s : State) (v : Bool) (p : Byte),
    (s.input.dirFail = none →
      exec (.swdOutEnable v) s =
          .next { s with pins := { s.pins with swdioOut := if v then .high else .low, swdioOe := .high } } ∧
        exec .swdOutDisable s = .next { s with pins := { s.pins with swdioOe := .low } }) ∧
    (s.input.dirFail = some 0 →
      exec (.swdOutEnable v) s = .fault .fatal ∧ exec .swdOutDisable s = .fault .fatal ∧
        exec .disconnect s = .fault .fatal ∧ (p.toNat ≤ 2 → exec (.connect p) s = .fault .fatal))) ∧
  (∀ (s : State) (req : Byte) (w : Word), s.input.dirFail = none →
    ∃ t, exec (.swdPacket req w) s = .next t ∧ t.input.dirFail = none ∧ ∀ k : Nat,
      exec (.swdPacket req w) { s with input := { s.input with dirFail := some (k + 2) } } =
        .next { t with input := { t.input with dirFail := some k } }) ∧
  (∀ (s : State) (req : Byte) (w : Word), s.input.dirFail = some 0 ∨ s.input.dirFail = some 1 →
    exec (.swdPacket req w) s = .fault .fatal ∧
      (s.driver.port = .swd →
        exec (.transferOp req w) s = .fault .fatal ∧ exec (.transferRetry req w) s = .fault .fatal ∧
          exec (.matchRead req w) s = .fault .fatal ∧
          (∀ i : Instr, s.work.draining = false → plainRequest i ≠ none ∨ matchRequest i ≠ none →
            exec i s = .fault .fatal) ∧
          (s.work.draining = false → s.work.postRead = true ∨ s.work.checkWrite = true ∧ s.work.left ≤ 1 →
            exec (.mask w) s = .fault .fatal) ∧
          ∀ (ap : Bool) (a : RegAddr), Fits s 4 → s.work.blockCount ≠ 0#16 →
            exec (.tbRead ap a) s = .fault .fatal ∧
              (s.mem.rd + 4 ≤ s.mem.req.length → exec (.tbWrite ap a) s = .fault .fatal)))

/-- R288: Disconnect disables the port, releases SWDIO, leaves the other levels unspecified and answers `03 00`. -/
def Obligations.DisconnectReleases : Prop :=
  ∀ s : State, Fits s 2 → s.input.dirFail = none →
    exec .disconnect s = .next (endCommand { s with
      driver := { s.driver with port := .disabled }
      pins := { clk := .unknown, tms := .unknown, tdi := .unknown, swdioOut := .unknown, swdioOe := .low }
      mem := { s.mem with resp := s.mem.resp ++ [0x03#8, 0x00#8] } })

/-- R290: Transfer Configure stores the three values unclamped and answers `04 00`, in every port state. -/
def Obligations.XferCfgStores : Prop :=
  ∀ (s : State) (idle : Byte) (wait mtch : Half), Fits s 2 →
    exec (.xferCfg idle wait mtch) s = .next (endCommand { s with
      driver := { s.driver with idleCycles := idle, waitRetry := wait, matchRetry := mtch }
      mem := { s.mem with resp := s.mem.resp ++ [0x04#8, 0x00#8] } })

/-- R291: SWJ Clock sets the rate and its half-cycle delay together and answers `11 00`; rate 0 is answered `11 ff` and
changes nothing. -/
def Obligations.SwjClockSets : Prop :=
  ∀ s : State, Fits s 2 →
    (∀ c : Word, c ≠ 0#32 → exec (.swjClock c) s = .next (endCommand { s with
      driver := { s.driver with clockRate := c, halfDelay := BitVec.ofNat 32 (500000000 / c.toNat) }
      mem := { s.mem with resp := s.mem.resp ++ [0x11#8, 0x00#8] } })) ∧
    exec (.swjClock 0#32) s = .next (endCommand { s with
      mem := { s.mem with resp := s.mem.resp ++ [0x11#8, 0xff#8] } })

/-- R292: SWD Configure sets the turnaround to bits [1:0] plus 1 and the data phase to bit 2, at every byte value, and
answers `13 00`. -/
def Obligations.SwdCfgSets : Prop :=
  ∀ (s : State) (c : Byte), Fits s 2 →
    ∃ d : Driver, turnaround d = c.toNat % 4 + 1 ∧ d.dataPhase = c.getLsbD 2 ∧
      d = { s.driver with trnField := d.trnField, dataPhase := d.dataPhase } ∧
      exec (.swdCfg c) s = .next (endCommand { s with
        driver := d, mem := { s.mem with resp := s.mem.resp ++ [0x13#8, 0x00#8] } })

/-- R293: JTAG Configure reads its count and that many lengths, builds the chain with its bookkeeping and selects device
0; more than 4 devices, or an IR length 0, is answered `15 ff` and leaves the chain unchanged. -/
def Obligations.JtagCfgBuilds : Prop :=
  (∀ (n : Byte) (lens more : List Byte), lens.length = n.toNat →
    decode .command (0x15#8 :: n :: (lens ++ more)) = .instr (.jtagCfg lens) (2 + n.toNat)) ∧
  ∀ (s : State) (lens : List Byte), Fits s 2 →
    ((4 < lens.length ∨ ∃ l ∈ lens, l = 0#8) → exec (.jtagCfg lens) s = .next (endCommand { s with
      mem := { s.mem with resp := s.mem.resp ++ [0x15#8, 0xff#8] } })) ∧
    (lens.length ≤ 4 → (∀ l ∈ lens, l ≠ 0#8) →
      ∃ chain : List Device, chain.length = lens.length ∧
        (∀ (i : Nat) (d : Device), chain[i]? = some d → lens[i]? = some d.irLength ∧
          d.irBitsBefore.toNat = ((lens.take i).map BitVec.toNat).sum ∧
          d.irBitsAfter.toNat = ((lens.drop (i + 1)).map BitVec.toNat).sum) ∧
        exec (.jtagCfg lens) s = .next (endCommand { s with
          driver := { s.driver with chain := chain, index := 0#8 }
          mem := { s.mem with resp := s.mem.resp ++ [0x15#8, 0x00#8] } }))

/-- Execute Commands writes the echo header and runs its inner commands one by one (R282): the loop goes to the first of
them, or, with count 0, to the response; a command that ends inside a batch goes on with the next. Run inside a batch it
answers 0xff and ends the request. -/
def Obligations.BatchRuns : Prop :=
  (∀ (s : State) (n : Byte), s.batch = none → Fits s 2 →
    exec (.execCommands n) s = .next { s with
      work := Work.initial
      mem := { s.mem with resp := s.mem.resp ++ [0x7f#8, n] }
      phase := if n = 0#8 then .respond else .command
      batch := some (n.toNat - 1) }) ∧
  (∀ (s : State) (n : Byte) (k : Nat), s.batch = some k → Fits s 1 →
    ∃ t, exec (.execCommands n) s = .next t ∧ t.phase = .respond ∧ t.mem.resp = s.mem.resp ++ [0xff#8] ∧
      t.driver = s.driver) ∧
  (∀ (s : State) (k : Nat), s.batch = some (k + 1) →
    endCommand s = { s with work := Work.initial, phase := .command, batch := some k }) ∧
  (∀ s : State, s.batch = none ∨ s.batch = some 0 →
    endCommand s = { s with work := Work.initial, phase := .respond })

/-- The frame of the commands: the configuration commands, Execute Commands and Transfer Block's header move no pin, emit
no cycle and draw nothing; Connect and Disconnect emit no cycle and write of Driver State only the port. All of them leave
the request's bytes and the cursor, and append to the response. A command that ends in a FramingError (a full response)
has been as quiet before it. -/
def Obligations.CommandFrame : Prop :=
  ∀ (s t : State) (i : Instr), exec i s = .next t →
    ((∃ a b c, i = .xferCfg a b c) ∨ (∃ c, i = .swjClock c) ∨ (∃ c, i = .swdCfg c) ∨ (∃ l, i = .jtagCfg l) ∨
        (∃ n, i = .execCommands n) ∨ (∃ a n, i = .transferBlock a n) →
      (QuietFrame s t ∧ t.mem.req = s.mem.req ∧ t.mem.rd = s.mem.rd ∧ s.mem.resp <+: t.mem.resp ∧
        t.driver.port = s.driver.port ∧ t.driver.matchMask = s.driver.matchMask) ∨
      ∃ e u, t = takeFramingError e u ∧ QuietFrame s u ∧ u.mem.req = s.mem.req ∧ u.mem.rd = s.mem.rd) ∧
    ((∃ p, i = .connect p) ∨ i = .disconnect →
      (t.trace = s.trace ∧ t.taps = s.taps ∧ t.params = s.params ∧ t.sent = s.sent ∧ t.ret = s.ret ∧
        t.free = s.free ∧ t.driver = { s.driver with port := t.driver.port } ∧ t.mem.req = s.mem.req ∧
        t.mem.rd = s.mem.rd ∧ s.mem.resp <+: t.mem.resp ∧
        t.input = { s.input with dirFail := t.input.dirFail }) ∨
      ∃ e u, t = takeFramingError e u ∧ u.trace = s.trace ∧ u.driver = { s.driver with port := u.driver.port })

/-! ### Bit Engine -/

/-- The five cycle primitives emit exactly one record each, with the clock left high (R156 to R160). A sample is the
target's next queued answer; where none is queued it is a free value, and the same holds of it (the model's choice, log
2). A write cycle and a read cycle record the `oe` their pseudocode writes also where SWDIO_OE is not as they require (the
model's choice, log 11). -/
def Obligations.CycleRecords : Prop :=
  ∀ s : State,
    (s.pins.swdioOe = .low → exec .clockCycle s = .next { s with
      pins := { s.pins with clk := .high }
      trace := s.trace ++ [.swd false none none s.driver.halfDelay] }) ∧
    (∀ v : Bool, s.pins.swdioOe = .high → s.pins.swdioOut = (if v then .high else .low) →
      exec .clockCycle s = .next { s with
        pins := { s.pins with clk := .high }
        trace := s.trace ++ [.swd true (some v) none s.driver.halfDelay] }) ∧
    (∀ b : Bool, exec (.writeCycle b) s = .next { s with
      pins := { s.pins with swdioOut := if b then .high else .low, clk := .high }
      trace := s.trace ++ [.swd true (some b) none s.driver.halfDelay] }) ∧
    (∃ (b : Bool) (q : List Bool), exec .readCycle s = .next { s with
        pins := { s.pins with clk := .high }
        trace := s.trace ++ [.swd false none (some b) s.driver.halfDelay]
        input := { s.input with swdio := q, swdioDrawn := s.input.swdioDrawn + 1 }
        ret := { s.ret with bit := b } } ∧
      (∀ a as, s.input.swdio = a :: as → b = a ∧ q = as) ∧
      (s.input.swdio = [] → b = Config.swdio s.input.swdioDrawn ∧ q = [])) ∧
    (∀ w : Bool, ∃ (b : Bool) (q : List Bool), (s.pins.swdioOe ≠ .unknown →
        exec (.readWriteCycle w) s = .next { s with
          pins := { s.pins with swdioOut := if w then .high else .low, clk := .high }
          trace := s.trace ++ [.swd (decide (s.pins.swdioOe = .high))
            (if s.pins.swdioOe = .high then some w else none) (some b) s.driver.halfDelay]
          input := { s.input with swdio := q, swdioDrawn := s.input.swdioDrawn + 1 }
          ret := { s.ret with bit := b } }) ∧
      (∀ a as, s.input.swdio = a :: as → b = a ∧ q = as) ∧
      (s.input.swdio = [] → b = Config.swdio s.input.swdioDrawn ∧ q = [])) ∧
    (∀ tms tdi : Bool, ∃ (b : Bool) (q : List Bool), exec (.jcycle tms tdi) s = .next { s with
        pins := { s.pins with tms := if tms then .high else .low, tdi := if tdi then .high else .low, clk := .high }
        trace := s.trace ++ [.jtag tms tdi b s.driver.halfDelay]
        taps := s.taps.map (Tap.next tms)
        input := { s.input with tdo := q, tdoDrawn := s.input.tdoDrawn + 1 }
        ret := { s.ret with bit := b } } ∧
      (∀ a as, s.input.tdo = a :: as → b = a ∧ q = as) ∧
      (s.input.tdo = [] → b = Config.tdo s.input.tdoDrawn ∧ q = []))

/-- R152: for every rate of at least 1 the half-cycle delay is floor(floor(10^9 / rate) / 2) = floor(5*10^8 / rate); it is
stored in `half_cycle_delay`. -/
def Obligations.HalfDelayFloor : Prop :=
  ∀ (s : State) (rate : Word), rate ≠ 0#32 →
    ∃ t, exec (.halfDelay rate) s = .next t ∧
      t.driver.halfDelay.toNat = 1000000000 / rate.toNat / 2 ∧
      t.driver.halfDelay.toNat = 500000000 / rate.toNat ∧
      t = { s with driver := { s.driver with halfDelay := t.driver.halfDelay }
                   ret := { s.ret with data := t.driver.halfDelay } }

/-- The header of a port request is clocked out as 8 driven cycles, start bit first: start 1, APnDP, RnW, A2, A3, their
XOR, stop 0, park 1 (R77, R114, R202). The header a packet sends for a request byte is that of its bits [3:0], and its bits
from 0 up are those eight (R111, R114). -/
def Obligations.HeaderCycles : Prop :=
  (∀ req : Byte, swdHeaderOf req = headerByte (req.extractLsb' 0 4) ∧
    bitsOf (swdHeaderOf req) = [true, req.getLsbD 0, req.getLsbD 1, req.getLsbD 2, req.getLsbD 3,
      (req.getLsbD 0 ^^ req.getLsbD 1 ^^ req.getLsbD 2 ^^ req.getLsbD 3), false, true]) ∧
  ∀ (s : State) (r : BitVec 4),
    ∃ t, exec (.swdHeader r) s = .next t ∧
      t.trace = s.trace ++ ([true, r.getLsbD 0, r.getLsbD 1, r.getLsbD 2, r.getLsbD 3,
        (r.getLsbD 0 ^^ r.getLsbD 1 ^^ r.getLsbD 2 ^^ r.getLsbD 3), false, true].map
          fun b => Cycle.swd true (some b) none s.driver.halfDelay) ∧
      t.pins = { s.pins with clk := .high, swdioOut := .high } ∧
      t = { s with pins := t.pins, trace := t.trace }

/-! ### JTAG Scan Engine -/

/-- R175: the Set-IR scan of the selected device: TMS 1 1 0 0, the B + L + A bits with TMS = 1 on the last, TMS 1 0; in
`T + 6` cycles, the sampled bits discarded. Driver State, buffers and working state are unchanged. -/
def Obligations.SetIrScan : Prop :=
  ∀ (s : State) (ir : Byte) (d : Device), s.driver.chain[s.driver.index.toNat]? = some d → d.irLength ≠ 0#8 →
    ∃ t samples bits, exec (.setIr ir) s = .next t ∧ WireFrame s t ∧
      bits = List.replicate d.irBitsBefore.toNat true ++ (List.range d.irLength.toNat).map (fun k => ir.getLsbD k) ++
        List.replicate d.irBitsAfter.toNat true ∧
      samples.length = bits.length + 6 ∧
      t.trace = s.trace ++ jtagRecords
        ([(true, true), (true, true), (false, true), (false, true)] ++
          (bits.zipIdx.map fun b => (decide (b.2 + 1 = bits.length), b.1)) ++ [(true, true), (false, true)])
        samples s.driver.halfDelay ∧
      t.trace.length =
        s.trace.length + d.irBitsBefore.toNat + d.irLength.toNat + d.irBitsAfter.toNat + 6

/-- What the scans shift while a TAP that starts in Run-Test/Idle is in its shift state (R171, R176, R180, R185), read off the
TMS and TDI of the records they emit: a Set-IR scan shifts, in Shift-IR, B ones, the L low bits of the value and A ones; a transfer scan shifts, in
Shift-DR, one bypass bit for each device before the target, RnW, A2, A3, and then, on an OK ACK, the 32 data bits (ones for a read)
and one bypass bit for each device after it, else the one bit of the cycle that leaves Shift-DR; the plain read shifts ones: its
bypass bits and 32. Nothing is shifted in the other column. -/
def Obligations.ScanBitsPlaced : Prop :=
  (∀ (s : State) (ir : Byte) (d : Device), s.driver.chain[s.driver.index.toNat]? = some d → d.irLength ≠ 0#8 →
    ∃ t cs, exec (.setIr ir) s = .next t ∧ t.trace = s.trace ++ cs ∧
      tdiShiftedIn .shiftIr .runTestIdle (tmsTdiOf cs) =
        List.replicate d.irBitsBefore.toNat true ++ (List.range d.irLength.toNat).map (fun k => ir.getLsbD k) ++
          List.replicate d.irBitsAfter.toNat true ∧
      tdiShiftedIn .shiftDr .runTestIdle (tmsTdiOf cs) = []) ∧
  (∀ (s : State) (req : Byte) (w : Word), s.driver.index.toNat < s.driver.chain.length →
    ∃ t cs, exec (.jtagTransferScan req w) s = .next t ∧ t.trace = s.trace ++ cs ∧
      tdiShiftedIn .shiftDr .runTestIdle (tmsTdiOf cs) =
        List.replicate s.driver.index.toNat true ++ [req.getLsbD 1, req.getLsbD 2, req.getLsbD 3] ++
          (if t.ret.res = 1#8 then
            (if req.getLsbD 1 then List.replicate 32 true else (List.range 32).map (fun k => w.getLsbD k)) ++
              List.replicate (s.driver.chain.length - 1 - s.driver.index.toNat) true
          else [true]) ∧
      tdiShiftedIn .shiftIr .runTestIdle (tmsTdiOf cs) = []) ∧
  (∀ s : State, s.driver.index.toNat < s.driver.chain.length →
    ∃ t cs, exec .readDr32 s = .next t ∧ t.trace = s.trace ++ cs ∧
      tdiShiftedIn .shiftDr .runTestIdle (tmsTdiOf cs) = List.replicate (s.driver.index.toNat + 32) true ∧
      tdiShiftedIn .shiftIr .runTestIdle (tmsTdiOf cs) = [])

/-- R180: the plain read of device i takes i + 37 cycles, TDI held at 1, and returns the 32 TDO bits after the i bypass
bits, bit 0 first. -/
def Obligations.ReadDrWord : Prop :=
  ∀ (s : State) (v : Word) (pre post rest : List Bool), s.driver.index.toNat < s.driver.chain.length →
    pre.length = s.driver.index.toNat + 3 → post.length = 2 →
    s.input.tdo = pre ++ bitsOf v ++ post ++ rest →
      ∃ t, exec .readDr32 s = .next t ∧ t.ret.data = v ∧ t.input.tdo = rest ∧
        t.trace = s.trace ++ jtagRecords
          ([(true, true), (false, true), (false, true)] ++ List.replicate s.driver.index.toNat (false, true) ++
            List.replicate 31 (false, true) ++ [(true, true)] ++ [(true, true), (false, true)])
          (pre ++ bitsOf v ++ post) s.driver.halfDelay ∧
        t.trace.length = s.trace.length + s.driver.index.toNat + 37 ∧
        WireFrame s { t with ret := s.ret }

/-- A transfer scan answered OK (R173, R185, R186, R187): to Shift-DR, one bypass cycle for each device before the target,
RnW, A2, A3, the 32 data bits (ones for a read) and one bypass bit for each device after it with TMS = 1 on the last of
them, Update, Idle and the idle cycles, TDI = 1 wherever no data is given; N + 39 + idle cycles; the ACK 0 1 0 maps to 1 and the word
is the 32 TDO bits after it. -/
def Obligations.TransferScanOk : Prop :=
  ∀ (s : State) (req : Byte) (w v : Word) (pre post rest : List Bool),
    s.driver.index.toNat < s.driver.chain.length →
    pre.length = s.driver.index.toNat + 3 →
    post.length = s.driver.chain.length - 1 - s.driver.index.toNat + 2 + s.driver.idleCycles.toNat →
    s.input.tdo = jtagOkAnswer pre v post ++ rest →
      ∃ t bits, exec (.jtagTransferScan req w) s = .next t ∧ t.ret.res = 1#8 ∧ t.ret.data = v ∧ t.input.tdo = rest ∧
        bits = (if req.getLsbD 1 then List.replicate 32 true else (List.range 32).map (fun k => w.getLsbD k)) ++
          List.replicate (s.driver.chain.length - 1 - s.driver.index.toNat) true ∧
        t.trace = s.trace ++ jtagRecords
          ([(true, true), (false, true), (false, true)] ++ List.replicate s.driver.index.toNat (false, true) ++
            [(false, req.getLsbD 1), (false, req.getLsbD 2), (false, req.getLsbD 3)] ++
            (bits.zipIdx.map fun b => (decide (b.2 + 1 = bits.length), b.1)) ++
            [(true, true), (false, true)] ++ List.replicate s.driver.idleCycles.toNat (false, true))
          (jtagOkAnswer pre v post) s.driver.halfDelay ∧
        t.trace.length = s.trace.length + s.driver.chain.length + 39 + s.driver.idleCycles.toNat ∧
        WireFrame s { t with ret := s.ret }

/-- A transfer scan whose ACK is not OK is cut short (R185, R187): i + 9 + idle cycles, no data bit shifted, and the ACK
returned is `2*t0 + t1 + 4*t2`. -/
def Obligations.TransferScanNotOk : Prop :=
  ∀ (s : State) (req : Byte) (w : Word) (pre rest : List Bool) (t0 t1 t2 : Bool),
    s.driver.index.toNat < s.driver.chain.length → pre.length = s.driver.index.toNat + 3 →
    (t0, t1, t2) ≠ (false, true, false) → s.input.tdo = pre ++ [t0, t1, t2] ++ rest →
      ∃ t samples, exec (.jtagTransferScan req w) s = .next t ∧
        t.ret.res.toNat = 2 * t0.toNat + t1.toNat + 4 * t2.toNat ∧
        samples.length = 3 + s.driver.idleCycles.toNat ∧
        t.trace = s.trace ++ jtagRecords
          ([(true, true), (false, true), (false, true)] ++ List.replicate s.driver.index.toNat (false, true) ++
            [(false, req.getLsbD 1), (false, req.getLsbD 2), (false, req.getLsbD 3)] ++
            [(true, true), (true, true), (false, true)] ++
            List.replicate s.driver.idleCycles.toNat (false, true))
          (pre ++ [t0, t1, t2] ++ samples) s.driver.halfDelay ∧
        t.trace.length = s.trace.length + s.driver.index.toNat + 9 + s.driver.idleCycles.toNat ∧
        WireFrame s { t with ret := s.ret }

/-- R170: every scan that starts with every TAP in Run-Test/Idle ends with every TAP in Run-Test/Idle. -/
def Obligations.ScansReturnToIdle : Prop :=
  ∀ (s t : State) (i : Instr), TapsIdle s → (∀ d ∈ s.driver.chain, d.irLength ≠ 0#8) → exec i s = .next t →
    ((∃ ir, i = .setIr ir) ∨ i = .readDr32 ∨ (∃ q w, i = .jtagTransferScan q w) ∨ (∃ q w, i = .transferOp q w) ∨
        (∃ q w, i = .transferRetry q w) ∨ (∃ q v, i = .matchRead q v)) → TapsIdle t

/-- A scan of a device outside the chain stops by name, which R172 says no caller starts (the model's choice, log 12). -/
def Obligations.ScanIndexStops : Prop :=
  ∀ (s : State) (ir req : Byte) (w : Word), s.driver.chain.length ≤ s.driver.index.toNat →
    exec (.setIr ir) s = .fault .scanIndexOutOfRange ∧ exec .readDr32 s = .fault .scanIndexOutOfRange ∧
      exec (.jtagTransferScan req w) s = .fault .scanIndexOutOfRange

/-! ### SWD Packet Engine -/

/-- A read packet answered OK (R202, R205, R206): header, turnaround, ACK, 32 data bits and parity read, turnaround, idle
clocks; result 1 or, on wrong parity, 0x08; the word returned either way; the line parked. -/
def Obligations.PacketReads : Prop :=
  ∀ (s : State) (req : Byte) (w v : Word) (p : Bool) (rest : List Bool), req.getLsbD 1 = true →
    s.input.dirFail = none → s.input.swdio = swdReadAnswer v p ++ rest →
      ∃ t, exec (.swdPacket req w) s = .next t ∧
        t.ret.res = (if p = dataParity v then 1#8 else 0x08#8) ∧ t.ret.data = v ∧
        t.trace = s.trace ++ readPacket s.driver req v p ∧
        t.trace.length = s.trace.length + 44 + 2 * turnaround s.driver + s.driver.idleCycles.toNat ∧
        t.input.swdio = rest ∧ Parked t ∧ WireFrame s { t with ret := s.ret }

/-- A write packet answered OK (R202, R205): the turnaround comes before the data, the data carries its even parity,
result 1; the line parked. The parity bit of a word, written or checked, is the number of its set bits mod 2 (R205), and its
data bits are sent bit 0 first (R77). -/
def Obligations.PacketWrites : Prop :=
  (∀ v : Word, (dataParity v).toNat = ((List.range 32).countP fun k => v.getLsbD k) % 2 ∧
    (bitsOf v).length = 32 ∧ ∀ k, k < 32 → (bitsOf v)[k]? = some (v.getLsbD k)) ∧
  ∀ (s : State) (req : Byte) (w : Word) (rest : List Bool), req.getLsbD 1 = false →
    s.input.dirFail = none → s.input.swdio = swdOkWrite ++ rest →
      ∃ t, exec (.swdPacket req w) s = .next t ∧ t.ret.res = 1#8 ∧
        t.trace = s.trace ++ writePacket s.driver req w ∧
        t.trace.length = s.trace.length + 44 + 2 * turnaround s.driver + s.driver.idleCycles.toNat ∧
        t.input.swdio = rest ∧ Parked t ∧ WireFrame s { t with ret := s.ret }

/-- A packet answered WAIT or FAULT (R202): without the data phase only the turnaround follows the ACK; with it 33 dummy
cycles, released and before the turnaround on a read, driven low and after it on a write; the ACK is the result; the line
parked. -/
def Obligations.PacketWaitsOrFaults : Prop :=
  ∀ (s : State) (req : Byte) (w : Word) (a : Bool) (rest : List Bool),
    s.input.dirFail = none → s.input.swdio = [false, a, !a] ++ rest →
      ∃ t, exec (.swdPacket req w) s = .next t ∧ t.ret.res = (if a then 2#8 else 4#8) ∧
        t.trace = s.trace ++ packetHead s.driver req [false, a, !a] ++
          (if s.driver.dataPhase && req.getLsbD 1 then releasedRecords 33 s.driver.halfDelay else []) ++
          releasedRecords (turnaround s.driver) s.driver.halfDelay ++
          (if s.driver.dataPhase && !req.getLsbD 1 then
            writeRecords (List.replicate 33 false) s.driver.halfDelay else []) ∧
        t.trace.length = s.trace.length + (if s.driver.dataPhase then 44 else 11) + 2 * turnaround s.driver ∧
        t.input.swdio = rest ∧ Parked t ∧ WireFrame s { t with ret := s.ret }

/-- A packet whose ACK is a protocol error (R120, R202): trn + 33 released clocks, the raw ACK is the result, the line
parked. -/
def Obligations.PacketProtocolErrors : Prop :=
  ∀ (s : State) (req : Byte) (w : Word) (a0 a1 a2 : Bool) (rest : List Bool),
    (a0, a1, a2) ≠ (true, false, false) → (a0, a1, a2) ≠ (false, true, false) →
    (a0, a1, a2) ≠ (false, false, true) →
    s.input.dirFail = none → s.input.swdio = [a0, a1, a2] ++ rest →
      ∃ t, exec (.swdPacket req w) s = .next t ∧ t.ret.res.toNat = a0.toNat + 2 * a1.toNat + 4 * a2.toNat ∧
        t.trace = s.trace ++ packetHead s.driver req [a0, a1, a2] ++
          releasedRecords (turnaround s.driver + 33) s.driver.halfDelay ∧
        t.trace.length = s.trace.length + 44 + 2 * turnaround s.driver ∧
        t.input.swdio = rest ∧ Parked t ∧ WireFrame s { t with ret := s.ret }

/-- The frame of the wire operations: a packet and the scans change pins, trace, observer and the inputs drawn, and
nothing else but the values they return; a packet clocks no TAP and leaves the line parked (R200, R201). -/
def Obligations.WireOperationsFrame : Prop :=
  ∀ (s t : State) (i : Instr), exec i s = .next t →
    ((∃ q w, i = .swdPacket q w) → t.taps = s.taps ∧ Parked t) ∧
    ((∃ q w, i = .swdPacket q w) ∨ (∃ r, i = .swdHeader r) ∨ (∃ ir, i = .setIr ir) ∨ i = .readDr32 ∨
        (∃ q w, i = .jtagTransferScan q w) ∨ i = .clockCycle ∨ (∃ b, i = .writeCycle b) ∨ i = .readCycle ∨
        (∃ b, i = .readWriteCycle b) ∨ (∃ v, i = .swdOutEnable v) ∨ i = .swdOutDisable ∨
        (∃ m d, i = .jcycle m d) → WireFrame s { t with ret := s.ret } ∧ TraceGrows s t) ∧
    ((∃ q w, i = .transferOp q w) ∨ (∃ q w, i = .transferRetry q w) ∨ (∃ q v, i = .matchRead q v) →
      TransferFrame s { t with ret := s.ret } ∧ TraceGrows s t)

/-! ### Transfer Engine -/

/-- R230: a transfer is the packet on SWD; on JTAG it is the transfer scan, preceded by a Set-IR scan exactly when the IR
cache does not hold the instruction the APnDP bit picks, which it then holds; on a disabled port, where no caller issues
one, it stops by name (log 12). -/
def Obligations.TransferDispatches : Prop :=
  (∀ (s : State) (req : Byte) (w : Word), s.driver.port = .swd →
    exec (.transferOp req w) s = exec (.swdPacket req w) s) ∧
  (∀ (s : State) (req : Byte) (w : Word), s.driver.port = .jtag →
    s.work.irCache = some (if req.getLsbD 0 then .apacc else .dpacc) →
      exec (.transferOp req w) s = exec (.jtagTransferScan req w) s) ∧
  (∀ (s : State) (req : Byte) (w : Word), s.driver.port = .disabled →
    exec (.transferOp req w) s = .fault .transferWhileDisabled) ∧
  (∀ (s : State) (req : Byte) (w v : Word) (d : Device) (irs pre post rest : List Bool), s.driver.port = .jtag →
    s.work.irCache ≠ some (if req.getLsbD 0 then .apacc else .dpacc) → selected s.driver = some d →
    irs.length = d.irBitsBefore.toNat + d.irLength.toNat + d.irBitsAfter.toNat + 6 →
    pre.length = s.driver.index.toNat + 3 →
    post.length = s.driver.chain.length - 1 - s.driver.index.toNat + 2 + s.driver.idleCycles.toNat →
    s.input.tdo = irs ++ jtagOkAnswer pre v post ++ rest →
      ∃ t, exec (.transferOp req w) s = .next t ∧ t.ret.res = 1#8 ∧ t.ret.data = v ∧
        t.work = { s.work with irCache := some (if req.getLsbD 0 then .apacc else .dpacc) } ∧
        t.trace = s.trace ++
          jtagRecords (setIrLines d (if req.getLsbD 0 then 0x0b#8 else 0x0a#8)) irs s.driver.halfDelay ++
          jtagRecords (okScanCycles s.driver req w) (jtagOkAnswer pre v post) s.driver.halfDelay ∧
        t.driver = s.driver ∧ t.mem = s.mem) ∧
  (∀ (s : State) (req : Byte) (w v : Word) (rest : List Bool), s.driver.port = .swd → req.getLsbD 1 = true →
    s.input.dirFail = none → s.input.swdio = swdOkRead v ++ rest →
      ∃ t, exec (.transferOp req w) s = .next t ∧ t.ret.res = 1#8 ∧ t.ret.data = v)

/-- R233: while the target answers WAIT the transfer is tried again, `wait_retry_limit + 1` times in all: after k WAITs,
k at most the limit, an OK answer is the result; after `limit + 1` WAITs the result is WAIT. On SWD every attempt emits the
whole packet of the same request. On JTAG every attempt emits its scan, cut short on a WAIT, and only the first is
preceded by a Set-IR scan, where the IR does not hold the space. -/
def Obligations.RetryCounts : Prop :=
  (∀ (s : State) (req : Byte) (w v : Word) (k : Nat) (rest : List Bool), s.driver.port = .swd →
    s.input.dirFail = none → k ≤ s.driver.waitRetry.toNat →
    s.input.swdio = (List.replicate k [false, true, false]).flatten ++
      (if req.getLsbD 1 then swdOkRead v else swdOkWrite) ++ rest →
      ∃ t, exec (.transferRetry req w) s = .next t ∧ t.ret.res = 1#8 ∧ (req.getLsbD 1 = true → t.ret.data = v) ∧
        t.input.swdio = rest ∧
        t.trace = s.trace ++ (List.replicate k (refusedPacket s.driver req [false, true, false])).flatten ++
          (if req.getLsbD 1 then readPacket s.driver req v (dataParity v) else writePacket s.driver req w) ∧ Parked t) ∧
  (∀ (s : State) (req : Byte) (w : Word) (rest : List Bool), s.driver.port = .swd →
    s.input.dirFail = none →
    s.input.swdio = (List.replicate (s.driver.waitRetry.toNat + 1) [false, true, false]).flatten ++ rest →
      ∃ t, exec (.transferRetry req w) s = .next t ∧ t.ret.res = 2#8 ∧ t.input.swdio = rest ∧
        t.trace = s.trace ++
          (List.replicate (s.driver.waitRetry.toNat + 1) (refusedPacket s.driver req [false, true, false])).flatten ∧
        Parked t) ∧
  (∀ (s : State) (req : Byte) (w v : Word) (waits : List (List Bool)) (irs pre post rest : List Bool),
    s.driver.port = .jtag → s.driver.index.toNat < s.driver.chain.length →
    waits.length ≤ s.driver.waitRetry.toNat → irs.length = (irLines s.driver s.work.irCache req).length →
    (∀ x ∈ waits, ∃ a b, x = a ++ [true, false, false] ++ b ∧ a.length = s.driver.index.toNat + 3 ∧
      b.length = 3 + s.driver.idleCycles.toNat) →
    pre.length = s.driver.index.toNat + 3 →
    post.length = s.driver.chain.length - 1 - s.driver.index.toNat + 2 + s.driver.idleCycles.toNat →
    s.input.tdo = irs ++ waits.flatten ++ jtagOkAnswer pre v post ++ rest →
      ∃ t, exec (.transferRetry req w) s = .next t ∧ t.ret.res = 1#8 ∧ t.ret.data = v ∧ t.input.tdo = rest ∧
        t.work = { s.work with irCache := some (spaceOf req) } ∧
        t.trace = s.trace ++ jtagRecords
          (irLines s.driver s.work.irCache req ++ (List.replicate waits.length (cutScanCycles s.driver req)).flatten ++
            okScanCycles s.driver req w)
          (irs ++ waits.flatten ++ jtagOkAnswer pre v post) s.driver.halfDelay) ∧
  (∀ (s : State) (req : Byte) (w : Word) (waits : List (List Bool)) (irs rest : List Bool),
    s.driver.port = .jtag → s.driver.index.toNat < s.driver.chain.length →
    waits.length = s.driver.waitRetry.toNat + 1 → irs.length = (irLines s.driver s.work.irCache req).length →
    (∀ x ∈ waits, ∃ a b, x = a ++ [true, false, false] ++ b ∧ a.length = s.driver.index.toNat + 3 ∧
      b.length = 3 + s.driver.idleCycles.toNat) →
    s.input.tdo = irs ++ waits.flatten ++ rest →
      ∃ t, exec (.transferRetry req w) s = .next t ∧ t.ret.res = 2#8 ∧ t.input.tdo = rest ∧
        t.work = { s.work with irCache := some (spaceOf req) } ∧
        t.trace = s.trace ++ jtagRecords
          (irLines s.driver s.work.irCache req ++ (List.replicate waits.length (cutScanCycles s.driver req)).flatten)
          (irs ++ waits.flatten) s.driver.halfDelay)

/-- R247: the register is polled, with one transfer of the same request each time, until the masked word matches; words
that do not match are polled past, at most `match_retry_limit` of them; after `limit + 1` the result is 0x11. A DP on SWD has
no post step; on JTAG and for an AP one transfer of the request comes first, its word not looked at. A post step or a poll that
fails ends the match read with its code. -/
def Obligations.MatchReadPolls : Prop :=
  (∀ (s : State) (req : Byte) (mv v : Word) (vs : List Word) (rest : List Bool), s.driver.port = .swd →
    req.getLsbD 0 = false → req.getLsbD 1 = true → s.input.dirFail = none →
    vs.length ≤ s.driver.matchRetry.toNat → (∀ x ∈ vs, x &&& s.driver.matchMask ≠ mv) →
    v &&& s.driver.matchMask = mv → s.input.swdio = (vs ++ [v]).flatMap swdOkRead ++ rest →
      ∃ t, exec (.matchRead req mv) s = .next t ∧ t.ret.res = 1#8 ∧ t.input.swdio = rest ∧ t.mem = s.mem ∧
        t.trace = s.trace ++ (vs ++ [v]).flatMap fun x => readPacket s.driver req x (dataParity x)) ∧
  (∀ (s : State) (req : Byte) (mv : Word) (vs : List Word) (rest : List Bool), s.driver.port = .swd →
    req.getLsbD 0 = false → req.getLsbD 1 = true → s.input.dirFail = none →
    vs.length = s.driver.matchRetry.toNat + 1 → (∀ x ∈ vs, x &&& s.driver.matchMask ≠ mv) →
    s.input.swdio = vs.flatMap swdOkRead ++ rest →
      ∃ t, exec (.matchRead req mv) s = .next t ∧ t.ret.res = 0x11#8 ∧ t.input.swdio = rest ∧ t.mem = s.mem ∧
        t.trace = s.trace ++ vs.flatMap fun x => readPacket s.driver req x (dataParity x)) ∧
  (∀ (s : State) (req : Byte) (mv v1 v : Word) (vs : List Word) (cs : List Cycle) (rest : List Bool),
    req.getLsbD 1 = true → vs.length ≤ s.driver.matchRetry.toNat → (∀ x ∈ vs, x &&& s.driver.matchMask ≠ mv) →
    v &&& s.driver.matchMask = mv → Answers s (matchPost s req v1 ++ polls req (vs ++ [v])) cs rest →
      ∃ t, exec (.matchRead req mv) s = .next t ∧ t.ret.res = 1#8 ∧ t.trace = s.trace ++ cs ∧ queue t = rest ∧
        t.mem = s.mem ∧ t.driver = s.driver ∧
        t.work = { s.work with irCache := if s.driver.port = .jtag then some (spaceOf req) else s.work.irCache }) ∧
  (∀ (s : State) (req : Byte) (mv v1 : Word) (vs : List Word) (cs : List Cycle) (rest : List Bool),
    req.getLsbD 1 = true → vs.length = s.driver.matchRetry.toNat + 1 → (∀ x ∈ vs, x &&& s.driver.matchMask ≠ mv) →
    Answers s (matchPost s req v1 ++ polls req vs) cs rest →
      ∃ t, exec (.matchRead req mv) s = .next t ∧ t.ret.res = 0x11#8 ∧ t.trace = s.trace ++ cs ∧ queue t = rest ∧
        t.mem = s.mem ∧ t.driver = s.driver ∧
        t.work = { s.work with irCache := if s.driver.port = .jtag then some (spaceOf req) else s.work.irCache }) ∧
  (∀ (s : State) (req code : Byte) (mv v1 : Word) (vs : List Word) (xs : List Access) (cs : List Cycle)
      (rest : List Bool),
    req.getLsbD 1 = true → vs.length ≤ s.driver.matchRetry.toNat → (∀ x ∈ vs, x &&& s.driver.matchMask ≠ mv) →
    (xs = [] ∨ xs = matchPost s req v1 ++ polls req vs) → AnswersThenFails s xs req code cs rest →
      ∃ t, exec (.matchRead req mv) s = .next t ∧ t.ret.res = code ∧ t.trace = s.trace ++ cs ∧ queue t = rest ∧
        t.mem = s.mem ∧ t.driver = s.driver ∧
        t.work = { s.work with irCache := if s.driver.port = .jtag then some (spaceOf req) else s.work.irCache })

/-- A DP read on SWD is immediate (R243, R248): its word is written to the response at once; an outstanding AP read is
collected first, through RDBUFF. The request is counted and `check_write` cleared. -/
def Obligations.DpReadImmediate : Prop :=
  ∀ (s : State) (a : RegAddr) (v v0 : Word) (rest : List Bool), s.driver.port = .swd → s.input.dirFail = none →
    s.work.draining = false → 2 ≤ s.work.left → Fits s 8 →
    s.input.swdio = (if s.work.postRead then swdOkRead v0 else []) ++ swdOkRead v ++ rest →
      ∃ t, exec (.dpR a) s = .next t ∧
        t.mem = { s.mem with
          resp := s.mem.resp ++ (if s.work.postRead then bytes32 v0 else []) ++ bytes32 v } ∧
        t.work = { s.work with postRead := false, checkWrite := false, completed := s.work.completed + 1#8,
                               lastAck := 1#8, left := s.work.left - 1 } ∧
        t.trace = s.trace ++
          (if s.work.postRead then readPacket s.driver 0x0e#8 v0 (dataParity v0) else []) ++
          readPacket s.driver (0x02#8 ||| (a.zeroExtend 8 <<< 2)) v (dataParity v) ∧
        t.phase = .request ∧ t.driver = s.driver ∧ t.input.swdio = rest ∧ Parked t

/-- An AP read is posted (R243, R249): on SWD the first of a run discards its packet's word and leaves the read
outstanding; a further one writes the previous read's word, and stays outstanding. -/
def Obligations.ApReadPosted : Prop :=
  ∀ (s : State) (a : RegAddr) (v : Word) (rest : List Bool), s.driver.port = .swd → s.input.dirFail = none →
    s.work.draining = false → 2 ≤ s.work.left → Fits s 4 → s.input.swdio = swdOkRead v ++ rest →
      ∃ t, exec (.apR a) s = .next t ∧
        t.mem = { s.mem with resp := s.mem.resp ++ (if s.work.postRead then bytes32 v else []) } ∧
        t.work = { s.work with postRead := true, checkWrite := false, completed := s.work.completed + 1#8,
                               lastAck := 1#8, left := s.work.left - 1 } ∧
        t.trace = s.trace ++ readPacket s.driver (0x03#8 ||| (a.zeroExtend 8 <<< 2)) v (dataParity v) ∧
        t.phase = .request ∧ t.driver = s.driver ∧ t.input.swdio = rest ∧ Parked t

/-- On JTAG every read is posted (R244, R248, R249), with a Set-IR scan before a transfer exactly when the IR does not hold
its space (R232). With no read outstanding one transfer scan posts the read. With one outstanding that the IR's space
shares, one transfer scan collects it and posts this read; with one of the other space, RDBUFF collects it first. The
collected word is written; the read stays outstanding. -/
def Obligations.JtagReadPosted : Prop :=
  ∀ (s : State) (ap : Bool) (a : RegAddr) (v v1 : Word) (ans rest : List Bool) (req : Byte) (xs : List Access),
    s.driver.port = .jtag → s.driver.index.toNat < s.driver.chain.length → s.work.draining = false → 2 ≤ s.work.left →
    Fits s 4 → req = (if ap then 0x03#8 else 0x02#8) ||| (a.zeroExtend 8 <<< 2) →
    xs = (if s.work.postRead = true ∧ s.work.irCache ≠ some (if ap then .apacc else .dpacc) then
      [⟨0x0e#8, 0#32, v⟩, ⟨req, 0#32, v1⟩] else [⟨req, 0#32, v⟩]) →
    JtagAnswers s.driver s.work.irCache xs ans → s.input.tdo = ans ++ rest →
      ∃ t, exec (if ap then .apR a else .dpR a) s = .next t ∧
        t.mem = { s.mem with resp := s.mem.resp ++ (if s.work.postRead then bytes32 v else []) } ∧
        t.work = { s.work with irCache := some (if ap then .apacc else .dpacc), postRead := true, checkWrite := false,
                               completed := s.work.completed + 1#8, lastAck := 1#8, left := s.work.left - 1 } ∧
        t.trace = s.trace ++ jtagRecords (jtagLinesOf s.driver s.work.irCache xs) ans s.driver.halfDelay ∧
        t.phase = .request ∧ t.driver = s.driver ∧ t.input.tdo = rest

/-- A write (R243, R244, R250, R251): one write transfer of the request's space with the request's word, after an
outstanding read is collected through RDBUFF. On SWD `check_write` is set. On JTAG a Set-IR scan comes before a transfer exactly
when the IR does not hold its space. -/
def Obligations.WriteRequests : Prop :=
  (∀ (s : State) (ap : Bool) (a : RegAddr) (w v0 : Word) (rest : List Bool), s.driver.port = .swd →
    s.input.dirFail = none → s.work.draining = false → 2 ≤ s.work.left → Fits s 4 →
    s.input.swdio = (if s.work.postRead then swdOkRead v0 else []) ++ swdOkWrite ++ rest →
      ∃ t, exec (if ap then .apW a w else .dpW a w) s = .next t ∧
        t.mem = { s.mem with resp := s.mem.resp ++ (if s.work.postRead then bytes32 v0 else []) } ∧
        t.work = { s.work with postRead := false, checkWrite := true, completed := s.work.completed + 1#8,
                               lastAck := 1#8, left := s.work.left - 1 } ∧
        t.trace = s.trace ++
          (if s.work.postRead then readPacket s.driver 0x0e#8 v0 (dataParity v0) else []) ++
          writePacket s.driver ((if ap then 1#8 else 0#8) ||| (a.zeroExtend 8 <<< 2)) w ∧
        t.phase = .request ∧ t.driver = s.driver ∧ t.input.swdio = rest ∧ Parked t) ∧
  (∀ (s : State) (ap : Bool) (a : RegAddr) (w v0 v1 : Word) (ans rest : List Bool) (xs : List Access),
    s.driver.port = .jtag → s.driver.index.toNat < s.driver.chain.length → s.work.draining = false → 2 ≤ s.work.left →
    Fits s 4 →
    xs = (if s.work.postRead then [⟨0x0e#8, 0#32, v0⟩] else []) ++
      [⟨(if ap then 1#8 else 0#8) ||| (a.zeroExtend 8 <<< 2), w, v1⟩] →
    JtagAnswers s.driver s.work.irCache xs ans → s.input.tdo = ans ++ rest →
      ∃ t, exec (if ap then .apW a w else .dpW a w) s = .next t ∧
        t.mem = { s.mem with resp := s.mem.resp ++ (if s.work.postRead then bytes32 v0 else []) } ∧
        t.work = { s.work with irCache := some (if ap then .apacc else .dpacc), postRead := false,
                               completed := s.work.completed + 1#8, lastAck := 1#8, left := s.work.left - 1 } ∧
        t.trace = s.trace ++ jtagRecords (jtagLinesOf s.driver s.work.irCache xs) ans s.driver.halfDelay ∧
        t.phase = .request ∧ t.driver = s.driver ∧ t.input.tdo = rest)

/-- A match read whose first poll matches on SWD (R243, R247): a DP read polls at once, an AP read posts first, with packets
of the request's register; no word is written; a failed match stops the sequence with 0x11 and is not counted. The same on
either port (R244), after any number of polls, and with a read outstanding: RDBUFF collects it first and its word is written,
then comes the post step (on JTAG and for an AP), then the polls; the read posted by the last poll is never collected. The ways
a transfer of it fails are in DrainedRequests. -/
def Obligations.MatchRequests : Prop :=
  (∀ (s : State) (ap : Bool) (a : RegAddr) (mv v v0 : Word) (rest : List Bool) (req : Byte), s.driver.port = .swd →
    s.input.dirFail = none → s.work.draining = false → s.work.postRead = false → 2 ≤ s.work.left →
    v &&& s.driver.matchMask = mv → req = (if ap then 0x03#8 else 0x02#8) ||| (a.zeroExtend 8 <<< 2) →
    s.input.swdio = (if ap then swdOkRead v0 else []) ++ swdOkRead v ++ rest →
      ∃ t, exec (if ap then .apRM a mv else .dpRM a mv) s = .next t ∧ t.mem = s.mem ∧
        t.work = { s.work with checkWrite := false, completed := s.work.completed + 1#8, lastAck := 1#8,
                               left := s.work.left - 1 } ∧
        t.trace = s.trace ++ (if ap then readPacket s.driver req v0 (dataParity v0) else []) ++
          readPacket s.driver req v (dataParity v) ∧
        t.phase = .request ∧ t.driver = s.driver ∧ t.input.swdio = rest ∧ Parked t) ∧
  (∀ (s : State) (ap : Bool) (a : RegAddr) (mv v v0 : Word) (rest : List Bool) (req : Byte), s.driver.port = .swd →
    s.input.dirFail = none → s.work.draining = false → s.work.postRead = false → 2 ≤ s.work.left →
    s.driver.matchRetry = 0#16 → v &&& s.driver.matchMask ≠ mv →
    req = (if ap then 0x03#8 else 0x02#8) ||| (a.zeroExtend 8 <<< 2) →
    s.input.swdio = (if ap then swdOkRead v0 else []) ++ swdOkRead v ++ rest →
      ∃ t, exec (if ap then .apRM a mv else .dpRM a mv) s = .next t ∧ t.mem = s.mem ∧
        t.work = { s.work with lastAck := 0x11#8, draining := true, left := s.work.left - 1 } ∧
        t.trace = s.trace ++ (if ap then readPacket s.driver req v0 (dataParity v0) else []) ++
          readPacket s.driver req v (dataParity v) ∧
        t.phase = .request ∧ t.driver = s.driver ∧ t.input.swdio = rest) ∧
  (∀ (s : State) (i : Instr) (req : Byte) (mv v0 v1 v : Word) (vs : List Word) (cs : List Cycle) (rest : List Bool),
    matchRequest i = some (req, mv) → s.work.draining = false → 2 ≤ s.work.left → Fits s 4 →
    vs.length ≤ s.driver.matchRetry.toNat → (∀ x ∈ vs, x &&& s.driver.matchMask ≠ mv) →
    v &&& s.driver.matchMask = mv →
    Answers s (collectReads s v0 ++ matchPost s req v1 ++ polls req (vs ++ [v])) cs rest →
      ∃ t, exec i s = .next t ∧
        t.mem = { s.mem with resp := s.mem.resp ++ (if s.work.postRead then bytes32 v0 else []) } ∧
        t.work = { s.work with irCache := if s.driver.port = .jtag then some (spaceOf req) else s.work.irCache,
                               postRead := false, checkWrite := false, completed := s.work.completed + 1#8,
                               lastAck := 1#8, left := s.work.left - 1 } ∧
        t.trace = s.trace ++ cs ∧ t.phase = .request ∧ t.driver = s.driver ∧ queue t = rest) ∧
  (∀ (s : State) (i : Instr) (req : Byte) (mv v0 v1 : Word) (vs : List Word) (cs : List Cycle) (rest : List Bool),
    matchRequest i = some (req, mv) → s.work.draining = false → Fits s 4 →
    vs.length = s.driver.matchRetry.toNat + 1 → (∀ x ∈ vs, x &&& s.driver.matchMask ≠ mv) →
    Answers s (collectReads s v0 ++ matchPost s req v1 ++ polls req vs) cs rest →
      (2 ≤ s.work.left → ∃ t, exec i s = .next t ∧
        t.mem = { s.mem with resp := s.mem.resp ++ (if s.work.postRead then bytes32 v0 else []) } ∧
        t.work = { s.work with irCache := if s.driver.port = .jtag then some (spaceOf req) else s.work.irCache,
                               postRead := false, lastAck := 0x11#8, draining := true, left := s.work.left - 1 } ∧
        t.trace = s.trace ++ cs ∧ t.phase = .request ∧ t.driver = s.driver ∧ queue t = rest) ∧
      (s.work.left = 1 → ∃ t, exec i s = .next t ∧ t.driver = s.driver ∧
        TransferEnds s t (collectWords s v0) s.work.completed 0x11#8 cs rest))

/-- R252: a MatchMask write loads the mask, sets the result to 1 and touches no target; an outstanding read is collected
first, on SWD in one packet, on JTAG in a transfer scan of RDBUFF, with a Set-IR scan where the IR holds APACC;
`check_write` is unchanged. -/
def Obligations.MaskLoads : Prop :=
  (∀ (s : State) (w v0 : Word) (rest : List Bool), s.work.draining = false → 2 ≤ s.work.left →
    (s.work.postRead = true → s.driver.port = .swd ∧ s.input.dirFail = none ∧ Fits s 4 ∧
      s.input.swdio = swdOkRead v0 ++ rest) →
      ∃ t, exec (.mask w) s = .next t ∧ t.driver = { s.driver with matchMask := w } ∧
        t.mem = { s.mem with resp := s.mem.resp ++ (if s.work.postRead then bytes32 v0 else []) } ∧
        t.work = { s.work with postRead := false, completed := s.work.completed + 1#8, lastAck := 1#8,
                               left := s.work.left - 1 } ∧
        t.trace = s.trace ++ (if s.work.postRead then readPacket s.driver 0x0e#8 v0 (dataParity v0) else []) ∧
        t.phase = .request) ∧
  (∀ (s : State) (w v0 : Word) (ans rest : List Bool) (xs : List Access), s.driver.port = .jtag →
    s.driver.index.toNat < s.driver.chain.length → s.work.draining = false → 2 ≤ s.work.left →
    s.work.postRead = true → Fits s 4 → xs = [⟨0x0e#8, 0#32, v0⟩] → JtagAnswers s.driver s.work.irCache xs ans →
    s.input.tdo = ans ++ rest →
      ∃ t, exec (.mask w) s = .next t ∧ t.driver = { s.driver with matchMask := w } ∧
        t.mem = { s.mem with resp := s.mem.resp ++ bytes32 v0 } ∧
        t.work = { s.work with irCache := some .dpacc, postRead := false, completed := s.work.completed + 1#8,
                               lastAck := 1#8, left := s.work.left - 1 } ∧
        t.trace = s.trace ++ jtagRecords (jtagLinesOf s.driver s.work.irCache xs) ans s.driver.halfDelay ∧
        t.phase = .request ∧ t.input.tdo = rest)

/-- A plain request whose first transfer is not answered OK (FAULT, WAIT after the retries, a protocol error, a wrong
parity; on JTAG any ACK but OK) stops the sequence (R231, R242, R322): its code is recorded, it is not counted, nothing is
written to the response, and the rest is drained; as the last request it ends the command, with no trailer. The first
transfer is RDBUFF where a read is outstanding that the request does not collect itself; a read has then cleared `post_read`, a
write has not yet. The same of every request kind on either port, match reads and MASK among them, and at every transfer of it
that can fail, after those before it were answered OK: what they collected has been written to the response. A drained request is consumed without being
executed (R240, R242): nothing but the loop's count changes, and when the last one is gone the two slots are patched with
`completed` and the last result. -/
def Obligations.DrainedRequests : Prop :=
  (∀ (s : State) (i : Instr) (req code : Byte) (w : Word) (bad rest : List Bool) (cs : List Cycle),
    plainRequest i = some (req, w) → s.driver.port = .swd → s.input.dirFail = none → s.work.draining = false →
    SwdFails s.driver (firstTransfer s req) s.driver.waitRetry.toNat bad cs code → s.input.swdio = bad ++ rest →
      (2 ≤ s.work.left → ∃ t, exec i s = .next t ∧ t.mem = s.mem ∧
        t.work = { s.work with postRead := s.work.postRead && (collectsOutstanding s req || !req.getLsbD 1),
                               lastAck := code,
                               draining := true, left := s.work.left - 1 } ∧
        t.trace = s.trace ++ cs ∧ t.phase = .request ∧ t.driver = s.driver ∧ t.input.swdio = rest ∧ Parked t) ∧
      (s.work.left = 1 → ∃ t, exec i s = .next t ∧
        t.mem = { s.mem with
          resp := overwrite s.work.slotAck [code] (overwrite s.work.slotCompleted [s.work.completed] s.mem.resp) } ∧
        t.work = Work.initial ∧ (s.batch = none → t.phase = .respond) ∧
        t.trace = s.trace ++ cs ∧ t.driver = s.driver ∧ t.input.swdio = rest ∧ Parked t)) ∧
  (∀ (s : State) (i : Instr) (req code : Byte) (w : Word) (bad rest : List Bool) (cs : List (Bool × Bool)),
    plainRequest i = some (req, w) → s.driver.port = .jtag → s.driver.index.toNat < s.driver.chain.length →
    s.work.draining = false →
    JtagFails s.driver (firstTransfer s req) s.driver.waitRetry.toNat s.work.irCache bad cs code →
    s.input.tdo = bad ++ rest →
      (2 ≤ s.work.left → ∃ t, exec i s = .next t ∧ t.mem = s.mem ∧
        t.work = { s.work with irCache := some (spaceOf (firstTransfer s req)),
                               postRead := s.work.postRead && (collectsOutstanding s req || !req.getLsbD 1),
                               lastAck := code,
                               draining := true, left := s.work.left - 1 } ∧
        t.trace = s.trace ++ jtagRecords cs bad s.driver.halfDelay ∧ t.phase = .request ∧ t.driver = s.driver ∧
        t.input.tdo = rest) ∧
      (s.work.left = 1 → ∃ t, exec i s = .next t ∧
        t.mem = { s.mem with
          resp := overwrite s.work.slotAck [code] (overwrite s.work.slotCompleted [s.work.completed] s.mem.resp) } ∧
        t.work = Work.initial ∧ (s.batch = none → t.phase = .respond) ∧
        t.trace = s.trace ++ jtagRecords cs bad s.driver.halfDelay ∧ t.driver = s.driver ∧ t.input.tdo = rest)) ∧
  (∀ (s : State) (i : Instr) (xs : List Access) (ws : List Word) (post : Bool) (req code : Byte) (cs : List Cycle)
      (rest : List Bool),
    StopsAt s i xs ws post req → s.work.draining = false → Fits s (4 * ws.length) →
    AnswersThenFails s xs req code cs rest →
      (2 ≤ s.work.left → ∃ t, exec i s = .next t ∧
        t.mem = { s.mem with resp := s.mem.resp ++ ws.flatMap bytes32 } ∧
        t.work = { s.work with irCache := if s.driver.port = .jtag then some (spaceOf req) else s.work.irCache,
                               postRead := post, lastAck := code, draining := true, left := s.work.left - 1 } ∧
        t.trace = s.trace ++ cs ∧ t.phase = .request ∧ t.driver = s.driver ∧ queue t = rest) ∧
      (s.work.left = 1 → ∃ t, exec i s = .next t ∧ t.driver = s.driver ∧
        TransferEnds s t ws s.work.completed code cs rest)) ∧
  (∀ (s : State) (i : Instr), i.context = some .request → s.work.draining = true →
    (2 ≤ s.work.left →
      exec i s = .next { s with work := { s.work with left := s.work.left - 1 }, phase := .request }) ∧
    (s.work.left = 1 → s.work.lastAck ≠ 1#8 →
      exec i s = .next (endCommand { s with mem := { s.mem with
        resp := overwrite s.work.slotAck [s.work.lastAck]
          (overwrite s.work.slotCompleted [s.work.completed] s.mem.resp) } })))

/-- The Transfer command's header (R240, R242): it writes the code and two slots and initialises the working state; on a
disabled port, or on JTAG with an index out of range, its requests will be drained and the index stays; else on JTAG the
index is selected; with no requests the answer is `05 00 00` at once and no pin moves. Before they are patched the two
slots hold any bytes (R75 gives a placeholder no value). -/
def Obligations.TransferHeader : Prop :=
  ∀ (s : State) (index count : Byte), Fits s 3 →
    ∃ t x y, exec (.transfer index count) s = .next t ∧
      t.mem = { s.mem with resp := s.mem.resp ++ [0x05#8, x, y] } ∧ (count = 0#8 → x = 0#8 ∧ y = 0#8) ∧
      QuietFrame s t ∧
      t.driver = (if s.driver.port = .jtag ∧ index.toNat < s.driver.chain.length then
        { s.driver with index := index } else s.driver) ∧
      (count = 0#8 → t.phase = .respond ∨ t.phase = .command) ∧
      (count ≠ 0#8 → t.phase = .request ∧ t.batch = s.batch ∧ t.work = { Work.initial with
        left := count.toNat
        draining := decide (s.driver.port = .disabled ∨
          s.driver.port = .jtag ∧ s.driver.chain.length ≤ index.toNat)
        slotCompleted := s.mem.resp.length + 1
        slotAck := s.mem.resp.length + 2 })

/-- The end of a Transfer (R242, R243, R244): after the last request, on SWD an outstanding read is collected through RDBUFF
and a write is checked through RDBUFF; on JTAG RDBUFF is always read after an OK sequence, even one of a MASK alone, with the
IR changed to DPACC where it holds APACC; the slots take `completed` and the last result. Stated for the last request of a
command whose response starts at offset 0: on SWD an AP read and a DP write, on JTAG every plain request and MASK. Then for
every request kind as the last one, on either port and with or without a read outstanding: without a trailer (on SWD after a
DP read, a match read, a MASK with no write to check) the result is 1; with one answered OK the result is 1, and its word is
written where a read was outstanding; with one that fails its code is the result and no word is written, while the request
stays counted (R245). -/
def Obligations.TrailerCollects : Prop :=
  (∀ (s : State) (a : RegAddr) (v0 v : Word) (x y : Byte) (rest : List Bool), s.driver.port = .swd →
    s.input.dirFail = none → s.work.draining = false → s.work.postRead = false → s.work.left = 1 →
    s.work.slotCompleted = 1 → s.work.slotAck = 2 → s.mem.resp = [0x05#8, x, y] → 7 ≤ s.params.responseCapacity →
    s.batch = none → s.input.swdio = swdOkRead v0 ++ swdOkRead v ++ rest →
      ∃ t, exec (.apR a) s = .next t ∧ t.mem.resp = [0x05#8, s.work.completed + 1#8, 1#8] ++ bytes32 v ∧
        t.trace = s.trace ++ readPacket s.driver (0x03#8 ||| (a.zeroExtend 8 <<< 2)) v0 (dataParity v0) ++
          readPacket s.driver 0x0e#8 v (dataParity v) ∧
        t.phase = .respond ∧ t.work = Work.initial ∧ t.driver = s.driver ∧ t.input.swdio = rest) ∧
  (∀ (s : State) (a : RegAddr) (w v : Word) (p : Bool) (x y : Byte) (rest : List Bool), s.driver.port = .swd →
    s.input.dirFail = none → s.work.draining = false → s.work.postRead = false → s.work.left = 1 →
    s.work.slotCompleted = 1 → s.work.slotAck = 2 → s.mem.resp = [0x05#8, x, y] → s.batch = none →
    s.input.swdio = swdOkWrite ++ swdReadAnswer v p ++ rest →
      ∃ t, exec (.dpW a w) s = .next t ∧
        t.mem.resp = [0x05#8, s.work.completed + 1#8, if p = dataParity v then 1#8 else 0x08#8] ∧
        t.trace = s.trace ++ writePacket s.driver (a.zeroExtend 8 <<< 2) w ++ readPacket s.driver 0x0e#8 v p ∧
        t.phase = .respond ∧ t.driver = s.driver ∧ t.input.swdio = rest) ∧
  (∀ (s : State) (i : Instr) (req x y : Byte) (w v0 v : Word) (ans rest : List Bool) (xs : List Access),
    plainRequest i = some (req, w) → s.driver.port = .jtag → s.driver.index.toNat < s.driver.chain.length →
    s.work.draining = false → s.work.postRead = false → s.work.left = 1 →
    s.work.slotCompleted = 1 → s.work.slotAck = 2 → s.mem.resp = [0x05#8, x, y] → 7 ≤ s.params.responseCapacity →
    s.batch = none → xs = [⟨req, w, v0⟩, ⟨0x0e#8, 0#32, v⟩] → JtagAnswers s.driver s.work.irCache xs ans →
    s.input.tdo = ans ++ rest →
      ∃ t, exec i s = .next t ∧
        t.mem.resp = [0x05#8, s.work.completed + 1#8, 1#8] ++ (if req.getLsbD 1 then bytes32 v else []) ∧
        t.trace = s.trace ++ jtagRecords (jtagLinesOf s.driver s.work.irCache xs) ans s.driver.halfDelay ∧
        t.phase = .respond ∧ t.work = Work.initial ∧ t.driver = s.driver ∧ t.input.tdo = rest) ∧
  (∀ (s : State) (m v : Word) (x y : Byte) (ans rest : List Bool) (xs : List Access),
    s.driver.port = .jtag → s.driver.index.toNat < s.driver.chain.length →
    s.work.draining = false → s.work.postRead = false → s.work.left = 1 →
    s.work.slotCompleted = 1 → s.work.slotAck = 2 → s.mem.resp = [0x05#8, x, y] → s.batch = none →
    xs = [⟨0x0e#8, 0#32, v⟩] → JtagAnswers s.driver s.work.irCache xs ans → s.input.tdo = ans ++ rest →
      ∃ t, exec (.mask m) s = .next t ∧ t.mem.resp = [0x05#8, s.work.completed + 1#8, 1#8] ∧
        t.trace = s.trace ++ jtagRecords (jtagLinesOf s.driver s.work.irCache xs) ans s.driver.halfDelay ∧
        t.phase = .respond ∧ t.work = Work.initial ∧ t.driver = { s.driver with matchMask := m } ∧
        t.input.tdo = rest) ∧
  (∀ (s : State) (i : Instr) (e : Effect) (v : Word) (code : Byte) (cs : List Cycle) (rest : List Bool),
    Completes s i e → s.work.draining = false → s.work.left = 1 → Fits s (4 * e.words.length + 4) →
      (¬ Trails s e → Answers s e.accesses cs rest →
        ∃ t, exec i s = .next t ∧ t.driver = { s.driver with matchMask := e.mask } ∧
          TransferEnds s t e.words (s.work.completed + 1#8) 1#8 cs rest) ∧
      (Trails s e → Answers s (e.accesses ++ [⟨0x0e#8, 0#32, v⟩]) cs rest →
        ∃ t, exec i s = .next t ∧ t.driver = { s.driver with matchMask := e.mask } ∧
          TransferEnds s t (e.words ++ if e.post then [v] else []) (s.work.completed + 1#8) 1#8 cs rest) ∧
      (Trails s e → AnswersThenFails s e.accesses 0x0e#8 code cs rest →
        ∃ t, exec i s = .next t ∧ t.driver = { s.driver with matchMask := e.mask } ∧
          TransferEnds s t e.words (s.work.completed + 1#8) code cs rest))

/-! ### Transfer Block -/

/-- The Transfer Block header holds index and count until the request byte is read (R260). -/
def Obligations.BlockHeader : Prop :=
  ∀ (s : State) (index : Byte) (count : Half),
    ∃ t, exec (.transferBlock index count) s = .next t ∧ t.phase = .blockRequest ∧ t.work.blockIndex = index ∧
      t.work.blockCount = count ∧ t.driver = s.driver ∧ t.mem = s.mem ∧ QuietFrame s t

/-- A read block (R260, R261). On SWD answered OK: the response is 06, the count, 1 and the words in order; an AP block posts
once and takes its last word through RDBUFF, a DP block reads every word with its own request. When a transfer fails the
block ends there, with the words before it, their count and the failure's code. On JTAG answered OK: the block's index is
selected, every block is posted, a Set-IR scan comes first, and one more before RDBUFF where the block's space is the AP. When
its post step, a read or RDBUFF fails, on either port, the block ends there, with the words before it, their count, the failure's
code and the selected index (R231). -/
def Obligations.BlockReads : Prop :=
  (∀ (s : State) (ap : Bool) (a : RegAddr) (v0 v : Word) (us : List Word) (rest : List Bool) (req : Byte),
    s.driver.port = .swd → s.input.dirFail = none → us.length + 1 = s.work.blockCount.toNat →
    Fits s (8 + 4 * us.length) → req = (if ap then 0x03#8 else 0x02#8) ||| (a.zeroExtend 8 <<< 2) →
    s.input.swdio = (if ap then swdOkRead v0 else []) ++ (us ++ [v]).flatMap swdOkRead ++ rest →
      ∃ t, exec (.tbRead ap a) s = .next t ∧
        t.mem = { s.mem with
          resp := s.mem.resp ++ [0x06#8] ++ bytes16 s.work.blockCount ++ [1#8] ++ (us ++ [v]).flatMap bytes32 } ∧
        t.trace = s.trace ++ (if ap then readPacket s.driver req v0 (dataParity v0) else []) ++
          (us.flatMap fun x => readPacket s.driver req x (dataParity x)) ++
          readPacket s.driver (if ap then 0x0e#8 else req) v (dataParity v) ∧
        t.work = Work.initial ∧ (s.batch = none → t.phase = .respond) ∧
        t.driver = s.driver ∧ t.input.swdio = rest ∧ Parked t) ∧
  (∀ (s : State) (ap : Bool) (a : RegAddr) (v0 : Word) (us : List Word) (bad rest : List Bool) (cs : List Cycle)
      (req code : Byte),
    s.driver.port = .swd → s.input.dirFail = none → us.length < s.work.blockCount.toNat →
    Fits s (4 + 4 * us.length) → req = (if ap then 0x03#8 else 0x02#8) ||| (a.zeroExtend 8 <<< 2) →
    SwdFails s.driver (if ap = true ∧ us.length + 1 = s.work.blockCount.toNat then 0x0e#8 else req)
      s.driver.waitRetry.toNat bad cs code →
    s.input.swdio = (if ap then swdOkRead v0 else []) ++ us.flatMap swdOkRead ++ bad ++ rest →
      ∃ t, exec (.tbRead ap a) s = .next t ∧
        t.mem = { s.mem with
          resp := s.mem.resp ++ [0x06#8] ++ bytes16 (BitVec.ofNat 16 us.length) ++ [code] ++ us.flatMap bytes32 } ∧
        t.trace = s.trace ++ (if ap then readPacket s.driver req v0 (dataParity v0) else []) ++
          (us.flatMap fun x => readPacket s.driver req x (dataParity x)) ++ cs ∧
        t.driver = s.driver ∧ t.input.swdio = rest ∧ Parked t) ∧
  (∀ (s : State) (a : RegAddr) (bad rest : List Bool) (cs : List Cycle) (code : Byte),
    s.driver.port = .swd → s.input.dirFail = none → s.work.blockCount ≠ 0#16 → Fits s 4 →
    SwdFails s.driver (0x03#8 ||| (a.zeroExtend 8 <<< 2)) s.driver.waitRetry.toNat bad cs code →
    s.input.swdio = bad ++ rest →
      ∃ t, exec (.tbRead true a) s = .next t ∧
        t.mem = { s.mem with resp := s.mem.resp ++ [0x06#8, 0#8, 0#8, code] } ∧
        t.trace = s.trace ++ cs ∧ t.driver = s.driver ∧ t.input.swdio = rest ∧ Parked t) ∧
  (∀ (s : State) (ap : Bool) (a : RegAddr) (v0 v : Word) (us : List Word) (ans rest : List Bool) (req : Byte) (d : Driver)
      (xs : List Access),
    s.driver.port = .jtag → s.work.blockIndex.toNat < s.driver.chain.length →
    us.length + 1 = s.work.blockCount.toNat → Fits s (8 + 4 * us.length) →
    req = (if ap then 0x03#8 else 0x02#8) ||| (a.zeroExtend 8 <<< 2) →
    d = { s.driver with index := s.work.blockIndex } →
    xs = ⟨req, 0#32, v0⟩ :: us.map (fun x => ⟨req, 0#32, x⟩) ++ [⟨0x0e#8, 0#32, v⟩] →
    JtagAnswers d none xs ans → s.input.tdo = ans ++ rest →
      ∃ t, exec (.tbRead ap a) s = .next t ∧
        t.mem = { s.mem with
          resp := s.mem.resp ++ [0x06#8] ++ bytes16 s.work.blockCount ++ [1#8] ++ (us ++ [v]).flatMap bytes32 } ∧
        t.trace = s.trace ++ jtagRecords (jtagLinesOf d none xs) ans s.driver.halfDelay ∧
        t.work = Work.initial ∧ (s.batch = none → t.phase = .respond) ∧ t.driver = d ∧ t.input.tdo = rest) ∧
  (∀ (s : State) (ap : Bool) (a : RegAddr) (v0 : Word) (us : List Word) (cs : List Cycle) (rest : List Bool)
      (req cur code : Byte) (post : List Access),
    us.length < s.work.blockCount.toNat → Fits s (4 + 4 * us.length) →
    req = (if ap then 0x03#8 else 0x02#8) ||| (a.zeroExtend 8 <<< 2) →
    post = (if ap = true ∨ s.driver.port = .jtag then [⟨req, 0#32, v0⟩] else []) →
    cur = (if (ap = true ∨ s.driver.port = .jtag) ∧ us.length + 1 = s.work.blockCount.toNat then 0x0e#8 else req) →
    AnswersThenFails (atBlock s) (post ++ us.map fun x => ⟨req, 0#32, x⟩) cur code cs rest →
      ∃ t, exec (.tbRead ap a) s = .next t ∧
        t.mem = { s.mem with
          resp := s.mem.resp ++ [0x06#8] ++ bytes16 (BitVec.ofNat 16 us.length) ++ [code] ++ us.flatMap bytes32 } ∧
        t.trace = s.trace ++ cs ∧ t.work = Work.initial ∧ (s.batch = none → t.phase = .respond) ∧
        t.driver = (atBlock s).driver ∧ queue t = rest) ∧
  (∀ (s : State) (ap : Bool) (a : RegAddr) (cs : List Cycle) (rest : List Bool) (req code : Byte),
    s.work.blockCount ≠ 0#16 → Fits s 4 → ap = true ∨ s.driver.port = .jtag →
    req = (if ap then 0x03#8 else 0x02#8) ||| (a.zeroExtend 8 <<< 2) →
    AnswersThenFails (atBlock s) [] req code cs rest →
      ∃ t, exec (.tbRead ap a) s = .next t ∧
        t.mem = { s.mem with resp := s.mem.resp ++ [0x06#8, 0#8, 0#8, code] } ∧
        t.trace = s.trace ++ cs ∧ t.work = Work.initial ∧ (s.batch = none → t.phase = .respond) ∧
        t.driver = (atBlock s).driver ∧ queue t = rest)

/-- A write block (R260, R261). On SWD answered OK: the words are read from the request and written in order, then RDBUFF
is read once, whose result is the last ACK; the response is 06, the count and that result. When a write fails the words
after it are skipped, and the response has the count of the words before it and the failure's code; when RDBUFF fails it
has the whole count. On JTAG answered OK: the block's index is selected, a Set-IR scan comes first, and one more before RDBUFF
where the block's space is the AP. The failing write and the failing RDBUFF the same on either port, with the selected
index (R231). Where the request's bytes run out the command ends in a FramingError at the cursor, of width 4, with the records of
what was done and no response (R73, R281, R321, R327): at a word to be written, at a word to be skipped after a failed write, and at a
word to be skipped where the block's precondition fails. -/
def Obligations.BlockWrites : Prop :=
  (∀ (s : State) (ap : Bool) (a : RegAddr) (v : Word) (p : Bool) (ws : List Word) (more : List Byte) (rest : List Bool),
    s.driver.port = .swd → s.input.dirFail = none → ws ≠ [] → ws.length = s.work.blockCount.toNat → Fits s 4 →
    pending s = ws.flatMap bytes32 ++ more →
    s.input.swdio = (ws.flatMap fun _ => swdOkWrite) ++ swdReadAnswer v p ++ rest →
      ∃ t, exec (.tbWrite ap a) s = .next t ∧
        t.mem = { s.mem with
          rd := s.mem.rd + 4 * ws.length
          resp := s.mem.resp ++ [0x06#8] ++ bytes16 s.work.blockCount ++
            [if p = dataParity v then 1#8 else 0x08#8] } ∧
        t.trace = s.trace ++
          (ws.flatMap fun w => writePacket s.driver ((if ap then 1#8 else 0#8) ||| (a.zeroExtend 8 <<< 2)) w) ++
          readPacket s.driver 0x0e#8 v p ∧
        t.driver = s.driver ∧ t.input.swdio = rest ∧ Parked t) ∧
  (∀ (s : State) (ap : Bool) (a : RegAddr) (ws : List Word) (w : Word) (skipped : List Word) (more : List Byte)
      (bad rest : List Bool) (cs : List Cycle) (req code : Byte),
    s.driver.port = .swd → s.input.dirFail = none →
    ws.length + 1 + skipped.length = s.work.blockCount.toNat → Fits s 4 →
    req = (if ap then 1#8 else 0#8) ||| (a.zeroExtend 8 <<< 2) →
    pending s = (ws ++ [w] ++ skipped).flatMap bytes32 ++ more →
    SwdFails s.driver req s.driver.waitRetry.toNat bad cs code →
    s.input.swdio = (ws.flatMap fun _ => swdOkWrite) ++ bad ++ rest →
      ∃ t, exec (.tbWrite ap a) s = .next t ∧
        t.mem = { s.mem with
          rd := s.mem.rd + 4 * s.work.blockCount.toNat
          resp := s.mem.resp ++ [0x06#8] ++ bytes16 (BitVec.ofNat 16 ws.length) ++ [code] } ∧
        t.trace = s.trace ++ (ws.flatMap fun x => writePacket s.driver req x) ++ cs ∧
        t.driver = s.driver ∧ t.input.swdio = rest ∧ Parked t) ∧
  (∀ (s : State) (ap : Bool) (a : RegAddr) (ws : List Word) (more : List Byte) (bad rest : List Bool) (cs : List Cycle)
      (req code : Byte),
    s.driver.port = .swd → s.input.dirFail = none → ws ≠ [] → ws.length = s.work.blockCount.toNat → Fits s 4 →
    req = (if ap then 1#8 else 0#8) ||| (a.zeroExtend 8 <<< 2) → pending s = ws.flatMap bytes32 ++ more →
    SwdFails s.driver 0x0e#8 s.driver.waitRetry.toNat bad cs code →
    s.input.swdio = (ws.flatMap fun _ => swdOkWrite) ++ bad ++ rest →
      ∃ t, exec (.tbWrite ap a) s = .next t ∧
        t.mem = { s.mem with
          rd := s.mem.rd + 4 * ws.length
          resp := s.mem.resp ++ [0x06#8] ++ bytes16 s.work.blockCount ++ [code] } ∧
        t.trace = s.trace ++ (ws.flatMap fun x => writePacket s.driver req x) ++ cs ∧
        t.driver = s.driver ∧ t.input.swdio = rest ∧ Parked t) ∧
  (∀ (s : State) (ap : Bool) (a : RegAddr) (v : Word) (ws : List (Word × Word)) (more : List Byte) (ans rest : List Bool)
      (req : Byte) (d : Driver) (xs : List Access),
    s.driver.port = .jtag → s.work.blockIndex.toNat < s.driver.chain.length → ws ≠ [] →
    ws.length = s.work.blockCount.toNat → Fits s 4 → req = (if ap then 1#8 else 0#8) ||| (a.zeroExtend 8 <<< 2) →
    pending s = (ws.flatMap fun x => bytes32 x.1) ++ more → d = { s.driver with index := s.work.blockIndex } →
    xs = ws.map (fun x => ⟨req, x.1, x.2⟩) ++ [⟨0x0e#8, 0#32, v⟩] →
    JtagAnswers d none xs ans → s.input.tdo = ans ++ rest →
      ∃ t, exec (.tbWrite ap a) s = .next t ∧
        t.mem = { s.mem with
          rd := s.mem.rd + 4 * ws.length
          resp := s.mem.resp ++ [0x06#8] ++ bytes16 s.work.blockCount ++ [1#8] } ∧
        t.trace = s.trace ++ jtagRecords (jtagLinesOf d none xs) ans s.driver.halfDelay ∧
        t.driver = d ∧ t.input.tdo = rest) ∧
  (∀ (s : State) (ap : Bool) (a : RegAddr) (ws : List (Word × Word)) (w : Word) (skipped : List Word) (more : List Byte)
      (cs : List Cycle) (rest : List Bool) (req code : Byte),
    req = (if ap then 1#8 else 0#8) ||| (a.zeroExtend 8 <<< 2) → Fits s 4 →
    AnswersThenFails (atBlock s) (ws.map fun x => ⟨req, x.1, x.2⟩) req code cs rest →
    pending s = (ws.map Prod.fst ++ [w] ++ skipped).flatMap bytes32 ++ more →
      (ws.length + 1 + skipped.length = s.work.blockCount.toNat → ∃ t, exec (.tbWrite ap a) s = .next t ∧
        t.mem = { s.mem with
          rd := s.mem.rd + 4 * s.work.blockCount.toNat
          resp := s.mem.resp ++ [0x06#8] ++ bytes16 (BitVec.ofNat 16 ws.length) ++ [code] } ∧
        t.trace = s.trace ++ cs ∧ t.work = Work.initial ∧ (s.batch = none → t.phase = .respond) ∧
        t.driver = (atBlock s).driver ∧ queue t = rest) ∧
      (ws.length + 1 + skipped.length < s.work.blockCount.toNat → more.length < 4 →
        ∃ t, exec (.tbWrite ap a) s = .next t ∧
          (if s.driver.port = .jtag then t.input.tdo else t.input.swdio) = rest ∧
          FramingEnds s t ⟨s.mem.rd + 4 * (ws.length + 1 + skipped.length), 4⟩ (atBlock s).driver cs)) ∧
  (∀ (s : State) (ap : Bool) (a : RegAddr) (ws : List (Word × Word)) (more : List Byte) (cs : List Cycle)
      (rest : List Bool) (req code : Byte),
    req = (if ap then 1#8 else 0#8) ||| (a.zeroExtend 8 <<< 2) → Fits s 4 →
    pending s = (ws.map Prod.fst).flatMap bytes32 ++ more →
      (ws ≠ [] → ws.length = s.work.blockCount.toNat →
        AnswersThenFails (atBlock s) (ws.map fun x => ⟨req, x.1, x.2⟩) 0x0e#8 code cs rest →
          ∃ t, exec (.tbWrite ap a) s = .next t ∧
            t.mem = { s.mem with
              rd := s.mem.rd + 4 * ws.length
              resp := s.mem.resp ++ [0x06#8] ++ bytes16 s.work.blockCount ++ [code] } ∧
            t.trace = s.trace ++ cs ∧ t.work = Work.initial ∧ (s.batch = none → t.phase = .respond) ∧
            t.driver = (atBlock s).driver ∧ queue t = rest) ∧
      (ws.length < s.work.blockCount.toNat → more.length < 4 →
        Answers (atBlock s) (ws.map fun x => ⟨req, x.1, x.2⟩) cs rest →
          ∃ t, exec (.tbWrite ap a) s = .next t ∧
          (if s.driver.port = .jtag then t.input.tdo else t.input.swdio) = rest ∧
            FramingEnds s t ⟨s.mem.rd + 4 * ws.length, 4⟩ (atBlock s).driver cs)) ∧
  (∀ (s : State) (ap : Bool) (a : RegAddr) (ws : List Word) (more : List Byte), Fits s 4 →
    s.driver.port = .disabled ∨ s.driver.port = .jtag ∧ s.driver.chain.length ≤ s.work.blockIndex.toNat →
    ws.length < s.work.blockCount.toNat → pending s = ws.flatMap bytes32 ++ more → more.length < 4 →
      ∃ t, exec (.tbWrite ap a) s = .next t ∧ FramingEnds s t ⟨s.mem.rd + 4 * ws.length, 4⟩ s.driver [])

/-- A block whose precondition fails (R260, R323): the answer is 06 00 00 00, a write block's words are consumed, no pin
moves and the index stays. A block of count 0 on a ready port (R260, vector B8): the same answer and no pin activity, with the
index selected on JTAG. -/
def Obligations.BlockPrecondition : Prop :=
  (∀ (s : State) (ap : Bool) (a : RegAddr), Fits s 4 →
    (s.driver.port = .disabled ∨ s.driver.port = .jtag ∧ s.driver.chain.length ≤ s.work.blockIndex.toNat) →
      (∃ t, exec (.tbRead ap a) s = .next t ∧ QuietFrame s t ∧ t.driver = s.driver ∧
        t.mem = { s.mem with resp := s.mem.resp ++ [0x06#8, 0#8, 0#8, 0#8] }) ∧
      (s.mem.rd + 4 * s.work.blockCount.toNat ≤ s.mem.req.length →
        ∃ t, exec (.tbWrite ap a) s = .next t ∧ QuietFrame s t ∧ t.driver = s.driver ∧
          t.mem = { s.mem with rd := s.mem.rd + 4 * s.work.blockCount.toNat
                               resp := s.mem.resp ++ [0x06#8, 0#8, 0#8, 0#8] })) ∧
  (∀ (s : State) (i : Instr), (∃ ap a, i = .tbRead ap a ∨ i = .tbWrite ap a) → Fits s 4 → s.work.blockCount = 0#16 →
    (s.driver.port = .swd ∨ s.driver.port = .jtag ∧ s.work.blockIndex.toNat < s.driver.chain.length) →
      ∃ t, exec i s = .next t ∧ QuietFrame s t ∧
        t.mem = { s.mem with resp := s.mem.resp ++ [0x06#8, 0#8, 0#8, 0#8] } ∧
        t.driver = (if s.driver.port = .jtag then { s.driver with index := s.work.blockIndex } else s.driver) ∧
        t.work = Work.initial ∧ (s.batch = none → t.phase = .respond))

/-- The frame of the request kinds and of the blocks: of Driver State only the match mask changes, and only by MASK, or the
index, and only by a block on JTAG; the request's bytes and the parameters stay, and the response's bytes stay but for the
Transfer's two slots; the trace grows with the delay in force. Where the command ends in a FramingError the same holds of
the state it is taken in. -/
def Obligations.RequestFrame : Prop :=
  ∀ (s t : State) (i : Instr), i.context = some .request ∨ i.context = some .blockRequest → exec i s = .next t →
    ∃ u, (t = u ∨ ∃ e, t = takeFramingError e u) ∧
      u.driver = { s.driver with matchMask := u.driver.matchMask, index := u.driver.index } ∧
      ((∀ w, i ≠ .mask w) → u.driver.matchMask = s.driver.matchMask) ∧
      (i.context = some .request ∨ s.driver.port ≠ .jtag → u.driver.index = s.driver.index) ∧
      u.mem.req = s.mem.req ∧ s.mem.rd ≤ u.mem.rd ∧
      (∀ k, k < s.mem.resp.length →
        (i.context = some .request → k ≠ s.work.slotCompleted ∧ k ≠ s.work.slotAck) →
          u.mem.resp[k]? = s.mem.resp[k]?) ∧
      u.params = s.params ∧ u.sent = s.sent ∧ u.ret = s.ret ∧
      u.input.recv = s.input.recv ∧ TraceGrows s u

/-! ### Whole-machine rules -/

/-- The invariant holds after reset. -/
def Obligations.ResetHasInvariant : Prop := BlockInv State.reset

/-- Every step keeps the invariant: the delay belongs to the clock rate (R32), the chain's bookkeeping holds (R33, R34), SWD's
line is parked between packets (R200), every TAP rests in Run-Test/Idle (R364), the buffers keep their form, and a
Transfer in progress is well formed; and from such a state no step issues a transfer on a disabled port or a scan outside the
chain (R172, R230). -/
def Obligations.StepKeepsInvariant : Prop :=
  ∀ s : State, BlockInv s → SafeOutcome (step s) ∧ ∀ t, step s = .next t → BlockInv t

/-- R32, R151: a step only appends to the trace, and every record it appends carries the half-cycle delay in force when the
step began; while the port is disabled nothing is appended (R31, R323). -/
def Obligations.TraceOnlyGrows : Prop :=
  ∀ s t : State, step s = .next t → TraceGrows s t ∧ (s.driver.port = .disabled → t.trace = s.trace)

/-- R48: which instruction writes which field of Driver State. A FramingError with RESET_ON_FRAMING_ERROR is set apart: it
writes all of them (R321). -/
def Obligations.WhoWritesDriverState : Prop :=
  ∀ (s t : State) (i : Instr), s.params.resetOnFramingError = false → exec i s = .next t →
    (t.driver.port ≠ s.driver.port → (∃ p, i = .connect p) ∨ i = .disconnect) ∧
    (t.driver.clockRate ≠ s.driver.clockRate → ∃ c, i = .swjClock c) ∧
    (t.driver.halfDelay ≠ s.driver.halfDelay → (∃ c, i = .swjClock c) ∨ ∃ r, i = .halfDelay r) ∧
    (t.driver.chain ≠ s.driver.chain → ∃ l, i = .jtagCfg l) ∧
    (t.driver.index ≠ s.driver.index → (∃ l, i = .jtagCfg l) ∨
      s.driver.port = .jtag ∧ ((∃ a n, i = .transfer a n) ∨ (∃ p a, i = .tbRead p a) ∨ ∃ p a, i = .tbWrite p a)) ∧
    (t.driver.trnField ≠ s.driver.trnField → ∃ c, i = .swdCfg c) ∧
    (t.driver.dataPhase ≠ s.driver.dataPhase → ∃ c, i = .swdCfg c) ∧
    (t.driver.idleCycles ≠ s.driver.idleCycles → ∃ a b c, i = .xferCfg a b c) ∧
    (t.driver.waitRetry ≠ s.driver.waitRetry → ∃ a b c, i = .xferCfg a b c) ∧
    (t.driver.matchRetry ≠ s.driver.matchRetry → ∃ a b c, i = .xferCfg a b c) ∧
    (t.driver.matchMask ≠ s.driver.matchMask → ∃ w, i = .mask w)
end

