-- ==== Sys2Proof/Laws/State.lean ====
section
/-! SUPPORT. One lemma per field per update of the state, true by rfl. -/

namespace Sys2Proof.Machine

/-! ### emit -/

@[simp] theorem emit_params (c : Cycle) (s : State) : (emit c s).params = s.params := rfl
@[simp] theorem emit_driver (c : Cycle) (s : State) : (emit c s).driver = s.driver := rfl
@[simp] theorem emit_mem (c : Cycle) (s : State) : (emit c s).mem = s.mem := rfl
@[simp] theorem emit_pins (c : Cycle) (s : State) : (emit c s).pins = { s.pins with clk := .high } := rfl
@[simp] theorem emit_trace (c : Cycle) (s : State) : (emit c s).trace = s.trace ++ [c] := rfl
@[simp] theorem emit_work (c : Cycle) (s : State) : (emit c s).work = s.work := rfl
@[simp] theorem emit_phase (c : Cycle) (s : State) : (emit c s).phase = s.phase := rfl
@[simp] theorem emit_batch (c : Cycle) (s : State) : (emit c s).batch = s.batch := rfl
@[simp] theorem emit_framing (c : Cycle) (s : State) : (emit c s).framing = s.framing := rfl
@[simp] theorem emit_input (c : Cycle) (s : State) : (emit c s).input = s.input := rfl
@[simp] theorem emit_sent (c : Cycle) (s : State) : (emit c s).sent = s.sent := rfl
@[simp] theorem emit_taps (c : Cycle) (s : State) : (emit c s).taps = s.taps := rfl
@[simp] theorem emit_ret (c : Cycle) (s : State) : (emit c s).ret = s.ret := rfl
@[simp] theorem emit_free (c : Cycle) (s : State) : (emit c s).free = s.free := rfl

/-! ### advance -/

@[simp] theorem advance_params (n : Nat) (s : State) : (advance n s).params = s.params := rfl
@[simp] theorem advance_driver (n : Nat) (s : State) : (advance n s).driver = s.driver := rfl
@[simp] theorem advance_mem (n : Nat) (s : State) : (advance n s).mem = { s.mem with rd := s.mem.rd + n } := rfl
@[simp] theorem advance_pins (n : Nat) (s : State) : (advance n s).pins = s.pins := rfl
@[simp] theorem advance_trace (n : Nat) (s : State) : (advance n s).trace = s.trace := rfl
@[simp] theorem advance_work (n : Nat) (s : State) : (advance n s).work = s.work := rfl
@[simp] theorem advance_phase (n : Nat) (s : State) : (advance n s).phase = s.phase := rfl
@[simp] theorem advance_batch (n : Nat) (s : State) : (advance n s).batch = s.batch := rfl
@[simp] theorem advance_framing (n : Nat) (s : State) : (advance n s).framing = s.framing := rfl
@[simp] theorem advance_input (n : Nat) (s : State) : (advance n s).input = s.input := rfl
@[simp] theorem advance_sent (n : Nat) (s : State) : (advance n s).sent = s.sent := rfl
@[simp] theorem advance_taps (n : Nat) (s : State) : (advance n s).taps = s.taps := rfl
@[simp] theorem advance_ret (n : Nat) (s : State) : (advance n s).ret = s.ret := rfl
@[simp] theorem advance_free (n : Nat) (s : State) : (advance n s).free = s.free := rfl

/-! ### setPostRead -/

@[simp] theorem setPostRead_params (b : Bool) (s : State) : (setPostRead b s).params = s.params := rfl
@[simp] theorem setPostRead_driver (b : Bool) (s : State) : (setPostRead b s).driver = s.driver := rfl
@[simp] theorem setPostRead_mem (b : Bool) (s : State) : (setPostRead b s).mem = s.mem := rfl
@[simp] theorem setPostRead_pins (b : Bool) (s : State) : (setPostRead b s).pins = s.pins := rfl
@[simp] theorem setPostRead_trace (b : Bool) (s : State) : (setPostRead b s).trace = s.trace := rfl
@[simp] theorem setPostRead_work (b : Bool) (s : State) : (setPostRead b s).work = { s.work with postRead := b } := rfl
@[simp] theorem setPostRead_phase (b : Bool) (s : State) : (setPostRead b s).phase = s.phase := rfl
@[simp] theorem setPostRead_batch (b : Bool) (s : State) : (setPostRead b s).batch = s.batch := rfl
@[simp] theorem setPostRead_framing (b : Bool) (s : State) : (setPostRead b s).framing = s.framing := rfl
@[simp] theorem setPostRead_input (b : Bool) (s : State) : (setPostRead b s).input = s.input := rfl
@[simp] theorem setPostRead_sent (b : Bool) (s : State) : (setPostRead b s).sent = s.sent := rfl
@[simp] theorem setPostRead_taps (b : Bool) (s : State) : (setPostRead b s).taps = s.taps := rfl
@[simp] theorem setPostRead_ret (b : Bool) (s : State) : (setPostRead b s).ret = s.ret := rfl
@[simp] theorem setPostRead_free (b : Bool) (s : State) : (setPostRead b s).free = s.free := rfl

/-! ### setCheckWrite -/

@[simp] theorem setCheckWrite_params (b : Bool) (s : State) : (setCheckWrite b s).params = s.params := rfl
@[simp] theorem setCheckWrite_driver (b : Bool) (s : State) : (setCheckWrite b s).driver = s.driver := rfl
@[simp] theorem setCheckWrite_mem (b : Bool) (s : State) : (setCheckWrite b s).mem = s.mem := rfl
@[simp] theorem setCheckWrite_pins (b : Bool) (s : State) : (setCheckWrite b s).pins = s.pins := rfl
@[simp] theorem setCheckWrite_trace (b : Bool) (s : State) : (setCheckWrite b s).trace = s.trace := rfl
@[simp] theorem setCheckWrite_work (b : Bool) (s : State) : (setCheckWrite b s).work = { s.work with checkWrite := b } := rfl
@[simp] theorem setCheckWrite_phase (b : Bool) (s : State) : (setCheckWrite b s).phase = s.phase := rfl
@[simp] theorem setCheckWrite_batch (b : Bool) (s : State) : (setCheckWrite b s).batch = s.batch := rfl
@[simp] theorem setCheckWrite_framing (b : Bool) (s : State) : (setCheckWrite b s).framing = s.framing := rfl
@[simp] theorem setCheckWrite_input (b : Bool) (s : State) : (setCheckWrite b s).input = s.input := rfl
@[simp] theorem setCheckWrite_sent (b : Bool) (s : State) : (setCheckWrite b s).sent = s.sent := rfl
@[simp] theorem setCheckWrite_taps (b : Bool) (s : State) : (setCheckWrite b s).taps = s.taps := rfl
@[simp] theorem setCheckWrite_ret (b : Bool) (s : State) : (setCheckWrite b s).ret = s.ret := rfl
@[simp] theorem setCheckWrite_free (b : Bool) (s : State) : (setCheckWrite b s).free = s.free := rfl

/-! ### parkHigh -/

@[simp] theorem parkHigh_params (s : State) : (parkHigh s).params = s.params := rfl
@[simp] theorem parkHigh_driver (s : State) : (parkHigh s).driver = s.driver := rfl
@[simp] theorem parkHigh_mem (s : State) : (parkHigh s).mem = s.mem := rfl
@[simp] theorem parkHigh_pins (s : State) : (parkHigh s).pins = { s.pins with swdioOut := .high } := rfl
@[simp] theorem parkHigh_trace (s : State) : (parkHigh s).trace = s.trace := rfl
@[simp] theorem parkHigh_work (s : State) : (parkHigh s).work = s.work := rfl
@[simp] theorem parkHigh_phase (s : State) : (parkHigh s).phase = s.phase := rfl
@[simp] theorem parkHigh_batch (s : State) : (parkHigh s).batch = s.batch := rfl
@[simp] theorem parkHigh_framing (s : State) : (parkHigh s).framing = s.framing := rfl
@[simp] theorem parkHigh_input (s : State) : (parkHigh s).input = s.input := rfl
@[simp] theorem parkHigh_sent (s : State) : (parkHigh s).sent = s.sent := rfl
@[simp] theorem parkHigh_taps (s : State) : (parkHigh s).taps = s.taps := rfl
@[simp] theorem parkHigh_ret (s : State) : (parkHigh s).ret = s.ret := rfl
@[simp] theorem parkHigh_free (s : State) : (parkHigh s).free = s.free := rfl

/-! ### respPatch -/

@[simp] theorem respPatch_params (slot : Nat) (bs : List Byte) (s : State) : (respPatch slot bs s).params = s.params := rfl
@[simp] theorem respPatch_driver (slot : Nat) (bs : List Byte) (s : State) : (respPatch slot bs s).driver = s.driver := rfl
@[simp] theorem respPatch_mem (slot : Nat) (bs : List Byte) (s : State) : (respPatch slot bs s).mem = { s.mem with resp := overwrite slot bs s.mem.resp } := rfl
@[simp] theorem respPatch_pins (slot : Nat) (bs : List Byte) (s : State) : (respPatch slot bs s).pins = s.pins := rfl
@[simp] theorem respPatch_trace (slot : Nat) (bs : List Byte) (s : State) : (respPatch slot bs s).trace = s.trace := rfl
@[simp] theorem respPatch_work (slot : Nat) (bs : List Byte) (s : State) : (respPatch slot bs s).work = s.work := rfl
@[simp] theorem respPatch_phase (slot : Nat) (bs : List Byte) (s : State) : (respPatch slot bs s).phase = s.phase := rfl
@[simp] theorem respPatch_batch (slot : Nat) (bs : List Byte) (s : State) : (respPatch slot bs s).batch = s.batch := rfl
@[simp] theorem respPatch_framing (slot : Nat) (bs : List Byte) (s : State) : (respPatch slot bs s).framing = s.framing := rfl
@[simp] theorem respPatch_input (slot : Nat) (bs : List Byte) (s : State) : (respPatch slot bs s).input = s.input := rfl
@[simp] theorem respPatch_sent (slot : Nat) (bs : List Byte) (s : State) : (respPatch slot bs s).sent = s.sent := rfl
@[simp] theorem respPatch_taps (slot : Nat) (bs : List Byte) (s : State) : (respPatch slot bs s).taps = s.taps := rfl
@[simp] theorem respPatch_ret (slot : Nat) (bs : List Byte) (s : State) : (respPatch slot bs s).ret = s.ret := rfl
@[simp] theorem respPatch_free (slot : Nat) (bs : List Byte) (s : State) : (respPatch slot bs s).free = s.free := rfl

/-! ### endRequest -/

@[simp] theorem endRequest_params (s : State) : (endRequest s).params = s.params := rfl
@[simp] theorem endRequest_driver (s : State) : (endRequest s).driver = s.driver := rfl
@[simp] theorem endRequest_mem (s : State) : (endRequest s).mem = s.mem := rfl
@[simp] theorem endRequest_pins (s : State) : (endRequest s).pins = s.pins := rfl
@[simp] theorem endRequest_trace (s : State) : (endRequest s).trace = s.trace := rfl
@[simp] theorem endRequest_work (s : State) : (endRequest s).work = Work.initial := rfl
@[simp] theorem endRequest_phase (s : State) : (endRequest s).phase = .respond := rfl
@[simp] theorem endRequest_batch (s : State) : (endRequest s).batch = s.batch := rfl
@[simp] theorem endRequest_framing (s : State) : (endRequest s).framing = s.framing := rfl
@[simp] theorem endRequest_input (s : State) : (endRequest s).input = s.input := rfl
@[simp] theorem endRequest_sent (s : State) : (endRequest s).sent = s.sent := rfl
@[simp] theorem endRequest_taps (s : State) : (endRequest s).taps = s.taps := rfl
@[simp] theorem endRequest_ret (s : State) : (endRequest s).ret = s.ret := rfl
@[simp] theorem endRequest_free (s : State) : (endRequest s).free = s.free := rfl

/-! ### acceptRequest -/

@[simp] theorem acceptRequest_params (bs : List Byte) (s : State) : (acceptRequest bs s).params = s.params := rfl
@[simp] theorem acceptRequest_driver (bs : List Byte) (s : State) : (acceptRequest bs s).driver = s.driver := rfl
@[simp] theorem acceptRequest_mem (bs : List Byte) (s : State) : (acceptRequest bs s).mem = ⟨bs, 0, []⟩ := rfl
@[simp] theorem acceptRequest_pins (bs : List Byte) (s : State) : (acceptRequest bs s).pins = s.pins := rfl
@[simp] theorem acceptRequest_trace (bs : List Byte) (s : State) : (acceptRequest bs s).trace = s.trace := rfl
@[simp] theorem acceptRequest_work (bs : List Byte) (s : State) : (acceptRequest bs s).work = s.work := rfl
@[simp] theorem acceptRequest_phase (bs : List Byte) (s : State) : (acceptRequest bs s).phase = .command := rfl
@[simp] theorem acceptRequest_batch (bs : List Byte) (s : State) : (acceptRequest bs s).batch = none := rfl
@[simp] theorem acceptRequest_framing (bs : List Byte) (s : State) : (acceptRequest bs s).framing = none := rfl
@[simp] theorem acceptRequest_input (bs : List Byte) (s : State) : (acceptRequest bs s).input = s.input := rfl
@[simp] theorem acceptRequest_sent (bs : List Byte) (s : State) : (acceptRequest bs s).sent = s.sent := rfl
@[simp] theorem acceptRequest_taps (bs : List Byte) (s : State) : (acceptRequest bs s).taps = s.taps := rfl
@[simp] theorem acceptRequest_ret (bs : List Byte) (s : State) : (acceptRequest bs s).ret = s.ret := rfl
@[simp] theorem acceptRequest_free (bs : List Byte) (s : State) : (acceptRequest bs s).free = s.free := rfl

/-! ### setIdleCycles -/

@[simp] theorem setIdleCycles_params (v : Byte) (s : State) : (setIdleCycles v s).params = s.params := rfl
@[simp] theorem setIdleCycles_driver (v : Byte) (s : State) : (setIdleCycles v s).driver = { s.driver with idleCycles := v } := rfl
@[simp] theorem setIdleCycles_mem (v : Byte) (s : State) : (setIdleCycles v s).mem = s.mem := rfl
@[simp] theorem setIdleCycles_pins (v : Byte) (s : State) : (setIdleCycles v s).pins = s.pins := rfl
@[simp] theorem setIdleCycles_trace (v : Byte) (s : State) : (setIdleCycles v s).trace = s.trace := rfl
@[simp] theorem setIdleCycles_work (v : Byte) (s : State) : (setIdleCycles v s).work = s.work := rfl
@[simp] theorem setIdleCycles_phase (v : Byte) (s : State) : (setIdleCycles v s).phase = s.phase := rfl
@[simp] theorem setIdleCycles_batch (v : Byte) (s : State) : (setIdleCycles v s).batch = s.batch := rfl
@[simp] theorem setIdleCycles_framing (v : Byte) (s : State) : (setIdleCycles v s).framing = s.framing := rfl
@[simp] theorem setIdleCycles_input (v : Byte) (s : State) : (setIdleCycles v s).input = s.input := rfl
@[simp] theorem setIdleCycles_sent (v : Byte) (s : State) : (setIdleCycles v s).sent = s.sent := rfl
@[simp] theorem setIdleCycles_taps (v : Byte) (s : State) : (setIdleCycles v s).taps = s.taps := rfl
@[simp] theorem setIdleCycles_ret (v : Byte) (s : State) : (setIdleCycles v s).ret = s.ret := rfl
@[simp] theorem setIdleCycles_free (v : Byte) (s : State) : (setIdleCycles v s).free = s.free := rfl

/-! ### setWaitRetry -/

@[simp] theorem setWaitRetry_params (v : Half) (s : State) : (setWaitRetry v s).params = s.params := rfl
@[simp] theorem setWaitRetry_driver (v : Half) (s : State) : (setWaitRetry v s).driver = { s.driver with waitRetry := v } := rfl
@[simp] theorem setWaitRetry_mem (v : Half) (s : State) : (setWaitRetry v s).mem = s.mem := rfl
@[simp] theorem setWaitRetry_pins (v : Half) (s : State) : (setWaitRetry v s).pins = s.pins := rfl
@[simp] theorem setWaitRetry_trace (v : Half) (s : State) : (setWaitRetry v s).trace = s.trace := rfl
@[simp] theorem setWaitRetry_work (v : Half) (s : State) : (setWaitRetry v s).work = s.work := rfl
@[simp] theorem setWaitRetry_phase (v : Half) (s : State) : (setWaitRetry v s).phase = s.phase := rfl
@[simp] theorem setWaitRetry_batch (v : Half) (s : State) : (setWaitRetry v s).batch = s.batch := rfl
@[simp] theorem setWaitRetry_framing (v : Half) (s : State) : (setWaitRetry v s).framing = s.framing := rfl
@[simp] theorem setWaitRetry_input (v : Half) (s : State) : (setWaitRetry v s).input = s.input := rfl
@[simp] theorem setWaitRetry_sent (v : Half) (s : State) : (setWaitRetry v s).sent = s.sent := rfl
@[simp] theorem setWaitRetry_taps (v : Half) (s : State) : (setWaitRetry v s).taps = s.taps := rfl
@[simp] theorem setWaitRetry_ret (v : Half) (s : State) : (setWaitRetry v s).ret = s.ret := rfl
@[simp] theorem setWaitRetry_free (v : Half) (s : State) : (setWaitRetry v s).free = s.free := rfl

/-! ### setMatchRetry -/

@[simp] theorem setMatchRetry_params (v : Half) (s : State) : (setMatchRetry v s).params = s.params := rfl
@[simp] theorem setMatchRetry_driver (v : Half) (s : State) : (setMatchRetry v s).driver = { s.driver with matchRetry := v } := rfl
@[simp] theorem setMatchRetry_mem (v : Half) (s : State) : (setMatchRetry v s).mem = s.mem := rfl
@[simp] theorem setMatchRetry_pins (v : Half) (s : State) : (setMatchRetry v s).pins = s.pins := rfl
@[simp] theorem setMatchRetry_trace (v : Half) (s : State) : (setMatchRetry v s).trace = s.trace := rfl
@[simp] theorem setMatchRetry_work (v : Half) (s : State) : (setMatchRetry v s).work = s.work := rfl
@[simp] theorem setMatchRetry_phase (v : Half) (s : State) : (setMatchRetry v s).phase = s.phase := rfl
@[simp] theorem setMatchRetry_batch (v : Half) (s : State) : (setMatchRetry v s).batch = s.batch := rfl
@[simp] theorem setMatchRetry_framing (v : Half) (s : State) : (setMatchRetry v s).framing = s.framing := rfl
@[simp] theorem setMatchRetry_input (v : Half) (s : State) : (setMatchRetry v s).input = s.input := rfl
@[simp] theorem setMatchRetry_sent (v : Half) (s : State) : (setMatchRetry v s).sent = s.sent := rfl
@[simp] theorem setMatchRetry_taps (v : Half) (s : State) : (setMatchRetry v s).taps = s.taps := rfl
@[simp] theorem setMatchRetry_ret (v : Half) (s : State) : (setMatchRetry v s).ret = s.ret := rfl
@[simp] theorem setMatchRetry_free (v : Half) (s : State) : (setMatchRetry v s).free = s.free := rfl

/-! ### setClock -/

@[simp] theorem setClock_params (c : Word) (s : State) : (setClock c s).params = s.params := rfl
@[simp] theorem setClock_driver (c : Word) (s : State) : (setClock c s).driver = { s.driver with clockRate := c, halfDelay := halfDelayOf c } := rfl
@[simp] theorem setClock_mem (c : Word) (s : State) : (setClock c s).mem = s.mem := rfl
@[simp] theorem setClock_pins (c : Word) (s : State) : (setClock c s).pins = s.pins := rfl
@[simp] theorem setClock_trace (c : Word) (s : State) : (setClock c s).trace = s.trace := rfl
@[simp] theorem setClock_work (c : Word) (s : State) : (setClock c s).work = s.work := rfl
@[simp] theorem setClock_phase (c : Word) (s : State) : (setClock c s).phase = s.phase := rfl
@[simp] theorem setClock_batch (c : Word) (s : State) : (setClock c s).batch = s.batch := rfl
@[simp] theorem setClock_framing (c : Word) (s : State) : (setClock c s).framing = s.framing := rfl
@[simp] theorem setClock_input (c : Word) (s : State) : (setClock c s).input = s.input := rfl
@[simp] theorem setClock_sent (c : Word) (s : State) : (setClock c s).sent = s.sent := rfl
@[simp] theorem setClock_taps (c : Word) (s : State) : (setClock c s).taps = s.taps := rfl
@[simp] theorem setClock_ret (c : Word) (s : State) : (setClock c s).ret = s.ret := rfl
@[simp] theorem setClock_free (c : Word) (s : State) : (setClock c s).free = s.free := rfl

/-! ### resetDriver -/

@[simp] theorem resetDriver_params (s : State) : (resetDriver s).params = s.params := rfl
@[simp] theorem resetDriver_driver (s : State) : (resetDriver s).driver = Driver.reset s.params (halfDelayOf s.params.defaultClockHz) := rfl
@[simp] theorem resetDriver_mem (s : State) : (resetDriver s).mem = Memory.empty := rfl
@[simp] theorem resetDriver_pins (s : State) : (resetDriver s).pins = Pins.unspecified := rfl
@[simp] theorem resetDriver_trace (s : State) : (resetDriver s).trace = s.trace := rfl
@[simp] theorem resetDriver_work (s : State) : (resetDriver s).work = Work.initial := rfl
@[simp] theorem resetDriver_phase (s : State) : (resetDriver s).phase = .idle := rfl
@[simp] theorem resetDriver_batch (s : State) : (resetDriver s).batch = none := rfl
@[simp] theorem resetDriver_framing (s : State) : (resetDriver s).framing = s.framing := rfl
@[simp] theorem resetDriver_input (s : State) : (resetDriver s).input = s.input := rfl
@[simp] theorem resetDriver_sent (s : State) : (resetDriver s).sent = s.sent := rfl
@[simp] theorem resetDriver_taps (s : State) : (resetDriver s).taps = s.taps := rfl
@[simp] theorem resetDriver_ret (s : State) : (resetDriver s).ret = s.ret := rfl
@[simp] theorem resetDriver_free (s : State) : (resetDriver s).free = s.free := rfl

/-! ### endCommand (R280, R282) -/

@[simp] theorem endCommand_params (s : State) : (endCommand s).params = s.params := by
  unfold endCommand; split <;> rfl
@[simp] theorem endCommand_driver (s : State) : (endCommand s).driver = s.driver := by
  unfold endCommand; split <;> rfl
@[simp] theorem endCommand_mem (s : State) : (endCommand s).mem = s.mem := by
  unfold endCommand; split <;> rfl
@[simp] theorem endCommand_pins (s : State) : (endCommand s).pins = s.pins := by
  unfold endCommand; split <;> rfl
@[simp] theorem endCommand_trace (s : State) : (endCommand s).trace = s.trace := by
  unfold endCommand; split <;> rfl
@[simp] theorem endCommand_framing (s : State) : (endCommand s).framing = s.framing := by
  unfold endCommand; split <;> rfl
@[simp] theorem endCommand_input (s : State) : (endCommand s).input = s.input := by
  unfold endCommand; split <;> rfl
@[simp] theorem endCommand_sent (s : State) : (endCommand s).sent = s.sent := by
  unfold endCommand; split <;> rfl
@[simp] theorem endCommand_taps (s : State) : (endCommand s).taps = s.taps := by
  unfold endCommand; split <;> rfl
@[simp] theorem endCommand_ret (s : State) : (endCommand s).ret = s.ret := by
  unfold endCommand; split <;> rfl
@[simp] theorem endCommand_free (s : State) : (endCommand s).free = s.free := by
  unfold endCommand; split <;> rfl
@[simp] theorem endCommand_work (s : State) : (endCommand s).work = Work.initial := by
  unfold endCommand; split <;> rfl

/-- A command's end leaves the loop at the next inner command or at the response. -/
theorem endCommand_phase (s : State) : (endCommand s).phase = .command ∨ (endCommand s).phase = .respond := by
  unfold endCommand; split
  · exact .inl rfl
  · exact .inr rfl
  · exact .inr rfl

end Sys2Proof.Machine
end

