-- ==== Sys2Proof/Laws/Ops.lean ====
section
/-! SUPPORT. What each shared operation can do, said once: how results chain, what the inputs and buffers do, and that
every buffer operation keeps the canonical form. -/

namespace Sys2Proof.Machine

/-! ### Chaining -/

@[simp] theorem bind_ok {α β : Type} (a : α) (s : State) (k : α → State → Res β) : (Res.ok a s).bind k = k a s := rfl
@[simp] theorem bind_framing {α β : Type} (e : FramingError) (s : State) (k : α → State → Res β) :
    (Res.framing e s).bind k = .framing e s := rfl
@[simp] theorem bind_fault {α β : Type} (f : Fault) (k : α → State → Res β) : (Res.fault f).bind k = .fault f := rfl
@[simp] theorem outcome_ok (a : Unit) (s : State) : (Res.ok a s).outcome = .next s := rfl
@[simp] theorem outcome_framing (e : FramingError) (s : State) :
    (Res.framing e s).outcome = .next (takeFramingError e s) := rfl
@[simp] theorem outcome_fault (f : Fault) : (Res.fault f).outcome = .fault f := rfl

theorem res_bind_assoc {α β γ : Type} (r : Res α) (k : α → State → Res β) (m : β → State → Res γ) :
    (r.bind k).bind m = r.bind fun a s => (k a s).bind m := by cases r <;> rfl

/-- A chain ends with a value exactly when both parts do. -/
theorem bind_eq_ok {α β : Type} {r : Res α} {k : α → State → Res β} {b : β} {t : State} :
    r.bind k = .ok b t ↔ ∃ a s, r = .ok a s ∧ k a s = .ok b t := by
  cases r <;> simp

/-- Every state the result can end in, normally or in a FramingError, satisfies `P`. -/
def Res.Ends {α : Type} (P : State → Prop) : Res α → Prop
  | .ok _ s => P s
  | .framing _ s => P s
  | .fault _ => True

@[simp] theorem ends_ok {α : Type} (P : State → Prop) (a : α) (s : State) : (Res.ok a s).Ends P ↔ P s := Iff.rfl
@[simp] theorem ends_framing {α : Type} (P : State → Prop) (e : FramingError) (s : State) :
    (Res.framing e s : Res α).Ends P ↔ P s := Iff.rfl
@[simp] theorem ends_fault {α : Type} (P : State → Prop) (f : Fault) : (Res.fault f : Res α).Ends P ↔ True := Iff.rfl

/-- The rule of composition: what holds after the first part and is kept by the second holds at the end. -/
theorem Ends_bind {α β : Type} {P Q : State → Prop} {r : Res α} {k : α → State → Res β} (h : r.Ends P)
    (hpq : ∀ s e, r = .framing e s → P s → Q s) (hk : ∀ a s, r = .ok a s → P s → (k a s).Ends Q) :
    (r.bind k).Ends Q := by
  cases r with
  | ok a s => exact hk a s rfl h
  | framing e s => exact hpq s e rfl h
  | fault f => trivial

/-- Composition for a property both parts keep. -/
theorem Ends_bind_same {α β : Type} {P : State → Prop} {r : Res α} {k : α → State → Res β} (h : r.Ends P)
    (hk : ∀ a s, P s → (k a s).Ends P) : (r.bind k).Ends P :=
  Ends_bind h (fun _ _ _ hp => hp) fun a s _ hp => hk a s hp

theorem Ends_mono {α : Type} {P Q : State → Prop} {r : Res α} (h : r.Ends P) (hpq : ∀ s, P s → Q s) : r.Ends Q := by
  cases r with
  | ok a s => exact hpq s h
  | framing e s => exact hpq s h
  | fault f => trivial

/-- A step's next state is an end of its operation, or the state in which a FramingError was taken. -/
theorem outcome_next {r : Res Unit} {t : State} (h : r.outcome = .next t) :
    r = .ok () t ∨ ∃ e u, r = .framing e u ∧ t = takeFramingError e u := by
  cases r with
  | ok a s => simp at h; exact .inl (by rw [h])
  | framing e s => simp at h; exact .inr ⟨e, s, rfl, h.symm⟩
  | fault f => simp at h

/-- A property that holds at every end, and that a FramingError keeps, holds of the next state. -/
theorem outcome_next_of_Ends {P : State → Prop} {r : Res Unit} {t : State} (h : r.outcome = .next t) (hr : r.Ends P)
    (hf : ∀ e u, P u → P (takeFramingError e u)) : P t := by
  rcases outcome_next h with rfl | ⟨e, u, rfl, rfl⟩
  · exact hr
  · exact hf e u hr

/-! ### Inputs -/

/-- A pin-direction draw is fatal or changes only the schedule (R326). -/
theorem pinDirection_cases (s : State) :
    pinDirection s = .fault .fatal ∧ s.input.dirFail = some 0 ∨
      ∃ k, s.input.dirFail ≠ some 0 ∧ pinDirection s = .ok () { s with input := { s.input with dirFail := k } } := by
  unfold pinDirection drawFailure
  rcases h : s.input.dirFail with _ | _ | k
  · exact .inr ⟨none, by simp, by simp⟩
  · exact .inl ⟨by simp, rfl⟩
  · exact .inr ⟨some k, by simp, by simp⟩

@[simp] theorem pinDirection_none {s : State} (h : s.input.dirFail = none) : pinDirection s = .ok () s := by
  obtain ⟨p, d, m, pi, tr, w, ph, b, fr, i, se, ta, re, f⟩ := s
  obtain ⟨a1, a2, a3, a4, a5, a6, a7⟩ := i
  simp only at h
  subst h
  rfl

/-- A TDO draw changes only the input; its value is the queued sample or a free value (R45). -/
theorem drawTdo_state (s : State) : ∃ q, (drawTdo s).2 =
    { s with input := { s.input with tdo := q, tdoDrawn := s.input.tdoDrawn + 1 } } := by
  unfold drawTdo
  rcases h : s.input.tdo with _ | ⟨b, bs⟩
  · exact ⟨[], by simp [h]⟩
  · exact ⟨bs, by simp⟩

theorem drawTdo_queue {s : State} {b : Bool} {bs : List Bool} (h : s.input.tdo = b :: bs) :
    drawTdo s = (b, { s with input := { s.input with tdo := bs, tdoDrawn := s.input.tdoDrawn + 1 } }) := by
  simp [drawTdo, h]

/-- An SWDIO draw changes only the input; its value is the queued sample or a free value (R45). -/
theorem drawSwdio_state (s : State) : ∃ q, (drawSwdio s).2 =
    { s with input := { s.input with swdio := q, swdioDrawn := s.input.swdioDrawn + 1 } } := by
  unfold drawSwdio
  rcases h : s.input.swdio with _ | ⟨b, bs⟩
  · exact ⟨[], by simp [h]⟩
  · exact ⟨bs, by simp⟩

theorem drawSwdio_queue {s : State} {b : Bool} {bs : List Bool} (h : s.input.swdio = b :: bs) :
    drawSwdio s = (b, { s with input := { s.input with swdio := bs, swdioDrawn := s.input.swdioDrawn + 1 } }) := by
  simp [drawSwdio, h]

/-- Reading a level changes at most the count of free values. -/
theorem readLevel_state (l : Level) (s : State) : ∃ n, (readLevel l s).2 = { s with free := n } := by
  cases l
  · exact ⟨s.free, rfl⟩
  · exact ⟨s.free, rfl⟩
  · exact ⟨s.free + 1, rfl⟩

/-! ### Buffers -/

/-- `ReqRead_N` answers the N bytes and moves the cursor, or is a FramingError at the cursor (R72). -/
theorem reqRead_cases (n : Nat) (s : State) :
    (s.mem.rd + n ≤ s.mem.req.length ∧
      reqRead n s = .ok ((s.mem.req.drop s.mem.rd).take n) { s with mem := { s.mem with rd := s.mem.rd + n } }) ∨
    (s.mem.req.length < s.mem.rd + n ∧ reqRead n s = .framing ⟨s.mem.rd, n⟩ s) := by
  unfold reqRead
  split
  · exact .inl ⟨by assumption, rfl⟩
  · exact .inr ⟨by omega, rfl⟩

/-- `RespWrite_N` appends the bytes, or is a FramingError when the capacity is exceeded (R74). -/
theorem respWrite_cases (bs : List Byte) (s : State) :
    (s.mem.resp.length + bs.length ≤ s.params.responseCapacity ∧
      respWrite bs s = .ok () { s with mem := { s.mem with resp := s.mem.resp ++ bs } }) ∨
    (s.params.responseCapacity < s.mem.resp.length + bs.length ∧
      respWrite bs s = .framing ⟨s.mem.rd, bs.length⟩ s) := by
  unfold respWrite
  split
  · exact .inl ⟨by assumption, rfl⟩
  · exact .inr ⟨by omega, rfl⟩

theorem respWrite_fits {bs : List Byte} {s : State}
    (h : s.mem.resp.length + bs.length ≤ s.params.responseCapacity) :
    respWrite bs s = .ok () { s with mem := { s.mem with resp := s.mem.resp ++ bs } } := by
  simp [respWrite, h]

theorem respPair_fits {a b : Byte} {s : State} (h : s.mem.resp.length + 2 ≤ s.params.responseCapacity) :
    respPair a b s = .ok () { s with mem := { s.mem with resp := s.mem.resp ++ [a, b] } } := by
  unfold respPair
  rw [respWrite_fits (by simp; omega)]
  simp only [bind_ok]
  rw [respWrite_fits (by simp; omega)]
  simp

theorem answer_fits {a b : Byte} {s : State} (h : s.mem.resp.length + 2 ≤ s.params.responseCapacity) :
    answer a b s = .ok () (endCommand { s with mem := { s.mem with resp := s.mem.resp ++ [a, b] } }) := by
  simp [answer, respPair_fits h]

@[simp] theorem overwrite_length (slot : Nat) (bs l : List Byte) : (overwrite slot bs l).length = l.length := by
  simp [overwrite]; omega

/-- Writing over the bytes `old` that stand after `l` (R75). -/
theorem overwrite_append {l old bs m : List Byte} (h : old.length = bs.length) :
    overwrite l.length bs (l ++ old ++ m) = l ++ bs ++ m := by
  have ht : (l ++ old ++ m).take l.length = l := by simp [List.append_assoc]
  have hd : (l ++ old ++ m).drop (l.length + bs.length) = m := by
    rw [← h, ← List.length_append, List.drop_left]
  rw [overwrite, ht, hd, List.take_of_length_le (by simp; omega)]

/-! ### The canonical form of the buffers is kept -/

theorem wf_iff (p : Params) (m : Memory) : Memory.wf p m = true ↔
    m.rd ≤ m.req.length ∧ m.req.length ≤ p.requestCapacity ∧ m.resp.length ≤ p.responseCapacity := by
  simp [Memory.wf, and_assoc]

theorem reset_wf : Memory.wf State.reset.params State.reset.mem = true := by decide

theorem empty_wf (p : Params) : Memory.wf p Memory.empty = true := by simp [wf_iff, Memory.empty]

theorem reqRead_wf {n : Nat} {s : State} (h : Memory.wf s.params s.mem = true) :
    (reqRead n s).Ends fun t => Memory.wf t.params t.mem = true := by
  rcases reqRead_cases n s with ⟨hl, he⟩ | ⟨-, he⟩ <;> rw [he]
  · rw [wf_iff] at h; simp [wf_iff]; omega
  · exact h

theorem respWrite_wf {bs : List Byte} {s : State} (h : Memory.wf s.params s.mem = true) :
    (respWrite bs s).Ends fun t => Memory.wf t.params t.mem = true := by
  rcases respWrite_cases bs s with ⟨hl, he⟩ | ⟨-, he⟩ <;> rw [he]
  · rw [wf_iff] at h; simp [wf_iff]; omega
  · exact h

theorem respReserve_wf {n : Nat} {s : State} (h : Memory.wf s.params s.mem = true) :
    (respReserve n s).Ends fun t => Memory.wf t.params t.mem = true :=
  Ends_bind_same (respWrite_wf h) fun _ _ ht => ht

theorem respPatch_wf {slot : Nat} {bs : List Byte} {s : State} (h : Memory.wf s.params s.mem = true) :
    Memory.wf (respPatch slot bs s).params (respPatch slot bs s).mem = true := by
  rw [wf_iff] at h ⊢; simpa using h

theorem advance_wf {n : Nat} {s : State} (hn : n ≤ (pending s).length) (h : Memory.wf s.params s.mem = true) :
    Memory.wf (advance n s).params (advance n s).mem = true := by
  rw [wf_iff] at h ⊢; simp [pending] at hn ⊢; omega

theorem acceptRequest_wf {bytes : List Byte} {s : State} (h : bytes.length ≤ s.params.requestCapacity) :
    Memory.wf (acceptRequest bytes s).params (acceptRequest bytes s).mem = true := by simp [wf_iff, h]

theorem takeFramingError_wf (e : FramingError) (s : State) :
    Memory.wf (takeFramingError e s).params (takeFramingError e s).mem = true := by
  unfold takeFramingError
  split <;> simp [empty_wf]

theorem sendResponse_wf {s : State} (h : Memory.wf s.params s.mem = true) :
    Memory.wf (sendResponse s).params (sendResponse s).mem = true := by
  rw [wf_iff] at h
  unfold sendResponse
  simp only
  split
  · simp [empty_wf]
  · simp [wf_iff, h]

end Sys2Proof.Machine
end

