-- ==== Sys2Proof/Laws/BitEngine.lean ====
section
/-! SUPPORT. What each cycle primitive and each sequence of them leaves: the exact records, the samples, and everything
that stays as it was. -/

namespace Sys2Proof.Machine

/-! ### Frames compose -/

theorem WireFrame.refl (s : State) : WireFrame s s := ⟨rfl, rfl, rfl, rfl, rfl, rfl, rfl, rfl, rfl, rfl, rfl⟩

theorem WireFrame.trans {s t u : State} (h : WireFrame s t) (k : WireFrame t u) : WireFrame s u :=
  ⟨k.params.trans h.params, k.driver.trans h.driver, k.mem.trans h.mem, k.work.trans h.work, k.phase.trans h.phase,
    k.batch.trans h.batch, k.framing.trans h.framing, k.recv.trans h.recv, k.sendFail.trans h.sendFail,
    k.sent.trans h.sent, k.ret.trans h.ret⟩

theorem TransferFrame.refl (s : State) : TransferFrame s s := ⟨rfl, rfl, rfl, rfl, rfl, rfl, rfl, rfl, rfl, rfl, rfl⟩

theorem TransferFrame.trans {s t u : State} (h : TransferFrame s t) (k : TransferFrame t u) : TransferFrame s u :=
  ⟨k.params.trans h.params, k.driver.trans h.driver, k.mem.trans h.mem, k.work.trans h.work, k.phase.trans h.phase,
    k.batch.trans h.batch, k.framing.trans h.framing, k.recv.trans h.recv, k.sendFail.trans h.sendFail,
    k.sent.trans h.sent, k.ret.trans h.ret⟩

theorem WireFrame.toTransferFrame {s t : State} (h : WireFrame s t) : TransferFrame s t :=
  ⟨h.params, h.driver, h.mem, by rw [h.work], h.phase, h.batch, h.framing, h.recv, h.sendFail, h.sent, h.ret⟩

theorem QuietFrame.refl (s : State) : QuietFrame s s := ⟨rfl, rfl, rfl, rfl, rfl, rfl, rfl, rfl⟩

theorem QuietFrame.trans {s t u : State} (h : QuietFrame s t) (k : QuietFrame t u) : QuietFrame s u :=
  ⟨k.params.trans h.params, k.pins.trans h.pins, k.trace.trans h.trace, k.input.trans h.input, k.sent.trans h.sent,
    k.taps.trans h.taps, k.ret.trans h.ret, k.free.trans h.free⟩

/-! ### One cycle -/

/-- A released clock cycle appends one record without levels (R156). -/
theorem clockCycle_released {s : State} (h : s.pins.swdioOe = .low) :
    clockCycle s = { s with pins := { s.pins with clk := .high }
                            trace := s.trace ++ [.swd false none none s.driver.halfDelay] } := by
  simp [clockCycle, h, readLevel, drivenOut, emit]

/-- A write cycle appends one record with the driven level (R157). -/
theorem writeCycle_eq (b : Bool) (s : State) :
    writeCycle b s = { s with pins := { s.pins with swdioOut := levelOf b, clk := .high }
                              trace := s.trace ++ [.swd true (some b) none s.driver.halfDelay] } := rfl

/-- A read cycle draws one sample and appends one record with it (R158). -/
theorem readCycle_eq (s : State) : ∃ q, (readCycle s).2 =
    { s with pins := { s.pins with clk := .high }
             trace := s.trace ++ [.swd false none (some (readCycle s).1) s.driver.halfDelay]
             input := { s.input with swdio := q, swdioDrawn := s.input.swdioDrawn + 1 } } := by
  obtain ⟨q, hq⟩ := drawSwdio_state s
  exact ⟨q, by simp [readCycle, hq, emit]⟩

theorem readCycle_queue {s : State} {b : Bool} {bs : List Bool} (h : s.input.swdio = b :: bs) :
    readCycle s = (b, { s with pins := { s.pins with clk := .high }
                               trace := s.trace ++ [.swd false none (some b) s.driver.halfDelay]
                               input := { s.input with swdio := bs, swdioDrawn := s.input.swdioDrawn + 1 } }) := by
  simp [readCycle, drawSwdio_queue h, emit]

/-- A JTAG cycle draws one sample, appends one record with it, and steps every observed TAP (R160, R47). -/
theorem jcycle_eq (tms tdi : Bool) (s : State) : ∃ q, (jcycle tms tdi s).2 =
    { s with pins := { s.pins with tms := levelOf tms, tdi := levelOf tdi, clk := .high }
             trace := s.trace ++ [.jtag tms tdi (jcycle tms tdi s).1 s.driver.halfDelay]
             taps := s.taps.map (Tap.next tms)
             input := { s.input with tdo := q, tdoDrawn := s.input.tdoDrawn + 1 } } := by
  obtain ⟨q, hq⟩ := drawTdo_state { s with pins := { s.pins with tms := levelOf tms, tdi := levelOf tdi } }
  exact ⟨q, by simp [jcycle, hq, emit]⟩

theorem jcycle_queue {s : State} {tms tdi b : Bool} {bs : List Bool} (h : s.input.tdo = b :: bs) :
    (jcycle tms tdi s).1 = b ∧ (jcycle tms tdi s).2.input.tdo = bs := by
  have hd := drawTdo_queue (s := { s with pins := { s.pins with tms := levelOf tms, tdi := levelOf tdi } }) h
  simp [jcycle, hd]

/-! ### Sequences -/

/-- `n` released clock cycles append `n` records without levels. -/
theorem clockCycles_released (n : Nat) {s : State} (h : s.pins.swdioOe = .low) : ∃ c,
    clockCycles n s = { s with pins := { s.pins with clk := c }
                               trace := s.trace ++ releasedRecords n s.driver.halfDelay } := by
  induction n generalizing s with
  | zero => exact ⟨s.pins.clk, by simp [clockCycles, releasedRecords]⟩
  | succ n ih =>
    obtain ⟨c, hc⟩ := ih (s := clockCycle s) (by rw [clockCycle_released h]; exact h)
    refine ⟨c, ?_⟩
    rw [clockCycles, hc, clockCycle_released h]
    simp [releasedRecords, List.replicate_succ]

/-- Writing bits appends one record a bit; the line is left at the last bit (R77, R157). -/
theorem writeBits_eq (bs : List Bool) (s : State) : ∃ p,
    writeBits bs s = { s with pins := p, trace := s.trace ++ writeRecords bs s.driver.halfDelay } ∧
      p.swdioOe = s.pins.swdioOe := by
  induction bs generalizing s with
  | nil => exact ⟨s.pins, by simp [writeBits, writeRecords], rfl⟩
  | cons b bs ih =>
    obtain ⟨p, hp, ho⟩ := ih (writeCycle b s)
    refine ⟨p, ?_, by rw [ho, writeCycle_eq]⟩
    rw [writeBits, hp, writeCycle_eq]
    simp [writeRecords]

/-- Reading `n` bits draws `n` samples and appends one record for each (R77, R158). -/
theorem readBits_eq (n : Nat) (s : State) : ∃ q c,
    (readBits n s).1.length = n ∧
      (readBits n s).2 = { s with pins := { s.pins with clk := c }
                                  trace := s.trace ++ readRecords (readBits n s).1 s.driver.halfDelay
                                  input := { s.input with swdio := q, swdioDrawn := s.input.swdioDrawn + n } } := by
  induction n generalizing s with
  | zero => exact ⟨s.input.swdio, s.pins.clk, rfl, by simp [readBits, readRecords]⟩
  | succ n ih =>
    obtain ⟨q0, h0⟩ := readCycle_eq s
    obtain ⟨q, c, hl, he⟩ := ih (readCycle s).2
    refine ⟨q, c, by simp [readBits, hl], ?_⟩
    simp only [readBits]
    rw [he, h0]
    simp [readRecords, Nat.add_comm 1 n, Nat.add_assoc]

theorem readBits_queue (bs rest : List Bool) {s : State} (h : s.input.swdio = bs ++ rest) :
    (readBits bs.length s).1 = bs ∧ (readBits bs.length s).2.input.swdio = rest := by
  induction bs generalizing s with
  | nil => exact ⟨rfl, h⟩
  | cons b bs ih =>
    have hb := readCycle_queue (bs := bs ++ rest) (b := b) (s := s) h
    obtain ⟨h1, h2⟩ := ih (s := (readCycle s).2) (by rw [hb])
    exact ⟨by simp [readBits, h1, congrArg Prod.fst hb], by simpa [readBits] using h2⟩

/-- A sequence of JTAG cycles: one sample and one record a cycle, and every observed TAP runs over the TMS values. -/
theorem jrun_eq (cs : List (Bool × Bool)) (s : State) : ∃ q p,
    (jrun cs s).1.length = cs.length ∧
      (jrun cs s).2 = { s with pins := p
                               trace := s.trace ++ jtagRecords cs (jrun cs s).1 s.driver.halfDelay
                               taps := s.taps.map (fun t => Tap.run t (cs.map Prod.fst))
                               input := { s.input with tdo := q, tdoDrawn := s.input.tdoDrawn + cs.length } } ∧
        p.swdioOe = s.pins.swdioOe ∧ p.swdioOut = s.pins.swdioOut := by
  induction cs generalizing s with
  | nil => exact ⟨s.input.tdo, s.pins, rfl, by simp [jrun, jtagRecords, Tap.run], rfl, rfl⟩
  | cons d ds ih =>
    obtain ⟨q0, h0⟩ := jcycle_eq d.1 d.2 s
    obtain ⟨q, p, hl, he, ho, hu⟩ := ih (jcycle d.1 d.2 s).2
    refine ⟨q, p, by simp [jrun, hl], ?_, by rw [ho, h0], by rw [hu, h0]⟩
    simp only [jrun]
    rw [he, h0]
    simp [jtagRecords, Tap.run, Nat.add_comm 1 ds.length, Nat.add_assoc, Function.comp_def]

theorem jrun_queue (cs : List (Bool × Bool)) (bs rest : List Bool) {s : State} (hl : bs.length = cs.length)
    (h : s.input.tdo = bs ++ rest) : (jrun cs s).1 = bs ∧ (jrun cs s).2.input.tdo = rest := by
  induction cs generalizing s bs with
  | nil =>
    obtain rfl : bs = [] := List.length_eq_zero_iff.mp hl
    exact ⟨rfl, h⟩
  | cons d ds ih =>
    obtain _ | ⟨b, bs⟩ := bs
    · simp at hl
    · obtain ⟨h1, h2⟩ := jcycle_queue (tms := d.1) (tdi := d.2) (b := b) (bs := bs ++ rest) (s := s) h
      obtain ⟨h3, h4⟩ := ih bs (by simpa using hl) h2
      exact ⟨by simp [jrun, h1, h3], by simpa [jrun] using h4⟩

/-! ### Frames of the sequences -/

theorem clockCycles_frame (n : Nat) (s : State) : WireFrame s (clockCycles n s) := by
  induction n generalizing s with
  | zero => exact .refl s
  | succ n ih =>
    refine WireFrame.trans ?_ (ih _)
    obtain ⟨n1, h1⟩ := readLevel_state s.pins.swdioOe s
    unfold clockCycle drivenOut
    simp only [h1]
    split
    · obtain ⟨n2, h2⟩ := readLevel_state s.pins.swdioOut { s with free := n1 }
      simp only [h2]
      exact ⟨rfl, rfl, rfl, rfl, rfl, rfl, rfl, rfl, rfl, rfl, rfl⟩
    · exact ⟨rfl, rfl, rfl, rfl, rfl, rfl, rfl, rfl, rfl, rfl, rfl⟩

theorem writeBits_frame (bs : List Bool) (s : State) : WireFrame s (writeBits bs s) := by
  obtain ⟨p, hp, -⟩ := writeBits_eq bs s
  rw [hp]; exact ⟨rfl, rfl, rfl, rfl, rfl, rfl, rfl, rfl, rfl, rfl, rfl⟩

theorem readCycle_frame (s : State) : WireFrame s (readCycle s).2 := by
  obtain ⟨q, hq⟩ := readCycle_eq s
  rw [hq]; exact ⟨rfl, rfl, rfl, rfl, rfl, rfl, rfl, rfl, rfl, rfl, rfl⟩

theorem readBits_frame (n : Nat) (s : State) : WireFrame s (readBits n s).2 := by
  obtain ⟨q, c, -, he⟩ := readBits_eq n s
  rw [he]; exact ⟨rfl, rfl, rfl, rfl, rfl, rfl, rfl, rfl, rfl, rfl, rfl⟩

theorem jrun_frame (cs : List (Bool × Bool)) (s : State) : WireFrame s (jrun cs s).2 := by
  obtain ⟨q, p, -, he, -⟩ := jrun_eq cs s
  rw [he]; exact ⟨rfl, rfl, rfl, rfl, rfl, rfl, rfl, rfl, rfl, rfl, rfl⟩

/-- A direction change touches only SWDIO and the failure schedule. -/
theorem swdOutEnable_frame (v : Bool) (s : State) : (swdOutEnable v s).Ends (WireFrame s) := by
  unfold swdOutEnable
  rcases pinDirection_cases s with ⟨h, -⟩ | ⟨k, -, h⟩ <;> rw [h]
  · trivial
  · exact ⟨rfl, rfl, rfl, rfl, rfl, rfl, rfl, rfl, rfl, rfl, rfl⟩

theorem swdOutDisable_frame (s : State) : (swdOutDisable s).Ends (WireFrame s) := by
  unfold swdOutDisable
  rcases pinDirection_cases s with ⟨h, -⟩ | ⟨k, -, h⟩ <;> rw [h]
  · trivial
  · exact ⟨rfl, rfl, rfl, rfl, rfl, rfl, rfl, rfl, rfl, rfl, rfl⟩

theorem undefinedData_frame (s : State) : WireFrame s (undefinedData s).2 :=
  ⟨rfl, rfl, rfl, rfl, rfl, rfl, rfl, rfl, rfl, rfl, rfl⟩

end Sys2Proof.Machine
end

