-- ==== Sys2Proof/Laws/Scan.lean ====
section
/-! SUPPORT. The scans: how many cycles they take, where they leave the TAPs, and what they leave unchanged. -/

namespace Sys2Proof.Machine

/-! ### The trace grows -/

theorem TraceGrows.refl (s : State) : TraceGrows s s := ⟨[], by simp, by simp⟩

theorem TraceGrows.trans {s t u : State} (h : TraceGrows s t) (hd : t.driver.halfDelay = s.driver.halfDelay)
    (k : TraceGrows t u) : TraceGrows s u := by
  obtain ⟨cs, h1, h2⟩ := h
  obtain ⟨ds, k1, k2⟩ := k
  refine ⟨cs ++ ds, by rw [k1, h1, List.append_assoc], fun c hc => ?_⟩
  rcases List.mem_append.mp hc with hc | hc
  · exact h2 c hc
  · rw [k2 c hc, hd]

theorem jtagRecords_delay (cs : List (Bool × Bool)) (bs : List Bool) (h : Word) :
    ∀ c ∈ jtagRecords cs bs h, cycleDelay c = h := by
  induction cs generalizing bs with
  | nil => simp [jtagRecords]
  | cons d ds ih =>
    cases bs with
    | nil => simp [jtagRecords]
    | cons b bs =>
      intro c hc
      simp only [jtagRecords, List.zipWith_cons_cons, List.mem_cons] at hc
      rcases hc with rfl | hc
      · rfl
      · exact ih bs c hc

theorem jrun_grows (cs : List (Bool × Bool)) (s : State) : TraceGrows s (jrun cs s).2 := by
  obtain ⟨q, p, -, he, -⟩ := jrun_eq cs s
  exact ⟨_, by rw [he], jtagRecords_delay _ _ _⟩

theorem writeBits_grows (bs : List Bool) (s : State) : TraceGrows s (writeBits bs s) := by
  obtain ⟨p, he, -⟩ := writeBits_eq bs s
  exact ⟨_, by rw [he], fun c hc => by obtain ⟨b, -, rfl⟩ := List.mem_map.mp hc; rfl⟩

theorem readBits_grows (n : Nat) (s : State) : TraceGrows s (readBits n s).2 := by
  obtain ⟨q, c, -, he⟩ := readBits_eq n s
  exact ⟨_, by rw [he], fun c hc => by obtain ⟨b, -, rfl⟩ := List.mem_map.mp hc; rfl⟩

theorem readCycle_grows (s : State) : TraceGrows s (readCycle s).2 := by
  obtain ⟨q, he⟩ := readCycle_eq s
  exact ⟨_, by rw [he], by simp [cycleDelay]⟩

theorem clockCycle_grows (s : State) : TraceGrows s (clockCycle s) := by
  obtain ⟨n1, h1⟩ := readLevel_state s.pins.swdioOe s
  unfold clockCycle drivenOut
  simp only [h1]
  split
  · obtain ⟨n2, h2⟩ := readLevel_state s.pins.swdioOut { s with free := n1 }
    simp only [h2]
    exact ⟨_, rfl, by simp [cycleDelay]⟩
  · exact ⟨_, rfl, by simp [cycleDelay]⟩

theorem clockCycles_grows (n : Nat) (s : State) : TraceGrows s (clockCycles n s) := by
  induction n generalizing s with
  | zero => exact .refl s
  | succ n ih => exact (clockCycle_grows s).trans (by rw [(clockCycles_frame 1 s).driver.symm]; rfl) (ih _)

/-! ### Lengths (R176, R180, R187) -/

@[simp] theorem shiftOut_length (bs : List Bool) : (shiftOut bs).length = bs.length := by
  induction bs with
  | nil => rfl
  | cons b bs ih =>
    cases bs with
    | nil => rfl
    | cons b' bs => simp only [shiftOut, List.length_cons, ih]

@[simp] theorem stay_length (n : Nat) : (stay n).length = n := by simp [stay]

@[simp] theorem setIrBits_length (d : Device) (ir : Byte) :
    (setIrBits d ir).length = d.irBitsBefore.toNat + d.irLength.toNat + d.irBitsAfter.toNat := by
  simp [setIrBits, Nat.add_assoc]

theorem setIrCycles_length (d : Device) (ir : Byte) :
    (setIrCycles d ir).length = d.irBitsBefore.toNat + d.irLength.toNat + d.irBitsAfter.toNat + 6 := by
  simp only [setIrCycles, toShiftIr, toIdle, List.length_append, shiftOut_length, setIrBits_length, List.length_cons,
    List.length_nil]
  omega

theorem readDrCycles_length (i : Nat) : (readDrCycles i).length = i + 37 := by
  simp only [readDrCycles, toShiftDr, toIdle, List.length_append, shiftOut_length, stay_length, List.length_replicate,
    List.length_cons, List.length_nil]
  omega

theorem scanHead_length (i : Nat) (req : Byte) : (scanHead i req).length = i + 6 := by
  simp only [scanHead, toShiftDr, List.length_append, stay_length, List.length_cons, List.length_nil]
  omega

@[simp] theorem bitsOf_length {n : Nat} (v : BitVec n) : (bitsOf v).length = n := by simp [bitsOf]

@[simp] theorem scanData_length (req : Byte) (w : Word) : (scanData req w).length = 32 := by
  unfold scanData; split <;> simp

theorem scanOkTail_length (m idle : Nat) (req : Byte) (w : Word) :
    (scanOkTail m idle req w).length = m + idle + 34 := by
  simp only [scanOkTail, toIdle, List.length_append, shiftOut_length, stay_length, scanData_length,
    List.length_replicate, List.length_cons, List.length_nil]
  omega

theorem scanAbortTail_length (idle : Nat) : (scanAbortTail idle).length = idle + 3 := by
  simp only [scanAbortTail, toIdle, List.length_append, stay_length, List.length_cons, List.length_nil]
  omega

/-! ### Where the scans leave a TAP (R170) -/

theorem Tap.run_append (t : Tap) (a b : List Bool) : Tap.run t (a ++ b) = Tap.run (Tap.run t a) b := by
  simp [Tap.run]

theorem Tap.run_stay_shiftDr (n : Nat) : Tap.run .shiftDr ((stay n).map Prod.fst) = .shiftDr := by
  induction n with
  | zero => rfl
  | succ n ih => simpa [stay, Tap.run, List.replicate_succ, Tap.next] using ih

theorem Tap.run_stay_idle (n : Nat) : Tap.run .runTestIdle ((stay n).map Prod.fst) = .runTestIdle := by
  induction n with
  | zero => rfl
  | succ n ih => simpa [stay, Tap.run, List.replicate_succ, Tap.next] using ih

/-- Shifting at least one bit leaves a shift state for the Exit1 state of its column. -/
theorem Tap.run_shiftOut_ir {bs : List Bool} (h : bs ≠ []) :
    Tap.run .shiftIr ((shiftOut bs).map Prod.fst) = .exit1Ir := by
  induction bs with
  | nil => exact absurd rfl h
  | cons b bs ih =>
    cases bs with
    | nil => rfl
    | cons b' bs => simpa [shiftOut, Tap.run, Tap.next] using ih (by simp)

theorem Tap.run_shiftOut_dr {bs : List Bool} (h : bs ≠ []) :
    Tap.run .shiftDr ((shiftOut bs).map Prod.fst) = .exit1Dr := by
  induction bs with
  | nil => exact absurd rfl h
  | cons b bs ih =>
    cases bs with
    | nil => rfl
    | cons b' bs => simpa [shiftOut, Tap.run, Tap.next] using ih (by simp)

theorem Tap.run_setIr {d : Device} (ir : Byte) (h : d.irLength ≠ 0#8) :
    Tap.run .runTestIdle ((setIrCycles d ir).map Prod.fst) = .runTestIdle := by
  have hb : setIrBits d ir ≠ [] := fun h0 => h (by
    have := setIrBits_length d ir
    rw [h0] at this
    exact BitVec.eq_of_toNat_eq (by simp at this ⊢; omega))
  simp only [setIrCycles, List.map_append, Tap.run_append]
  rw [show Tap.run .runTestIdle (toShiftIr.map Prod.fst) = .shiftIr from rfl, Tap.run_shiftOut_ir hb]
  rfl

theorem Tap.run_readDr (i : Nat) : Tap.run .runTestIdle ((readDrCycles i).map Prod.fst) = .runTestIdle := by
  simp only [readDrCycles, List.map_append, Tap.run_append]
  rw [show Tap.run .runTestIdle (toShiftDr.map Prod.fst) = .shiftDr from rfl, Tap.run_stay_shiftDr,
    Tap.run_shiftOut_dr (by simp)]
  rfl

theorem Tap.run_scanHead (i : Nat) (req : Byte) :
    Tap.run .runTestIdle ((scanHead i req).map Prod.fst) = .shiftDr := by
  simp only [scanHead, List.map_append, Tap.run_append]
  rw [show Tap.run .runTestIdle (toShiftDr.map Prod.fst) = .shiftDr from rfl, Tap.run_stay_shiftDr]
  rfl

theorem Tap.run_scanOkTail (m idle : Nat) (req : Byte) (w : Word) :
    Tap.run .shiftDr ((scanOkTail m idle req w).map Prod.fst) = .runTestIdle := by
  have hb : scanData req w ++ List.replicate m true ≠ [] := fun h0 => by
    have := congrArg List.length h0
    simp at this
  simp only [scanOkTail, List.map_append, Tap.run_append]
  rw [Tap.run_shiftOut_dr hb, show Tap.run .exit1Dr (toIdle.map Prod.fst) = .runTestIdle from rfl, Tap.run_stay_idle]

theorem Tap.run_scanAbortTail (idle : Nat) :
    Tap.run .shiftDr ((scanAbortTail idle).map Prod.fst) = .runTestIdle := by
  simp only [scanAbortTail, List.map_append, Tap.run_append]
  exact Tap.run_stay_idle idle

/-! ### What the scans do -/

/-- The wire side of a JTAG operation: nothing else changed, the trace grew with the delay in force, SWDIO is as before. -/
structure JtagMove (s t : State) : Prop where
  frame : WireFrame s t
  grows : TraceGrows s t
  oe : t.pins.swdioOe = s.pins.swdioOe
  out : t.pins.swdioOut = s.pins.swdioOut

theorem JtagMove.trans {s t u : State} (h : JtagMove s t) (k : JtagMove t u) : JtagMove s u :=
  ⟨h.frame.trans k.frame, h.grows.trans (by rw [h.frame.driver]) k.grows, k.oe.trans h.oe, k.out.trans h.out⟩

theorem jrun_move (cs : List (Bool × Bool)) (s : State) : JtagMove s (jrun cs s).2 := by
  obtain ⟨q, p, -, he, ho, hu⟩ := jrun_eq cs s
  exact ⟨jrun_frame cs s, jrun_grows cs s, by rw [he]; exact ho, by rw [he]; exact hu⟩

theorem jrun_taps (cs : List (Bool × Bool)) (s : State) :
    (jrun cs s).2.taps = s.taps.map (fun t => Tap.run t (cs.map Prod.fst)) := by
  obtain ⟨q, p, -, he, -⟩ := jrun_eq cs s
  rw [he]

theorem undefinedData_move (s : State) : JtagMove s (undefinedData s).2 :=
  ⟨undefinedData_frame s, .refl s, rfl, rfl⟩

theorem setInstructionRegister_moves (ir : Byte) (s : State) : (setInstructionRegister ir s).Ends (JtagMove s) := by
  unfold setInstructionRegister
  split
  · exact jrun_move _ s
  · trivial

theorem readDataRegister32_moves (s : State) : (readDataRegister32 s).Ends (JtagMove s) := by
  unfold readDataRegister32
  split
  · exact jrun_move _ s
  · trivial

theorem jtagTransferScan_moves (req : Byte) (w : Word) (s : State) : (jtagTransferScan req w s).Ends (JtagMove s) := by
  unfold jtagTransferScan
  split
  · simp only
    split
    · exact (jrun_move _ s).trans (jrun_move _ _)
    · exact ((jrun_move _ s).trans (jrun_move _ _)).trans (undefinedData_move _)
  · trivial

theorem selected_mem {d : Driver} {e : Device} (h : selected d = some e) : e ∈ d.chain :=
  List.mem_of_getElem? h

theorem setInstructionRegister_taps {s : State} (ir : Byte) (hc : ChainInv s) (h : TapsIdle s) :
    (setInstructionRegister ir s).Ends TapsIdle := by
  unfold setInstructionRegister
  split
  · rename_i d hd
    intro t ht
    rw [jrun_taps] at ht
    obtain ⟨t0, h0, rfl⟩ := List.mem_map.mp ht
    rw [h t0 h0, Tap.run_setIr ir (hc.2.1 d (selected_mem hd))]
  · trivial

theorem jtagTransferScan_taps {s : State} (req : Byte) (w : Word) (h : TapsIdle s) :
    (jtagTransferScan req w s).Ends TapsIdle := by
  unfold jtagTransferScan
  split
  · simp only
    split
    · intro t ht
      rw [jrun_taps, jrun_taps] at ht
      simp only [List.map_map, List.mem_map, Function.comp] at ht
      obtain ⟨t0, h0, rfl⟩ := ht
      rw [h t0 h0, Tap.run_scanHead, Tap.run_scanOkTail]
    · intro t ht
      rw [show ∀ u : State, (undefinedData u).2.taps = u.taps from fun _ => rfl, jrun_taps, jrun_taps] at ht
      simp only [List.map_map, List.mem_map, Function.comp] at ht
      obtain ⟨t0, h0, rfl⟩ := ht
      rw [h t0 h0, Tap.run_scanHead, Tap.run_scanAbortTail]
  · trivial

/-! ### What the cycles shift (R171) -/

@[simp] theorem tmsTdiOf_nil : tmsTdiOf [] = [] := rfl

theorem tmsTdiOf_append (a b : List Cycle) : tmsTdiOf (a ++ b) = tmsTdiOf a ++ tmsTdiOf b := List.filterMap_append

/-- The records of a run of cycles carry those cycles. -/
theorem tmsTdiOf_jtagRecords (cs : List (Bool × Bool)) (bs : List Bool) (h : Word) (hl : bs.length = cs.length) :
    tmsTdiOf (jtagRecords cs bs h) = cs := by
  induction cs generalizing bs with
  | nil => rfl
  | cons c cs ih =>
    obtain _ | ⟨b, bs⟩ := bs
    · simp at hl
    · have := ih bs (by simpa using hl)
      simpa [tmsTdiOf, jtagRecords] using this

/-- A run of cycles appends records of exactly those cycles. -/
theorem jrun_tmsTdi (cs : List (Bool × Bool)) (s : State) :
    ∃ rs, (jrun cs s).2.trace = s.trace ++ rs ∧ tmsTdiOf rs = cs := by
  obtain ⟨q, p, hl, he, -, -⟩ := jrun_eq cs s
  exact ⟨_, by rw [he], tmsTdiOf_jtagRecords _ _ _ hl⟩

theorem tdiShiftedIn_append (q t : Tap) (a b : List (Bool × Bool)) :
    tdiShiftedIn q t (a ++ b) = tdiShiftedIn q t a ++ tdiShiftedIn q (Tap.run t (a.map Prod.fst)) b := by
  induction a generalizing t with
  | nil => rfl
  | cons x xs ih => simp [tdiShiftedIn, ih, Tap.run]

/-- From its shift state a TAP shifts all the bits shifted out, in that state only. -/
theorem tdiShiftedIn_shiftOut (bs : List Bool) :
    tdiShiftedIn .shiftIr .shiftIr (shiftOut bs) = bs ∧ tdiShiftedIn .shiftDr .shiftDr (shiftOut bs) = bs ∧
      tdiShiftedIn .shiftDr .shiftIr (shiftOut bs) = [] ∧ tdiShiftedIn .shiftIr .shiftDr (shiftOut bs) = [] := by
  induction bs with
  | nil => exact ⟨rfl, rfl, rfl, rfl⟩
  | cons b bs ih =>
    cases bs with
    | nil => exact ⟨rfl, rfl, rfl, rfl⟩
    | cons c cs =>
      simp only [shiftOut, tdiShiftedIn, Tap.next]
      simp [ih]

theorem tdiShiftedIn_stay (n : Nat) :
    tdiShiftedIn .shiftDr .shiftDr (stay n) = List.replicate n true ∧ tdiShiftedIn .shiftIr .shiftDr (stay n) = [] ∧
      tdiShiftedIn .shiftDr .runTestIdle (stay n) = [] ∧ tdiShiftedIn .shiftIr .runTestIdle (stay n) = [] := by
  induction n with
  | zero => exact ⟨rfl, rfl, rfl, rfl⟩
  | succ n ih =>
    simp only [stay, List.replicate_succ, tdiShiftedIn, Tap.next] at ih ⊢
    simp [ih]

theorem tdiShiftedIn_setIr {d : Device} (ir : Byte) (h : d.irLength ≠ 0#8) :
    tdiShiftedIn .shiftIr .runTestIdle (setIrCycles d ir) = setIrBits d ir ∧
      tdiShiftedIn .shiftDr .runTestIdle (setIrCycles d ir) = [] := by
  have hb : setIrBits d ir ≠ [] := fun h0 => h (by
    have := setIrBits_length d ir
    rw [h0] at this
    exact BitVec.eq_of_toNat_eq (by simp at this ⊢; omega))
  simp only [setIrCycles, tdiShiftedIn_append, List.map_append, Tap.run_append]
  rw [show Tap.run .runTestIdle (toShiftIr.map Prod.fst) = .shiftIr from rfl, Tap.run_shiftOut_ir hb,
    (tdiShiftedIn_shiftOut _).1, (tdiShiftedIn_shiftOut _).2.2.1]
  simp [toShiftIr, toIdle, tdiShiftedIn, Tap.next]

theorem tdiShiftedIn_scanHead (i : Nat) (req : Byte) :
    tdiShiftedIn .shiftDr .runTestIdle (scanHead i req) =
        List.replicate i true ++ [req.getLsbD 1, req.getLsbD 2, req.getLsbD 3] ∧
      tdiShiftedIn .shiftIr .runTestIdle (scanHead i req) = [] := by
  simp only [scanHead, tdiShiftedIn_append, List.map_append, Tap.run_append]
  rw [show Tap.run .runTestIdle (toShiftDr.map Prod.fst) = .shiftDr from rfl, Tap.run_stay_shiftDr,
    (tdiShiftedIn_stay _).1, (tdiShiftedIn_stay _).2.1]
  simp [toShiftDr, tdiShiftedIn, Tap.next]

theorem tdiShiftedIn_scanOkTail (m idle : Nat) (req : Byte) (w : Word) :
    tdiShiftedIn .shiftDr .shiftDr (scanOkTail m idle req w) = scanData req w ++ List.replicate m true ∧
      tdiShiftedIn .shiftIr .shiftDr (scanOkTail m idle req w) = [] := by
  have hb : scanData req w ++ List.replicate m true ≠ [] := fun h0 => by
    have := congrArg List.length h0
    simp at this
  simp only [scanOkTail, tdiShiftedIn_append, List.map_append, Tap.run_append]
  rw [Tap.run_shiftOut_dr hb, (tdiShiftedIn_shiftOut _).2.1, (tdiShiftedIn_shiftOut _).2.2.2]
  simp [toIdle, tdiShiftedIn, Tap.next, Tap.run, (tdiShiftedIn_stay idle).2.2.1, (tdiShiftedIn_stay idle).2.2.2]

theorem tdiShiftedIn_scanAbortTail (idle : Nat) :
    tdiShiftedIn .shiftDr .shiftDr (scanAbortTail idle) = [true] ∧
      tdiShiftedIn .shiftIr .shiftDr (scanAbortTail idle) = [] := by
  simp only [scanAbortTail, tdiShiftedIn_append, List.map_append, Tap.run_append]
  simp [toIdle, tdiShiftedIn, Tap.next, Tap.run, (tdiShiftedIn_stay idle).2.2.1, (tdiShiftedIn_stay idle).2.2.2]

theorem tdiShiftedIn_readDr (i : Nat) :
    tdiShiftedIn .shiftDr .runTestIdle (readDrCycles i) = List.replicate (i + 32) true ∧
      tdiShiftedIn .shiftIr .runTestIdle (readDrCycles i) = [] := by
  simp only [readDrCycles, tdiShiftedIn_append, List.map_append, Tap.run_append]
  rw [show Tap.run .runTestIdle (toShiftDr.map Prod.fst) = .shiftDr from rfl, Tap.run_stay_shiftDr,
    Tap.run_shiftOut_dr (by simp), (tdiShiftedIn_stay _).1, (tdiShiftedIn_stay _).2.1, (tdiShiftedIn_shiftOut _).2.1,
    (tdiShiftedIn_shiftOut _).2.2.2]
  simp [toShiftDr, toIdle, tdiShiftedIn, Tap.next, List.replicate_add]

end Sys2Proof.Machine
end

