-- ==== Sys2Proof/Laws/Packet.lean ====
section
/-! SUPPORT. The SWD packet: every path changes the wire side only, and leaves the line parked (R200, R202). -/

namespace Sys2Proof.Machine

/-- The wire side of an SWD operation: nothing else changed, the trace grew with the delay in force, no TAP was
clocked. -/
structure SwdMove (s t : State) : Prop where
  frame : WireFrame s t
  grows : TraceGrows s t
  taps : t.taps = s.taps

theorem SwdMove.refl (s : State) : SwdMove s s := ⟨.refl s, .refl s, rfl⟩

theorem SwdMove.trans {s t u : State} (h : SwdMove s t) (k : SwdMove t u) : SwdMove s u :=
  ⟨h.frame.trans k.frame, h.grows.trans (by rw [h.frame.driver]) k.grows, k.taps.trans h.taps⟩

theorem writeBits_move (bs : List Bool) (s : State) : SwdMove s (writeBits bs s) := by
  obtain ⟨p, he, -⟩ := writeBits_eq bs s
  exact ⟨writeBits_frame bs s, writeBits_grows bs s, by rw [he]⟩

theorem writeBits_oe (bs : List Bool) (s : State) : (writeBits bs s).pins.swdioOe = s.pins.swdioOe := by
  obtain ⟨p, he, ho⟩ := writeBits_eq bs s
  rw [he]; exact ho

theorem writeCycle_move (b : Bool) (s : State) : SwdMove s (writeCycle b s) := writeBits_move [b] s

theorem readBits_move (n : Nat) (s : State) : SwdMove s (readBits n s).2 := by
  obtain ⟨q, c, -, he⟩ := readBits_eq n s
  exact ⟨readBits_frame n s, readBits_grows n s, by rw [he]⟩

theorem readCycle_move (s : State) : SwdMove s (readCycle s).2 := by
  obtain ⟨q, he⟩ := readCycle_eq s
  exact ⟨readCycle_frame s, readCycle_grows s, by rw [he]⟩

theorem clockCycle_taps (s : State) : (clockCycle s).taps = s.taps := by
  obtain ⟨n1, h1⟩ := readLevel_state s.pins.swdioOe s
  unfold clockCycle drivenOut
  simp only [h1]
  split
  · obtain ⟨n2, h2⟩ := readLevel_state s.pins.swdioOut { s with free := n1 }
    simp only [h2]; rfl
  · rfl

theorem clockCycles_taps (n : Nat) (s : State) : (clockCycles n s).taps = s.taps := by
  induction n generalizing s with
  | zero => rfl
  | succ n ih => rw [clockCycles, ih, clockCycle_taps]

theorem clockCycles_move (n : Nat) (s : State) : SwdMove s (clockCycles n s) :=
  ⟨clockCycles_frame n s, clockCycles_grows n s, clockCycles_taps n s⟩

theorem parkHigh_move (s : State) : SwdMove s (parkHigh s) :=
  ⟨⟨rfl, rfl, rfl, rfl, rfl, rfl, rfl, rfl, rfl, rfl, rfl⟩, .refl s, rfl⟩

theorem undefinedData_swd (s : State) : SwdMove s (undefinedData s).2 := ⟨undefinedData_frame s, .refl s, rfl⟩

theorem readAck_move (s : State) : SwdMove s (readAck s).2 :=
  ((readCycle_move s).trans (readCycle_move _)).trans (readCycle_move _)

theorem idleAndPark_move (s : State) : SwdMove s (idleAndPark s) :=
  (writeBits_move _ s).trans (parkHigh_move _)

theorem idleAndPark_parked {s : State} (h : s.pins.swdioOe = .high) : Parked (idleAndPark s) :=
  ⟨(writeBits_oe _ s).trans h, rfl⟩

/-- Taking the line is fatal or leaves it driven at the given level (R155, R326). -/
theorem swdOutEnable_moves (v : Bool) (s : State) :
    (swdOutEnable v s).Ends fun t => SwdMove s t ∧ t.pins.swdioOe = .high ∧ t.pins.swdioOut = levelOf v := by
  unfold swdOutEnable
  rcases pinDirection_cases s with ⟨h, -⟩ | ⟨k, -, h⟩ <;> rw [h]
  · trivial
  · exact ⟨⟨⟨rfl, rfl, rfl, rfl, rfl, rfl, rfl, rfl, rfl, rfl, rfl⟩, .refl s, rfl⟩, rfl, rfl⟩

/-- Releasing the line is fatal or leaves it released (R155, R326). -/
theorem swdOutDisable_moves (s : State) :
    (swdOutDisable s).Ends fun t => SwdMove s t ∧ t.pins.swdioOe = .low := by
  unfold swdOutDisable
  rcases pinDirection_cases s with ⟨h, -⟩ | ⟨k, -, h⟩ <;> rw [h]
  · trivial
  · exact ⟨⟨⟨rfl, rfl, rfl, rfl, rfl, rfl, rfl, rfl, rfl, rfl, rfl⟩, .refl s, rfl⟩, rfl⟩

/-- A direction change never ends in a FramingError. -/
theorem swdOutEnable_ne_framing {v : Bool} {s t : State} {e : FramingError} : swdOutEnable v s ≠ .framing e t := by
  unfold swdOutEnable
  rcases pinDirection_cases s with ⟨h, -⟩ | ⟨k, -, h⟩ <;> rw [h] <;> simp

theorem swdOutDisable_ne_framing {s t : State} {e : FramingError} : swdOutDisable s ≠ .framing e t := by
  unfold swdOutDisable
  rcases pinDirection_cases s with ⟨h, -⟩ | ⟨k, -, h⟩ <;> rw [h] <;> simp

theorem packetReadOk_moves (s : State) : (packetReadOk s).Ends fun t => SwdMove s t ∧ Parked t := by
  unfold packetReadOk
  refine Ends_bind (swdOutEnable_moves _ _) (fun t e h _ => absurd h swdOutEnable_ne_framing) fun _ t _ ht => ?_
  exact ⟨(((readBits_move 32 s).trans (readCycle_move _)).trans (clockCycles_move _ _)).trans
    (ht.1.trans (idleAndPark_move t)), idleAndPark_parked ht.2.1⟩

theorem packetWriteOk_moves (w : Word) (s : State) : (packetWriteOk w s).Ends fun t => SwdMove s t ∧ Parked t := by
  unfold packetWriteOk
  refine Ends_bind (swdOutEnable_moves _ _) (fun t e h _ => absurd h swdOutEnable_ne_framing) fun _ t _ ht => ?_
  refine ⟨((clockCycles_move _ s).trans ht.1).trans ((((writeBits_move _ t).trans (writeCycle_move _ _)).trans
    (idleAndPark_move _)).trans (undefinedData_swd _)), ?_⟩
  exact idleAndPark_parked ((writeBits_oe _ t).trans ht.2.1)

theorem packetWaitFault_moves (req a : Byte) (s : State) :
    (packetWaitFault req a s).Ends fun t => SwdMove s t ∧ Parked t := by
  unfold packetWaitFault
  refine Ends_bind (swdOutEnable_moves _ _) (fun t e h _ => absurd h swdOutEnable_ne_framing) fun _ t _ ht => ?_
  have h0 : SwdMove s (if s.driver.dataPhase && reqRnW req then clockCycles 33 s else s) := by
    split
    · exact clockCycles_move _ _
    · exact .refl s
  have h2 : SwdMove t (if t.driver.dataPhase && !reqRnW req then writeBits (List.replicate 33 false) t else t) ∧
      (if t.driver.dataPhase && !reqRnW req then writeBits (List.replicate 33 false) t else t).pins.swdioOe = .high := by
    split
    · exact ⟨writeBits_move _ _, (writeBits_oe _ t).trans ht.2.1⟩
    · exact ⟨.refl t, ht.2.1⟩
  exact ⟨((h0.trans (clockCycles_move _ _)).trans ht.1).trans ((h2.1.trans (parkHigh_move _)).trans
    (undefinedData_swd _)), h2.2, rfl⟩

theorem packetProtocolError_moves (a : Byte) (s : State) :
    (packetProtocolError a s).Ends fun t => SwdMove s t ∧ Parked t := by
  unfold packetProtocolError
  refine Ends_bind (swdOutEnable_moves _ _) (fun t e h _ => absurd h swdOutEnable_ne_framing) fun _ t _ ht => ?_
  exact ⟨((clockCycles_move _ s).trans ht.1).trans (undefinedData_swd t), ht.2⟩

/-- Every path of a packet changes the wire side only and leaves the line parked (R200, R201). -/
theorem swdPacket_moves (req : Byte) (w : Word) (s : State) :
    (swdPacket req w s).Ends fun t => SwdMove s t ∧ Parked t := by
  unfold swdPacket
  refine Ends_bind (swdOutDisable_moves _) (fun t e h _ => absurd h swdOutDisable_ne_framing) fun _ t _ ht => ?_
  have h0 : SwdMove s (readAck (clockCycles (turnaround t.driver) t)).2 :=
    ((writeBits_move _ s).trans ht.1).trans ((clockCycles_move _ t).trans (readAck_move _))
  have lift : ∀ {r : Res (Byte × Word)},
      (r.Ends fun u => SwdMove (readAck (clockCycles (turnaround t.driver) t)).2 u ∧ Parked u) →
        r.Ends fun u => SwdMove s u ∧ Parked u := fun h => Ends_mono h fun u hu => ⟨h0.trans hu.1, hu.2⟩
  simp only
  split
  · split
    · exact lift (packetReadOk_moves _)
    · exact lift (packetWriteOk_moves _ _)
  · split
    · exact lift (packetWaitFault_moves _ _ _)
    · exact lift (packetProtocolError_moves _ _)

/-- A packet never ends in a FramingError. -/
theorem swdPacket_ne_framing {req : Byte} {w : Word} {s t : State} {e : FramingError} :
    swdPacket req w s ≠ .framing e t := by
  intro h
  unfold swdPacket packetReadOk packetWriteOk packetWaitFault packetProtocolError swdOutEnable swdOutDisable at h
  rcases pinDirection_cases (sendHeader (swdHeaderOf req) s) with ⟨h1, -⟩ | ⟨k, -, h1⟩ <;> rw [h1] at h
  · simp at h
  · simp only [bind_ok] at h
    repeat' split at h
    all_goals
      first
      | rcases pinDirection_cases _ with ⟨h2, -⟩ | ⟨k, -, h2⟩ <;> rw [h2] at h <;> simp at h

/-! ### The schedule of a failing direction change (R326) -/

/-- `s` with this schedule. -/
def withDirFail (f : Option Nat) (s : State) : State := { s with input := { s.input with dirFail := f } }

@[simp] theorem withDirFail_driver (f) (s : State) : (withDirFail f s).driver = s.driver := rfl
@[simp] theorem withDirFail_dirFail (f) (s : State) : (withDirFail f s).input.dirFail = f := rfl
@[simp] theorem withDirFail_twice (f g) (s : State) : withDirFail f (withDirFail g s) = withDirFail f s := rfl
theorem withDirFail_self (s : State) : withDirFail s.input.dirFail s = s := rfl

/-! Nothing but a direction change depends on the schedule or touches it. -/

theorem readLevel_withDirFail (l : Level) (f) (s : State) :
    readLevel l (withDirFail f s) = ((readLevel l s).1, withDirFail f (readLevel l s).2) := by cases l <;> rfl

theorem clockCycle_withDirFail (f) (s : State) : clockCycle (withDirFail f s) = withDirFail f (clockCycle s) := by
  unfold clockCycle drivenOut
  rw [show (withDirFail f s).pins = s.pins from rfl, readLevel_withDirFail]
  simp only
  split
  · rw [show (withDirFail f (readLevel s.pins.swdioOe s).2).pins = (readLevel s.pins.swdioOe s).2.pins from rfl,
      readLevel_withDirFail]
    rfl
  · rfl

theorem clockCycles_withDirFail (f) (n : Nat) (s : State) :
    clockCycles n (withDirFail f s) = withDirFail f (clockCycles n s) := by
  induction n generalizing s with
  | zero => rfl
  | succ n ih => rw [clockCycles, clockCycle_withDirFail, ih]; rfl

theorem writeBits_withDirFail (f) (bs : List Bool) (s : State) :
    writeBits bs (withDirFail f s) = withDirFail f (writeBits bs s) := by
  induction bs generalizing s with
  | nil => rfl
  | cons b bs ih => exact ih (writeCycle b s)

theorem readCycle_withDirFail (f) (s : State) :
    readCycle (withDirFail f s) = ((readCycle s).1, withDirFail f (readCycle s).2) := by
  unfold readCycle drawSwdio
  rw [show (withDirFail f s).input.swdio = s.input.swdio from rfl]
  split <;> rfl

theorem readBits_withDirFail (f) (n : Nat) (s : State) :
    readBits n (withDirFail f s) = ((readBits n s).1, withDirFail f (readBits n s).2) := by
  induction n generalizing s with
  | zero => rfl
  | succ n ih => simp only [readBits, readCycle_withDirFail, ih]

theorem readAck_withDirFail (f) (s : State) :
    readAck (withDirFail f s) = ((readAck s).1, withDirFail f (readAck s).2) := by
  simp only [readAck, readCycle_withDirFail]

theorem parkHigh_withDirFail (f) (s : State) : parkHigh (withDirFail f s) = withDirFail f (parkHigh s) := rfl

theorem undefinedData_withDirFail (f) (s : State) :
    undefinedData (withDirFail f s) = ((undefinedData s).1, withDirFail f (undefinedData s).2) := rfl

theorem idleAndPark_withDirFail (f) (s : State) : idleAndPark (withDirFail f s) = withDirFail f (idleAndPark s) := by
  unfold idleAndPark
  rw [withDirFail_driver, writeBits_withDirFail]
  rfl

/-- `r` draws one direction change: it is fatal where that draw fails, else it goes on alike whatever comes later. -/
def DrawsOnce {α : Type} (r : State → Res α) (s : State) : Prop :=
  ∃ a t, ∀ f, r (withDirFail f s) = if f = some 0 then .fault .fatal else .ok a (withDirFail (drawFailure f).2 t)

theorem swdOutEnable_draws (v : Bool) (s : State) : DrawsOnce (swdOutEnable v) s :=
  ⟨(), { s with pins := { s.pins with swdioOut := levelOf v, swdioOe := .high } }, fun f => by rcases f with _ | _ | k <;> rfl⟩

theorem swdOutDisable_draws (s : State) : DrawsOnce swdOutDisable s :=
  ⟨(), { s with pins := { s.pins with swdioOe := .low } }, fun f => by rcases f with _ | _ | k <;> rfl⟩

/-- What comes after the draw, and depends on the schedule no more, keeps the form. -/
theorem DrawsOnce.bind {α β : Type} {r : State → Res α} {s : State} (h : DrawsOnce r s) {k : α → State → Res β}
    (hk : ∀ a t, ∃ b u, ∀ f, k a (withDirFail f t) = .ok b (withDirFail f u)) :
    DrawsOnce (fun s => (r s).bind k) s := by
  obtain ⟨a, t, h⟩ := h
  obtain ⟨b, u, hk⟩ := hk a t
  exact ⟨b, u, fun f => by simp only [h]; split <;> simp [hk]⟩

theorem packetReadOk_draws (s : State) : DrawsOnce packetReadOk s := by
  obtain ⟨a, t, h⟩ := (swdOutEnable_draws false
    (clockCycles (turnaround s.driver) (readCycle (readBits 32 s).2).2)).bind
    (k := fun _ s1 => .ok (readResult (wordOfBits (readBits 32 s).1) (readCycle (readBits 32 s).2).1,
      wordOfBits (readBits 32 s).1) (idleAndPark s1))
    fun a t => ⟨_, idleAndPark t, fun f => by rw [idleAndPark_withDirFail]⟩
  refine ⟨a, t, fun f => ?_⟩
  rw [← h f]
  simp only [packetReadOk, readBits_withDirFail, readCycle_withDirFail, clockCycles_withDirFail, withDirFail_driver]

theorem packetWriteOk_draws (w : Word) (s : State) : DrawsOnce (packetWriteOk w) s := by
  obtain ⟨a, t, h⟩ := (swdOutEnable_draws false (clockCycles (turnaround s.driver) s)).bind
    (k := fun _ s1 => .ok (ackOk, (undefinedData (idleAndPark (writeCycle (dataParity w) (writeBits (bitsOf w) s1)))).1)
      (undefinedData (idleAndPark (writeCycle (dataParity w) (writeBits (bitsOf w) s1)))).2)
    fun a t => ⟨(ackOk, (undefinedData (idleAndPark (writeCycle (dataParity w) (writeBits (bitsOf w) t)))).1),
      (undefinedData (idleAndPark (writeCycle (dataParity w) (writeBits (bitsOf w) t)))).2, fun f => by
      rw [writeBits_withDirFail, show writeCycle (dataParity w) (withDirFail f (writeBits (bitsOf w) t)) =
        withDirFail f (writeCycle (dataParity w) (writeBits (bitsOf w) t)) from rfl, idleAndPark_withDirFail,
        undefinedData_withDirFail]⟩
  refine ⟨a, t, fun f => ?_⟩
  rw [← h f]
  simp only [packetWriteOk, clockCycles_withDirFail, withDirFail_driver]

/-- A dummy data phase depends on the schedule no more than its cycles do. -/
theorem packetWaitFault_draws (req a : Byte) (s : State) : DrawsOnce (packetWaitFault req a) s := by
  obtain ⟨b, t, h⟩ := (swdOutEnable_draws true (clockCycles (turnaround s.driver)
      (if s.driver.dataPhase && reqRnW req then clockCycles 33 s else s))).bind
    (k := fun _ s1 =>
      let s2 := if s1.driver.dataPhase && !reqRnW req then writeBits (List.replicate 33 false) s1 else s1
      let u := undefinedData (parkHigh s2)
      .ok (a, u.1) u.2)
    fun b t =>
      let v := if t.driver.dataPhase && !reqRnW req then writeBits (List.replicate 33 false) t else t
      ⟨(a, (undefinedData (parkHigh v)).1), (undefinedData (parkHigh v)).2, fun f => by
        simp only [withDirFail_driver, writeBits_withDirFail]
        rw [← apply_ite (withDirFail f), parkHigh_withDirFail, undefinedData_withDirFail]⟩
  refine ⟨b, t, fun f => ?_⟩
  rw [← h f]
  simp only [packetWaitFault, clockCycles_withDirFail, withDirFail_driver]
  rw [← apply_ite (withDirFail f)]
  simp only [clockCycles_withDirFail]

theorem packetProtocolError_draws (a : Byte) (s : State) : DrawsOnce (packetProtocolError a) s := by
  obtain ⟨b, t, h⟩ := (swdOutEnable_draws true (clockCycles (turnaround s.driver + 33) s)).bind
    (k := fun _ s1 => .ok (a, (undefinedData s1).1) (undefinedData s1).2) fun b t =>
      ⟨(a, (undefinedData t).1), (undefinedData t).2, fun f => by rw [undefinedData_withDirFail]⟩
  refine ⟨b, t, fun f => ?_⟩
  rw [← h f]
  simp only [packetProtocolError, clockCycles_withDirFail, withDirFail_driver]

/-- A packet draws two direction changes: it is fatal where one of the two fails, else it goes on alike. -/
theorem swdPacket_draws (req : Byte) (w : Word) (s : State) : ∃ a t, ∀ f, swdPacket req w (withDirFail f s) =
    if f = some 0 ∨ f = some 1 then .fault .fatal else .ok a (withDirFail (drawFailure (drawFailure f).2).2 t) := by
  obtain ⟨_, s1, h1⟩ := swdOutDisable_draws (sendHeader (swdHeaderOf req) s)
  have h2 : DrawsOnce (fun u => if (readAck u).1 = ackOk then
        if reqRnW req then packetReadOk (readAck u).2 else packetWriteOk w (readAck u).2
      else if (readAck u).1 = ackWait ∨ (readAck u).1 = ackFault then packetWaitFault req (readAck u).1 (readAck u).2
      else packetProtocolError (readAck u).1 (readAck u).2) (clockCycles (turnaround s1.driver) s1) := by
    simp only [DrawsOnce, readAck_withDirFail]
    split
    · split
      · exact packetReadOk_draws _
      · exact packetWriteOk_draws _ _
    · split
      · exact packetWaitFault_draws _ _ _
      · exact packetProtocolError_draws _ _
  obtain ⟨a, t, h2⟩ := h2
  refine ⟨a, t, fun f => ?_⟩
  have e : sendHeader (swdHeaderOf req) (withDirFail f s) = withDirFail f (sendHeader (swdHeaderOf req) s) :=
    writeBits_withDirFail f _ s
  unfold swdPacket
  rw [e, h1]
  rcases f with _ | _ | k
  · simpa [clockCycles_withDirFail, drawFailure] using h2 none
  · simp
  · have := h2 (some k)
    rcases k with _ | k <;> simpa [clockCycles_withDirFail, drawFailure] using this

theorem swdPacket_fatal {req : Byte} {w : Word} {s : State} (h : s.input.dirFail = some 0 ∨ s.input.dirFail = some 1) :
    swdPacket req w s = .fault .fatal := by
  obtain ⟨a, t, ht⟩ := swdPacket_draws req w s
  have := ht s.input.dirFail
  rwa [withDirFail_self, if_pos h] at this

end Sys2Proof.Machine
end

