-- ==== Sys2Proof/Laws/Transfer.lean ====
section
/-! SUPPORT. What the Transfer Engine's operations can do: the frame of a transfer and of everything built from
transfers, and that no internal fault is raised where the precondition of R240 holds. -/

namespace Sys2Proof.Machine

/-! ### The frame of a transfer -/

/-- What a transfer, its retries and a match read can do: the wire side and the IR cache change, the trace grows with the
delay in force, the line stays parked, the TAPs stay in Run-Test/Idle. -/
structure TransferMove (s t : State) : Prop where
  frame : TransferFrame s t
  grows : TraceGrows s t
  park : ParkInv s → ParkInv t
  taps : ChainInv s → TapsIdle s → TapsIdle t

theorem ChainInv_of_driver {s t : State} (h : t.driver = s.driver) (hc : ChainInv s) : ChainInv t := by
  unfold ChainInv; rw [h]; exact hc

theorem TransferMove.refl (s : State) : TransferMove s s := ⟨.refl s, .refl s, id, fun _ h => h⟩

theorem TransferMove.trans {s t u : State} (h : TransferMove s t) (k : TransferMove t u) : TransferMove s u :=
  ⟨h.frame.trans k.frame, h.grows.trans (by rw [h.frame.driver]) k.grows, fun hp => k.park (h.park hp),
    fun hc ht => k.taps (ChainInv_of_driver h.frame.driver hc) (h.taps hc ht)⟩

/-- Composition of moves. -/
theorem move_bind {α β : Type} {s : State} {r : Res α} {k : α → State → Res β} (h : r.Ends (TransferMove s))
    (hk : ∀ a t, r = .ok a t → (k a t).Ends (TransferMove t)) : (r.bind k).Ends (TransferMove s) :=
  Ends_bind h (fun _ _ _ hp => hp) fun a t ha ht => Ends_mono (hk a t ha) fun _ hu => ht.trans hu

theorem selectIr_moves (need : IrSel) (s : State) (hp : s.driver.port ≠ .swd) :
    (selectIr need s).Ends (TransferMove s) := by
  unfold selectIr
  split
  · exact .refl s
  · have h1 := setInstructionRegister_moves (irValue need) s
    have h2 := fun hc ht => setInstructionRegister_taps (s := s) (irValue need) hc ht
    cases hr : setInstructionRegister (irValue need) s with
    | ok a t =>
      rw [hr] at h1 h2
      obtain ⟨hf, hg, -, -⟩ := h1
      refine ⟨⟨hf.params, hf.driver, hf.mem, ?_, hf.phase, hf.batch, hf.framing, hf.recv, hf.sendFail, hf.sent, hf.ret⟩,
        hg, fun _ hq => absurd (hf.driver ▸ hq) hp, h2⟩
      simp [hf.work]
    | framing e t =>
      rw [hr] at h1 h2
      exact ⟨h1.frame.toTransferFrame, h1.grows, fun _ hq => absurd (h1.frame.driver ▸ hq) hp, h2⟩
    | fault f => trivial

theorem transfer_moves (req : Byte) (w : Word) (s : State) : (transfer req w s).Ends (TransferMove s) := by
  unfold transfer
  split
  · refine Ends_mono (swdPacket_moves req w s) fun t ht => ?_
    exact ⟨ht.1.frame.toTransferFrame, ht.1.grows, fun _ _ => ht.2,
      fun _ hi => by unfold TapsIdle; rw [ht.1.taps]; exact hi⟩
  · rename_i hport
    have hp : s.driver.port ≠ .swd := by rw [hport]; simp
    refine move_bind (selectIr_moves _ s hp) fun _ t hst => ?_
    have hd : t.driver = s.driver := by
      have := selectIr_moves (neededIr req) s hp
      rw [hst] at this
      exact this.frame.driver
    have h1 := jtagTransferScan_moves req w t
    have h2 := fun hi => jtagTransferScan_taps (s := t) req w hi
    cases hr : jtagTransferScan req w t <;> rw [hr] at h1 h2
    · exact ⟨h1.frame.toTransferFrame, h1.grows, fun _ hq => absurd (by rw [← hd, ← h1.frame.driver]; exact hq) hp,
        fun _ => h2⟩
    · exact ⟨h1.frame.toTransferFrame, h1.grows, fun _ hq => absurd (by rw [← hd, ← h1.frame.driver]; exact hq) hp,
        fun _ => h2⟩
    · trivial
  · trivial

theorem retryLoop_moves (req : Byte) (w : Word) (n : Nat) (s : State) :
    (retryLoop req w n s).Ends (TransferMove s) := by
  induction n generalizing s with
  | zero => exact transfer_moves req w s
  | succ n ih =>
    refine move_bind (transfer_moves req w s) fun r t _ => ?_
    split
    · exact ih t
    · exact .refl t

theorem transferRetry_moves (req : Byte) (w : Word) (s : State) : (transferRetry req w s).Ends (TransferMove s) :=
  retryLoop_moves req w _ s

theorem pollLoop_moves (req : Byte) (mv : Word) (n : Nat) (s : State) : (pollLoop req mv n s).Ends (TransferMove s) := by
  induction n generalizing s with
  | zero =>
    refine move_bind (transferRetry_moves req _ s) fun r t _ => ?_
    split
    · exact .refl t
    · split <;> exact .refl t
  | succ n ih =>
    refine move_bind (transferRetry_moves req _ s) fun r t _ => ?_
    split
    · exact .refl t
    · split
      · exact .refl t
      · exact ih t

theorem matchRead_moves (req : Byte) (mv : Word) (s : State) : (matchRead req mv s).Ends (TransferMove s) := by
  unfold matchRead
  split
  · refine move_bind (transferRetry_moves req _ s) fun r t _ => ?_
    split
    · exact .refl t
    · exact pollLoop_moves req mv _ t
  · exact pollLoop_moves req mv _ s

/-! ### No internal fault where the precondition holds -/

/-- The operation ends in no internal fault. -/
def Res.NoInternal {α : Type} : Res α → Prop
  | .ok _ _ => True
  | .framing _ _ => True
  | .fault f => f.internal = false

theorem NoInternal_bind {α β : Type} {r : Res α} {k : α → State → Res β} (h : r.NoInternal)
    (hk : ∀ a t, r = .ok a t → (k a t).NoInternal) : (r.bind k).NoInternal := by
  cases r with
  | ok a t => exact hk a t rfl
  | framing e t => trivial
  | fault f => exact h

/-- The selected port has a device to talk to (R240). -/
def PortReady (d : Driver) : Prop := preconditionFails d.index d = false

theorem PortReady.selected {d : Driver} (h : PortReady d) (hp : d.port = .jtag) : ∃ e, selected d = some e := by
  simp only [PortReady, preconditionFails, hp, decide_eq_false_iff_not, not_le] at h
  exact ⟨_, List.getElem?_eq_getElem h⟩

theorem PortReady.port {d : Driver} (h : PortReady d) : d.port ≠ .disabled := by
  intro hp
  simp [PortReady, preconditionFails, hp] at h

theorem pinDirection_noInternal (s : State) : (pinDirection s).NoInternal := by
  rcases pinDirection_cases s with ⟨h, -⟩ | ⟨k, -, h⟩ <;> rw [h] <;> trivial

theorem swdOutEnable_noInternal (v : Bool) (s : State) : (swdOutEnable v s).NoInternal :=
  NoInternal_bind (pinDirection_noInternal s) fun _ _ _ => trivial

theorem swdOutDisable_noInternal (s : State) : (swdOutDisable s).NoInternal :=
  NoInternal_bind (pinDirection_noInternal s) fun _ _ _ => trivial

theorem swdPacket_noInternal (req : Byte) (w : Word) (s : State) : (swdPacket req w s).NoInternal := by
  refine NoInternal_bind (swdOutDisable_noInternal _) fun _ t _ => ?_
  simp only
  repeat' split
  all_goals exact NoInternal_bind (swdOutEnable_noInternal _ _) fun _ _ _ => trivial

theorem setInstructionRegister_noInternal (ir : Byte) {s : State} (h : ∃ e, selected s.driver = some e) :
    (setInstructionRegister ir s).NoInternal := by
  obtain ⟨e, he⟩ := h
  simp only [setInstructionRegister, he]
  trivial

theorem jtagTransferScan_noInternal (req : Byte) (w : Word) {s : State} (h : ∃ e, selected s.driver = some e) :
    (jtagTransferScan req w s).NoInternal := by
  obtain ⟨e, he⟩ := h
  simp only [jtagTransferScan, he]
  split <;> trivial

theorem transfer_noInternal (req : Byte) (w : Word) {s : State} (h : PortReady s.driver) :
    (transfer req w s).NoInternal := by
  unfold transfer
  split
  · exact swdPacket_noInternal req w s
  · rename_i hport
    have hs := h.selected hport
    refine NoInternal_bind ?_ fun _ t ht => jtagTransferScan_noInternal req w ?_
    · unfold selectIr
      split
      · trivial
      · exact NoInternal_bind (setInstructionRegister_noInternal _ hs) fun _ _ _ => trivial
    · have := selectIr_moves (neededIr req) s (by rw [hport]; simp)
      rw [ht] at this
      rw [this.frame.driver]
      exact hs
  · rename_i hport
    exact absurd hport h.port

/-- After a move the port is as ready as before. -/
theorem PortReady_of_move {s t : State} (m : TransferMove s t) (h : PortReady s.driver) : PortReady t.driver := by
  rw [m.frame.driver]; exact h

theorem transfer_ready {req : Byte} {w : Word} {s t : State} {r : Byte × Word} (h : PortReady s.driver)
    (ht : transfer req w s = .ok r t) : PortReady t.driver := by
  have := transfer_moves req w s
  rw [ht] at this
  exact PortReady_of_move this h

theorem retryLoop_noInternal (req : Byte) (w : Word) (n : Nat) {s : State} (h : PortReady s.driver) :
    (retryLoop req w n s).NoInternal := by
  induction n generalizing s with
  | zero => exact transfer_noInternal req w h
  | succ n ih =>
    refine NoInternal_bind (transfer_noInternal req w h) fun r t ht => ?_
    split
    · exact ih (transfer_ready h ht)
    · trivial

theorem transferRetry_noInternal (req : Byte) (w : Word) {s : State} (h : PortReady s.driver) :
    (transferRetry req w s).NoInternal := retryLoop_noInternal req w _ h

theorem transferRetry_ready {req : Byte} {w : Word} {s t : State} {r : Byte × Word} (h : PortReady s.driver)
    (ht : transferRetry req w s = .ok r t) : PortReady t.driver := by
  have := transferRetry_moves req w s
  rw [ht] at this
  exact PortReady_of_move this h

theorem pollLoop_noInternal (req : Byte) (mv : Word) (n : Nat) {s : State} (h : PortReady s.driver) :
    (pollLoop req mv n s).NoInternal := by
  induction n generalizing s with
  | zero =>
    refine NoInternal_bind (transferRetry_noInternal req _ h) fun r t _ => ?_
    split
    · trivial
    · split <;> trivial
  | succ n ih =>
    refine NoInternal_bind (transferRetry_noInternal req _ h) fun r t ht => ?_
    split
    · trivial
    · split
      · trivial
      · exact ih (transferRetry_ready h ht)

theorem matchRead_noInternal (req : Byte) (mv : Word) {s : State} (h : PortReady s.driver) :
    (matchRead req mv s).NoInternal := by
  unfold matchRead
  split
  · refine NoInternal_bind (transferRetry_noInternal req _ h) fun r t ht => ?_
    split
    · trivial
    · exact pollLoop_noInternal req mv _ (transferRetry_ready h ht)
  · exact pollLoop_noInternal req mv _ h

end Sys2Proof.Machine
end

