-- ==== Sys2Proof/Laws/Request.lean ====
section
/-! SUPPORT. What one request of a Transfer and the body of a Transfer Block can do. -/

namespace Sys2Proof.Machine

/-- What a request or a block can do: of Driver State only the match mask changes; the request's bytes stay, the cursor
moves on, the response grows; the loop's count and slots stay; the wire side moves as in a transfer. -/
structure EngineMove (s t : State) : Prop where
  params : t.params = s.params
  driver : t.driver = { s.driver with matchMask := t.driver.matchMask }
  req : t.mem.req = s.mem.req
  rd : s.mem.rd ≤ t.mem.rd
  resp : s.mem.resp <+: t.mem.resp
  left : t.work.left = s.work.left
  draining : t.work.draining = s.work.draining
  slotCompleted : t.work.slotCompleted = s.work.slotCompleted
  slotAck : t.work.slotAck = s.work.slotAck
  phase : t.phase = s.phase
  batch : t.batch = s.batch
  framing : t.framing = s.framing
  recv : t.input.recv = s.input.recv
  sendFail : t.input.sendFail = s.input.sendFail
  sent : t.sent = s.sent
  ret : t.ret = s.ret
  grows : TraceGrows s t
  park : ParkInv s → ParkInv t
  taps : ChainInv s → TapsIdle s → TapsIdle t
  wf : Memory.wf s.params s.mem = true → Memory.wf t.params t.mem = true

theorem EngineMove.refl (s : State) : EngineMove s s :=
  ⟨rfl, rfl, rfl, le_rfl, List.prefix_rfl, rfl, rfl, rfl, rfl, rfl, rfl, rfl, rfl, rfl, rfl, rfl, .refl s, id,
    fun _ h => h, id⟩

theorem ChainInv_of_chain {s t : State} (h : t.driver.chain = s.driver.chain) (hc : ChainInv s) : ChainInv t := by
  unfold ChainInv; rw [h]; exact hc

theorem EngineMove.chain {s t : State} (h : EngineMove s t) : t.driver.chain = s.driver.chain := by rw [h.driver]
theorem EngineMove.port {s t : State} (h : EngineMove s t) : t.driver.port = s.driver.port := by rw [h.driver]
theorem EngineMove.index {s t : State} (h : EngineMove s t) : t.driver.index = s.driver.index := by rw [h.driver]

theorem EngineMove.ready {s t : State} (h : EngineMove s t) (hr : PortReady s.driver) : PortReady t.driver := by
  rw [h.driver]; exact hr

theorem EngineMove.trans {s t u : State} (h : EngineMove s t) (k : EngineMove t u) : EngineMove s u where
  params := k.params.trans h.params
  driver := by rw [k.driver, h.driver]
  req := k.req.trans h.req
  rd := h.rd.trans k.rd
  resp := h.resp.trans k.resp
  left := k.left.trans h.left
  draining := k.draining.trans h.draining
  slotCompleted := k.slotCompleted.trans h.slotCompleted
  slotAck := k.slotAck.trans h.slotAck
  phase := k.phase.trans h.phase
  batch := k.batch.trans h.batch
  framing := k.framing.trans h.framing
  recv := k.recv.trans h.recv
  sendFail := k.sendFail.trans h.sendFail
  sent := k.sent.trans h.sent
  ret := k.ret.trans h.ret
  grows := h.grows.trans (by rw [h.driver]) k.grows
  park := fun hp => k.park (h.park hp)
  taps := fun hc ht => k.taps (ChainInv_of_chain h.chain hc) (h.taps hc ht)
  wf := fun hw => k.wf (h.wf hw)

/-- A transfer is such a move. -/
theorem TransferMove.toEngine {s t : State} (h : TransferMove s t) : EngineMove s t where
  params := h.frame.params
  driver := by rw [h.frame.driver]
  req := by rw [h.frame.mem]
  rd := by rw [h.frame.mem]
  resp := by rw [h.frame.mem]
  left := (congrArg Work.left h.frame.work :)
  draining := (congrArg Work.draining h.frame.work :)
  slotCompleted := (congrArg Work.slotCompleted h.frame.work :)
  slotAck := (congrArg Work.slotAck h.frame.work :)
  phase := h.frame.phase
  batch := h.frame.batch
  framing := h.frame.framing
  recv := h.frame.recv
  sendFail := h.frame.sendFail
  sent := h.frame.sent
  ret := h.frame.ret
  grows := h.grows
  park := h.park
  taps := h.taps
  wf := by rw [h.frame.params, h.frame.mem]; exact id

theorem engine_bind {α β : Type} {s : State} {r : Res α} {k : α → State → Res β} (h : r.Ends (EngineMove s))
    (hk : ∀ a t, r = .ok a t → (k a t).Ends (EngineMove t)) : (r.bind k).Ends (EngineMove s) :=
  Ends_bind h (fun _ _ _ hp => hp) fun a t ha ht => Ends_mono (hk a t ha) fun _ hu => ht.trans hu

theorem retry_engine (req : Byte) (w : Word) (s : State) : (transferRetry req w s).Ends (EngineMove s) :=
  Ends_mono (transferRetry_moves req w s) fun _ h => h.toEngine

/-- A change of `post_read` or `check_write` only. -/
theorem setPostRead_engine (b : Bool) (s : State) : EngineMove s (setPostRead b s) :=
  ⟨rfl, rfl, rfl, le_rfl, List.prefix_rfl, rfl, rfl, rfl, rfl, rfl, rfl, rfl, rfl, rfl, rfl, rfl, ⟨[], by simp, by simp⟩,
    id, fun _ h => h, id⟩

theorem setCheckWrite_engine (b : Bool) (s : State) : EngineMove s (setCheckWrite b s) :=
  ⟨rfl, rfl, rfl, le_rfl, List.prefix_rfl, rfl, rfl, rfl, rfl, rfl, rfl, rfl, rfl, rfl, rfl, rfl, ⟨[], by simp, by simp⟩,
    id, fun _ h => h, id⟩

theorem setMask_engine (w : Word) (s : State) :
    EngineMove s { s with driver := { s.driver with matchMask := w } } :=
  ⟨rfl, rfl, rfl, le_rfl, List.prefix_rfl, rfl, rfl, rfl, rfl, rfl, rfl, rfl, rfl, rfl, rfl, rfl, ⟨[], by simp, by simp⟩,
    id, fun _ h => h, id⟩

theorem respWrite_engine (bs : List Byte) (s : State) : (respWrite bs s).Ends (EngineMove s) := by
  have hw := fun h => respWrite_wf (bs := bs) (s := s) h
  rcases respWrite_cases bs s with ⟨-, h⟩ | ⟨-, h⟩ <;> rw [h] at hw ⊢
  · exact ⟨rfl, rfl, rfl, le_rfl, List.prefix_append _ _, rfl, rfl, rfl, rfl, rfl, rfl, rfl, rfl, rfl, rfl, rfl,
      ⟨[], by simp, by simp⟩, id, fun _ h => h, hw⟩
  · exact .refl s

theorem reqRead_engine (n : Nat) (s : State) : (reqRead n s).Ends (EngineMove s) := by
  have hw := fun h => reqRead_wf (n := n) (s := s) h
  rcases reqRead_cases n s with ⟨-, h⟩ | ⟨-, h⟩ <;> rw [h] at hw ⊢
  · exact ⟨rfl, rfl, rfl, Nat.le_add_right _ _, List.prefix_rfl, rfl, rfl, rfl, rfl, rfl, rfl, rfl, rfl, rfl, rfl, rfl,
      ⟨[], by simp, by simp⟩, id, fun _ h => h, hw⟩
  · exact .refl s

theorem reqSkip4_engine (n : Nat) (s : State) : (reqSkip4 n s).Ends (EngineMove s) := by
  induction n generalizing s with
  | zero => exact .refl s
  | succ n ih => exact engine_bind (reqRead_engine 4 s) fun _ t _ => ih t

theorem onOk_engine {r : Byte} {s : State} {k : State → Res Byte} (h : (k s).Ends (EngineMove s)) :
    (onOk r s k).Ends (EngineMove s) := by
  unfold onOk
  split
  · exact h
  · exact .refl s

theorem writeCollected_engine (r : Byte × Word) (s : State) : (writeCollected r s).Ends (EngineMove s) :=
  onOk_engine (engine_bind (respWrite_engine _ s) fun _ t _ => .refl t)

theorem collectRdbuff_engine (s : State) : (collectRdbuff s).Ends (EngineMove s) :=
  engine_bind (retry_engine _ _ s) fun r t _ =>
    Ends_mono (writeCollected_engine r _) fun _ h => (setPostRead_engine false t).trans h

theorem collectSame_engine (req : Byte) (s : State) : (collectSame req s).Ends (EngineMove s) :=
  engine_bind (retry_engine _ _ s) fun r t _ => writeCollected_engine r t

theorem postRead_engine (req : Byte) (s : State) : (postRead req s).Ends (EngineMove s) :=
  engine_bind (retry_engine _ _ s) fun _ t _ => onOk_engine (setPostRead_engine true t)

theorem collectForRead_engine (req : Byte) (mv : Option Word) (s : State) :
    (collectForRead req mv s).Ends (EngineMove s) := by
  unfold collectForRead
  split
  · split
    · exact collectSame_engine req s
    · exact collectRdbuff_engine s
  · exact .refl s

theorem plainRead_engine (req : Byte) (s : State) : (plainRead req s).Ends (EngineMove s) := by
  unfold plainRead
  split
  · split
    · exact .refl s
    · exact postRead_engine req s
  · exact collectSame_engine req s

/-- A read request is such a move. -/
theorem readRequest_engine (req : Byte) (mv : Option Word) (s : State) : (readRequest req mv s).Ends (EngineMove s) := by
  refine engine_bind (collectForRead_engine req mv s) fun r t _ => onOk_engine ?_
  refine engine_bind ?_ fun r2 u _ => onOk_engine (setCheckWrite_engine false u)
  cases mv with
  | some v => exact Ends_mono (matchRead_moves req v t) fun _ h => h.toEngine
  | none => exact plainRead_engine req t

theorem collectForWrite_engine (s : State) : (collectForWrite s).Ends (EngineMove s) := by
  unfold collectForWrite
  split
  · exact engine_bind (collectSame_engine _ s) fun _ t _ => onOk_engine (setPostRead_engine false t)
  · exact .refl s

/-- A write request is such a move. -/
theorem writeRequest_engine (req : Byte) (w : Word) (s : State) : (writeRequest req w s).Ends (EngineMove s) := by
  refine engine_bind (collectForWrite_engine s) fun r t _ => onOk_engine ?_
  refine engine_bind (retry_engine req w t) fun r2 u _ => onOk_engine ?_
  split
  · exact setCheckWrite_engine true u
  · exact .refl u

/-- A MatchMask write is such a move. -/
theorem maskRequest_engine (w : Word) (s : State) : (maskRequest w s).Ends (EngineMove s) :=
  engine_bind (collectForWrite_engine s) fun _ t _ => onOk_engine (setMask_engine w t)

theorem trailerRead_engine (b : Bool) (s : State) : (trailerRead b s).Ends (EngineMove s) := by
  refine engine_bind (retry_engine _ _ s) fun r t _ => ?_
  split
  · exact writeCollected_engine r t
  · exact .refl t

/-- The trailer is such a move. -/
theorem trailer_engine (s : State) : (trailer s).Ends (EngineMove s) := by
  unfold trailer
  split
  · split
    · split
      · exact trailerRead_engine true s
      · split
        · exact trailerRead_engine false s
        · exact .refl s
    · exact trailerRead_engine _ s
    · exact .refl s
  · exact .refl s

/-! ### Blocks -/

theorem blockReadLoop_engine (req : Byte) (posted : Bool) (n : Nat) (c : Half) (s : State) :
    (blockReadLoop req posted n c s).Ends (EngineMove s) := by
  induction n generalizing c s with
  | zero => exact .refl s
  | succ n ih =>
    refine engine_bind (retry_engine _ _ s) fun r t _ => ?_
    split
    · exact engine_bind (respWrite_engine _ t) fun _ u _ => ih _ u
    · exact .refl t

theorem blockRead_engine (req : Byte) (n : Nat) (s : State) : (blockRead req n s).Ends (EngineMove s) := by
  unfold blockRead
  split
  · refine engine_bind (retry_engine _ _ s) fun r t _ => ?_
    split
    · exact blockReadLoop_engine req true n _ t
    · exact .refl t
  · exact blockReadLoop_engine req false n _ s

theorem blockWriteLoop_engine (req : Byte) (n : Nat) (c : Half) (s : State) :
    (blockWriteLoop req n c s).Ends (EngineMove s) := by
  induction n generalizing c s with
  | zero => exact engine_bind (retry_engine _ _ s) fun r t _ => .refl t
  | succ n ih =>
    refine engine_bind (engine_bind (reqRead_engine 4 s) fun _ t _ => .refl t) fun w t _ => ?_
    refine engine_bind (retry_engine _ _ t) fun r u _ => ?_
    split
    · exact ih _ u
    · exact engine_bind (reqSkip4_engine n u) fun _ v _ => .refl v

theorem blockDrain_engine (rnw : Bool) (n : Nat) (s : State) : (blockDrain rnw n s).Ends (EngineMove s) := by
  unfold blockDrain
  split
  · exact .refl s
  · exact engine_bind (reqSkip4_engine n s) fun _ t _ => .refl t

/-! ### No internal fault -/

theorem onOk_noInternal {r : Byte} {s : State} {k : State → Res Byte} (h : (k s).NoInternal) :
    (onOk r s k).NoInternal := by
  unfold onOk
  split
  · exact h
  · trivial

theorem respWrite_noInternal (bs : List Byte) (s : State) : (respWrite bs s).NoInternal := by
  rcases respWrite_cases bs s with ⟨-, h⟩ | ⟨-, h⟩ <;> rw [h] <;> trivial

theorem reqRead_noInternal (n : Nat) (s : State) : (reqRead n s).NoInternal := by
  rcases reqRead_cases n s with ⟨-, h⟩ | ⟨-, h⟩ <;> rw [h] <;> trivial

theorem reqSkip4_noInternal (n : Nat) (s : State) : (reqSkip4 n s).NoInternal := by
  induction n generalizing s with
  | zero => trivial
  | succ n ih => exact NoInternal_bind (reqRead_noInternal 4 s) fun _ t _ => ih t

theorem writeCollected_noInternal (r : Byte × Word) (s : State) : (writeCollected r s).NoInternal :=
  onOk_noInternal (NoInternal_bind (respWrite_noInternal _ s) fun _ _ _ => trivial)

theorem collectRdbuff_noInternal {s : State} (h : PortReady s.driver) : (collectRdbuff s).NoInternal :=
  NoInternal_bind (transferRetry_noInternal _ _ h) fun r _ _ => writeCollected_noInternal r _

theorem collectSame_noInternal (req : Byte) {s : State} (h : PortReady s.driver) : (collectSame req s).NoInternal :=
  NoInternal_bind (transferRetry_noInternal _ _ h) fun r _ _ => writeCollected_noInternal r _

theorem postRead_noInternal (req : Byte) {s : State} (h : PortReady s.driver) : (postRead req s).NoInternal :=
  NoInternal_bind (transferRetry_noInternal _ _ h) fun _ _ _ => onOk_noInternal trivial

/-- An operation that ends as an engine move keeps the port ready. -/
theorem ready_of_engine {α : Type} {r : Res α} {s t : State} {a : α} (hr : r.Ends (EngineMove s)) (h : PortReady s.driver)
    (ha : r = .ok a t) : PortReady t.driver := by
  rw [ha] at hr
  exact hr.ready h

theorem readRequest_noInternal (req : Byte) (mv : Option Word) {s : State} (h : PortReady s.driver) :
    (readRequest req mv s).NoInternal := by
  refine NoInternal_bind ?_ fun r t ht => onOk_noInternal ?_
  · unfold collectForRead
    split
    · split
      · exact collectSame_noInternal req h
      · exact collectRdbuff_noInternal h
    · trivial
  · have hr := ready_of_engine (collectForRead_engine req mv s) h ht
    refine NoInternal_bind ?_ fun r2 u _ => onOk_noInternal trivial
    cases mv with
    | some v => exact matchRead_noInternal req v hr
    | none =>
      simp only
      unfold plainRead
      split
      · split
        · trivial
        · exact postRead_noInternal req hr
      · exact collectSame_noInternal req hr

theorem collectForWrite_noInternal {s : State} (h : PortReady s.driver) : (collectForWrite s).NoInternal := by
  unfold collectForWrite
  split
  · exact NoInternal_bind (collectSame_noInternal _ h) fun _ _ _ => onOk_noInternal trivial
  · trivial

theorem writeRequest_noInternal (req : Byte) (w : Word) {s : State} (h : PortReady s.driver) :
    (writeRequest req w s).NoInternal := by
  refine NoInternal_bind (collectForWrite_noInternal h) fun r t ht => onOk_noInternal ?_
  have hr := ready_of_engine (collectForWrite_engine s) h ht
  exact NoInternal_bind (transferRetry_noInternal req w hr) fun _ _ _ => onOk_noInternal trivial

theorem maskRequest_noInternal (w : Word) {s : State} (h : PortReady s.driver) : (maskRequest w s).NoInternal :=
  NoInternal_bind (collectForWrite_noInternal h) fun _ _ _ => onOk_noInternal trivial

theorem trailerRead_noInternal (b : Bool) {s : State} (h : PortReady s.driver) : (trailerRead b s).NoInternal := by
  refine NoInternal_bind (transferRetry_noInternal _ _ h) fun r t _ => ?_
  split
  · exact writeCollected_noInternal r t
  · trivial

/-- The trailer accesses the target only after an OK result. -/
theorem trailer_noInternal {s : State} (h : s.work.lastAck = ackOk → PortReady s.driver) : (trailer s).NoInternal := by
  unfold trailer
  split
  · rename_i hk
    have hr := h hk
    split
    · split
      · exact trailerRead_noInternal true hr
      · split
        · exact trailerRead_noInternal false hr
        · trivial
    · exact trailerRead_noInternal _ hr
    · trivial
  · trivial

theorem blockReadLoop_noInternal (req : Byte) (posted : Bool) (n : Nat) (c : Half) {s : State}
    (h : PortReady s.driver) : (blockReadLoop req posted n c s).NoInternal := by
  induction n generalizing c s with
  | zero => trivial
  | succ n ih =>
    refine NoInternal_bind (transferRetry_noInternal _ _ h) fun r t ht => ?_
    have hr := transferRetry_ready h ht
    split
    · exact NoInternal_bind (respWrite_noInternal _ t) fun _ u hu => ih _ (ready_of_engine (respWrite_engine _ t) hr hu)
    · trivial

theorem blockRead_noInternal (req : Byte) (n : Nat) {s : State} (h : PortReady s.driver) :
    (blockRead req n s).NoInternal := by
  unfold blockRead
  split
  · refine NoInternal_bind (transferRetry_noInternal _ _ h) fun r t ht => ?_
    split
    · exact blockReadLoop_noInternal req true n _ (transferRetry_ready h ht)
    · trivial
  · exact blockReadLoop_noInternal req false n _ h

theorem blockWriteLoop_noInternal (req : Byte) (n : Nat) (c : Half) {s : State} (h : PortReady s.driver) :
    (blockWriteLoop req n c s).NoInternal := by
  induction n generalizing c s with
  | zero => exact NoInternal_bind (transferRetry_noInternal _ _ h) fun _ _ _ => trivial
  | succ n ih =>
    have h4 : (reqRead4 s).Ends (EngineMove s) := engine_bind (reqRead_engine 4 s) fun _ t _ => .refl t
    refine NoInternal_bind (NoInternal_bind (reqRead_noInternal 4 s) fun _ _ _ => trivial) fun w t ht => ?_
    have hr := ready_of_engine h4 h ht
    refine NoInternal_bind (transferRetry_noInternal _ _ hr) fun r u hu => ?_
    split
    · exact ih _ (transferRetry_ready hr hu)
    · exact NoInternal_bind (reqSkip4_noInternal n u) fun _ _ _ => trivial

theorem blockDrain_noInternal (rnw : Bool) (n : Nat) (s : State) : (blockDrain rnw n s).NoInternal := by
  unfold blockDrain
  split
  · trivial
  · exact NoInternal_bind (reqSkip4_noInternal n s) fun _ _ _ => trivial

end Sys2Proof.Machine
end

