-- ==== Sys2Proof/Laws/Answered.lean ====
section
/-! SUPPORT. What a packet, a scan and a transfer do when the target's answer is known: one lemma for each way a target
can answer, each giving the result, the records and everything else of the state. -/

namespace Sys2Proof.Machine

/-! ### States that differ on the wire side only -/

/-- `s` with another wire side. -/
def onWire (s : State) (p : Pins) (tr : List Cycle) (ta : List Tap) (i : Input) (f : Nat) : State :=
  { s with pins := p, trace := tr, taps := ta, input := i, free := f }

theorem onWire_self (s : State) : onWire s s.pins s.trace s.taps s.input s.free = s := rfl

@[simp] theorem onWire_params (s p tr ta i f) : (onWire s p tr ta i f).params = s.params := rfl
@[simp] theorem onWire_driver (s p tr ta i f) : (onWire s p tr ta i f).driver = s.driver := rfl
@[simp] theorem onWire_mem (s p tr ta i f) : (onWire s p tr ta i f).mem = s.mem := rfl
@[simp] theorem onWire_pins (s p tr ta i f) : (onWire s p tr ta i f).pins = p := rfl
@[simp] theorem onWire_trace (s p tr ta i f) : (onWire s p tr ta i f).trace = tr := rfl
@[simp] theorem onWire_work (s p tr ta i f) : (onWire s p tr ta i f).work = s.work := rfl
@[simp] theorem onWire_phase (s p tr ta i f) : (onWire s p tr ta i f).phase = s.phase := rfl
@[simp] theorem onWire_batch (s p tr ta i f) : (onWire s p tr ta i f).batch = s.batch := rfl
@[simp] theorem onWire_framing (s p tr ta i f) : (onWire s p tr ta i f).framing = s.framing := rfl
@[simp] theorem onWire_input (s p tr ta i f) : (onWire s p tr ta i f).input = i := rfl
@[simp] theorem onWire_sent (s p tr ta i f) : (onWire s p tr ta i f).sent = s.sent := rfl
@[simp] theorem onWire_taps (s p tr ta i f) : (onWire s p tr ta i f).taps = ta := rfl
@[simp] theorem onWire_ret (s p tr ta i f) : (onWire s p tr ta i f).ret = s.ret := rfl
@[simp] theorem onWire_free (s p tr ta i f) : (onWire s p tr ta i f).free = f := rfl

theorem onWire_frame (s p tr ta i f) (hr : i.recv = s.input.recv) (hs : i.sendFail = s.input.sendFail) :
    WireFrame s (onWire s p tr ta i f) := ⟨rfl, rfl, rfl, rfl, rfl, rfl, rfl, hr, hs, rfl, rfl⟩

/-- The input after `n` SWDIO samples, with `r` left in the queue. -/
def Input.swdioLeft (i : Input) (r : List Bool) (n : Nat) : Input := { i with swdio := r, swdioDrawn := i.swdioDrawn + n }

/-- The input after `n` TDO samples, with `r` left in the queue. -/
def Input.tdoLeft (i : Input) (r : List Bool) (n : Nat) : Input := { i with tdo := r, tdoDrawn := i.tdoDrawn + n }

@[simp] theorem swdioLeft_swdio (i : Input) (r n) : (i.swdioLeft r n).swdio = r := rfl
@[simp] theorem swdioLeft_tdo (i : Input) (r n) : (i.swdioLeft r n).tdo = i.tdo := rfl
@[simp] theorem swdioLeft_dirFail (i : Input) (r n) : (i.swdioLeft r n).dirFail = i.dirFail := rfl
@[simp] theorem swdioLeft_recv (i : Input) (r n) : (i.swdioLeft r n).recv = i.recv := rfl
@[simp] theorem swdioLeft_sendFail (i : Input) (r n) : (i.swdioLeft r n).sendFail = i.sendFail := rfl
@[simp] theorem swdioLeft_twice (i : Input) (r n r' m) : (i.swdioLeft r n).swdioLeft r' m = i.swdioLeft r' (n + m) := by
  simp [Input.swdioLeft, Nat.add_assoc]
theorem swdioLeft_none {i : Input} {r : List Bool} (h : i.swdio = r) : i.swdioLeft r 0 = i := by subst h; rfl

@[simp] theorem tdoLeft_tdo (i : Input) (r n) : (i.tdoLeft r n).tdo = r := rfl
@[simp] theorem tdoLeft_swdio (i : Input) (r n) : (i.tdoLeft r n).swdio = i.swdio := rfl
@[simp] theorem tdoLeft_dirFail (i : Input) (r n) : (i.tdoLeft r n).dirFail = i.dirFail := rfl
@[simp] theorem tdoLeft_recv (i : Input) (r n) : (i.tdoLeft r n).recv = i.recv := rfl
@[simp] theorem tdoLeft_sendFail (i : Input) (r n) : (i.tdoLeft r n).sendFail = i.sendFail := rfl
@[simp] theorem tdoLeft_twice (i : Input) (r n r' m) : (i.tdoLeft r n).tdoLeft r' m = i.tdoLeft r' (n + m) := by
  simp [Input.tdoLeft, Nat.add_assoc]
theorem tdoLeft_none {i : Input} {r : List Bool} (h : i.tdo = r) : i.tdoLeft r 0 = i := by subst h; rfl

/-! ### Words on the wire -/

theorem natOfBits_testBit (n : Nat) : ∀ v : Nat, natOfBits ((List.range n).map v.testBit) = v % 2 ^ n := by
  induction n with
  | zero => intro v; simp [natOfBits]; omega
  | succ n ih =>
    intro v
    rw [List.range_succ_eq_map]
    simp only [List.map_cons, List.map_map, natOfBits]
    have : (Nat.testBit v ∘ Nat.succ) = (v / 2).testBit := by funext k; simp [Function.comp, Nat.testBit_succ]
    rw [this, ih, Nat.pow_succ, Nat.mul_comm (2 ^ n) 2, Nat.mod_mul, Nat.testBit_zero]
    rcases Nat.mod_two_eq_zero_or_one v with h | h <;> simp [h]

/-- A word is read back from its bits (R77). -/
theorem wordOfBits_bitsOf (v : Word) : wordOfBits (bitsOf v) = v := by
  apply BitVec.eq_of_toNat_eq
  have : bitsOf v = (List.range 32).map v.toNat.testBit := List.map_congr_left fun i _ => rfl
  rw [wordOfBits, this, natOfBits_testBit]
  simp; omega

/-- A word is read back from its bytes (R76). -/
theorem wordOfBytes_bytes32 (v : Word) : wordOfBytes (bytes32 v) = v := by
  simp only [wordOfBytes, bytes32, le32]
  apply BitVec.eq_of_getLsbD_eq
  intro i hi
  simp only [BitVec.getLsbD_append, BitVec.getLsbD_extractLsb']
  by_cases h1 : i < 8
  · simp [h1]
  · by_cases h2 : i < 16
    · simp [h1, show i - 8 < 8 by omega, show 8 + (i - 8) = i by omega]
    · by_cases h3 : i < 24
      · simp [h1, show ¬ i - 8 < 8 by omega, show i - 8 - 8 < 8 by omega, show 16 + (i - 8 - 8) = i by omega]
      · simp [h1, show ¬ i - 8 < 8 by omega, show ¬ i - 8 - 8 < 8 by omega, show i - 8 - 8 - 8 < 8 by omega,
          show 24 + (i - 8 - 8 - 8) = i by omega]

/-! ### Bit Engine sequences -/

section
variable (s : State) (p : Pins) (tr : List Cycle) (ta : List Tap) (i : Input) (f : Nat)

theorem writeBits_onWire (bs : List Bool) : ∃ p',
    writeBits bs (onWire s p tr ta i f) = onWire s p' (tr ++ writeRecords bs s.driver.halfDelay) ta i f ∧
      p'.swdioOe = p.swdioOe := by
  obtain ⟨p', h, ho⟩ := writeBits_eq bs (onWire s p tr ta i f)
  exact ⟨p', h, ho⟩

theorem writeCycle_onWire (b : Bool) : writeCycle b (onWire s p tr ta i f) =
    onWire s { p with swdioOut := levelOf b, clk := .high } (tr ++ [.swd true (some b) none s.driver.halfDelay]) ta i f := rfl

theorem clockCycles_onWire (n : Nat) (h : p.swdioOe = .low) : ∃ p',
    clockCycles n (onWire s p tr ta i f) = onWire s p' (tr ++ releasedRecords n s.driver.halfDelay) ta i f ∧
      p'.swdioOe = .low := by
  obtain ⟨c, hc⟩ := clockCycles_released n (s := onWire s p tr ta i f) h
  exact ⟨_, hc, h⟩

theorem readCycle_onWire {b : Bool} {bs : List Bool} (h : i.swdio = b :: bs) : readCycle (onWire s p tr ta i f) =
    (b, onWire s { p with clk := .high } (tr ++ [.swd false none (some b) s.driver.halfDelay]) ta (i.swdioLeft bs 1) f) := by
  rw [readCycle_queue (b := b) (bs := bs) h]; rfl

theorem swdOutEnable_onWire (v : Bool) (hd : i.dirFail = none) : swdOutEnable v (onWire s p tr ta i f) =
    .ok () (onWire s { p with swdioOut := levelOf v, swdioOe := .high } tr ta i f) := by
  unfold swdOutEnable; rw [pinDirection_none hd]; rfl

theorem swdOutDisable_onWire (hd : i.dirFail = none) : swdOutDisable (onWire s p tr ta i f) =
    .ok () (onWire s { p with swdioOe := .low } tr ta i f) := by
  unfold swdOutDisable; rw [pinDirection_none hd]; rfl

theorem idleAndPark_onWire : ∃ p',
    idleAndPark (onWire s p tr ta i f) = onWire s p' (tr ++ packetIdle s.driver) ta i f ∧
      p'.swdioOe = p.swdioOe ∧ p'.swdioOut = .high := by
  obtain ⟨p', h, ho⟩ := writeBits_onWire s p tr ta i f (List.replicate s.driver.idleCycles.toNat false)
  refine ⟨{ p' with swdioOut := .high }, ?_, ho, rfl⟩
  simp only [idleAndPark, onWire_driver, h]; rfl

end

theorem readBits_onWire (bs rest : List Bool) (s : State) (p : Pins) (tr : List Cycle) (ta : List Tap) (i : Input) (f : Nat)
    (h : i.swdio = bs ++ rest) : ∃ p', readBits bs.length (onWire s p tr ta i f) =
      (bs, onWire s p' (tr ++ readRecords bs s.driver.halfDelay) ta (i.swdioLeft rest bs.length) f) ∧
        p'.swdioOe = p.swdioOe := by
  induction bs generalizing p tr i with
  | nil => exact ⟨p, by simp [readBits, readRecords, swdioLeft_none (show i.swdio = rest from h)], rfl⟩
  | cons b bs ih =>
    obtain ⟨p', h1, h2⟩ := ih { p with clk := .high } (tr ++ [.swd false none (some b) s.driver.halfDelay])
      (i.swdioLeft (bs ++ rest) 1) rfl
    refine ⟨p', ?_, h2⟩
    simp only [List.length_cons, readBits]
    rw [readCycle_onWire s p tr ta i f (b := b) (bs := bs ++ rest) h]
    simp only
    rw [h1]
    simp [readRecords, Nat.add_comm]

/-! ### The packet (R202) -/

section
variable (s : State) (p : Pins) (tr : List Cycle) (ta : List Tap) (i : Input) (f : Nat)

/-- Header, turnaround and ACK: the packet goes on by its class. -/
theorem swdPacket_head {req : Byte} {w : Word} {a0 a1 a2 : Bool} {rest : List Bool} (hd : i.dirFail = none)
    (hq : i.swdio = [a0, a1, a2] ++ rest) : ∃ p', p'.swdioOe = .low ∧ swdPacket req w (onWire s p tr ta i f) =
    (let u := onWire s p' (tr ++ packetHead s.driver req [a0, a1, a2]) ta (i.swdioLeft rest 3) f
     let a := swdAck a0 a1 a2
     if a = ackOk then if reqRnW req then packetReadOk u else packetWriteOk w u
     else if a = ackWait ∨ a = ackFault then packetWaitFault req a u
     else packetProtocolError a u) := by
  obtain ⟨p1, h1, -⟩ := writeBits_onWire s p tr ta i f (bitsOf (swdHeaderOf req))
  obtain ⟨p2, h2, ho2⟩ := clockCycles_onWire s { p1 with swdioOe := .low }
    (tr ++ writeRecords (bitsOf (swdHeaderOf req)) s.driver.halfDelay) ta i f (turnaround s.driver) rfl
  refine ⟨{ p2 with clk := .high }, ho2, ?_⟩
  have hA : readAck (onWire s p2 (tr ++ writeRecords (bitsOf (swdHeaderOf req)) s.driver.halfDelay ++
      releasedRecords (turnaround s.driver) s.driver.halfDelay) ta i f) = (swdAck a0 a1 a2,
        onWire s { p2 with clk := .high } (tr ++ packetHead s.driver req [a0, a1, a2]) ta (i.swdioLeft rest 3) f) := by
    unfold readAck
    simp only [readCycle_onWire s p2 _ ta i f (b := a0) (bs := a1 :: a2 :: rest) (by simpa using hq)]
    simp only [readCycle_onWire s _ _ ta (i.swdioLeft (a1 :: a2 :: rest) 1) f (b := a1) (bs := a2 :: rest) rfl]
    simp only [readCycle_onWire s _ _ ta ((i.swdioLeft (a1 :: a2 :: rest) 1).swdioLeft (a2 :: rest) 1) f (b := a2)
      (bs := rest) rfl]
    simp [packetHead, readRecords, List.append_assoc]
  unfold swdPacket sendHeader
  rw [h1, swdOutDisable_onWire _ _ _ _ _ _ hd]
  simp only [bind_ok, onWire_driver, h2, hA]

/-- A read answered OK, with a right or a wrong parity bit. -/
theorem swdPacket_read {req : Byte} {w v : Word} {pb : Bool} {rest : List Bool} (hr : req.getLsbD 1 = true)
    (hd : i.dirFail = none) (hq : i.swdio = swdReadAnswer v pb ++ rest) : ∃ p', p'.swdioOe = .high ∧ p'.swdioOut = .high ∧
      swdPacket req w (onWire s p tr ta i f) = .ok (readResult v pb, v)
        (onWire s p' (tr ++ readPacket s.driver req v pb) ta (i.swdioLeft rest 36) f) := by
  obtain ⟨p0, h0, he⟩ := swdPacket_head s p tr ta i f (req := req) (w := w) (a0 := true) (a1 := false) (a2 := false)
    (rest := bitsOf v ++ [pb] ++ rest) hd (by simpa [swdReadAnswer] using hq)
  have hrr : reqRnW req = true := hr
  rw [he]
  simp only
  rw [if_pos (by decide), if_pos hrr]
  unfold packetReadOk
  obtain ⟨p1, h1, o1⟩ := readBits_onWire (bitsOf v) ([pb] ++ rest) s p0
    (tr ++ packetHead s.driver req [true, false, false]) ta (i.swdioLeft (bitsOf v ++ [pb] ++ rest) 3) f (by simp)
  rw [bitsOf_length] at h1
  rw [h1]
  simp only
  rw [readCycle_onWire _ _ _ _ _ _ (b := pb) (bs := rest) rfl]
  simp only [onWire_driver]
  obtain ⟨p2, h2, o2⟩ := clockCycles_onWire s { p1 with clk := .high }
    (tr ++ packetHead s.driver req [true, false, false] ++ readRecords (bitsOf v) s.driver.halfDelay ++
      [.swd false none (some pb) s.driver.halfDelay]) ta
    (((i.swdioLeft (bitsOf v ++ [pb] ++ rest) 3).swdioLeft ([pb] ++ rest) 32).swdioLeft rest 1) f (turnaround s.driver)
    (o1.trans h0)
  rw [h2, swdOutEnable_onWire _ _ _ _ _ _ _ (by exact hd)]
  simp only [bind_ok]
  obtain ⟨p3, h3, o3, o3'⟩ := idleAndPark_onWire s { p2 with swdioOut := levelOf false, swdioOe := .high }
    (tr ++ packetHead s.driver req [true, false, false] ++ readRecords (bitsOf v) s.driver.halfDelay ++
      [.swd false none (some pb) s.driver.halfDelay] ++ releasedRecords (turnaround s.driver) s.driver.halfDelay) ta
    (((i.swdioLeft (bitsOf v ++ [pb] ++ rest) 3).swdioLeft ([pb] ++ rest) 32).swdioLeft rest 1) f
  rw [h3, wordOfBits_bitsOf]
  refine ⟨p3, o3, o3', ?_⟩
  simp [readPacket, packetHead, swdReadAnswer, readRecords, List.append_assoc]

/-- A write answered OK. -/
theorem swdPacket_write {req : Byte} {w : Word} {rest : List Bool} (hr : req.getLsbD 1 = false)
    (hd : i.dirFail = none) (hq : i.swdio = swdOkWrite ++ rest) : ∃ p', p'.swdioOe = .high ∧ p'.swdioOut = .high ∧
      swdPacket req w (onWire s p tr ta i f) = .ok (ackOk, Config.undefinedRdata f)
        (onWire s p' (tr ++ writePacket s.driver req w) ta (i.swdioLeft rest 3) (f + 1)) := by
  obtain ⟨p0, h0, he⟩ := swdPacket_head s p tr ta i f (req := req) (w := w) (a0 := true) (a1 := false) (a2 := false)
    (rest := rest) hd (by simpa [swdOkWrite] using hq)
  have hrr : reqRnW req = false := hr
  rw [he]
  simp only
  rw [if_pos (by decide), if_neg (by simp [hrr])]
  unfold packetWriteOk
  simp only [onWire_driver]
  obtain ⟨p2, h2, o2⟩ := clockCycles_onWire s p0 (tr ++ packetHead s.driver req [true, false, false]) ta
    (i.swdioLeft rest 3) f (turnaround s.driver) h0
  rw [h2, swdOutEnable_onWire _ _ _ _ _ _ _ (by exact hd)]
  simp only [bind_ok]
  obtain ⟨p4, h4, o4⟩ := writeBits_onWire s { p2 with swdioOut := levelOf false, swdioOe := .high }
    (tr ++ packetHead s.driver req [true, false, false] ++ releasedRecords (turnaround s.driver) s.driver.halfDelay) ta
    (i.swdioLeft rest 3) f (bitsOf w)
  rw [h4, writeCycle_onWire]
  obtain ⟨p3, h3, o3, o3'⟩ := idleAndPark_onWire s { p4 with swdioOut := levelOf (dataParity w), clk := .high }
    (tr ++ packetHead s.driver req [true, false, false] ++ releasedRecords (turnaround s.driver) s.driver.halfDelay ++
      writeRecords (bitsOf w) s.driver.halfDelay ++ [.swd true (some (dataParity w)) none s.driver.halfDelay]) ta
    (i.swdioLeft rest 3) f
  rw [h3]
  refine ⟨p3, o3.trans o4, o3', ?_⟩
  simp [undefinedData, onWire, writePacket, packetHead, swdOkWrite, writeRecords, List.append_assoc]

/-- A packet answered WAIT or FAULT. -/
theorem swdPacket_waitFault {req : Byte} {w : Word} {a : Bool} {rest : List Bool} (hd : i.dirFail = none)
    (hq : i.swdio = [false, a, !a] ++ rest) : ∃ p', p'.swdioOe = .high ∧ p'.swdioOut = .high ∧
      swdPacket req w (onWire s p tr ta i f) = .ok (if a then 2#8 else 4#8, Config.undefinedRdata f)
        (onWire s p' (tr ++ refusedPacket s.driver req [false, a, !a]) ta (i.swdioLeft rest 3) (f + 1)) := by
  obtain ⟨p0, h0, he⟩ := swdPacket_head s p tr ta i f (req := req) (w := w) (a0 := false) (a1 := a) (a2 := !a)
    (rest := rest) hd (by simpa using hq)
  rw [he]
  have ha : swdAck false a (!a) = if a then 2#8 else 4#8 := by clear he hq; cases a <;> decide
  simp only [ha]
  rw [if_neg (by cases a <;> decide), if_pos (by cases a <;> decide)]
  unfold packetWaitFault refusedPacket
  have hr' : req.getLsbD 1 = reqRnW req := rfl
  rw [hr']
  simp only [onWire_driver]
  have dummyRead : ∃ p1, (if (s.driver.dataPhase && reqRnW req) = true then
      clockCycles 33 (onWire s p0 (tr ++ packetHead s.driver req [false, a, !a]) ta (i.swdioLeft rest 3) f)
      else onWire s p0 (tr ++ packetHead s.driver req [false, a, !a]) ta (i.swdioLeft rest 3) f) =
      onWire s p1 (tr ++ packetHead s.driver req [false, a, !a] ++
        (if (s.driver.dataPhase && reqRnW req) = true then releasedRecords 33 s.driver.halfDelay else [])) ta
        (i.swdioLeft rest 3) f ∧ p1.swdioOe = .low := by
    split
    · exact clockCycles_onWire s p0 (tr ++ packetHead s.driver req [false, a, !a]) ta (i.swdioLeft rest 3) f 33 h0
    · exact ⟨p0, by simp, h0⟩
  obtain ⟨p1, h1, o1⟩ := dummyRead
  erw [h1]
  generalize htr : (tr ++ packetHead s.driver req [false, a, !a] ++
    (if (s.driver.dataPhase && reqRnW req) = true then releasedRecords 33 s.driver.halfDelay else [])) = tr1
  obtain ⟨p2, h2, o2⟩ := clockCycles_onWire s p1 tr1 ta (i.swdioLeft rest 3) f (turnaround s.driver) o1
  rw [h2, swdOutEnable_onWire _ _ _ _ _ _ _ (by exact hd)]
  simp only [bind_ok, onWire_driver]
  generalize htr2 : tr1 ++ releasedRecords (turnaround s.driver) s.driver.halfDelay = tr2
  have dummyWrite : ∃ p3, (if (s.driver.dataPhase && !reqRnW req) = true then writeBits (List.replicate 33 false)
      (onWire s { p2 with swdioOut := levelOf true, swdioOe := .high } tr2 ta (i.swdioLeft rest 3) f)
      else onWire s { p2 with swdioOut := levelOf true, swdioOe := .high } tr2 ta (i.swdioLeft rest 3) f) =
      onWire s p3 (tr2 ++ (if (s.driver.dataPhase && !reqRnW req) = true then
        writeRecords (List.replicate 33 false) s.driver.halfDelay else [])) ta (i.swdioLeft rest 3) f ∧
        p3.swdioOe = .high := by
    split
    · exact writeBits_onWire s { p2 with swdioOut := levelOf true, swdioOe := .high } tr2 ta (i.swdioLeft rest 3) f _
    · exact ⟨_, by rw [List.append_nil], rfl⟩
  obtain ⟨p3, h3, o3⟩ := dummyWrite
  erw [h3]
  refine ⟨{ p3 with swdioOut := .high }, o3, rfl, ?_⟩
  rw [← htr2, ← htr]
  simp [undefinedData, parkHigh, onWire, List.append_assoc]

/-- A packet whose ACK is a protocol error. -/
theorem swdPacket_protocol {req : Byte} {w : Word} {a0 a1 a2 : Bool} {rest : List Bool} (hd : i.dirFail = none)
    (hn : [a0, a1, a2] ∉ [[true, false, false], [false, true, false], [false, false, true]])
    (hq : i.swdio = [a0, a1, a2] ++ rest) : ∃ p', p'.swdioOe = .high ∧ p'.swdioOut = .high ∧
      swdPacket req w (onWire s p tr ta i f) = .ok (swdAck a0 a1 a2, Config.undefinedRdata f)
        (onWire s p' (tr ++ packetHead s.driver req [a0, a1, a2] ++
          releasedRecords (turnaround s.driver + 33) s.driver.halfDelay) ta (i.swdioLeft rest 3) (f + 1)) := by
  obtain ⟨p0, h0, he⟩ := swdPacket_head s p tr ta i f (req := req) (w := w) (rest := rest) hd hq
  rw [he]
  simp only
  rw [if_neg (by clear he hq; revert a0 a1 a2; decide), if_neg (by clear he hq; revert a0 a1 a2; decide)]
  unfold packetProtocolError
  obtain ⟨p1, h1, o1⟩ := clockCycles_onWire s p0 (tr ++ packetHead s.driver req [a0, a1, a2]) ta (i.swdioLeft rest 3) f
    (turnaround s.driver + 33) h0
  simp only [onWire_driver]
  rw [h1, swdOutEnable_onWire _ _ _ _ _ _ _ (by exact hd)]
  simp only [bind_ok]
  exact ⟨_, rfl, rfl, rfl⟩

/-- A packet that the target refuses, in any of the ways R121 names. -/
theorem swdPacket_refused {req code : Byte} {w : Word} {ans rest : List Bool} {cs : List Cycle} (hd : i.dirFail = none)
    (h : SwdRefuses s.driver req ans cs code) (hq : i.swdio = ans ++ rest) :
    ∃ p' n f' d, p'.swdioOe = .high ∧ p'.swdioOut = .high ∧
      swdPacket req w (onWire s p tr ta i f) = .ok (code, d) (onWire s p' (tr ++ cs) ta (i.swdioLeft rest n) f') := by
  rcases h with ⟨a, rfl, rfl, rfl⟩ | ⟨a0, a1, a2, rfl, hn, rfl, hc⟩ | ⟨hr, v, pb, hp, rfl, rfl, rfl⟩
  · obtain ⟨p', h1, h2, h3⟩ := swdPacket_waitFault s p tr ta i f (req := req) (w := w) hd hq
    exact ⟨p', _, _, _, h1, h2, h3⟩
  · obtain ⟨p', h1, h2, h3⟩ := swdPacket_protocol s p tr ta i f (req := req) (w := w) hd hn hq
    have : swdAck a0 a1 a2 = code := by
      apply BitVec.eq_of_toNat_eq
      rw [hc]
      clear * -
      revert a0 a1 a2; decide
    exact ⟨p', _, _, _, h1, h2, by rw [h3, this, List.append_assoc]⟩
  · obtain ⟨p', h1, h2, h3⟩ := swdPacket_read s p tr ta i f (w := w) hr hd hq
    exact ⟨p', _, _, _, h1, h2, by rw [h3, readResult, if_neg hp]; rfl⟩

end

/-- A refusal is no OK, and only WAIT is WAIT. -/
theorem SwdRefuses.code_ne {d : Driver} {req code : Byte} {ans : List Bool} {cs : List Cycle}
    (h : SwdRefuses d req ans cs code) : code ≠ ackOk := by
  rcases h with ⟨a, -, -, rfl⟩ | ⟨a0, a1, a2, rfl, hn, -, hc⟩ | ⟨-, v, pb, -, -, -, rfl⟩
  · cases a <;> decide
  · rintro rfl
    revert a0 a1 a2; decide
  · decide

theorem SwdFails.code_ne {d : Driver} {req code : Byte} {n : Nat} {ans : List Bool} {cs : List Cycle}
    (h : SwdFails d req n ans cs code) : code ≠ ackOk := by
  induction n generalizing ans cs with
  | zero => exact SwdRefuses.code_ne h
  | succ n ih =>
    rcases h with ⟨h, -⟩ | ⟨more, cs', -, -, h⟩
    · exact h.code_ne
    · exact ih h

/-! ### Transfers on SWD (R230, R233) -/

section
variable {s : State} (p : Pins) (tr : List Cycle) (ta : List Tap) (i : Input) (f : Nat)

theorem transfer_swd {req : Byte} {w : Word} {u : State} (h : u.driver.port = .swd) : transfer req w u = swdPacket req w u := by
  simp only [transfer, h]

/-- A transfer that does not end in WAIT is not retried. -/
theorem retryLoop_of_transfer {req : Byte} {w : Word} {u t : State} {r : Byte × Word} (n : Nat)
    (h : transfer req w u = .ok r t) (hr : r.1 ≠ ackWait) : retryLoop req w n u = .ok r t := by
  cases n with
  | zero => exact h
  | succ n => simp only [retryLoop, h, bind_ok, if_neg hr]

theorem transferRetry_of_transfer {req : Byte} {w : Word} {u t : State} {r : Byte × Word}
    (h : transfer req w u = .ok r t) (hr : r.1 ≠ ackWait) : transferRetry req w u = .ok r t :=
  retryLoop_of_transfer _ h hr

theorem transferRetry_swdRead {req : Byte} {w v : Word} {pb : Bool} {rest : List Bool} (hp : s.driver.port = .swd)
    (hr : req.getLsbD 1 = true) (hd : i.dirFail = none) (hq : i.swdio = swdReadAnswer v pb ++ rest) :
    ∃ p', p'.swdioOe = .high ∧ p'.swdioOut = .high ∧ transferRetry req w (onWire s p tr ta i f) = .ok (readResult v pb, v)
      (onWire s p' (tr ++ readPacket s.driver req v pb) ta (i.swdioLeft rest 36) f) := by
  obtain ⟨p', h1, h2, h3⟩ := swdPacket_read s p tr ta i f (w := w) hr hd hq
  refine ⟨p', h1, h2, transferRetry_of_transfer ((transfer_swd (u := onWire s p tr ta i f) hp).trans h3) ?_⟩
  simp only [readResult]; split <;> decide

theorem transferRetry_swdOkRead {req : Byte} {w v : Word} {rest : List Bool} (hp : s.driver.port = .swd)
    (hr : req.getLsbD 1 = true) (hd : i.dirFail = none) (hq : i.swdio = swdOkRead v ++ rest) :
    ∃ p', p'.swdioOe = .high ∧ p'.swdioOut = .high ∧ transferRetry req w (onWire s p tr ta i f) = .ok (ackOk, v)
      (onWire s p' (tr ++ readPacket s.driver req v (dataParity v)) ta (i.swdioLeft rest 36) f) := by
  obtain ⟨p', h1, h2, h3⟩ := transferRetry_swdRead p tr ta i f (w := w) hp hr hd (hq : _ = swdReadAnswer _ _ ++ _)
  exact ⟨p', h1, h2, by rw [h3, readResult, if_pos rfl]⟩

theorem transferRetry_swdWrite {req : Byte} {w : Word} {rest : List Bool} (hp : s.driver.port = .swd)
    (hr : req.getLsbD 1 = false) (hd : i.dirFail = none) (hq : i.swdio = swdOkWrite ++ rest) :
    ∃ p', p'.swdioOe = .high ∧ p'.swdioOut = .high ∧
      transferRetry req w (onWire s p tr ta i f) = .ok (ackOk, Config.undefinedRdata f)
        (onWire s p' (tr ++ writePacket s.driver req w) ta (i.swdioLeft rest 3) (f + 1)) := by
  obtain ⟨p', h1, h2, h3⟩ := swdPacket_write s p tr ta i f (w := w) hr hd hq
  exact ⟨p', h1, h2, transferRetry_of_transfer ((transfer_swd (u := onWire s p tr ta i f) hp).trans h3) (by simp [ackOk, ackWait])⟩

/-- One WAIT with retries left: the loop goes on with one fewer. -/
theorem retryLoop_swdWait {req : Byte} {w : Word} {rest : List Bool} (n : Nat) (hp : s.driver.port = .swd)
    (hd : i.dirFail = none) (hq : i.swdio = [false, true, false] ++ rest) : ∃ p',
      p'.swdioOe = .high ∧ p'.swdioOut = .high ∧ retryLoop req w (n + 1) (onWire s p tr ta i f) = retryLoop req w n
        (onWire s p' (tr ++ refusedPacket s.driver req [false, true, false]) ta (i.swdioLeft rest 3) (f + 1)) := by
  obtain ⟨p', h1, h2, h3⟩ := swdPacket_waitFault s p tr ta i f (req := req) (w := w) (a := true) hd hq
  have ht := (transfer_swd (u := onWire s p tr ta i f) hp).trans h3
  refine ⟨p', h1, h2, ?_⟩
  simp only [retryLoop, ht, bind_ok]
  rw [if_pos (by decide)]
  rfl

/-- `k` WAITs with retries left: the loop goes on with `k` fewer, after `k` refused packets. -/
theorem retryLoop_swdWaits {req : Byte} {w : Word} {rest : List Bool} (n k : Nat) (hp : s.driver.port = .swd)
    (hd : i.dirFail = none) (hq : i.swdio = (List.replicate k [false, true, false]).flatten ++ rest) : ∃ p' f',
      retryLoop req w (n + k) (onWire s p tr ta i f) = retryLoop req w n (onWire s p'
        (tr ++ (List.replicate k (refusedPacket s.driver req [false, true, false])).flatten) ta (i.swdioLeft rest (3 * k))
        f') := by
  induction k generalizing p tr i f with
  | zero => exact ⟨p, f, by rw [swdioLeft_none (show i.swdio = rest from hq)]; simp⟩
  | succ k ih =>
    obtain ⟨p1, -, -, h1⟩ := retryLoop_swdWait p tr ta i f (req := req) (w := w)
      (rest := (List.replicate k [false, true, false]).flatten ++ rest) (n + k) hp hd
      (by simpa [List.replicate_succ] using hq)
    obtain ⟨p', f', h2⟩ := ih p1 (tr ++ refusedPacket s.driver req [false, true, false])
      (i.swdioLeft ((List.replicate k [false, true, false]).flatten ++ rest) 3) (f + 1) hd rfl
    refine ⟨p', f', ?_⟩
    rw [← Nat.add_assoc, h1, h2]
    simp [List.replicate_succ, Nat.mul_succ, Nat.add_comm]

/-- A transfer that fails on SWD (R231, R233). -/
theorem retryLoop_swdFails {req code : Byte} {w : Word} {rest : List Bool} (n : Nat) {ans : List Bool} {cs : List Cycle}
    (hp : s.driver.port = .swd) (hd : i.dirFail = none) (h : SwdFails s.driver req n ans cs code)
    (hq : i.swdio = ans ++ rest) : ∃ p' m f' d, p'.swdioOe = .high ∧ p'.swdioOut = .high ∧
      retryLoop req w n (onWire s p tr ta i f) = .ok (code, d) (onWire s p' (tr ++ cs) ta (i.swdioLeft rest m) f') := by
  induction n generalizing p tr i f ans cs with
  | zero =>
    obtain ⟨p', m, f', d, h1, h2, h3⟩ := swdPacket_refused s p tr ta i f (w := w) hd h hq
    exact ⟨p', m, f', d, h1, h2, (transfer_swd (u := onWire s p tr ta i f) hp).trans h3⟩
  | succ n ih =>
    rcases h with ⟨h, hne⟩ | ⟨more, cs', rfl, rfl, h⟩
    · obtain ⟨p', m, f', d, h1, h2, h3⟩ := swdPacket_refused s p tr ta i f (w := w) hd h hq
      refine ⟨p', m, f', d, h1, h2, ?_⟩
      simp only [retryLoop, (transfer_swd (u := onWire s p tr ta i f) hp).trans h3, bind_ok]
      exact if_neg hne
    · obtain ⟨p1, -, -, h1⟩ := retryLoop_swdWait p tr ta i f (req := req) (w := w) (rest := more ++ rest) n hp hd
        (by simpa using hq)
      obtain ⟨p', m, f', d, h2, h3, h4⟩ := ih p1 (tr ++ refusedPacket s.driver req [false, true, false])
        (i.swdioLeft (more ++ rest) 3) (f + 1) hd h rfl
      exact ⟨p', 3 + m, f', d, h2, h3, by rw [h1, h4]; simp⟩

theorem transferRetry_swdFails {req code : Byte} {w : Word} {rest ans : List Bool} {cs : List Cycle}
    (hp : s.driver.port = .swd) (hd : i.dirFail = none)
    (h : SwdFails s.driver req s.driver.waitRetry.toNat ans cs code) (hq : i.swdio = ans ++ rest) :
    ∃ p' m f' d, p'.swdioOe = .high ∧ p'.swdioOut = .high ∧ transferRetry req w (onWire s p tr ta i f) = .ok (code, d)
      (onWire s p' (tr ++ cs) ta (i.swdioLeft rest m) f') := retryLoop_swdFails p tr ta i f _ hp hd h hq

end

/-! ### The written-out cycles are the scans' cycles (R175, R185) -/

theorem shiftLines_aux (bs : List Bool) (n k : Nat) (h : n = k + bs.length) :
    (bs.zipIdx k).map (fun b => (decide (b.2 + 1 = n), b.1)) = shiftOut bs := by
  induction bs generalizing k with
  | nil => rfl
  | cons b bs ih =>
    rw [List.zipIdx_cons, List.map_cons]
    cases bs with
    | nil => simp [shiftOut, h]
    | cons b' bs =>
      rw [ih (k + 1) (by simp at h ⊢; omega)]
      simp [shiftOut, h]

theorem shiftLines_eq (bs : List Bool) : shiftLines bs = shiftOut bs := shiftLines_aux bs bs.length 0 (by simp)

theorem setIrLines_eq (e : Device) (ir : Byte) : setIrLines e ir = setIrCycles e ir := by
  simp only [setIrLines, setIrCycles, shiftLines_eq]; rfl

theorem scanHeadLines_eq (d : Driver) (req : Byte) : scanHeadLines d req = scanHead d.index.toNat req := rfl

theorem okScanCycles_eq (d : Driver) (req : Byte) (w : Word) : okScanCycles d req w =
    scanHead d.index.toNat req ++ scanOkTail (d.chain.length - 1 - d.index.toNat) d.idleCycles.toNat req w := by
  simp only [okScanCycles, scanHeadLines_eq, scanOkTail, shiftLines_eq, List.append_assoc]; rfl

theorem cutScanCycles_eq (d : Driver) (req : Byte) :
    cutScanCycles d req = scanHead d.index.toNat req ++ scanAbortTail d.idleCycles.toNat := by
  simp only [cutScanCycles, scanHeadLines_eq, scanAbortTail, toIdle, stay, List.append_assoc, List.cons_append,
    List.nil_append]

theorem okScanCycles_length (d : Driver) (req : Byte) (w : Word) (h : d.index.toNat < d.chain.length) :
    (okScanCycles d req w).length = d.chain.length + 39 + d.idleCycles.toNat := by
  rw [okScanCycles_eq, List.length_append, scanHead_length, scanOkTail_length]; omega

theorem jtagRecords_append {a b : List (Bool × Bool)} {x y : List Bool} (h : Word) (hl : a.length = x.length) :
    jtagRecords (a ++ b) (x ++ y) h = jtagRecords a x h ++ jtagRecords b y h := by
  simp [jtagRecords, List.zipWith_append hl]

@[simp] theorem jtagRecords_nil (h : Word) : jtagRecords [] [] h = [] := rfl

/-! ### The scans -/

/-- A sequence of JTAG cycles whose samples are queued. -/
theorem jrun_onWire (cs : List (Bool × Bool)) (bs rest : List Bool) (s : State) (p : Pins) (tr : List Cycle) (ta : List Tap)
    (i : Input) (f : Nat) (hl : bs.length = cs.length) (h : i.tdo = bs ++ rest) : ∃ p' ta',
      jrun cs (onWire s p tr ta i f) =
        (bs, onWire s p' (tr ++ jtagRecords cs bs s.driver.halfDelay) ta' (i.tdoLeft rest cs.length) f) := by
  obtain ⟨q, p', h1, h2, -⟩ := jrun_eq cs (onWire s p tr ta i f)
  obtain ⟨h3, h4⟩ := jrun_queue cs bs rest (s := onWire s p tr ta i f) hl h
  refine ⟨p', ta.map fun t => Tap.run t (cs.map Prod.fst), ?_⟩
  rw [h2] at h4
  simp only at h4
  rw [h3, h4] at h2
  exact Prod.ext h3 h2

section
variable (s : State) (p : Pins) (tr : List Cycle) (ta : List Tap) (i : Input) (f : Nat)

/-- A transfer scan answered OK. -/
theorem jtagTransferScan_ok {req : Byte} {w v : Word} {pre post rest : List Bool}
    (hidx : s.driver.index.toNat < s.driver.chain.length) (hpre : pre.length = s.driver.index.toNat + 3)
    (hpost : post.length = s.driver.chain.length - 1 - s.driver.index.toNat + 2 + s.driver.idleCycles.toNat)
    (hq : i.tdo = jtagOkAnswer pre v post ++ rest) : ∃ p' ta' n,
      jtagTransferScan req w (onWire s p tr ta i f) = .ok (ackOk, v) (onWire s p'
        (tr ++ jtagRecords (okScanCycles s.driver req w) (jtagOkAnswer pre v post) s.driver.halfDelay) ta'
        (i.tdoLeft rest n) f) := by
  obtain ⟨e, he⟩ : ∃ e, selected s.driver = some e := ⟨_, List.getElem?_eq_getElem hidx⟩
  have hl1 : (pre ++ [false, true, false]).length = (scanHead s.driver.index.toNat req).length := by
    rw [scanHead_length]; simp; omega
  obtain ⟨p1, ta1, h1⟩ := jrun_onWire (scanHead s.driver.index.toNat req) (pre ++ [false, true, false])
    (bitsOf v ++ post ++ rest) s p tr ta i f hl1 (by simpa [jtagOkAnswer] using hq)
  obtain ⟨p2, ta2, h2⟩ := jrun_onWire
    (scanOkTail (s.driver.chain.length - 1 - s.driver.index.toNat) s.driver.idleCycles.toNat req w) (bitsOf v ++ post) rest s
    p1 (tr ++ jtagRecords (scanHead s.driver.index.toNat req) (pre ++ [false, true, false]) s.driver.halfDelay) ta1
    (i.tdoLeft (bitsOf v ++ post ++ rest) (scanHead s.driver.index.toNat req).length) f
    (by rw [scanOkTail_length]; simp; omega) rfl
  have hack : scanAck s.driver.index.toNat (pre ++ [false, true, false]) = ackOk := by
    unfold scanAck
    rw [List.drop_left' (by omega)]
    decide
  have ht : tr ++ jtagRecords (scanHead s.driver.index.toNat req) (pre ++ [false, true, false]) s.driver.halfDelay ++
      jtagRecords (scanOkTail (s.driver.chain.length - 1 - s.driver.index.toNat) s.driver.idleCycles.toNat req w)
        (bitsOf v ++ post) s.driver.halfDelay =
      tr ++ jtagRecords (okScanCycles s.driver req w) (jtagOkAnswer pre v post) s.driver.halfDelay := by
    rw [okScanCycles_eq, List.append_assoc, ← jtagRecords_append _ hl1.symm]
    simp [jtagOkAnswer]
  rw [ht, tdoLeft_twice] at h2
  refine ⟨p2, ta2, (scanHead s.driver.index.toNat req).length +
    (scanOkTail (s.driver.chain.length - 1 - s.driver.index.toNat) s.driver.idleCycles.toNat req w).length, ?_⟩
  unfold jtagTransferScan
  simp only [onWire_driver, he, h1, hack, if_true]
  rw [h2]
  simp only
  rw [List.take_left' (by simp), wordOfBits_bitsOf]

/-- A transfer scan that is cut short. -/
theorem jtagTransferScan_cut {req : Byte} {w : Word} {pre post rest : List Bool} {t0 t1 t2 : Bool}
    (hidx : s.driver.index.toNat < s.driver.chain.length) (hpre : pre.length = s.driver.index.toNat + 3)
    (hpost : post.length = 3 + s.driver.idleCycles.toNat) (hne : (t0, t1, t2) ≠ (false, true, false))
    (hq : i.tdo = pre ++ [t0, t1, t2] ++ post ++ rest) : ∃ p' ta' n,
      jtagTransferScan req w (onWire s p tr ta i f) = .ok (jtagAck t0 t1 t2, Config.undefinedRdata f) (onWire s p'
        (tr ++ jtagRecords (cutScanCycles s.driver req) (pre ++ [t0, t1, t2] ++ post) s.driver.halfDelay) ta'
        (i.tdoLeft rest n) (f + 1)) := by
  obtain ⟨e, he⟩ : ∃ e, selected s.driver = some e := ⟨_, List.getElem?_eq_getElem hidx⟩
  have hl1 : (pre ++ [t0, t1, t2]).length = (scanHead s.driver.index.toNat req).length := by
    rw [scanHead_length]; simp; omega
  obtain ⟨p1, ta1, h1⟩ := jrun_onWire (scanHead s.driver.index.toNat req) (pre ++ [t0, t1, t2]) (post ++ rest) s p tr ta i f
    hl1 (by simpa using hq)
  obtain ⟨p2, ta2, h2⟩ := jrun_onWire (scanAbortTail s.driver.idleCycles.toNat) post rest s p1
    (tr ++ jtagRecords (scanHead s.driver.index.toNat req) (pre ++ [t0, t1, t2]) s.driver.halfDelay) ta1
    (i.tdoLeft (post ++ rest) (scanHead s.driver.index.toNat req).length) f (by rw [scanAbortTail_length]; omega) rfl
  have hack : scanAck s.driver.index.toNat (pre ++ [t0, t1, t2]) = jtagAck t0 t1 t2 := by
    unfold scanAck
    rw [List.drop_left' (by omega)]
  have hno : jtagAck t0 t1 t2 ≠ ackOk := by clear * - hne; revert t0 t1 t2; decide
  have ht : tr ++ jtagRecords (scanHead s.driver.index.toNat req) (pre ++ [t0, t1, t2]) s.driver.halfDelay ++
      jtagRecords (scanAbortTail s.driver.idleCycles.toNat) post s.driver.halfDelay =
      tr ++ jtagRecords (cutScanCycles s.driver req) (pre ++ [t0, t1, t2] ++ post) s.driver.halfDelay := by
    rw [cutScanCycles_eq, List.append_assoc, ← jtagRecords_append _ hl1.symm]
  rw [ht, tdoLeft_twice] at h2
  refine ⟨p2, ta2, (scanHead s.driver.index.toNat req).length + (scanAbortTail s.driver.idleCycles.toNat).length, ?_⟩
  unfold jtagTransferScan
  simp only [onWire_driver, he, h1, hack, if_neg hno]
  rw [h2]
  rfl

end

/-! ### Transfers on JTAG (R230, R232, R233) -/

/-- `s` with the IR holding `ir`. -/
def holding (s : State) (ir : Option IrSel) : State := { s with work := { s.work with irCache := ir } }

@[simp] theorem holding_driver (s : State) (ir) : (holding s ir).driver = s.driver := rfl
@[simp] theorem holding_mem (s : State) (ir) : (holding s ir).mem = s.mem := rfl
@[simp] theorem holding_params (s : State) (ir) : (holding s ir).params = s.params := rfl
@[simp] theorem holding_work (s : State) (ir) : (holding s ir).work = { s.work with irCache := ir } := rfl
@[simp] theorem holding_pins (s : State) (ir) : (holding s ir).pins = s.pins := rfl
@[simp] theorem holding_trace (s : State) (ir) : (holding s ir).trace = s.trace := rfl
@[simp] theorem holding_phase (s : State) (ir) : (holding s ir).phase = s.phase := rfl
@[simp] theorem holding_batch (s : State) (ir) : (holding s ir).batch = s.batch := rfl
@[simp] theorem holding_framing (s : State) (ir) : (holding s ir).framing = s.framing := rfl
@[simp] theorem holding_input (s : State) (ir) : (holding s ir).input = s.input := rfl
@[simp] theorem holding_sent (s : State) (ir) : (holding s ir).sent = s.sent := rfl
@[simp] theorem holding_taps (s : State) (ir) : (holding s ir).taps = s.taps := rfl
@[simp] theorem holding_ret (s : State) (ir) : (holding s ir).ret = s.ret := rfl
@[simp] theorem holding_free (s : State) (ir) : (holding s ir).free = s.free := rfl
@[simp] theorem holding_holding (s : State) (ir ir') : holding (holding s ir) ir' = holding s ir' := rfl
theorem holding_self (s : State) : holding s s.work.irCache = s := rfl

theorem irLines_length (d : Driver) (ir : Option IrSel) (req : Byte) {e : Device} (he : d.chain[d.index.toNat]? = some e) :
    (irLines d ir req).length = if ir = some (spaceOf req) then 0 else
      e.irBitsBefore.toNat + e.irLength.toNat + e.irBitsAfter.toNat + 6 := by
  unfold irLines
  split
  · rfl
  · rw [he]
    simp only
    rw [setIrLines_eq, setIrCycles_length]

section
variable (s : State) (p : Pins) (tr : List Cycle) (ta : List Tap) (i : Input) (f : Nat)

/-- The Set-IR scan before a transfer, or none (R230). -/
theorem selectIr_onWire {req : Byte} {irs rest : List Bool} (hidx : s.driver.index.toNat < s.driver.chain.length)
    (hirs : irs.length = (irLines s.driver s.work.irCache req).length) (hq : i.tdo = irs ++ rest) : ∃ p' ta' n,
      selectIr (neededIr req) (onWire s p tr ta i f) = .ok () (onWire (holding s (some (spaceOf req))) p'
        (tr ++ jtagRecords (irLines s.driver s.work.irCache req) irs s.driver.halfDelay) ta' (i.tdoLeft rest n) f) := by
  have hn : neededIr req = spaceOf req := rfl
  obtain ⟨e, he⟩ : ∃ e, selected s.driver = some e := ⟨_, List.getElem?_eq_getElem hidx⟩
  have he' : s.driver.chain[s.driver.index.toNat]? = some e := he
  unfold selectIr
  simp only [onWire_work, hn]
  by_cases hc : s.work.irCache = some (spaceOf req)
  · have h0 : irLines s.driver s.work.irCache req = [] := if_pos hc
    rw [h0] at hirs ⊢
    obtain rfl : irs = [] := List.length_eq_zero_iff.mp hirs
    refine ⟨p, ta, 0, ?_⟩
    rw [if_pos hc, tdoLeft_none (show i.tdo = rest from hq), jtagRecords_nil, List.append_nil, ← hc, holding_self]
  · have h0 : irLines s.driver s.work.irCache req = setIrCycles e (irValue (spaceOf req)) := by
      have hv : irValue (spaceOf req) = if req.getLsbD 0 = true then 0x0b#8 else 0x0a#8 := by
        unfold spaceOf; split <;> rfl
      rw [hv, ← setIrLines_eq]
      unfold irLines
      rw [if_neg hc, he']
    rw [h0] at hirs ⊢
    obtain ⟨p1, ta1, h1⟩ := jrun_onWire _ irs rest s p tr ta i f hirs hq
    refine ⟨p1, ta1, (setIrCycles e (irValue (spaceOf req))).length, ?_⟩
    rw [if_neg hc]
    unfold setInstructionRegister
    simp only [onWire_driver, he, h1]
    rfl

/-- A transfer on JTAG answered OK. -/
theorem transferRetry_jtagOk {x : Access} {irs pre post rest : List Bool} (hp : s.driver.port = .jtag)
    (hidx : s.driver.index.toNat < s.driver.chain.length)
    (hirs : irs.length = (irLines s.driver s.work.irCache x.req).length) (hpre : pre.length = s.driver.index.toNat + 3)
    (hpost : post.length = s.driver.chain.length - 1 - s.driver.index.toNat + 2 + s.driver.idleCycles.toNat)
    (hq : i.tdo = irs ++ jtagOkAnswer pre x.answer post ++ rest) : ∃ p' ta' n,
      transferRetry x.req x.word (onWire s p tr ta i f) = .ok (ackOk, x.answer)
        (onWire (holding s (some (spaceOf x.req))) p'
          (tr ++ jtagRecords (irLines s.driver s.work.irCache x.req ++ okScanCycles s.driver x.req x.word)
            (irs ++ jtagOkAnswer pre x.answer post) s.driver.halfDelay) ta' (i.tdoLeft rest n) f) := by
  obtain ⟨p1, ta1, n1, h1⟩ := selectIr_onWire s p tr ta i f (req := x.req)
    (rest := jtagOkAnswer pre x.answer post ++ rest) hidx hirs (by simpa using hq)
  obtain ⟨p2, ta2, n2, h2⟩ := jtagTransferScan_ok (holding s (some (spaceOf x.req))) p1
    (tr ++ jtagRecords (irLines s.driver s.work.irCache x.req) irs s.driver.halfDelay) ta1
    (i.tdoLeft (jtagOkAnswer pre x.answer post ++ rest) n1) f (req := x.req) (w := x.word) hidx hpre hpost rfl
  refine ⟨p2, ta2, n1 + n2, transferRetry_of_transfer ?_ (by simp [ackOk, ackWait])⟩
  simp only [transfer, onWire_driver, hp, h1, bind_ok, h2, holding_driver, tdoLeft_twice]
  rw [jtagRecords_append _ hirs.symm, List.append_assoc]

/-- The first of several transfers on JTAG answered OK: its records are the first of all the records, and the rest of the
answers belongs to the rest of the transfers. -/
theorem transferRetry_jtagAnswered {x : Access} {xs : List Access} {ans rest : List Bool} (hp : s.driver.port = .jtag)
    (hidx : s.driver.index.toNat < s.driver.chain.length) (h : JtagAnswers s.driver s.work.irCache (x :: xs) ans)
    (hq : i.tdo = ans ++ rest) : ∃ more cs p' ta' n,
      transferRetry x.req x.word (onWire s p tr ta i f) = .ok (ackOk, x.answer)
        (onWire (holding s (some (spaceOf x.req))) p' (tr ++ cs) ta' (i.tdoLeft (more ++ rest) n) f) ∧
      JtagAnswers s.driver (some (spaceOf x.req)) xs more ∧
      jtagRecords (jtagLinesOf s.driver s.work.irCache (x :: xs)) ans s.driver.halfDelay =
        cs ++ jtagRecords (jtagLinesOf s.driver (some (spaceOf x.req)) xs) more s.driver.halfDelay := by
  obtain ⟨irs, pre, post, more, rfl, hirs, hpre, hpost, hm⟩ := h
  obtain ⟨p', ta', n, h1⟩ := transferRetry_jtagOk s p tr ta i f (rest := more ++ rest) hp hidx hirs hpre hpost
    (by simpa using hq)
  refine ⟨more, _, p', ta', n, h1, hm, ?_⟩
  rw [jtagLinesOf, jtagRecords_append]
  simp [jtagOkAnswer, okScanCycles_length _ _ _ hidx, hirs, hpre, hpost]
  omega

/-- One attempt on JTAG that the target refuses. -/
theorem transfer_jtagRefused {req code : Byte} {w : Word} {ans rest : List Bool} {cs : List (Bool × Bool)}
    (hp : s.driver.port = .jtag) (hidx : s.driver.index.toNat < s.driver.chain.length)
    (h : JtagRefuses s.driver s.work.irCache req ans cs code) (hq : i.tdo = ans ++ rest) : ∃ p' ta' n d,
      transfer req w (onWire s p tr ta i f) = .ok (code, d) (onWire (holding s (some (spaceOf req))) p'
        (tr ++ jtagRecords cs ans s.driver.halfDelay) ta' (i.tdoLeft rest n) (f + 1)) := by
  obtain ⟨irs, pre, t0, t1, t2, post, rfl, hirs, hpre, hpost, hne, rfl, hc⟩ := h
  obtain ⟨p1, ta1, n1, h1⟩ := selectIr_onWire s p tr ta i f (req := req)
    (rest := pre ++ [t0, t1, t2] ++ post ++ rest) hidx hirs (by simpa using hq)
  obtain ⟨p2, ta2, n2, h2⟩ := jtagTransferScan_cut (holding s (some (spaceOf req))) p1
    (tr ++ jtagRecords (irLines s.driver s.work.irCache req) irs s.driver.halfDelay) ta1
    (i.tdoLeft (pre ++ [t0, t1, t2] ++ post ++ rest) n1) f (req := req) (w := w) (rest := rest) hidx hpre hpost hne rfl
  have hcode : jtagAck t0 t1 t2 = code := by
    apply BitVec.eq_of_toNat_eq
    rw [hc]
    clear * -
    revert t0 t1 t2; decide
  refine ⟨p2, ta2, n1 + n2, Config.undefinedRdata f, ?_⟩
  simp only [transfer, onWire_driver, hp, h1, bind_ok, h2, hcode, holding_driver, tdoLeft_twice]
  rw [show irs ++ pre ++ [t0, t1, t2] ++ post = irs ++ (pre ++ [t0, t1, t2] ++ post) by simp,
    jtagRecords_append _ hirs.symm, List.append_assoc]

end

theorem JtagRefuses.code_ne {d : Driver} {ir : Option IrSel} {req code : Byte} {ans : List Bool} {cs : List (Bool × Bool)}
    (h : JtagRefuses d ir req ans cs code) : code ≠ ackOk := by
  obtain ⟨irs, pre, t0, t1, t2, post, -, -, -, -, hne, -, hc⟩ := h
  rintro rfl
  revert t0 t1 t2; decide

theorem JtagRefuses.length {d : Driver} {ir : Option IrSel} {req code : Byte} {ans : List Bool} {cs : List (Bool × Bool)}
    (h : JtagRefuses d ir req ans cs code) : cs.length = ans.length := by
  obtain ⟨irs, pre, t0, t1, t2, post, rfl, hirs, hpre, hpost, -, rfl, -⟩ := h
  simp [cutScanCycles_eq, scanHead_length, scanAbortTail_length, hirs, hpre, hpost]
  omega

theorem JtagFails.code_ne {d : Driver} {req code : Byte} {n : Nat} {ir : Option IrSel} {ans : List Bool}
    {cs : List (Bool × Bool)} (h : JtagFails d req n ir ans cs code) : code ≠ ackOk := by
  induction n generalizing ir ans cs with
  | zero => exact JtagRefuses.code_ne h
  | succ n ih =>
    rcases h with ⟨h, -⟩ | ⟨a, more, c1, cs', -, -, -, h⟩
    · exact h.code_ne
    · exact ih h

/-- A transfer that fails on JTAG (R231, R233). -/
theorem retryLoop_jtagFails {req code : Byte} {w : Word} {rest : List Bool} (n : Nat) (s : State) (p : Pins) (tr : List Cycle)
    (ta : List Tap) (i : Input) (f : Nat) {ans : List Bool} {cs : List (Bool × Bool)} (hp : s.driver.port = .jtag)
    (hidx : s.driver.index.toNat < s.driver.chain.length)
    (h : JtagFails s.driver req n s.work.irCache ans cs code) (hq : i.tdo = ans ++ rest) : ∃ p' ta' m f' d,
      retryLoop req w n (onWire s p tr ta i f) = .ok (code, d) (onWire (holding s (some (spaceOf req))) p'
        (tr ++ jtagRecords cs ans s.driver.halfDelay) ta' (i.tdoLeft rest m) f') := by
  induction n generalizing s p tr ta i f ans cs with
  | zero =>
    obtain ⟨p', ta', m, d, h1⟩ := transfer_jtagRefused s p tr ta i f (w := w) hp hidx h hq
    exact ⟨p', ta', m, f + 1, d, h1⟩
  | succ n ih =>
    rcases h with ⟨h, hne⟩ | ⟨a, more, c1, cs', rfl, rfl, h1, h⟩
    · obtain ⟨p', ta', m, d, h1⟩ := transfer_jtagRefused s p tr ta i f (w := w) hp hidx h hq
      refine ⟨p', ta', m, f + 1, d, ?_⟩
      simp only [retryLoop, h1, bind_ok]
      exact if_neg hne
    · obtain ⟨p1, ta1, m1, d1, h2⟩ := transfer_jtagRefused s p tr ta i f (w := w) (rest := more ++ rest) hp hidx h1
        (by simpa using hq)
      obtain ⟨p', ta', m, f', d, h3⟩ := ih (holding s (some (spaceOf req))) p1
        (tr ++ jtagRecords c1 a s.driver.halfDelay) ta1 (i.tdoLeft (more ++ rest) m1) (f + 1) hp hidx h rfl
      refine ⟨p', ta', m1 + m, f', d, ?_⟩
      simp only [retryLoop, h2, bind_ok]
      rw [if_pos (by decide), h3]
      simp only [holding_holding, holding_driver, tdoLeft_twice]
      rw [jtagRecords_append _ h1.length, List.append_assoc]

theorem transferRetry_jtagFails {req code : Byte} {w : Word} {rest ans : List Bool} {cs : List (Bool × Bool)} (s : State)
    (p : Pins) (tr : List Cycle) (ta : List Tap) (i : Input) (f : Nat) (hp : s.driver.port = .jtag)
    (hidx : s.driver.index.toNat < s.driver.chain.length)
    (h : JtagFails s.driver req s.driver.waitRetry.toNat s.work.irCache ans cs code) (hq : i.tdo = ans ++ rest) :
    ∃ p' ta' m f' d, transferRetry req w (onWire s p tr ta i f) = .ok (code, d) (onWire (holding s (some (spaceOf req))) p'
      (tr ++ jtagRecords cs ans s.driver.halfDelay) ta' (i.tdoLeft rest m) f') :=
  retryLoop_jtagFails _ s p tr ta i f hp hidx h hq

end Sys2Proof.Machine
end

