-- ==== Sys2Proof/Laws/Sequence.lean ====
section
/-! SUPPORT. How a request of a Transfer and a Transfer Block end, given what their transfers answer: one lemma for each
way a loop of the Transfer Engine goes on or stops. -/

namespace Sys2Proof.Machine

/-! ### Buffers -/

/-- `s` with the bytes appended to the response. -/
def grown (s : State) (bs : List Byte) : State := { s with mem := { s.mem with resp := s.mem.resp ++ bs } }

@[simp] theorem grown_params (s bs) : (grown s bs).params = s.params := rfl
@[simp] theorem grown_driver (s bs) : (grown s bs).driver = s.driver := rfl
@[simp] theorem grown_mem (s bs) : (grown s bs).mem = { s.mem with resp := s.mem.resp ++ bs } := rfl
@[simp] theorem grown_work (s bs) : (grown s bs).work = s.work := rfl
@[simp] theorem grown_batch (s bs) : (grown s bs).batch = s.batch := rfl
@[simp] theorem grown_nil (s) : grown s [] = s := by simp [grown]
@[simp] theorem grown_grown (s a b) : grown (grown s a) b = grown s (a ++ b) := by simp [grown]

/-- `s` with the cursor `n` bytes further. -/
def skipped (s : State) (n : Nat) : State := { s with mem := { s.mem with rd := s.mem.rd + n } }

@[simp] theorem skipped_driver (s n) : (skipped s n).driver = s.driver := rfl
@[simp] theorem skipped_mem (s n) : (skipped s n).mem = { s.mem with rd := s.mem.rd + n } := rfl
@[simp] theorem skipped_work (s n) : (skipped s n).work = s.work := rfl
@[simp] theorem skipped_zero (s) : skipped s 0 = s := rfl
@[simp] theorem skipped_skipped (s n m) : skipped (skipped s n) m = skipped s (n + m) := by simp [skipped, Nat.add_assoc]

theorem grown_fits {s : State} {bs : List Byte} {n : Nat} (h : Fits s (bs.length + n)) : Fits (grown s bs) n := by
  simp [Fits] at *; omega

@[simp] theorem bytes32_length (v : Word) : (bytes32 v).length = 4 := rfl

theorem flatMap_bytes32_length (vs : List Word) : (vs.flatMap bytes32).length = 4 * vs.length := by
  induction vs <;> simp_all; omega

theorem respWrite4_onWire (s p tr ta i f) (v : Word) (h : Fits s 4) :
    respWrite4 v (onWire s p tr ta i f) = .ok () (onWire (grown s (bytes32 v)) p tr ta i f) := by
  unfold respWrite4
  rw [respWrite_fits (by simpa [Fits] using h)]; rfl

theorem reqRead4_onWire (s p tr ta i f) {w : Word} {more : List Byte}
    (h : s.mem.req.drop s.mem.rd = bytes32 w ++ more) :
    reqRead4 (onWire s p tr ta i f) = .ok w (onWire (skipped s 4) p tr ta i f) := by
  have hl : s.mem.rd + 4 ≤ s.mem.req.length := by
    have := congrArg List.length h; simp at this; omega
  unfold reqRead4
  rcases reqRead_cases 4 (onWire s p tr ta i f) with ⟨-, he⟩ | ⟨hlt, -⟩
  · rw [he]; simp only [onWire_mem, h]
    rw [show (bytes32 w ++ more).take 4 = bytes32 w by simp [bytes32]]
    simp [wordOfBytes_bytes32]; rfl
  · simp at hlt; omega

/-- After a word is read the cursor stands at what followed it. -/
theorem drop_skipped {s : State} {w : Word} {more : List Byte} (h : s.mem.req.drop s.mem.rd = bytes32 w ++ more) :
    (skipped s 4).mem.req.drop (skipped s 4).mem.rd = more := by
  have := congrArg (List.drop 4) h
  rw [List.drop_drop] at this
  simpa [bytes32] using this

theorem reqSkip4_ok (n : Nat) (s : State) (h : s.mem.rd + 4 * n ≤ s.mem.req.length) :
    reqSkip4 n s = .ok () (skipped s (4 * n)) := by
  induction n generalizing s with
  | zero => rfl
  | succ n ih =>
    unfold reqSkip4
    rcases reqRead_cases 4 s with ⟨-, he⟩ | ⟨hlt, -⟩
    · rw [he]; simp only [bind_ok]
      rw [show ({ s with mem := { s.mem with rd := s.mem.rd + 4 } } : State) = skipped s 4 from rfl,
        ih (skipped s 4) (by simp; omega), skipped_skipped, show 4 + 4 * n = 4 * (n + 1) by omega]
    · omega

/-! ### The end of one request (R242) -/

/-- A completed request with others to come. -/
theorem runRequest_ok {body : State → Res Byte} {s t : State} (hd : s.work.draining = false)
    (hb : body s = .ok ackOk t) (hl : 2 ≤ t.work.left) : runRequest body s = .next { t with
      work := { t.work with lastAck := 1#8, completed := t.work.completed + 1#8, left := t.work.left - 1 }
      phase := .request } := by
  unfold runRequest nextRequest
  rw [if_neg (by simp [hd]), hb]
  simp only [bind_ok, recordResult, if_true]
  rw [if_neg (by omega)]
  rfl

/-- A failed request with others to come, which will be drained. -/
theorem runRequest_failed {body : State → Res Byte} {s t : State} {r : Byte} (hd : s.work.draining = false)
    (hb : body s = .ok r t) (hr : r ≠ ackOk) (hl : 2 ≤ t.work.left) : runRequest body s = .next { t with
      work := { t.work with lastAck := r, draining := true, left := t.work.left - 1 }, phase := .request } := by
  unfold runRequest nextRequest
  rw [if_neg (by simp [hd]), hb]
  simp only [bind_ok, recordResult, if_neg hr]
  rw [if_neg (by omega)]
  rfl

/-- The last request: the epilogue follows. -/
theorem runRequest_last {body : State → Res Byte} {s t : State} {r : Byte} (hd : s.work.draining = false)
    (hb : body s = .ok r t) (hl : t.work.left = 1) : runRequest body s = (epilogue { t with
      work := if r = ackOk then { t.work with lastAck := r, completed := t.work.completed + 1#8, left := 0 }
        else { t.work with lastAck := r, draining := true, left := 0 } }).outcome := by
  unfold runRequest nextRequest
  rw [if_neg (by simp [hd]), hb]
  simp only [bind_ok, recordResult]
  split <;> rw [if_pos (by simp [hl])] <;> simp [hl]

/-- A last request that failed: the epilogue runs without a trailer. -/
theorem runRequest_lastFailed {body : State → Res Byte} {s t : State} {r : Byte} (hd : s.work.draining = false)
    (hb : body s = .ok r t) (hr : r ≠ ackOk) (hl : t.work.left = 1) : runRequest body s =
      .next (endCommand (respPatch t.work.slotAck [r] (respPatch t.work.slotCompleted [t.work.completed]
        { t with work := { t.work with lastAck := r, draining := true, left := 0 } }))) := by
  rw [runRequest_last hd hb hl]
  unfold epilogue trailer
  simp only [if_neg hr, bind_ok, outcome_ok]

/-- A plain request is a read or a write of a register's port request. -/
theorem plainRequest_cases {i : Instr} {req : Byte} {w : Word} (h : plainRequest i = some (req, w)) :
    (∃ ap a, req = portRequest ap true a ∧ w = 0#32 ∧ ∀ s, exec i s = runRequest (readRequest req none) s) ∨
    (∃ ap a, req = portRequest ap false a ∧ ∀ s, exec i s = runRequest (writeRequest req w) s) := by
  have dr (a : RegAddr) : 0x02#8 ||| (a.zeroExtend 8 <<< 2) = portRequest false true a := by revert a; decide
  have ar (a : RegAddr) : 0x03#8 ||| (a.zeroExtend 8 <<< 2) = portRequest true true a := by revert a; decide
  have dw (a : RegAddr) : (a.zeroExtend 8 <<< 2) = portRequest false false a := by revert a; decide
  have aw (a : RegAddr) : 0x01#8 ||| (a.zeroExtend 8 <<< 2) = portRequest true false a := by revert a; decide
  cases i <;> simp only [plainRequest, Option.some.injEq, Prod.mk.injEq, reduceCtorEq] at h
  case dpR a => obtain ⟨rfl, rfl⟩ := h; exact .inl ⟨false, a, dr a, rfl, fun s => by rw [dr a]; rfl⟩
  case apR a => obtain ⟨rfl, rfl⟩ := h; exact .inl ⟨true, a, ar a, rfl, fun s => by rw [ar a]; rfl⟩
  case dpW a v => obtain ⟨rfl, rfl⟩ := h; exact .inr ⟨false, a, dw a, fun s => by rw [dw a]; rfl⟩
  case apW a v => obtain ⟨rfl, rfl⟩ := h; exact .inr ⟨true, a, aw a, fun s => by rw [aw a]; rfl⟩

/-! ### Match polls (R247) -/

/-- A poll that matches. -/
theorem pollLoop_match {req : Byte} {mv : Word} {s t : State} {v : Word} (n : Nat)
    (h : transferRetry req 0#32 s = .ok (ackOk, v) t) (hm : v &&& t.driver.matchMask = mv) :
    pollLoop req mv n s = .ok ackOk t := by
  cases n <;> simp [pollLoop, h, hm]

/-- A poll that does not match, with polls left. -/
theorem pollLoop_mismatch {req : Byte} {mv : Word} {s t : State} {v : Word} (n : Nat)
    (h : transferRetry req 0#32 s = .ok (ackOk, v) t) (hm : v &&& t.driver.matchMask ≠ mv) :
    pollLoop req mv (n + 1) s = pollLoop req mv n t := by
  simp [pollLoop, h, hm]

/-- The last poll, which does not match. -/
theorem pollLoop_exhausted {req : Byte} {mv : Word} {s t : State} {v : Word}
    (h : transferRetry req 0#32 s = .ok (ackOk, v) t) (hm : v &&& t.driver.matchMask ≠ mv) :
    pollLoop req mv 0 s = .ok 0x11#8 t := by
  simp [pollLoop, h, hm, ackOk, resultMismatch]

/-! ### A Transfer Block (R260) -/

/-- The state a block's body runs in: code and slots written, the IR cache empty. -/
def blockStart (s : State) : State :=
  { s with mem := { s.mem with resp := s.mem.resp ++ [0x06#8] ++ [0#8, 0#8] ++ [0#8] }
           work := { s.work with irCache := none } }

theorem overwrite_slots (l m : List Byte) (c : Half) (r : Byte) :
    overwrite (l.length + 3) [r]
        (overwrite (l.length + 1) (bytes16 c) (l ++ [0x06#8] ++ [0#8, 0#8] ++ [0#8] ++ m)) =
      l ++ [0x06#8] ++ bytes16 c ++ [r] ++ m := by
  have e1 := overwrite_append (l := l ++ [0x06#8]) (old := [0#8, 0#8]) (bs := bytes16 c) (m := [0#8] ++ m) rfl
  have e2 := overwrite_append (l := l ++ [0x06#8] ++ bytes16 c) (old := [0#8]) (bs := [r]) (m := m) rfl
  simp [bytes16] at e1 e2 ⊢
  rw [e1, e2]

/-- A block whose body ends with a result: the slots take the count and the code, and the command ends. -/
theorem runBlock_of_body {req r : Byte} {s u : State} {c : Half} {m : List Byte} (hf : Fits s 4)
    (hb : blockBody req (blockStart s) = .ok (r, c) u) (hm : u.mem.resp = (blockStart s).mem.resp ++ m) :
    ∃ t, runBlock req s = .next t ∧
      t.mem = { u.mem with resp := s.mem.resp ++ [0x06#8] ++ bytes16 c ++ [r] ++ m } ∧
      QuietFrame u t ∧ t.driver = u.driver ∧ t.work = Work.initial ∧ (u.batch = none → t.phase = .respond) := by
  have h : runBlock req s = .next
      (endCommand (respPatch (s.mem.resp.length + 3) [r] (respPatch (s.mem.resp.length + 1) (bytes16 c) u))) := by
    unfold runBlock respReserve
    unfold Fits at hf
    rw [respWrite_fits (by simp; omega)]
    simp only [bind_ok]
    rw [respWrite_fits (by simp; omega)]
    simp only [bind_ok]
    rw [respWrite_fits (by simp; omega)]
    simp only [bind_ok]
    simp only [List.replicate_succ, List.replicate_zero]
    unfold blockStart at hb
    rw [hb]
    simp
  refine ⟨_, h, ?_, ?_, ?_, ?_, ?_⟩
  · have := overwrite_slots s.mem.resp m c r
    have e : u.mem.resp = s.mem.resp ++ [0x06#8] ++ [0#8, 0#8] ++ [0#8] ++ m := hm
    rw [← e] at this
    rw [← this]
    unfold endCommand; split <;> rfl
  · unfold endCommand; split <;> constructor <;> rfl
  · unfold endCommand; split <;> rfl
  · unfold endCommand; split <;> rfl
  · intro hb; unfold endCommand; simp [hb]

/-- The words of a read block on SWD that are answered OK, with `k` reads to come (one at least where the last is
RDBUFF). -/
theorem blockReadLoop_swdOk {req : Byte} {posted : Bool} {k : Nat} {vs : List Word} {rest : List Bool} (s : State) (p : Pins)
    (tr : List Cycle) (ta : List Tap) (i : Input) (f : Nat) (c : Half) (hk : posted = true → 1 ≤ k)
    (hp : s.driver.port = .swd) (hr : req.getLsbD 1 = true) (hd : i.dirFail = none) (hf : Fits s (4 * vs.length))
    (hq : i.swdio = vs.flatMap swdOkRead ++ rest) : ∃ p' m,
      blockReadLoop req posted (vs.length + k) c (onWire s p tr ta i f) =
        blockReadLoop req posted k (c + BitVec.ofNat 16 vs.length) (onWire (grown s (vs.flatMap bytes32)) p'
          (tr ++ vs.flatMap fun x => readPacket s.driver req x (dataParity x)) ta (i.swdioLeft rest m) f) := by
  induction vs generalizing s p tr i c with
  | nil =>
    refine ⟨p, 0, ?_⟩
    have := swdioLeft_none (show i.swdio = rest by simpa using hq)
    simp [this]
  | cons v vs ih =>
    have hrq : (if posted && (vs.length + k) == 0 then Config.rdbuffRead else req) = req := by
      rw [if_neg]
      intro h
      simp at h
      have := hk h.1
      omega
    obtain ⟨p1, -, -, h1⟩ := transferRetry_swdOkRead (s := s) p tr ta i f (w := 0#32)
      (rest := vs.flatMap swdOkRead ++ rest) hp hr hd (by simpa using hq)
    obtain ⟨p', m, h2⟩ := ih (grown s (bytes32 v)) p1 (tr ++ readPacket s.driver req v (dataParity v))
      (i.swdioLeft (vs.flatMap swdOkRead ++ rest) 36) (c + 1#16) hp hd
      (grown_fits (by simpa [Nat.mul_add, Nat.add_comm] using hf)) rfl
    refine ⟨p', 36 + m, ?_⟩
    rw [List.length_cons, show vs.length + 1 + k = vs.length + k + 1 by omega]
    simp only [blockReadLoop]
    rw [hrq, h1]
    simp only [bind_ok, if_true]
    rw [respWrite4_onWire _ _ _ _ _ _ _ (by unfold Fits at *; simp at hf; omega)]
    simp only [bind_ok]
    rw [h2]
    simp
    rw [Nat.add_comm vs.length 1, BitVec.ofNat_add, ← BitVec.add_assoc]

/-- A read of a block on SWD that fails: the block ends there. -/
theorem blockReadLoop_swdFails {req code : Byte} {posted : Bool} {n : Nat} {bad rest : List Bool} {cs : List Cycle}
    (s : State) (p : Pins) (tr : List Cycle) (ta : List Tap) (i : Input) (f : Nat) (c : Half) (hp : s.driver.port = .swd)
    (hd : i.dirFail = none)
    (h : SwdFails s.driver (if posted && n == 0 then 0x0e#8 else req) s.driver.waitRetry.toNat bad cs code)
    (hq : i.swdio = bad ++ rest) : ∃ p' m f', p'.swdioOe = .high ∧ p'.swdioOut = .high ∧
      blockReadLoop req posted (n + 1) c (onWire s p tr ta i f) =
        .ok (code, c) (onWire s p' (tr ++ cs) ta (i.swdioLeft rest m) f') := by
  obtain ⟨p', m, f', d, h1, h2, h3⟩ := transferRetry_swdFails p tr ta i f (w := 0#32) hp hd h hq
  refine ⟨p', m, f', h1, h2, ?_⟩
  simp only [blockReadLoop, Config.rdbuffRead]
  rw [h3]
  simp only [bind_ok]
  exact if_neg h.code_ne

/-- The words of a write block on SWD that are answered OK, with `k` writes to come. -/
theorem blockWriteLoop_swdOk {req : Byte} {k : Nat} {ws : List Word} {more : List Byte} {rest : List Bool} (s : State)
    (p : Pins) (tr : List Cycle) (ta : List Tap) (i : Input) (f : Nat) (c : Half) (hp : s.driver.port = .swd)
    (hr : req.getLsbD 1 = false) (hd : i.dirFail = none) (hm : s.mem.req.drop s.mem.rd = ws.flatMap bytes32 ++ more)
    (hq : i.swdio = (ws.flatMap fun _ => swdOkWrite) ++ rest) : ∃ p' m f',
      blockWriteLoop req (ws.length + k) c (onWire s p tr ta i f) =
        blockWriteLoop req k (c + BitVec.ofNat 16 ws.length) (onWire (skipped s (4 * ws.length)) p'
          (tr ++ ws.flatMap fun w => writePacket s.driver req w) ta (i.swdioLeft rest m) f') := by
  induction ws generalizing s p tr i f c with
  | nil =>
    refine ⟨p, 0, f, ?_⟩
    have := swdioLeft_none (show i.swdio = rest by simpa using hq)
    simp [this]
  | cons w ws ih =>
    have h0 := reqRead4_onWire s p tr ta i f (w := w) (more := ws.flatMap bytes32 ++ more) (by simpa using hm)
    obtain ⟨p1, -, -, h1⟩ := transferRetry_swdWrite (s := skipped s 4) p tr ta i f (w := w)
      (rest := (ws.flatMap fun _ => swdOkWrite) ++ rest) hp hr hd (by simpa using hq)
    obtain ⟨p', m, f', h2⟩ := ih (skipped s 4) p1 (tr ++ writePacket s.driver req w)
      (i.swdioLeft ((ws.flatMap fun _ => swdOkWrite) ++ rest) 3) (f + 1) (c + 1#16) hp hd
      (drop_skipped (by simpa using hm)) rfl
    refine ⟨p', 3 + m, f', ?_⟩
    rw [List.length_cons, show ws.length + 1 + k = ws.length + k + 1 by omega]
    simp only [blockWriteLoop]
    rw [h0]
    simp only [bind_ok]
    rw [h1]
    simp only [bind_ok, if_true]
    simp only [skipped_driver] at h2 ⊢
    rw [h2, skipped_skipped, show 4 + 4 * ws.length = 4 * (ws.length + 1) by omega]
    simp
    rw [Nat.add_comm ws.length 1, BitVec.ofNat_add, ← BitVec.add_assoc]

/-- The words of a posted read block on JTAG that are answered OK, with the RDBUFF read to come. -/
theorem blockReadLoop_jtagOk {req : Byte} {vs : List Word} {ys : List Access} {ans rest : List Bool} (s : State) (p : Pins)
    (tr : List Cycle) (ta : List Tap) (i : Input) (f : Nat) (c : Half) (hp : s.driver.port = .jtag)
    (hidx : s.driver.index.toNat < s.driver.chain.length) (hf : Fits s (4 * vs.length))
    (h : JtagAnswers s.driver s.work.irCache (vs.map (fun x => ⟨req, 0#32, x⟩) ++ ys) ans) (hq : i.tdo = ans ++ rest) :
    ∃ p' ta' m more cs ir, JtagAnswers s.driver ir ys more ∧
      jtagRecords (jtagLinesOf s.driver s.work.irCache (vs.map (fun x => ⟨req, 0#32, x⟩) ++ ys)) ans s.driver.halfDelay =
        cs ++ jtagRecords (jtagLinesOf s.driver ir ys) more s.driver.halfDelay ∧
      blockReadLoop req true (vs.length + 1) c (onWire s p tr ta i f) =
        blockReadLoop req true 1 (c + BitVec.ofNat 16 vs.length) (onWire (holding (grown s (vs.flatMap bytes32)) ir) p'
          (tr ++ cs) ta' (i.tdoLeft (more ++ rest) m) f) := by
  induction vs generalizing s p tr ta i c ans with
  | nil =>
    refine ⟨p, ta, 0, ans, [], s.work.irCache, h, by simp, ?_⟩
    have := tdoLeft_none hq
    simp [this, holding_self]
  | cons v vs ih =>
    obtain ⟨more, cs, p1, ta1, n1, h1, hm, hrec⟩ := transferRetry_jtagAnswered s p tr ta i f (x := ⟨req, 0#32, v⟩)
      (xs := vs.map (fun x => ⟨req, 0#32, x⟩) ++ ys) (ans := ans) hp hidx (by simpa using h) hq
    obtain ⟨p', ta', m, more2, cs2, ir, hm2, hrec2, h2⟩ := ih (holding (grown s (bytes32 v)) (some (spaceOf req))) p1
      (tr ++ cs) ta1 (i.tdoLeft (more ++ rest) n1) (c + 1#16) (ans := more) hp hidx
      (by unfold Fits at *; simp at *; omega) hm rfl
    refine ⟨p', ta', n1 + m, more2, cs ++ cs2, ir, hm2, hrec.trans (by rw [List.append_assoc]; congr 1), ?_⟩
    have u : blockReadLoop req true (vs.length + 1 + 1) c (onWire s p tr ta i f) =
        blockReadLoop req true (vs.length + 1) (c + 1#16) (onWire (holding (grown s (bytes32 v)) (some (spaceOf req))) p1
          (tr ++ cs) ta1 (i.tdoLeft (more ++ rest) n1) f) := by
      rw [blockReadLoop, if_neg (by simp), h1]
      simp only [bind_ok, if_true]
      rw [respWrite4_onWire _ _ _ _ _ _ _ (by unfold Fits at *; simp at *; omega)]
      rfl
    rw [List.length_cons, u, h2]
    have e : holding (grown (holding (grown s (bytes32 v)) (some (spaceOf req))) (vs.flatMap bytes32)) ir =
        holding (grown s ((v :: vs).flatMap bytes32)) ir := by simp [holding, grown]
    rw [e]
    simp
    rw [Nat.add_comm vs.length 1, BitVec.ofNat_add, ← BitVec.add_assoc]

/-- The words of a write block on JTAG that are answered OK, with the RDBUFF read to come. -/
theorem blockWriteLoop_jtagOk {req : Byte} {ws : List (Word × Word)} {ys : List Access} {ans rest : List Bool}
    {more : List Byte} (s : State) (p : Pins) (tr : List Cycle) (ta : List Tap) (i : Input) (f : Nat) (c : Half)
    (hp : s.driver.port = .jtag) (hidx : s.driver.index.toNat < s.driver.chain.length)
    (hm : s.mem.req.drop s.mem.rd = (ws.flatMap fun x => bytes32 x.1) ++ more)
    (h : JtagAnswers s.driver s.work.irCache (ws.map (fun x => ⟨req, x.1, x.2⟩) ++ ys) ans) (hq : i.tdo = ans ++ rest) :
    ∃ p' ta' m left cs ir, JtagAnswers s.driver ir ys left ∧
      jtagRecords (jtagLinesOf s.driver s.work.irCache (ws.map (fun x => ⟨req, x.1, x.2⟩) ++ ys)) ans s.driver.halfDelay =
        cs ++ jtagRecords (jtagLinesOf s.driver ir ys) left s.driver.halfDelay ∧
      blockWriteLoop req ws.length c (onWire s p tr ta i f) =
        blockWriteLoop req 0 (c + BitVec.ofNat 16 ws.length) (onWire (holding (skipped s (4 * ws.length)) ir) p'
          (tr ++ cs) ta' (i.tdoLeft (left ++ rest) m) f) := by
  induction ws generalizing s p tr ta i c ans with
  | nil =>
    refine ⟨p, ta, 0, ans, [], s.work.irCache, h, by simp, ?_⟩
    have := tdoLeft_none hq
    simp [this, holding_self]
  | cons v vs ih =>
    have h0 := reqRead4_onWire s p tr ta i f (w := v.1) (more := (vs.flatMap fun x => bytes32 x.1) ++ more)
      (by simpa using hm)
    obtain ⟨left1, cs, p1, ta1, n1, h1, hm1, hrec⟩ := transferRetry_jtagAnswered (skipped s 4) p tr ta i f
      (x := ⟨req, v.1, v.2⟩) (xs := vs.map (fun x => ⟨req, x.1, x.2⟩) ++ ys) (ans := ans) hp hidx (by simpa using h) hq
    obtain ⟨p', ta', m, left2, cs2, ir, hm2, hrec2, h2⟩ := ih (holding (skipped s 4) (some (spaceOf req))) p1 (tr ++ cs)
      ta1 (i.tdoLeft (left1 ++ rest) n1) (c + 1#16) (ans := left1) hp hidx (drop_skipped (by simpa using hm)) hm1 rfl
    refine ⟨p', ta', n1 + m, left2, cs ++ cs2, ir, hm2, hrec.trans (by rw [List.append_assoc]; congr 1), ?_⟩
    have u : blockWriteLoop req (vs.length + 1) c (onWire s p tr ta i f) = blockWriteLoop req vs.length (c + 1#16)
        (onWire (holding (skipped s 4) (some (spaceOf req))) p1 (tr ++ cs) ta1 (i.tdoLeft (left1 ++ rest) n1) f) := by
      rw [blockWriteLoop, h0]
      simp only [bind_ok]
      rw [h1]
      simp only [bind_ok, if_true]
    rw [List.length_cons, u, h2]
    have e : holding (skipped (holding (skipped s 4) (some (spaceOf req))) (4 * vs.length)) ir =
        holding (skipped s (4 * (vs.length + 1))) ir := by
      simp [holding, skipped]; omega
    rw [e]
    simp
    rw [Nat.add_comm vs.length 1, BitVec.ofNat_add, ← BitVec.add_assoc]

end Sys2Proof.Machine
end

