-- ==== Sys2Proof/Laws/Course.lean ====
section
/-! SUPPORT. How a request of a Transfer runs on either port when its transfers' answers are known: one lemma for each part
of a request, in which the answers are taken from the front of a course of transfers. -/

namespace Sys2Proof.Machine

/-! ### Courses -/

/-- The transfers `xs` are answered OK and then, where `f` names a request byte and a code, a transfer of it fails. -/
def Course (s : State) (xs : List Access) (f : Option (Byte × Byte)) (cs : List Cycle) (rest : List Bool) : Prop :=
  match f with
  | none => Answers s xs cs rest
  | some r => AnswersThenFails s xs r.1 r.2 cs rest

/-- What the IR holds after a transfer of `req`: on SWD there is no IR. -/
def irMove (s : State) (req : Byte) : Option IrSel := if s.driver.port = .jtag then some (spaceOf req) else s.work.irCache

/-- `t` is `s` but for the wire side and the IR's content; `cs` are the records it left. -/
def Wired (s t : State) (ir : Option IrSel) (cs : List Cycle) : Prop :=
  ∃ p ta i f, t = onWire (holding s ir) p (s.trace ++ cs) ta i f

theorem Wired.self (s : State) : Wired s s s.work.irCache [] :=
  ⟨s.pins, s.taps, s.input, s.free, by rw [List.append_nil]; rfl⟩

theorem Wired.trans {s t u : State} {ir ir' : Option IrSel} {cs cs' : List Cycle} (h : Wired s t ir cs)
    (k : Wired t u ir' cs') : Wired s u ir' (cs ++ cs') := by
  obtain ⟨p, ta, i, f, rfl⟩ := h
  obtain ⟨p', ta', i', f', rfl⟩ := k
  exact ⟨p', ta', i', f', by rw [← List.append_assoc]; rfl⟩

section
variable {s t : State} {ir : Option IrSel} {cs : List Cycle} (h : Wired s t ir cs)
include h

theorem Wired.driver : t.driver = s.driver := by obtain ⟨p, ta, i, f, rfl⟩ := h; rfl
theorem Wired.mem : t.mem = s.mem := by obtain ⟨p, ta, i, f, rfl⟩ := h; rfl
theorem Wired.work : t.work = { s.work with irCache := ir } := by obtain ⟨p, ta, i, f, rfl⟩ := h; rfl
theorem Wired.trace : t.trace = s.trace ++ cs := by obtain ⟨p, ta, i, f, rfl⟩ := h; rfl
theorem Wired.batch : t.batch = s.batch := by obtain ⟨p, ta, i, f, rfl⟩ := h; rfl
theorem Wired.params : t.params = s.params := by obtain ⟨p, ta, i, f, rfl⟩ := h; rfl
theorem Wired.ret : t.ret = s.ret := by obtain ⟨p, ta, i, f, rfl⟩ := h; rfl

theorem Wired.setPostRead (b : Bool) : Wired (setPostRead b s) (setPostRead b t) ir cs := by
  obtain ⟨p, ta, i, f, rfl⟩ := h; exact ⟨p, ta, i, f, rfl⟩

theorem Wired.setCheckWrite (b : Bool) : Wired (setCheckWrite b s) (setCheckWrite b t) ir cs := by
  obtain ⟨p, ta, i, f, rfl⟩ := h; exact ⟨p, ta, i, f, rfl⟩

theorem Wired.grown (bs : List Byte) : Wired (grown s bs) (grown t bs) ir cs := by
  obtain ⟨p, ta, i, f, rfl⟩ := h; exact ⟨p, ta, i, f, rfl⟩

theorem Wired.withWork (w : Work) : Wired { s with work := w } { t with work := w } w.irCache cs := by
  obtain ⟨p, ta, i, f, rfl⟩ := h; exact ⟨p, ta, i, f, rfl⟩

theorem Wired.withMask (m : Word) : Wired { s with driver := { s.driver with matchMask := m } }
    { t with driver := { t.driver with matchMask := m } } ir cs := by
  obtain ⟨p, ta, i, f, rfl⟩ := h; exact ⟨p, ta, i, f, rfl⟩

theorem Wired.fits {n : Nat} (hf : Fits s n) : Fits t n := by
  unfold Fits at *; rw [h.mem, h.params]; exact hf

end

/-- A course is read off the driver, the IR's content and the inputs. -/
theorem Course.congr {s t : State} {xs : List Access} {f : Option (Byte × Byte)} {cs : List Cycle} {rest : List Bool}
    (hd : t.driver = s.driver) (hw : t.work.irCache = s.work.irCache) (hi : t.input = s.input) :
    Course t xs f cs rest ↔ Course s xs f cs rest := by
  unfold Course Answers AnswersThenFails
  rw [hd, hw, hi]

theorem Course.port {s : State} {xs : List Access} {f : Option (Byte × Byte)} {cs : List Cycle} {rest : List Bool}
    (h : Course s xs f cs rest) : s.driver.port = .swd ∨ s.driver.port = .jtag := by
  unfold Course Answers AnswersThenFails at h
  cases hp : s.driver.port <;> simp [hp] at h ⊢
  cases f <;> exact h

theorem irMove_wired {s t : State} {ir : Option IrSel} {cs : List Cycle} (h : Wired s t ir cs) (req : Byte) :
    irMove t req = if s.driver.port = .jtag then some (spaceOf req) else ir := by
  unfold irMove; rw [h.driver, h.work]

theorem swdAnswersOf_cons (x : Access) (xs : List Access) : swdAnswersOf (x :: xs) =
    (if x.req.getLsbD 1 = true then swdOkRead x.answer else swdOkWrite) ++ swdAnswersOf xs := rfl

theorem swdRecordsOf_one (d : Driver) (x : Access) : swdRecordsOf d [x] =
    if x.req.getLsbD 1 = true then readPacket d x.req x.answer (dataParity x.answer) else writePacket d x.req x.word :=
  List.append_nil _

/-- The first transfer of a course is answered OK, and the rest of the course is to come. -/
theorem Course.first {s : State} {x : Access} {xs : List Access} {f : Option (Byte × Byte)} {cs : List Cycle}
    {rest : List Bool} (h : Course s (x :: xs) f cs rest) : ∃ t c cs' d,
      transferRetry x.req x.word s = .ok (ackOk, d) t ∧ (x.req.getLsbD 1 = true → d = x.answer) ∧ cs = c ++ cs' ∧
        Wired s t (irMove s x.req) c ∧ Course t xs f cs' rest := by
  rcases h.port with hp | hp
  · have hm : irMove s x.req = s.work.irCache := by unfold irMove; rw [hp]; rfl
    have key : ∀ more, s.input.dirFail = none → s.input.swdio = swdAnswersOf (x :: xs) ++ more →
        ∃ t d, transferRetry x.req x.word s = .ok (ackOk, d) t ∧ (x.req.getLsbD 1 = true → d = x.answer) ∧
          Wired s t (irMove s x.req) (swdRecordsOf s.driver [x]) ∧ t.input.dirFail = none ∧
            t.input.swdio = swdAnswersOf xs ++ more := by
      intro more hd hq
      rw [hm]
      cases hr : x.req.getLsbD 1 with
      | true =>
        obtain ⟨p', -, -, h1⟩ := transferRetry_swdOkRead s.pins s.trace s.taps s.input s.free (w := x.word) (v := x.answer)
          (rest := swdAnswersOf xs ++ more) hp hr hd (by rw [hq, swdAnswersOf_cons, if_pos hr, List.append_assoc])
        rw [onWire_self] at h1
        exact ⟨_, _, h1, fun _ => rfl, ⟨p', _, _, _, by rw [swdRecordsOf_one, if_pos hr]; rfl⟩, hd, rfl⟩
      | false =>
        obtain ⟨p', -, -, h1⟩ := transferRetry_swdWrite s.pins s.trace s.taps s.input s.free (w := x.word)
          (rest := swdAnswersOf xs ++ more) hp hr hd
          (by rw [hq, swdAnswersOf_cons, if_neg (hr ▸ Bool.false_ne_true), List.append_assoc])
        rw [onWire_self] at h1
        exact ⟨_, _, h1, by simp, ⟨p', _, _, _, by rw [swdRecordsOf_one, if_neg (hr ▸ Bool.false_ne_true)]; rfl⟩, hd, rfl⟩
    have hsplit : swdRecordsOf s.driver (x :: xs) = swdRecordsOf s.driver [x] ++ swdRecordsOf s.driver xs := by
      simp [swdRecordsOf]
    cases f with
    | none =>
      simp only [Course, Answers, hp] at h
      obtain ⟨hd, hq, rfl⟩ := h
      obtain ⟨t, d, h1, h2, h3, h4, h5⟩ := key rest hd hq
      exact ⟨t, _, _, d, h1, h2, hsplit, h3, by simp only [Course, Answers, h3.driver, hp]; exact ⟨h4, h5, trivial⟩⟩
    | some r =>
      simp only [Course, AnswersThenFails, hp] at h
      obtain ⟨hd, bad, bs, hb, hq, rfl⟩ := h
      obtain ⟨t, d, h1, h2, h3, h4, h5⟩ := key (bad ++ rest) hd (by simpa using hq)
      refine ⟨t, _, _, d, h1, h2, by rw [hsplit, List.append_assoc], h3, ?_⟩
      simp only [Course, AnswersThenFails, h3.driver, hp]
      exact ⟨h4, bad, bs, hb, by simpa using h5, rfl⟩
  · have hm : irMove s x.req = some (spaceOf x.req) := by unfold irMove; rw [hp]; rfl
    rw [hm]
    cases f with
    | none =>
      simp only [Course, Answers, hp] at h
      obtain ⟨hidx, ans, ha, hq, rfl⟩ := h
      obtain ⟨more, c, p', ta', n, h1, h2, h3⟩ := transferRetry_jtagAnswered s s.pins s.trace s.taps s.input s.free hp hidx
        ha hq
      rw [onWire_self] at h1
      refine ⟨_, c, _, _, h1, fun _ => rfl, h3, ⟨p', ta', _, _, rfl⟩, ?_⟩
      simp only [Course, Answers, onWire_driver, holding_driver, hp]
      exact ⟨hidx, more, h2, rfl, rfl⟩
    | some r =>
      simp only [Course, AnswersThenFails, hp] at h
      obtain ⟨hidx, ans, bad, bs, ha, hb, hq, rfl⟩ := h
      obtain ⟨more, c, p', ta', n, h1, h2, h3⟩ := transferRetry_jtagAnswered s s.pins s.trace s.taps s.input s.free
        (rest := bad ++ rest) hp hidx ha (by simpa using hq)
      rw [onWire_self] at h1
      refine ⟨_, c, _, _, h1, fun _ => rfl, by rw [h3, List.append_assoc], ⟨p', ta', _, _, rfl⟩, ?_⟩
      simp only [Course, AnswersThenFails, onWire_driver, holding_driver, hp]
      exact ⟨hidx, more, bad, bs, h2, hb, by simp, rfl⟩

/-- The end of a course whose last transfer fails. -/
theorem Course.fails {s : State} {req code : Byte} {cs : List Cycle} {rest : List Bool} (w : Word)
    (h : Course s [] (some (req, code)) cs rest) : ∃ t d, transferRetry req w s = .ok (code, d) t ∧ code ≠ ackOk ∧
      Wired s t (irMove s req) cs ∧ queue t = rest := by
  rcases h.port with hp | hp
  · have hm : irMove s req = s.work.irCache := by unfold irMove; rw [hp]; rfl
    simp only [Course, AnswersThenFails, hp] at h
    obtain ⟨hd, bad, bs, hb, hq, rfl⟩ := h
    obtain ⟨p', m, f', d, -, -, h1⟩ := transferRetry_swdFails s.pins s.trace s.taps s.input s.free (w := w) hp hd hb
      (by simpa [swdAnswersOf] using hq)
    rw [onWire_self] at h1
    exact ⟨_, d, h1, hb.code_ne, ⟨p', _, _, _, by rw [hm]; rfl⟩, by simp [queue, hp]⟩
  · have hm : irMove s req = some (spaceOf req) := by unfold irMove; rw [hp]; rfl
    simp only [Course, AnswersThenFails, hp] at h
    obtain ⟨hidx, ans, bad, bs, ha, hb, hq, rfl⟩ := h
    obtain rfl : ans = [] := ha
    obtain ⟨p', ta', m, f', d, h1⟩ := transferRetry_jtagFails s s.pins s.trace s.taps s.input s.free (w := w) hp hidx hb
      (by simpa using hq)
    rw [onWire_self] at h1
    exact ⟨_, d, h1, hb.code_ne, ⟨p', ta', _, _, by rw [hm]; rfl⟩, by simp [queue, hp]⟩

/-- The end of a course that is answered OK. -/
theorem Course.done {s : State} {cs : List Cycle} {rest : List Bool} (h : Course s [] none cs rest) :
    cs = [] ∧ queue s = rest := by
  rcases h.port with hp | hp
  · simp only [Course, Answers, hp] at h
    obtain ⟨-, hq, rfl⟩ := h
    exact ⟨rfl, by simpa [queue, hp, swdAnswersOf] using hq⟩
  · simp only [Course, Answers, hp] at h
    obtain ⟨-, ans, ha, hq, rfl⟩ := h
    obtain rfl : ans = [] := ha
    exact ⟨rfl, by simpa [queue, hp] using hq⟩

/-! ### The match mask is no matter of the wire -/

theorem swdFails_mask (d : Driver) (m : Word) (req code : Byte) (n : Nat) (ans : List Bool) (cs : List Cycle) :
    SwdFails { d with matchMask := m } req n ans cs code = SwdFails d req n ans cs code := by
  induction n generalizing ans cs with
  | zero => rfl
  | succ n ih => simp only [SwdFails, ih]; rfl

theorem jtagFails_mask (d : Driver) (m : Word) (req code : Byte) (n : Nat) (ir : Option IrSel) (ans : List Bool)
    (cs : List (Bool × Bool)) :
    JtagFails { d with matchMask := m } req n ir ans cs code = JtagFails d req n ir ans cs code := by
  induction n generalizing ir ans cs with
  | zero => rfl
  | succ n ih => simp only [JtagFails, ih]; rfl

theorem jtagAnswers_mask (d : Driver) (m : Word) (ir : Option IrSel) (xs : List Access) (ans : List Bool) :
    JtagAnswers { d with matchMask := m } ir xs ans = JtagAnswers d ir xs ans := by
  induction xs generalizing ir ans with
  | nil => rfl
  | cons x xs ih => simp only [JtagAnswers, ih]; rfl

theorem jtagLinesOf_mask (d : Driver) (m : Word) (ir : Option IrSel) (xs : List Access) :
    jtagLinesOf { d with matchMask := m } ir xs = jtagLinesOf d ir xs := by
  induction xs generalizing ir with
  | nil => rfl
  | cons x xs ih => simp only [jtagLinesOf, ih]; rfl

theorem swdRecordsOf_mask (d : Driver) (m : Word) (xs : List Access) :
    swdRecordsOf { d with matchMask := m } xs = swdRecordsOf d xs := rfl

theorem Course.withMask {s : State} {xs : List Access} {f : Option (Byte × Byte)} {cs : List Cycle} {rest : List Bool}
    (m : Word) (h : Course s xs f cs rest) :
    Course { s with driver := { s.driver with matchMask := m } } xs f cs rest := by
  unfold Course Answers AnswersThenFails at *
  simp only [swdFails_mask, jtagFails_mask, jtagAnswers_mask, jtagLinesOf_mask, swdRecordsOf_mask]
  exact h

/-! ### Words collected -/

theorem onOk_ok (s : State) (k : State → Res Byte) : onOk ackOk s k = k s := if_pos rfl

theorem onOk_ne {r : Byte} (s : State) (k : State → Res Byte) (h : r ≠ ackOk) : onOk r s k = .ok r s := if_neg h

theorem writeCollected_ok {v : Word} {s : State} (h : Fits s 4) :
    writeCollected (ackOk, v) s = .ok ackOk (grown s (bytes32 v)) := by
  have := respWrite4_onWire s s.pins s.trace s.taps s.input s.free v h
  rw [onWire_self] at this
  simp only [writeCollected, onOk_ok, this, bind_ok]
  rfl

theorem writeCollected_ne {r : Byte} {v : Word} {s : State} (h : r ≠ ackOk) : writeCollected (r, v) s = .ok r s :=
  onOk_ne _ _ h

/-- A word is collected through a transfer of `req` that returns it. -/
theorem collectSame_course {s : State} {req : Byte} {v : Word} {xs : List Access} {f : Option (Byte × Byte)}
    {cs : List Cycle} {rest : List Bool} (h : Course s (⟨req, 0#32, v⟩ :: xs) f cs rest) (hr : req.getLsbD 1 = true)
    (hf : Fits s 4) : ∃ t c cs', collectSame req s = .ok ackOk t ∧ cs = c ++ cs' ∧
      Wired (grown s (bytes32 v)) t (irMove s req) c ∧ Course t xs f cs' rest := by
  obtain ⟨t, c, cs', d, h1, h2, h3, h4, h5⟩ := h.first
  refine ⟨grown t (bytes32 v), c, cs', ?_, h3, h4.grown _, (Course.congr rfl rfl rfl).mpr h5⟩
  simp only [collectSame, h1, bind_ok, h2 hr]
  exact writeCollected_ok (h4.fits hf)

/-- A read's RDBUFF, which collects the outstanding word. -/
theorem collectRdbuff_course {s : State} {v : Word} {xs : List Access} {f : Option (Byte × Byte)}
    {cs : List Cycle} {rest : List Bool} (h : Course s (⟨0x0e#8, 0#32, v⟩ :: xs) f cs rest)
    (hf : Fits s 4) : ∃ t c cs', collectRdbuff s = .ok ackOk t ∧ cs = c ++ cs' ∧
      Wired (grown (setPostRead false s) (bytes32 v)) t (irMove s 0x0e#8) c ∧ Course t xs f cs' rest := by
  obtain ⟨t, c, cs', d, h1, h2, h3, h4, h5⟩ := h.first
  refine ⟨grown (setPostRead false t) (bytes32 v), c, cs', ?_, h3, (h4.setPostRead false).grown _,
    (Course.congr rfl rfl rfl).mpr h5⟩
  obtain rfl : d = v := h2 (show (0x0e#8 : Byte).getLsbD 1 = true by decide)
  simp only [collectRdbuff, Config.rdbuffRead, h1, bind_ok]
  exact writeCollected_ok ((h4.setPostRead false).fits hf)

/-- The IR's content after an outstanding read is collected through RDBUFF, where there is one. -/
def irCollected (s : State) : Option IrSel := if s.work.postRead then irMove s 0x0e#8 else s.work.irCache

/-- `s` with the outstanding read collected, where there is one: its word is `v`. -/
def collected (s : State) (v : Word) : State := grown (setPostRead false s) ((collectWords s v).flatMap bytes32)

theorem setPostRead_false {s : State} (h : s.work.postRead = false) : setPostRead false s = s := by
  unfold setPostRead; rw [← h]

theorem Wired.collected_self {s : State} (v : Word) (h : s.work.postRead = false) :
    Wired (collected s v) s (irCollected s) [] := by
  have : collected s v = s := by simp [collected, collectWords, h, setPostRead_false h]
  rw [this, irCollected, h]
  exact .self s

/-- A read collects the outstanding read through RDBUFF, where there is one and it does not collect it itself. -/
theorem collectForRead_course {s : State} {req : Byte} {mv : Option Word} {v : Word} {xs : List Access}
    {f : Option (Byte × Byte)} {cs : List Cycle} {rest : List Bool} (h : Course s (collectReads s v ++ xs) f cs rest)
    (hc : s.work.postRead = true → collectsItself req mv s = false) (hf : Fits s (4 * (collectWords s v).length)) :
    ∃ t c cs', collectForRead req mv s = .ok ackOk t ∧ cs = c ++ cs' ∧ Wired (collected s v) t (irCollected s) c ∧
      Course t xs f cs' rest := by
  cases hp : s.work.postRead with
  | false =>
    refine ⟨s, [], cs, by simp [collectForRead, hp], rfl, .collected_self v hp, ?_⟩
    simpa [collectReads, hp] using h
  | true =>
    simp only [collectReads, collectWords, hp, if_true, List.cons_append, List.nil_append] at h hf
    obtain ⟨t, c, cs', h1, h2, h3, h4⟩ := collectRdbuff_course h hf
    refine ⟨t, c, cs', ?_, h2, ?_, h4⟩
    · rw [collectForRead, if_pos hp, if_neg (by simp [hc hp])]; exact h1
    · simpa [collected, collectWords, irCollected, hp] using h3

/-- A write collects the outstanding read through RDBUFF, where there is one. -/
theorem collectForWrite_course {s : State} {v : Word} {xs : List Access}
    {f : Option (Byte × Byte)} {cs : List Cycle} {rest : List Bool} (h : Course s (collectReads s v ++ xs) f cs rest)
    (hf : Fits s (4 * (collectWords s v).length)) :
    ∃ t c cs', collectForWrite s = .ok ackOk t ∧ cs = c ++ cs' ∧ Wired (collected s v) t (irCollected s) c ∧
      Course t xs f cs' rest := by
  cases hp : s.work.postRead with
  | false =>
    refine ⟨s, [], cs, by simp [collectForWrite, hp], rfl, .collected_self v hp, ?_⟩
    simpa [collectReads, hp] using h
  | true =>
    simp only [collectReads, collectWords, hp, if_true, List.cons_append, List.nil_append] at h hf
    obtain ⟨t, c, cs', h1, h2, h3, h4⟩ := collectSame_course h (by decide) hf
    refine ⟨setPostRead false t, c, cs', ?_, h2, ?_, (Course.congr rfl rfl rfl).mpr h4⟩
    · rw [collectForWrite, if_pos hp, show Config.rdbuffRead = 0x0e#8 from rfl, h1]
      simp only [bind_ok, onOk_ok]
    · have := h3.setPostRead false
      simp only [collected, collectWords, irCollected, hp, if_true, List.flatMap_cons, List.flatMap_nil, List.append_nil]
      exact this

/-! ### Match reads -/

/-- Polls that do not match, with others to come. -/
theorem pollLoop_course {s : State} {req : Byte} {mv : Word} {vs : List Word} {xs : List Access}
    {f : Option (Byte × Byte)} {cs : List Cycle} {rest : List Bool} (n : Nat) (h : Course s (polls req vs ++ xs) f cs rest)
    (hr : req.getLsbD 1 = true) (hv : ∀ x ∈ vs, x &&& s.driver.matchMask ≠ mv) : ∃ t c cs',
      pollLoop req mv (n + vs.length) s = pollLoop req mv n t ∧ cs = c ++ cs' ∧
        Wired s t (if vs = [] then s.work.irCache else irMove s req) c ∧ Course t xs f cs' rest := by
  induction vs generalizing s cs with
  | nil => exact ⟨s, [], cs, rfl, rfl, by simpa using Wired.self s, by simpa [polls] using h⟩
  | cons v vs ih =>
    obtain ⟨t, c, cs', d, h1, h2, h3, h4, h5⟩ := Course.first (x := ⟨req, 0#32, v⟩) (xs := polls req vs ++ xs)
      (by simpa [polls] using h)
    obtain ⟨u, c2, cs2, g1, g2, g3, g4⟩ := ih h5 (by rw [h4.driver]; exact fun x hx => hv x (by simp [hx]))
    refine ⟨u, c ++ c2, cs2, ?_, by rw [h3, g2, List.append_assoc], ?_, g4⟩
    · rw [← g1, List.length_cons, ← Nat.add_assoc]
      exact pollLoop_mismatch _ (by rw [h1, h2 hr]) (by rw [h4.driver]; exact hv v (by simp))
    · have hi : irMove t req = irMove s req := by
        rw [irMove_wired h4]; unfold irMove; split <;> rfl
      have := h4.trans g3
      rw [hi, h4.work] at this
      simpa using this

section
variable {s : State} {req : Byte} {mv v1 v : Word} {vs : List Word} {xs : List Access} {f : Option (Byte × Byte)}
  {cs : List Cycle} {rest : List Bool}

/-- The post step of a match read, or none. -/
theorem matchRead_post (h : Course s (matchPost s req v1 ++ xs) f cs rest) : ∃ t c cs',
    matchRead req mv s = pollLoop req mv s.driver.matchRetry.toNat t ∧ cs = c ++ cs' ∧
      Wired s t (if s.driver.port = .jtag ∨ req.getLsbD 0 = true then irMove s req else s.work.irCache) c ∧
        Course t xs f cs' rest := by
  unfold matchRead
  by_cases hp : s.driver.port = .jtag ∨ req.getLsbD 0 = true
  · rw [matchPost, if_pos hp] at h
    obtain ⟨t, c, cs', d, h1, h2, h3, h4, h5⟩ := h.first
    refine ⟨t, c, cs', ?_, h3, by rw [if_pos hp]; exact h4, h5⟩
    rw [if_pos (by simpa [matchPosts, reqAPnDP] using hp), h1]
    simp [h4.driver]
  · rw [matchPost, if_neg hp] at h
    refine ⟨s, [], cs, ?_, rfl, by rw [if_neg hp]; exact .self s, h⟩
    rw [if_neg (by simpa [matchPosts, reqAPnDP] using hp)]

theorem irMove_of_wired {t : State} {ir : Option IrSel} {c : List Cycle} (h : Wired s t ir c)
    (hir : s.driver.port ≠ .jtag → ir = s.work.irCache) : irMove t req = irMove s req := by
  rw [irMove_wired h, irMove]
  split
  · rfl
  · rename_i hj; exact hir hj

theorem matchIr (hp : s.driver.port ≠ .jtag) (P : Prop) [Decidable P] :
    (if P then irMove s req else s.work.irCache) = s.work.irCache := by
  unfold irMove; rw [if_neg hp]; split <;> rfl

/-- A match read whose last poll matches. -/
theorem matchRead_course (h : Course s (matchPost s req v1 ++ polls req (vs ++ [v]) ++ xs) f cs rest)
    (hr : req.getLsbD 1 = true) (hl : vs.length ≤ s.driver.matchRetry.toNat)
    (hv : ∀ x ∈ vs, x &&& s.driver.matchMask ≠ mv) (hm : v &&& s.driver.matchMask = mv) : ∃ t c cs',
      matchRead req mv s = .ok ackOk t ∧ cs = c ++ cs' ∧ Wired s t (irMove s req) c ∧ Course t xs f cs' rest := by
  obtain ⟨t, c, cs', h1, h2, h3, h4⟩ := matchRead_post (mv := mv) (by simpa using h)
  obtain ⟨n, hn⟩ := Nat.exists_eq_add_of_le hl
  obtain ⟨u, c2, cs2, g1, g2, g3, g4⟩ := pollLoop_course (mv := mv) (vs := vs) (xs := ⟨req, 0#32, v⟩ :: xs) n
    (by simpa [polls] using h4) hr (by rw [h3.driver]; exact hv)
  obtain ⟨w, c3, cs3, d, k1, k2, k3, k4, k5⟩ := g4.first
  refine ⟨w, c ++ c2 ++ c3, cs3, ?_, by rw [h2, g2, k3]; simp, ?_, k5⟩
  · rw [h1, hn, Nat.add_comm, g1]
    exact pollLoop_match _ (by rw [k1, k2 hr]) (by rw [k4.driver, g3.driver, h3.driver]; exact hm)
  · have e1 : irMove t req = irMove s req := irMove_of_wired h3 fun hp => matchIr hp _
    have e2 : irMove u req = irMove t req := irMove_of_wired g3 fun hp => by unfold irMove; rw [if_neg hp]; split <;> rfl
    have := (h3.trans g3).trans k4
    rwa [e2, e1] at this

/-- A match read that has polled to the limit without a match. -/
theorem matchRead_exhausted (h : Course s (matchPost s req v1 ++ polls req vs ++ xs) f cs rest)
    (hr : req.getLsbD 1 = true) (hl : vs.length = s.driver.matchRetry.toNat + 1)
    (hv : ∀ x ∈ vs, x &&& s.driver.matchMask ≠ mv) : ∃ t c cs',
      matchRead req mv s = .ok 0x11#8 t ∧ cs = c ++ cs' ∧ Wired s t (irMove s req) c ∧ Course t xs f cs' rest := by
  obtain ⟨ws, v, rfl⟩ : ∃ ws v, vs = ws ++ [v] := by
    rcases List.eq_nil_or_concat vs with rfl | ⟨ws, v, rfl⟩
    · simp at hl
    · exact ⟨ws, v, by simp⟩
  obtain ⟨t, c, cs', h1, h2, h3, h4⟩ := matchRead_post (mv := mv) (by simpa using h)
  obtain ⟨u, c2, cs2, g1, g2, g3, g4⟩ := pollLoop_course (mv := mv) (vs := ws) (xs := ⟨req, 0#32, v⟩ :: xs) 0
    (by simpa [polls] using h4) hr (by rw [h3.driver]; exact fun x hx => hv x (by simp [hx]))
  obtain ⟨w, c3, cs3, d, k1, k2, k3, k4, k5⟩ := g4.first
  refine ⟨w, c ++ c2 ++ c3, cs3, ?_, by rw [h2, g2, k3]; simp, ?_, k5⟩
  · rw [h1, show s.driver.matchRetry.toNat = 0 + ws.length by simp at hl; omega, g1]
    exact pollLoop_exhausted (by rw [k1, k2 hr]) (by rw [k4.driver, g3.driver, h3.driver]; exact hv v (by simp))
  · have e1 : irMove t req = irMove s req := irMove_of_wired h3 fun hp => matchIr hp _
    have e2 : irMove u req = irMove t req := irMove_of_wired g3 fun hp => by unfold irMove; rw [if_neg hp]; split <;> rfl
    have := (h3.trans g3).trans k4
    rwa [e2, e1] at this

/-- A match read whose first transfer fails. -/
theorem matchRead_fails {code : Byte} (h : Course s [] (some (req, code)) cs rest) : ∃ t,
    matchRead req mv s = .ok code t ∧ code ≠ ackOk ∧ Wired s t (irMove s req) cs ∧ queue t = rest := by
  obtain ⟨t, d, h1, h2, h3, h4⟩ := h.fails 0#32
  refine ⟨t, ?_, h2, h3, h4⟩
  unfold matchRead
  split
  · rw [h1]; simp only [bind_ok]; exact if_pos h2
  · cases s.driver.matchRetry.toNat <;> simp [pollLoop, h1, h2]

/-- A match read of which a poll fails. -/
theorem matchRead_pollFails {code : Byte} (h : Course s (matchPost s req v1 ++ polls req vs) (some (req, code)) cs rest)
    (hr : req.getLsbD 1 = true) (hl : vs.length ≤ s.driver.matchRetry.toNat)
    (hv : ∀ x ∈ vs, x &&& s.driver.matchMask ≠ mv) : ∃ t,
      matchRead req mv s = .ok code t ∧ code ≠ ackOk ∧ Wired s t (irMove s req) cs ∧ queue t = rest := by
  obtain ⟨t, c, cs', h1, h2, h3, h4⟩ := matchRead_post (mv := mv) h
  obtain ⟨n, hn⟩ := Nat.exists_eq_add_of_le hl
  obtain ⟨u, c2, cs2, g1, g2, g3, g4⟩ := pollLoop_course (mv := mv) (vs := vs) (xs := []) n
    (by simpa using h4) hr (by rw [h3.driver]; exact hv)
  obtain ⟨w, d, k1, k2, k3, k4⟩ := g4.fails 0#32
  refine ⟨w, ?_, k2, ?_, k4⟩
  · rw [h1, hn, Nat.add_comm, g1]
    cases n <;> simp [pollLoop, k1, k2]
  · have e1 : irMove t req = irMove s req := irMove_of_wired h3 fun hp => matchIr hp _
    have e2 : irMove u req = irMove t req := irMove_of_wired g3 fun hp => by unfold irMove; rw [if_neg hp]; split <;> rfl
    have := (h3.trans g3).trans k3
    rw [e2, e1] at this
    rw [h2, g2, ← List.append_assoc]
    exact this

end

/-! ### Requests that complete -/

theorem matchRequest_cases {i : Instr} {req : Byte} {mv : Word} (h : matchRequest i = some (req, mv)) :
    req.getLsbD 1 = true ∧ ∀ s, exec i s = runRequest (readRequest req (some mv)) s := by
  have dr (a : RegAddr) : 0x02#8 ||| (a.zeroExtend 8 <<< 2) = portRequest false true a := by revert a; decide
  have ar (a : RegAddr) : 0x03#8 ||| (a.zeroExtend 8 <<< 2) = portRequest true true a := by revert a; decide
  have bit (ap : Bool) (a : RegAddr) : (portRequest ap true a).getLsbD 1 = true := by revert ap a; decide
  cases i <;> simp only [matchRequest, Option.some.injEq, Prod.mk.injEq, reduceCtorEq] at h
  case dpRM a v => obtain ⟨rfl, rfl⟩ := h; exact ⟨by rw [dr a]; exact bit _ _, fun s => by rw [dr a]; rfl⟩
  case apRM a v => obtain ⟨rfl, rfl⟩ := h; exact ⟨by rw [ar a]; exact bit _ _, fun s => by rw [ar a]; rfl⟩

/-- The plain requests by the direction of their transfer. -/
theorem plainRequest_read {i : Instr} {req : Byte} {w : Word} (h : plainRequest i = some (req, w))
    (hr : req.getLsbD 1 = true) (s : State) : exec i s = runRequest (readRequest req none) s := by
  have bit (ap : Bool) (a : RegAddr) : (portRequest ap false a).getLsbD 1 = false := by revert ap a; decide
  rcases plainRequest_cases h with ⟨-, -, -, -, he⟩ | ⟨ap, a, rfl, -⟩
  · exact he s
  · rw [bit] at hr; exact absurd hr (by simp)

theorem plainRequest_write {i : Instr} {req : Byte} {w : Word} (h : plainRequest i = some (req, w))
    (hr : req.getLsbD 1 = false) (s : State) : exec i s = runRequest (writeRequest req w) s := by
  have bit (ap : Bool) (a : RegAddr) : (portRequest ap true a).getLsbD 1 = true := by revert ap a; decide
  rcases plainRequest_cases h with ⟨ap, a, rfl, -⟩ | ⟨-, -, -, he⟩
  · rw [bit] at hr; exact absurd hr (by simp)
  · exact he s

theorem collectsItself_eq {s : State} {req : Byte} (hp : s.driver.port = .swd ∨ s.driver.port = .jtag)
    (hr : req.getLsbD 1 = true) : collectsItself req none s = collectsOutstanding s req := by
  unfold collectsItself collectsOutstanding
  rw [hr]
  rcases hp with h | h
  · simp [h, reqAPnDP]
  · simp [h]; rfl

theorem collectsItself_match (req : Byte) (mv : Word) (s : State) : collectsItself req (some mv) s = false := by
  unfold collectsItself; split <;> simp

theorem collectsOutstanding_read {s : State} {req : Byte} (h : collectsOutstanding s req = true) :
    req.getLsbD 1 = true := by
  unfold collectsOutstanding at h; simp only [Bool.and_eq_true] at h; exact h.1

/-- Collecting on SWD does not touch the IR's content. -/
theorem irCollected_swd {s : State} (h : s.driver.port ≠ .jtag) : irCollected s = s.work.irCache := by
  unfold irCollected irMove; rw [if_neg h]; split <;> rfl

@[simp] theorem collected_driver (s : State) (v) : (collected s v).driver = s.driver := rfl
@[simp] theorem collected_work (s : State) (v) : (collected s v).work = { s.work with postRead := false } := rfl

/-- `s` with the words written and the three values set. -/
def effected (s : State) (e : Effect) : State :=
  { s with
    mem := { s.mem with resp := s.mem.resp ++ e.words.flatMap bytes32 }
    work := { s.work with postRead := e.post, checkWrite := e.check }
    driver := { s.driver with matchMask := e.mask } }

theorem collected_fits {s t : State} {v v' : Word} {ir : Option IrSel} {c : List Cycle} (h : Wired (collected s v) t ir c)
    (hf : Fits s (4 * (collectWords s v ++ [v']).length)) : Fits t 4 := by
  refine h.fits ?_
  unfold Fits collected at *
  simp only [grown_mem, List.length_append, flatMap_bytes32_length, grown_params, setPostRead] at hf ⊢
  simp only [List.length_cons, List.length_nil] at hf
  omega

theorem collectWords_fits {s : State} {v : Word} {ws : List Word} (hf : Fits s (4 * (collectWords s v ++ ws).length)) :
    Fits s (4 * (collectWords s v).length) := by
  unfold Fits at *; simp only [List.length_append] at hf; omega

/-- The end of a read: `check_write` is cleared. -/
theorem readRequest_of_parts {req : Byte} {mv : Option Word} {s t u : State}
    (h1 : collectForRead req mv s = .ok ackOk t)
    (h2 : (match mv with | some v => matchRead req v t | none => plainRead req t) = .ok ackOk u) :
    readRequest req mv s = .ok ackOk (setCheckWrite false u) := by
  unfold readRequest
  rw [h1]
  simp only [bind_ok, onOk_ok]
  cases mv <;> (simp only at h2 ⊢; rw [h2]; simp only [bind_ok, onOk_ok])

/-- A read that stops in its second part. -/
theorem readRequest_stops {req r : Byte} {mv : Option Word} {s t u : State}
    (h1 : collectForRead req mv s = .ok ackOk t)
    (h2 : (match mv with | some v => matchRead req v t | none => plainRead req t) = .ok r u) (hr : r ≠ ackOk) :
    readRequest req mv s = .ok r u := by
  unfold readRequest
  rw [h1]
  simp only [bind_ok, onOk_ok]
  cases mv <;> (simp only at h2 ⊢; rw [h2]; simp only [bind_ok, onOk_ne _ _ hr])

/-- A request that completes, with the rest of the course to come. -/
theorem Completes.body {s : State} {i : Instr} {e : Effect} {ys : List Access} {f : Option (Byte × Byte)}
    {cs : List Cycle} {rest : List Bool} (hc : Completes s i e) (h : Course s (e.accesses ++ ys) f cs rest)
    (hf : Fits s (4 * e.words.length)) : ∃ body u ir c c', exec i s = runRequest body s ∧ body s = .ok ackOk u ∧
      cs = c ++ c' ∧ Wired (effected s e) u ir c ∧ Course u ys f c' rest := by
  have hport := h.port
  cases hc with
  | collected _ req v hi hp hco =>
    have hr := collectsOutstanding_read hco
    obtain ⟨t, c, cs', h1, h2, h3, h4⟩ := collectSame_course (by simpa using h) hr hf
    have ht : t.work.postRead = true := by rw [h3.work]; exact hp
    have hposts : (decide (t.driver.port = .jtag) || reqAPnDP req) = true := by
      rw [h3.driver]
      unfold collectsOutstanding at hco
      by_cases hj : s.driver.port = .jtag
      · simp [hj]
      · simp only [hr, hj, if_false, Bool.true_and] at hco
        simpa [reqAPnDP, hj] using hco
    refine ⟨_, setCheckWrite false t, irMove s req, c, cs', plainRequest_read hi hr s, ?_, h2, ?_,
      (Course.congr rfl rfl rfl).mpr h4⟩
    · refine readRequest_of_parts (t := t) (by rw [collectForRead, if_pos hp, if_pos (by rw [collectsItself_eq hport hr, hco])]; exact h1) ?_
      show plainRead req t = _
      rw [plainRead, if_pos hposts, if_pos ht]
    · have := h3.setCheckWrite false
      convert this using 1
      simp [effected, setCheckWrite, grown, hp]
  | posted _ req v0 v hi hr hpost hco =>
    obtain ⟨t, c, cs', h1, h2, h3, h4⟩ := collectForRead_course (req := req) (mv := none) (by simpa using h)
      (by rw [collectsItself_eq hport hr]; exact hco) hf
    obtain ⟨u, c2, cs2, d, g1, g2, g3, g4, g5⟩ := h4.first
    have hposts : (decide (t.driver.port = .jtag) || reqAPnDP req) = true := by
      rcases hpost with hj | hap
      · rw [show t.driver.port = .jtag by rw [h3.driver]; exact hj]; rfl
      · rw [show reqAPnDP req = true from hap, Bool.or_true]
    refine ⟨_, setCheckWrite false (setPostRead true u), _, c ++ c2, cs2, plainRequest_read hi hr s, ?_,
      by rw [h2, g3, List.append_assoc], ((h3.trans g4).setPostRead true).setCheckWrite false,
      (Course.congr rfl rfl rfl).mpr g5⟩
    · refine readRequest_of_parts h1 ?_
      show plainRead req t = _
      rw [plainRead, if_pos hposts, if_neg (by rw [h3.work]; simp), postRead, g1]
      simp only [bind_ok, onOk_ok]
  | immediate _ req v0 v hi hr hp hap =>
    have hco : collectsOutstanding s req = false := by
      unfold collectsOutstanding; rw [hap, hp]; simp
    obtain ⟨t, c, cs', h1, h2, h3, h4⟩ := collectForRead_course (req := req) (mv := none) (by simpa using h)
      (fun _ => by rw [collectsItself_eq hport hr, hco]) (collectWords_fits hf)
    obtain ⟨u, c2, cs2, g1, g2, g3, g4⟩ := collectSame_course h4 hr (collected_fits h3 hf)
    refine ⟨_, setCheckWrite false u, irMove t req, c ++ c2, cs2, plainRequest_read hi hr s, ?_,
      by rw [h2, g2, List.append_assoc], ?_, (Course.congr rfl rfl rfl).mpr g4⟩
    · refine readRequest_of_parts h1 ?_
      show plainRead req t = _
      rw [plainRead, if_neg (by
        rw [show reqAPnDP req = false from hap, show t.driver.port = .swd by rw [h3.driver]; exact hp]; decide), g1]
    · have := (((h3.grown (bytes32 v)).trans g3).setCheckWrite false)
      convert this using 1
      simp [effected, setCheckWrite, grown, Machine.collected, setPostRead]
  | matched _ req mv v0 v1 v vs hi hl hv hm =>
    obtain ⟨hr, he⟩ := matchRequest_cases hi
    obtain ⟨t, c, cs', h1, h2, h3, h4⟩ := collectForRead_course (req := req) (mv := some mv)
      (xs := matchPost s req v1 ++ polls req (vs ++ [v]) ++ ys) (by simpa using h)
      (fun _ => collectsItself_match _ _ _) hf
    have hmp : matchPost t req v1 = matchPost s req v1 := by unfold matchPost; rw [h3.driver]; rfl
    obtain ⟨u, c2, cs2, g1, g2, g3, g4⟩ := matchRead_course (mv := mv) (by rw [hmp]; exact h4) hr
      (by rw [h3.driver]; exact hl) (by rw [h3.driver]; exact hv) (by rw [h3.driver]; exact hm)
    exact ⟨_, setCheckWrite false u, _, c ++ c2, cs2, he s, readRequest_of_parts h1 g1,
      by rw [h2, g2, List.append_assoc], (h3.trans g3).setCheckWrite false, (Course.congr rfl rfl rfl).mpr g4⟩
  | written _ req w v0 v hi hr =>
    obtain ⟨t, c, cs', h1, h2, h3, h4⟩ := collectForWrite_course (by simpa using h) hf
    obtain ⟨u, c2, cs2, d, g1, g2, g3, g4, g5⟩ := h4.first
    have hu : u.driver.port = s.driver.port := by rw [g4.driver, h3.driver]; rfl
    have hb : writeRequest req w s = .ok ackOk (if s.driver.port = .swd then setCheckWrite true u else u) := by
      unfold writeRequest
      rw [h1]
      simp only [bind_ok, onOk_ok, g1, hu]
    have hw := h3.trans g4
    rcases hport with hp | hp
    · rw [if_pos hp] at hb
      refine ⟨_, _, irMove t req, c ++ c2, cs2, plainRequest_write hi hr s, hb, by rw [h2, g3, List.append_assoc], ?_,
        (Course.congr rfl rfl rfl).mpr g5⟩
      rw [show (decide (s.driver.port = .swd) || s.work.checkWrite) = true by rw [hp]; rfl]
      exact hw.setCheckWrite true
    · rw [if_neg (by rw [hp]; decide)] at hb
      refine ⟨_, _, irMove t req, c ++ c2, cs2, plainRequest_write hi hr s, hb, by rw [h2, g3, List.append_assoc], ?_, g5⟩
      rw [show (decide (s.driver.port = .swd) || s.work.checkWrite) = s.work.checkWrite by rw [hp]; rfl]
      exact hw
  | masked m v0 =>
    obtain ⟨t, c, cs', h1, h2, h3, h4⟩ := collectForWrite_course h hf
    refine ⟨_, _, _, c, cs', rfl, ?_, h2, h3.withMask m, h4.withMask m⟩
    unfold maskRequest
    rw [h1]
    simp only [bind_ok, onOk_ok]

/-! ### Requests that stop -/

/-- `s` with the words written and `post_read` set. -/
def halted (s : State) (ws : List Word) (post : Bool) : State :=
  { s with
    mem := { s.mem with resp := s.mem.resp ++ ws.flatMap bytes32 }
    work := { s.work with postRead := post } }

theorem halted_nil {s : State} {post : Bool} (h : s.work.postRead = post) : halted s [] post = s := by
  subst h; simp [halted]

/-- A read that stops at its first part. -/
theorem readRequest_collectFails {req r : Byte} {mv : Option Word} {s t : State}
    (h : collectForRead req mv s = .ok r t) (hr : r ≠ ackOk) : readRequest req mv s = .ok r t := by
  unfold readRequest
  rw [h]
  simp only [bind_ok, onOk_ne _ _ hr]

theorem collectForWrite_fails {r : Byte} {d : Word} {s t : State} (hp : s.work.postRead = true)
    (h : transferRetry 0x0e#8 0#32 s = .ok (r, d) t) (hr : r ≠ ackOk) : collectForWrite s = .ok r t := by
  unfold collectForWrite collectSame
  rw [if_pos hp, show Config.rdbuffRead = 0x0e#8 from rfl, h]
  simp only [bind_ok, writeCollected_ne hr, onOk_ne _ _ hr]

theorem collectRdbuff_fails {r : Byte} {d : Word} {s t : State}
    (h : transferRetry 0x0e#8 0#32 s = .ok (r, d) t) (hr : r ≠ ackOk) : collectRdbuff s = .ok r (setPostRead false t) := by
  unfold collectRdbuff
  rw [show Config.rdbuffRead = 0x0e#8 from rfl, h]
  simp only [bind_ok, writeCollected_ne hr]

/-- A plain read whose own transfer fails, when no read is outstanding. -/
theorem plainRead_fails {req r : Byte} {d : Word} {s t : State} (hp : s.work.postRead = false)
    (h : transferRetry req 0#32 s = .ok (r, d) t) (hr : r ≠ ackOk) : plainRead req s = .ok r t := by
  unfold plainRead
  split
  · rw [if_neg (by simp [hp]), postRead, h]
    simp only [bind_ok, onOk_ne _ _ hr]
  · rw [collectSame, h]
    simp only [bind_ok, writeCollected_ne hr]

/-- A request that stops at a transfer that fails. -/
theorem StopsAt.body {s : State} {i : Instr} {xs : List Access} {ws : List Word} {post : Bool} {req code : Byte}
    {cs : List Cycle} {rest : List Bool} (hc : StopsAt s i xs ws post req) (h : Course s xs (some (req, code)) cs rest)
    (hf : Fits s (4 * ws.length)) : ∃ body u, exec i s = runRequest body s ∧ body s = .ok code u ∧ code ≠ ackOk ∧
      Wired (halted s ws post) u (irMove s req) cs ∧ queue u = rest := by
  have hport := h.port
  have move : ∀ {t : State} {v0 : Word} {c : List Cycle} (r : Byte), Wired (collected s v0) t (irCollected s) c →
      irMove t r = irMove s r := fun r h3 => (irMove_of_wired h3 fun hp => irCollected_swd hp).trans rfl
  cases hc with
  | rdbuffOfRead _ req w hi hr hp hco =>
    obtain ⟨t, d, h1, h2, h3, h4⟩ := h.fails 0#32
    refine ⟨_, setPostRead false t, plainRequest_read hi hr s, readRequest_collectFails ?_ h2, h2, ?_, h4⟩
    · rw [collectForRead, if_pos hp, if_neg (by rw [collectsItself_eq hport hr, hco]; simp)]
      exact collectRdbuff_fails h1 h2
    · have := h3.setPostRead false
      convert this using 1
      simp [halted, setPostRead]
  | rdbuffOfMatch _ req mv hi hp =>
    obtain ⟨hr, he⟩ := matchRequest_cases hi
    obtain ⟨t, d, h1, h2, h3, h4⟩ := h.fails 0#32
    refine ⟨_, setPostRead false t, he s, readRequest_collectFails ?_ h2, h2, ?_, h4⟩
    · rw [collectForRead, if_pos hp, if_neg (by rw [collectsItself_match]; simp)]
      exact collectRdbuff_fails h1 h2
    · have := h3.setPostRead false
      convert this using 1
      simp [halted, setPostRead]
  | rdbuffOfWrite _ req w hi hr hp =>
    obtain ⟨t, d, h1, h2, h3, h4⟩ := h.fails 0#32
    refine ⟨_, t, plainRequest_write hi hr s, ?_, h2, by rw [halted_nil hp]; exact h3, h4⟩
    unfold writeRequest
    rw [collectForWrite_fails hp h1 h2]
    simp only [bind_ok, onOk_ne _ _ h2]
  | rdbuffOfMask m hp =>
    obtain ⟨t, d, h1, h2, h3, h4⟩ := h.fails 0#32
    refine ⟨_, t, rfl, ?_, h2, by rw [halted_nil hp]; exact h3, h4⟩
    unfold maskRequest
    rw [collectForWrite_fails hp h1 h2]
    simp only [bind_ok, onOk_ne _ _ h2]
  | collecting _ _ w hi hp hco =>
    obtain ⟨t, d, h1, h2, h3, h4⟩ := h.fails 0#32
    have hr := collectsOutstanding_read hco
    refine ⟨_, t, plainRequest_read hi hr s, readRequest_collectFails ?_ h2, h2, by rw [halted_nil hp]; exact h3, h4⟩
    rw [collectForRead, if_pos hp, if_pos (by rw [collectsItself_eq hport hr, hco]), collectSame, h1]
    simp only [bind_ok, writeCollected_ne h2]
  | own _ _ w v0 hi hco =>
    cases hr : req.getLsbD 1 with
    | true =>
      obtain ⟨t, c, cs', h1, h2, h3, h4⟩ := collectForRead_course (req := req) (mv := none) (xs := [])
        (by simpa using h) (by rw [collectsItself_eq hport hr]; exact hco) hf
      obtain ⟨u, d, g1, g2, g3, g4⟩ := h4.fails 0#32
      refine ⟨_, u, plainRequest_read hi hr s, readRequest_stops h1 ?_ g2, g2, ?_, g4⟩
      · exact plainRead_fails (by rw [h3.work]; rfl) g1 g2
      · rw [h2, ← move req h3]; exact h3.trans g3
    | false =>
      obtain ⟨t, c, cs', h1, h2, h3, h4⟩ := collectForWrite_course (xs := []) (by simpa using h) hf
      obtain ⟨u, d, g1, g2, g3, g4⟩ := h4.fails w
      refine ⟨_, u, plainRequest_write hi hr s, ?_, g2, ?_, g4⟩
      · unfold writeRequest
        rw [h1]
        simp only [bind_ok, onOk_ok, g1, onOk_ne _ _ g2]
      · rw [h2, ← move req h3]; exact h3.trans g3
  | post _ _ mv v0 hi hp =>
    obtain ⟨hr, he⟩ := matchRequest_cases hi
    obtain ⟨t, c, cs', h1, h2, h3, h4⟩ := collectForRead_course (req := req) (mv := some mv) (xs := [])
      (by simpa using h) (fun _ => collectsItself_match _ _ _) hf
    obtain ⟨u, g1, g2, g3, g4⟩ := matchRead_fails (mv := mv) h4
    exact ⟨_, u, he s, readRequest_stops h1 g1 g2, g2, by rw [h2, ← move req h3]; exact h3.trans g3, g4⟩
  | poll _ _ mv v0 v1 vs hi hl hv =>
    obtain ⟨hr, he⟩ := matchRequest_cases hi
    obtain ⟨t, c, cs', h1, h2, h3, h4⟩ := collectForRead_course (req := req) (mv := some mv)
      (xs := matchPost s req v1 ++ polls req vs) (by simpa using h) (fun _ => collectsItself_match _ _ _) hf
    have hmp : matchPost t req v1 = matchPost s req v1 := by unfold matchPost; rw [h3.driver]; rfl
    obtain ⟨u, g1, g2, g3, g4⟩ := matchRead_pollFails (mv := mv) (by rw [hmp]; exact h4) hr (by rw [h3.driver]; exact hl)
      (by rw [h3.driver]; exact hv)
    exact ⟨_, u, he s, readRequest_stops h1 g1 g2, g2, by rw [h2, ← move req h3]; exact h3.trans g3, g4⟩

/-- A match read request that has polled to the limit without a match. -/
theorem readRequest_exhausted {s : State} {req : Byte} {mv v0 v1 : Word} {vs : List Word} {cs : List Cycle}
    {rest : List Bool} (h : Course s (collectReads s v0 ++ matchPost s req v1 ++ polls req vs) none cs rest)
    (hf : Fits s (4 * (collectWords s v0).length)) (hr : req.getLsbD 1 = true)
    (hl : vs.length = s.driver.matchRetry.toNat + 1) (hv : ∀ x ∈ vs, x &&& s.driver.matchMask ≠ mv) : ∃ u,
      readRequest req (some mv) s = .ok 0x11#8 u ∧ Wired (halted s (collectWords s v0) false) u (irMove s req) cs ∧
        queue u = rest := by
  obtain ⟨t, c, cs', h1, h2, h3, h4⟩ := collectForRead_course (req := req) (mv := some mv)
    (xs := matchPost s req v1 ++ polls req vs) (by simpa using h) (fun _ => collectsItself_match _ _ _) hf
  have hmp : matchPost t req v1 = matchPost s req v1 := by unfold matchPost; rw [h3.driver]; rfl
  obtain ⟨u, c2, cs2, g1, g2, g3, g4⟩ := matchRead_exhausted (mv := mv) (v1 := v1) (vs := vs) (xs := [])
    (by rw [hmp]; simpa using h4) hr
    (by rw [h3.driver]; exact hl) (by rw [h3.driver]; exact hv)
  obtain ⟨rfl, hq⟩ := g4.done
  refine ⟨u, readRequest_stops h1 g1 (by decide), ?_, hq⟩
  have e : irMove t req = irMove s req := (irMove_of_wired h3 fun hp => irCollected_swd hp).trans rfl
  rw [h2, g2, List.append_nil, ← e]
  exact h3.trans g3

/-! ### The trailer -/

/-- The epilogue after a trailer that ended with `r` and wrote the words `ws`. -/
theorem epilogue_ends {s t u : State} {ws : List Word} {n r : Byte} {cs : List Cycle} {rest : List Bool}
    (ht : trailer t = .ok r u)
    (hm : u.mem = { s.mem with resp := s.mem.resp ++ ws.flatMap bytes32 }) (htr : u.trace = s.trace ++ cs)
    (hb : u.batch = s.batch) (hn : u.work.completed = n) (h1 : u.work.slotCompleted = s.work.slotCompleted)
    (h2 : u.work.slotAck = s.work.slotAck) (hq : queue u = rest) :
    ∃ v, (epilogue t).outcome = .next v ∧ v.driver = u.driver ∧ TransferEnds s v ws n r cs rest := by
  have he : ∀ w : State, w.batch = s.batch → (endCommand w).mem = w.mem ∧ (endCommand w).driver = w.driver ∧
      (endCommand w).trace = w.trace ∧ (endCommand w).input = w.input ∧ (endCommand w).work = Work.initial ∧
        (s.batch = none → (endCommand w).phase = .respond) := by
    intro w hw
    unfold endCommand
    split
    · rename_i k hk; exact ⟨rfl, rfl, rfl, rfl, rfl, fun h => by rw [hw, h] at hk; cases hk⟩
    · exact ⟨rfl, rfl, rfl, rfl, rfl, fun _ => rfl⟩
    · exact ⟨rfl, rfl, rfl, rfl, rfl, fun _ => rfl⟩
  unfold epilogue
  rw [ht]
  simp only [bind_ok, outcome_ok]
  obtain ⟨e1, e2, e3, e4, e5, e6⟩ := he (respPatch u.work.slotAck [r] (respPatch u.work.slotCompleted [u.work.completed] u)) hb
  refine ⟨_, rfl, e2, ?_, e5, e6, e3.trans htr, ?_⟩
  · rw [e1]
    simp only [respPatch, hm, hn, h1, h2]
  · unfold queue at hq ⊢; rw [e2, e4]; exact hq

/-- The trailer runs on RDBUFF. -/
theorem trailer_reads {t : State} {e : Effect} (hl : t.work.lastAck = ackOk) (hpost : t.work.postRead = e.post)
    (hcheck : t.work.checkWrite = e.check) (hp : t.driver.port = .swd ∨ t.driver.port = .jtag) (h : Trails t e) :
    trailer t = trailerRead e.post t := by
  unfold trailer
  rw [if_pos hl]
  unfold Trails at h
  rcases hp with hp | hp
  · simp only [hp, reduceCtorEq, false_or] at h ⊢
    rw [hpost, hcheck]
    rcases h with h | h
    · rw [if_pos h, h]
    · cases hp : e.post
      · rw [if_neg (by simp), if_pos h]
      · rw [if_pos rfl]
  · simp only [hp, hpost]

theorem trailer_none {t : State} {e : Effect} (hl : t.work.lastAck = ackOk) (hpost : t.work.postRead = e.post)
    (hcheck : t.work.checkWrite = e.check) (hp : t.driver.port = .swd ∨ t.driver.port = .jtag) (h : ¬ Trails t e) :
    trailer t = .ok ackOk t := by
  unfold Trails at h
  simp only [not_or, Bool.not_eq_true] at h
  obtain ⟨hj, h1, h2⟩ := h
  have hs : t.driver.port = .swd := hp.resolve_right hj
  unfold trailer
  rw [if_pos hl]
  simp only [hs, hpost, hcheck, h1, h2, Bool.false_eq_true, if_false]

/-! ### A direction change fails in the first packet (R326) -/

/-- The two schedules that fail in the next packet on SWD. -/
def FailsInPacket (s : State) : Prop := s.driver.port = .swd ∧ (s.input.dirFail = some 0 ∨ s.input.dirFail = some 1)

theorem transferRetry_fatal {s : State} (h : FailsInPacket s) (req : Byte) (w : Word) :
    transfer req w s = .fault .fatal ∧ transferRetry req w s = .fault .fatal := by
  have e : transfer req w s = .fault .fatal := by
    unfold transfer
    rw [h.1]
    exact swdPacket_fatal h.2
  refine ⟨e, ?_⟩
  unfold transferRetry
  cases s.driver.waitRetry.toNat <;> simp [retryLoop, e]

theorem matchRead_fatal {s : State} (h : FailsInPacket s) (req : Byte) (mv : Word) : matchRead req mv s = .fault .fatal := by
  unfold matchRead
  split
  · simp [(transferRetry_fatal h _ _).2]
  · cases s.driver.matchRetry.toNat <;> simp [pollLoop, (transferRetry_fatal h _ _).2]

theorem collectSame_fatal {s : State} (h : FailsInPacket s) (req : Byte) : collectSame req s = .fault .fatal := by
  simp [collectSame, (transferRetry_fatal h _ _).2]

theorem collectRdbuff_fatal {s : State} (h : FailsInPacket s) : collectRdbuff s = .fault .fatal := by
  simp [collectRdbuff, (transferRetry_fatal h _ _).2]

theorem readRequest_fatal {s : State} (h : FailsInPacket s) (req : Byte) (mv : Option Word) :
    readRequest req mv s = .fault .fatal := by
  unfold readRequest collectForRead
  by_cases hp : s.work.postRead = true
  · rw [if_pos hp]
    split <;> simp [collectSame_fatal h, collectRdbuff_fatal h]
  · rw [if_neg hp]
    simp only [bind_ok, onOk_ok]
    cases mv with
    | some v => simp [matchRead_fatal h]
    | none =>
      simp only [plainRead]
      rw [if_neg hp]
      split <;> simp [collectSame_fatal h, postRead, (transferRetry_fatal h _ _).2]

theorem writeRequest_fatal {s : State} (h : FailsInPacket s) (req : Byte) (w : Word) :
    writeRequest req w s = .fault .fatal := by
  unfold writeRequest collectForWrite
  by_cases hp : s.work.postRead = true
  · rw [if_pos hp]
    simp [collectSame_fatal h]
  · rw [if_neg hp, bind_ok, onOk_ok]
    simp [(transferRetry_fatal h _ _).2]

theorem trailer_fatal {s : State} (h : FailsInPacket s) (hl : s.work.lastAck = ackOk)
    (hr : s.work.postRead = true ∨ s.work.checkWrite = true) : trailer s = .fault .fatal := by
  have ht (b : Bool) : trailerRead b s = .fault .fatal := by simp [trailerRead, (transferRetry_fatal h _ _).2]
  unfold trailer
  rw [if_pos hl, h.1]
  rcases hr with hr | hr <;> simp [hr, ht]

/-- The trailer follows the last request. -/
theorem nextRequest_fatal {s : State} (h : FailsInPacket s) (hl : s.work.lastAck = ackOk)
    (hr : s.work.postRead = true ∨ s.work.checkWrite = true) (hn : s.work.left ≤ 1) : nextRequest s = .fault .fatal := by
  rw [nextRequest, if_pos (show s.work.left - 1 = 0 by omega), epilogue]
  have := trailer_fatal (s := { s with work := { s.work with left := s.work.left - 1 } }) h hl hr
  rw [this]
  rfl

/-- A MASK clocks a packet where a read is outstanding, or where RDBUFF is read after it (R243, R252). -/
theorem execMask_fatal {s : State} (h : FailsInPacket s) (hd : s.work.draining = false) (w : Word)
    (hr : s.work.postRead = true ∨ s.work.checkWrite = true ∧ s.work.left ≤ 1) : exec (.mask w) s = .fault .fatal := by
  show runRequest (maskRequest w) s = _
  rw [runRequest, hd]
  by_cases hp : s.work.postRead = true
  · simp [maskRequest, collectForWrite, hp, collectSame_fatal h]
  · obtain ⟨hc, hl⟩ := hr.resolve_left hp
    simp only [Bool.false_eq_true, if_false, maskRequest, collectForWrite, if_neg hp, bind_ok, onOk_ok]
    have := nextRequest_fatal (s := recordResult ackOk { s with driver := { s.driver with matchMask := w } }) h rfl (.inr hc) hl
    rw [this]
    rfl

end Sys2Proof.Machine
end

