-- ==== Sys2Proof/Laws/Blocks.lean ====
section
/-! SUPPORT. How a Transfer Block runs on either port when the answers of its transfers are known, and how it ends where the
request's bytes run out. -/

namespace Sys2Proof.Machine

/-! ### The request's bytes run out (R72, R73) -/

theorem reqRead4_short {s : State} (h : s.mem.req.length < s.mem.rd + 4) : reqRead4 s = .framing ⟨s.mem.rd, 4⟩ s := by
  unfold reqRead4 reqRead
  rw [if_neg (by omega)]
  rfl

/-- A word is read where its four bytes are next. -/
theorem reqRead4_word {s : State} {w : Word} {more : List Byte} (h : s.mem.req.drop s.mem.rd = bytes32 w ++ more) :
    reqRead4 s = .ok w (skipped s 4) :=
  reqRead4_onWire s s.pins s.trace s.taps s.input s.free h

/-- The bytes left are these words and fewer than four bytes more. -/
theorem words_run_out {s : State} {ws : List Word} {more : List Byte}
    (h : s.mem.req.drop s.mem.rd = ws.flatMap bytes32 ++ more) (hm : more.length < 4) :
    s.mem.req.length < s.mem.rd + 4 * ws.length + 4 := by
  have := congrArg List.length h
  simp only [List.length_drop, List.length_append, flatMap_bytes32_length] at this
  omega

/-- Skipping more words than there are. -/
theorem reqSkip4_short {n : Nat} {ws : List Word} {more : List Byte} (s : State)
    (h : s.mem.req.drop s.mem.rd = ws.flatMap bytes32 ++ more) (hm : more.length < 4) (hn : ws.length < n) :
    reqSkip4 n s = .framing ⟨s.mem.rd + 4 * ws.length, 4⟩ (skipped s (4 * ws.length)) := by
  induction ws generalizing n s with
  | nil =>
    obtain ⟨n, rfl⟩ : ∃ k, n = k + 1 := ⟨n - 1, by simp at hn; omega⟩
    have hl := words_run_out h hm
    unfold reqSkip4 reqRead
    rw [if_neg (by simp at hl; omega)]
    rfl
  | cons w ws ih =>
    obtain ⟨n, rfl⟩ : ∃ k, n = k + 1 := ⟨n - 1, by simp at hn; omega⟩
    have hd : s.mem.req.drop s.mem.rd = bytes32 w ++ (ws.flatMap bytes32 ++ more) := by simpa using h
    have hl : s.mem.rd + 4 ≤ s.mem.req.length := by
      have := congrArg List.length hd
      simp only [List.length_drop, List.length_append, bytes32_length] at this
      omega
    unfold reqSkip4 reqRead
    rw [if_pos hl]
    simp only [bind_ok]
    have := ih (skipped s 4) (drop_skipped hd) (by simpa using hn)
    rw [show ({ s with mem := { s.mem with rd := s.mem.rd + 4 } } : State) = skipped s 4 from rfl, this, skipped_skipped]
    simp only [skipped_mem, List.length_cons]
    rw [show s.mem.rd + 4 + 4 * ws.length = s.mem.rd + 4 * (ws.length + 1) by omega,
      show 4 + 4 * ws.length = 4 * (ws.length + 1) by omega]

/-! ### The loops -/

theorem Wired.skipped {s t : State} {ir : Option IrSel} {cs : List Cycle} (h : Wired s t ir cs) (n : Nat) :
    Wired (skipped s n) (skipped t n) ir cs := by
  obtain ⟨p, ta, i, f, rfl⟩ := h
  exact ⟨p, ta, i, f, rfl⟩

/-- The words of a read block that are answered OK, with `k` reads to come (one at least where the last is RDBUFF). -/
theorem blockReadLoop_course {req : Byte} {posted : Bool} {k : Nat} {us : List Word} {xs : List Access}
    {f : Option (Byte × Byte)} {rest : List Bool} (s : State) (c : Half) {cs : List Cycle}
    (h : Course s ((us.map fun x => ⟨req, 0#32, x⟩) ++ xs) f cs rest) (hk : posted = true → 1 ≤ k)
    (hr : req.getLsbD 1 = true) (hf : Fits s (4 * us.length)) : ∃ t ir d cs',
      blockReadLoop req posted (us.length + k) c s = blockReadLoop req posted k (c + BitVec.ofNat 16 us.length) t ∧
        cs = d ++ cs' ∧ Wired (grown s (us.flatMap bytes32)) t ir d ∧ Course t xs f cs' rest := by
  induction us generalizing s c cs with
  | nil => exact ⟨s, s.work.irCache, [], cs, by simp, rfl, by simpa using Wired.self s, by simpa using h⟩
  | cons v us ih =>
    obtain ⟨t, d, cs', w, h1, h2, h3, h4, h5⟩ := Course.first (x := ⟨req, 0#32, v⟩)
      (xs := (us.map fun x => ⟨req, 0#32, x⟩) ++ xs) (by simpa using h)
    have hq : (if posted && (us.length + k) == 0 then Config.rdbuffRead else req) = req := by
      rw [if_neg]
      intro hh
      simp at hh
      have := hk hh.1
      omega
    have hw : respWrite4 v t = .ok () (grown t (bytes32 v)) := by
      have := respWrite4_onWire t t.pins t.trace t.taps t.input t.free v
        (h4.fits (by unfold Fits at *; simp only [List.length_cons] at hf; omega))
      rwa [onWire_self] at this
    obtain ⟨u, ir, d2, cs2, g1, g2, g3, g4⟩ := ih (grown t (bytes32 v)) (c + 1#16)
      ((Course.congr rfl rfl rfl).mpr h5)
      (grown_fits (h4.fits (by unfold Fits at *; simp only [List.length_cons, bytes32_length] at *; omega)))
    refine ⟨u, ir, d ++ d2, cs2, ?_, by rw [h3, g2, List.append_assoc], ?_, g4⟩
    · rw [List.length_cons, show us.length + 1 + k = us.length + k + 1 by omega, blockReadLoop, hq, h1]
      simp only [bind_ok, if_true, h2 hr, hw]
      rw [g1, Nat.add_comm us.length 1, BitVec.ofNat_add, ← BitVec.add_assoc]
    · have := (h4.grown (bytes32 v)).grown (us.flatMap bytes32)
      rw [grown_grown, grown_grown] at this
      rw [grown_grown] at g3
      simpa using this.trans g3

/-- A read of a block that fails: the block ends there. -/
theorem blockReadLoop_stops {req code : Byte} {posted : Bool} {n : Nat} {s : State} {c : Half} {cs : List Cycle}
    {rest : List Bool} (h : Course s [] (some (if posted && n == 0 then 0x0e#8 else req, code)) cs rest) : ∃ t ir,
      blockReadLoop req posted (n + 1) c s = .ok (code, c) t ∧ Wired s t ir cs ∧ queue t = rest := by
  obtain ⟨t, d, h1, h2, h3, h4⟩ := h.fails 0#32
  refine ⟨t, _, ?_, h3, h4⟩
  rw [blockReadLoop, show Config.rdbuffRead = 0x0e#8 from rfl, h1]
  simp only [bind_ok]
  exact if_neg h2

/-- The words of a write block that are answered OK, with `k` writes to come. -/
theorem blockWriteLoop_course {req : Byte} {k : Nat} {ws : List (Word × Word)} {xs : List Access} {more : List Byte}
    {f : Option (Byte × Byte)} {rest : List Bool} (s : State) (c : Half) {cs : List Cycle}
    (h : Course s ((ws.map fun x => ⟨req, x.1, x.2⟩) ++ xs) f cs rest)
    (hm : s.mem.req.drop s.mem.rd = (ws.map Prod.fst).flatMap bytes32 ++ more) : ∃ t ir d cs',
      blockWriteLoop req (ws.length + k) c s = blockWriteLoop req k (c + BitVec.ofNat 16 ws.length) t ∧
        cs = d ++ cs' ∧ Wired (skipped s (4 * ws.length)) t ir d ∧ t.mem.req.drop t.mem.rd = more ∧
          Course t xs f cs' rest := by
  induction ws generalizing s c cs with
  | nil => exact ⟨s, s.work.irCache, [], cs, by simp, rfl, .self s, by simpa using hm, by simpa using h⟩
  | cons v ws ih =>
    have hd : s.mem.req.drop s.mem.rd = bytes32 v.1 ++ ((ws.map Prod.fst).flatMap bytes32 ++ more) := by simpa using hm
    have h0 := reqRead4_word hd
    obtain ⟨t, d, cs', w, h1, h2, h3, h4, h5⟩ := Course.first (s := skipped s 4) (x := ⟨req, v.1, v.2⟩)
      (xs := (ws.map fun x => ⟨req, x.1, x.2⟩) ++ xs) ((Course.congr (s := s) rfl rfl rfl).mpr (by simpa using h))
    obtain ⟨u, ir, d2, cs2, g1, g2, g3, g4, g5⟩ := ih t (c + 1#16) h5 (by rw [h4.mem]; exact drop_skipped hd)
    refine ⟨u, ir, d ++ d2, cs2, ?_, by rw [h3, g2, List.append_assoc], ?_, g4, g5⟩
    · rw [List.length_cons, show ws.length + 1 + k = ws.length + k + 1 by omega, blockWriteLoop, h0]
      simp only [bind_ok, h1, if_true]
      rw [g1, Nat.add_comm ws.length 1, BitVec.ofNat_add, ← BitVec.add_assoc]
    · have := h4.skipped (4 * ws.length)
      rw [skipped_skipped, show 4 + 4 * ws.length = 4 * (ws.length + 1) by omega] at this
      exact this.trans g3

/-- A write of a block that fails: the words after it are skipped. -/
theorem blockWriteLoop_stops {req code : Byte} {n : Nat} {s : State} {c : Half} {w : Word} {left : List Byte}
    {cs : List Cycle} {rest : List Bool} (h : Course s [] (some (req, code)) cs rest)
    (hm : s.mem.req.drop s.mem.rd = bytes32 w ++ left) : ∃ t ir,
      blockWriteLoop req (n + 1) c s = (reqSkip4 n t).bind (fun _ u => .ok (code, c) u) ∧ Wired (skipped s 4) t ir cs ∧
        t.mem.req.drop t.mem.rd = left ∧ queue t = rest := by
  have h0 := reqRead4_word hm
  obtain ⟨t, d, h1, h2, h3, h4⟩ := Course.fails (s := skipped s 4) w ((Course.congr rfl rfl rfl).mpr h)
  refine ⟨t, _, ?_, h3, by rw [h3.mem]; exact drop_skipped hm, h4⟩
  rw [blockWriteLoop, h0]
  simp only [bind_ok, h1]
  exact if_neg h2

/-- RDBUFF after the writes of a block fails. -/
theorem blockWriteLoop_rdbuffFails {req code : Byte} {s : State} {c : Half} {cs : List Cycle} {rest : List Bool}
    (h : Course s [] (some (0x0e#8, code)) cs rest) : ∃ t ir,
      blockWriteLoop req 0 c s = .ok (code, c) t ∧ Wired s t ir cs ∧ queue t = rest := by
  obtain ⟨t, d, h1, -, h3, h4⟩ := h.fails 0#32
  refine ⟨t, _, ?_, h3, h4⟩
  rw [blockWriteLoop, show Config.rdbuffRead = 0x0e#8 from rfl, h1]
  rfl

/-- A word to be written is not there. -/
theorem blockWriteLoop_short {req : Byte} {n : Nat} {s : State} {c : Half} (h : s.mem.req.length < s.mem.rd + 4) :
    blockWriteLoop req (n + 1) c s = .framing ⟨s.mem.rd, 4⟩ s := by
  rw [blockWriteLoop, reqRead4_short h]
  rfl

/-! ### The body and the command -/

/-- The state the body's transfers run in: code and slots written besides. -/
def blockReady (s : State) : State := selectIndex s.work.blockIndex (blockStart s)

@[simp] theorem blockReady_driver (s : State) : (blockReady s).driver = (atBlock s).driver := by
  unfold blockReady selectIndex blockStart atBlock; split <;> rfl
@[simp] theorem blockReady_work (s : State) : (blockReady s).work = (atBlock s).work := by
  unfold blockReady selectIndex blockStart atBlock; split <;> rfl
@[simp] theorem blockReady_input (s : State) : (blockReady s).input = s.input := by
  unfold blockReady selectIndex blockStart; split <;> rfl
@[simp] theorem blockReady_mem (s : State) : (blockReady s).mem = (blockStart s).mem := by
  unfold blockReady selectIndex; split <;> rfl
@[simp] theorem blockReady_trace (s : State) : (blockReady s).trace = s.trace := by
  unfold blockReady selectIndex blockStart; split <;> rfl
@[simp] theorem blockReady_params (s : State) : (blockReady s).params = s.params := by
  unfold blockReady selectIndex blockStart; split <;> rfl
@[simp] theorem blockReady_batch (s : State) : (blockReady s).batch = s.batch := by
  unfold blockReady selectIndex blockStart; split <;> rfl
@[simp] theorem blockReady_sent (s : State) : (blockReady s).sent = s.sent := by
  unfold blockReady selectIndex blockStart; split <;> rfl

theorem atBlock_port (s : State) : (atBlock s).driver.port = s.driver.port := by unfold atBlock; split <;> rfl

theorem course_blockReady {s : State} {xs : List Access} {f : Option (Byte × Byte)} {cs : List Cycle} {rest : List Bool} :
    Course (blockReady s) xs f cs rest ↔ Course (atBlock s) xs f cs rest :=
  Course.congr (blockReady_driver s) (by rw [blockReady_work]) (blockReady_input s)

/-- Where transfers are answered or fail, the block's precondition holds. -/
theorem Course.precondition {s : State} {xs : List Access} {f : Option (Byte × Byte)} {cs : List Cycle} {rest : List Bool}
    (h : Course (atBlock s) xs f cs rest) : preconditionFails s.work.blockIndex s.driver = false := by
  unfold Course Answers AnswersThenFails at h
  rw [atBlock_port] at h
  unfold preconditionFails
  cases hp : s.driver.port with
  | swd => rfl
  | disabled => rw [hp] at h; cases f <;> exact h.elim
  | jtag =>
    rw [hp] at h
    have e : (atBlock s).driver = { s.driver with index := s.work.blockIndex } := by unfold atBlock; rw [if_pos hp]
    rw [e] at h
    have hi : s.work.blockIndex.toNat < s.driver.chain.length := by cases f <;> exact h.1
    exact decide_eq_false (by omega)

/-- The body on a ready port, of a block that has words. -/
theorem blockBody_ready {req : Byte} {s : State} (hp : preconditionFails s.work.blockIndex s.driver = false)
    (hn : s.work.blockCount ≠ 0#16) : blockBody req (blockStart s) =
      if reqRnW req then blockRead req s.work.blockCount.toNat (blockReady s)
      else blockWriteLoop req s.work.blockCount.toNat 0#16 (blockReady s) := by
  have hp' : preconditionFails (blockStart s).work.blockIndex (blockStart s).driver = false := hp
  have hc : (blockReady s).work.blockCount = s.work.blockCount := by rw [blockReady_work]; rfl
  unfold blockBody
  rw [if_neg (by rw [hp']; exact Bool.false_ne_true)]
  show (if (blockReady s).work.blockCount = 0#16 then _ else if reqRnW req then blockRead req (blockReady s).work.blockCount.toNat (blockReady s)
    else blockWriteLoop req (blockReady s).work.blockCount.toNat 0#16 (blockReady s)) = _
  rw [hc, if_neg hn]

/-- A block whose body ends in a FramingError. -/
theorem runBlock_of_framing {req : Byte} {s u : State} {e : FramingError} (hf : Fits s 4)
    (hb : blockBody req (blockStart s) = .framing e u) : runBlock req s = .next (takeFramingError e u) := by
  unfold runBlock respReserve
  unfold Fits at hf
  rw [respWrite_fits (by simp; omega)]
  simp only [bind_ok]
  rw [respWrite_fits (by simp; omega)]
  simp only [bind_ok]
  rw [respWrite_fits (by simp; omega)]
  simp only [bind_ok, List.replicate_succ, List.replicate_zero]
  unfold blockStart at hb
  rw [hb]
  simp

/-- What taking a FramingError leaves. -/
theorem framingEnds_of {s u : State} {e : FramingError} {cs : List Cycle} (hp : u.params = s.params)
    (hs : u.sent = s.sent) (ht : u.trace = s.trace ++ cs) :
    FramingEnds s (takeFramingError e u) e u.driver cs ∧ (takeFramingError e u).input = u.input := by
  unfold takeFramingError resetDriver
  cases hr : u.params.resetOnFramingError with
  | true =>
    have hr' : s.params.resetOnFramingError = true := hp ▸ hr
    refine ⟨⟨rfl, hs, rfl, rfl, rfl, rfl, ht, fun hn => absurd hn (by rw [hr']; decide), fun _ => ⟨?_, rfl⟩⟩, rfl⟩
    simp only [if_true]
    rw [hp]
  | false =>
    have hr' : s.params.resetOnFramingError = false := hp ▸ hr
    exact ⟨⟨rfl, hs, rfl, rfl, rfl, rfl, ht, fun _ => rfl, fun hn => absurd hn (by rw [hr']; decide)⟩, rfl⟩

/-- A block whose body has ended with a result, with the words `m` written and `n` bytes of the request read. -/
theorem runBlock_done {req r : Byte} {s u : State} {c : Half} {m : List Byte} {n : Nat} {cs : List Cycle}
    {rest : List Bool} {ir : Option IrSel} (hf : Fits s 4) (hb : blockBody req (blockStart s) = .ok (r, c) u)
    (hw : Wired (skipped (grown (blockReady s) m) n) u ir cs) (hq : queue u = rest) :
    ∃ t, runBlock req s = .next t ∧
      t.mem = { s.mem with rd := s.mem.rd + n, resp := s.mem.resp ++ [0x06#8] ++ bytes16 c ++ [r] ++ m } ∧
      t.trace = s.trace ++ cs ∧ t.work = Work.initial ∧ (s.batch = none → t.phase = .respond) ∧
      t.driver = (atBlock s).driver ∧ queue t = rest := by
  obtain ⟨t, h1, h2, h3, h4, h5, h6⟩ := runBlock_of_body (m := m) hf hb (by rw [hw.mem]; simp)
  refine ⟨t, h1, ?_, ?_, h5, ?_, ?_, ?_⟩
  · rw [h2, hw.mem]; simp [blockStart]
  · rw [h3.trace, hw.trace]; simp [skipped, grown]
  · intro hn; exact h6 (by rw [hw.batch]; simpa [skipped, grown] using hn)
  · rw [h4, hw.driver]; simp
  · unfold queue at *; rw [h3.input, h4]; exact hq

/-- A block whose body has ended in a FramingError, with `n` bytes of the request read. -/
theorem runBlock_framing {req : Byte} {s u : State} {e : FramingError} {n : Nat} {cs : List Cycle} {rest : List Bool}
    {ir : Option IrSel} (hf : Fits s 4) (hb : blockBody req (blockStart s) = .framing e u)
    (hw : Wired (skipped (blockReady s) n) u ir cs) (hq : queue u = rest) :
    ∃ t, runBlock req s = .next t ∧ (if s.driver.port = .jtag then t.input.tdo else t.input.swdio) = rest ∧
      FramingEnds s t e (atBlock s).driver cs := by
  obtain ⟨h1, h2⟩ := framingEnds_of (s := s) (u := u) (e := e) (cs := cs) (by rw [hw.params]; simp [skipped])
    (by obtain ⟨p, ta, i, f, rfl⟩ := hw; simp [skipped]) (by rw [hw.trace]; simp [skipped])
  have hd : u.driver = (atBlock s).driver := by rw [hw.driver]; simp
  refine ⟨_, runBlock_of_framing hf hb, ?_, by rwa [hd] at h1⟩
  rw [h2]
  unfold queue at hq
  rw [hd, atBlock_port] at hq
  exact hq

/-! ### A direction change fails in the first packet (R326) -/

theorem runBlock_of_fault {req : Byte} {s : State} {f : Fault} (hf : Fits s 4)
    (hb : blockBody req (blockStart s) = .fault f) : runBlock req s = .fault f := by
  unfold runBlock respReserve
  unfold Fits at hf
  rw [respWrite_fits (by simp; omega)]
  simp only [bind_ok]
  rw [respWrite_fits (by simp; omega)]
  simp only [bind_ok]
  rw [respWrite_fits (by simp; omega)]
  simp only [bind_ok, List.replicate_succ, List.replicate_zero]
  unfold blockStart at hb
  rw [hb]
  simp

/-- A block on SWD whose first word can be read, where it writes, clocks a packet first. -/
theorem runBlock_fatal {req : Byte} {s : State} (h : FailsInPacket s) (hf : Fits s 4) (hn : s.work.blockCount ≠ 0#16)
    (hw : reqRnW req = false → s.mem.rd + 4 ≤ s.mem.req.length) : runBlock req s = .fault .fatal := by
  have hr : FailsInPacket (blockReady s) := by
    unfold FailsInPacket
    rw [blockReady_input, blockReady_driver, atBlock_port]
    exact h
  obtain ⟨n, he⟩ : ∃ n, s.work.blockCount.toNat = n + 1 :=
    Nat.exists_eq_succ_of_ne_zero fun h0 => hn (BitVec.eq_of_toNat_eq (by simpa using h0))
  refine runBlock_of_fault hf ?_
  rw [blockBody_ready (by rw [preconditionFails, h.1]) hn, he]
  by_cases hq : reqRnW req = true
  · rw [if_pos hq, blockRead]
    split <;> simp [blockReadLoop, (transferRetry_fatal hr _ _).2]
  · have hl : (blockReady s).mem.rd + 4 ≤ (blockReady s).mem.req.length := by
      rw [blockReady_mem]
      exact hw (by simpa using hq)
    rw [if_neg hq, blockWriteLoop]
    unfold reqRead4 reqRead
    rw [if_pos hl]
    simp only [bind_ok]
    have ht := fun w => (transferRetry_fatal (s := skipped (blockReady s) 4) hr req w).2
    unfold skipped at ht
    rw [ht]
    rfl

end Sys2Proof.Machine
end

