-- ==== Sys2Proof/Laws/PerInstr.lean ====
section
/-! SUPPORT. Statements made per instruction: the first byte of an instruction's encoding meets the mask and match of its
row of the opcode table. -/

namespace Sys2Proof.Laws.TableMatch

/-- The mask and the match of an instruction's row in the opcode table; internal operations have none. -/
def row : Instr → Option (Byte × Byte)
  | .connect _ => some (0xff#8, 0x02#8)
  | .disconnect => some (0xff#8, 0x03#8)
  | .xferCfg _ _ _ => some (0xff#8, 0x04#8)
  | .transfer _ _ => some (0xff#8, 0x05#8)
  | .transferBlock _ _ => some (0xff#8, 0x06#8)
  | .swjClock _ => some (0xff#8, 0x11#8)
  | .swdCfg _ => some (0xff#8, 0x13#8)
  | .jtagCfg _ => some (0xff#8, 0x15#8)
  | .execCommands _ => some (0xff#8, 0x7f#8)
  | .dpR _ => some (0x13#8, 0x02#8)
  | .apR _ => some (0x13#8, 0x03#8)
  | .dpRM _ _ => some (0x13#8, 0x12#8)
  | .apRM _ _ => some (0x13#8, 0x13#8)
  | .dpW _ _ => some (0x23#8, 0x00#8)
  | .apW _ _ => some (0x23#8, 0x01#8)
  | .mask _ => some (0x22#8, 0x20#8)
  | .tbRead _ _ => some (0x02#8, 0x02#8)
  | .tbWrite _ _ => some (0x02#8, 0x00#8)
  | .swdHeader _ => some (0xc1#8, 0x81#8)
  | .swdPacket _ _ | .setIr _ | .readDr32 | .jtagTransferScan _ _ | .transferOp _ _
  | .transferRetry _ _ | .matchRead _ _ | .halfDelay _ | .clockCycle | .writeCycle _
  | .readCycle | .readWriteCycle _ | .swdOutEnable _ | .swdOutDisable | .jcycle _ _ => none

/-- The first byte of the encoding meets the row. -/
def Statement (i : Instr) : Prop :=
  ∀ bs, encode i = some bs → ∃ b rest m v, bs = b :: rest ∧ row i = some (m, v) ∧ b &&& m = v

/-- An encoding whose first byte is known. -/
theorem of_head {i : Instr} {b : Byte} {rest : List Byte} {m v : Byte} (he : encode i = some (b :: rest))
    (hr : row i = some (m, v)) (hm : b &&& m = v) : Statement i := by
  intro bs h
  rw [he] at h
  exact ⟨b, rest, m, v, (Option.some.inj h).symm, hr, hm⟩

/-- An instruction without an encoding. -/
theorem of_none {i : Instr} (he : encode i = none) : Statement i := by
  intro bs h
  rw [he] at h
  exact absurd h (by simp)

theorem connect (p : Byte) : Statement (.connect p) := of_head rfl rfl (by decide)
theorem disconnect : Statement (.disconnect) := of_head rfl rfl (by decide)
theorem xferCfg (i : Byte) (w : Half) (m : Half) : Statement (.xferCfg i w m) := of_head rfl rfl (by decide)
theorem transfer (i : Byte) (n : Byte) : Statement (.transfer i n) := of_head rfl rfl (by decide)
theorem transferBlock (i : Byte) (n : Half) : Statement (.transferBlock i n) := of_head rfl rfl (by decide)
theorem swjClock (hz : Word) : Statement (.swjClock hz) := of_head rfl rfl (by decide)
theorem swdCfg (c : Byte) : Statement (.swdCfg c) := of_head rfl rfl (by decide)
theorem jtagCfg (ls : List Byte) : Statement (.jtagCfg ls) := of_head rfl rfl (by decide)
theorem execCommands (n : Byte) : Statement (.execCommands n) := of_head rfl rfl (by decide)
theorem dpR (a : RegAddr) : Statement (.dpR a) :=
  of_head rfl rfl ((by decide : ∀ a : RegAddr, requestByte false true a false false &&& 0x13#8 = 0x02#8) a)
theorem apR (a : RegAddr) : Statement (.apR a) :=
  of_head rfl rfl ((by decide : ∀ a : RegAddr, requestByte true true a false false &&& 0x13#8 = 0x03#8) a)
theorem dpRM (a : RegAddr) (v : Word) : Statement (.dpRM a v) :=
  of_head rfl rfl ((by decide : ∀ a : RegAddr, requestByte false true a true false &&& 0x13#8 = 0x12#8) a)
theorem apRM (a : RegAddr) (v : Word) : Statement (.apRM a v) :=
  of_head rfl rfl ((by decide : ∀ a : RegAddr, requestByte true true a true false &&& 0x13#8 = 0x13#8) a)
theorem dpW (a : RegAddr) (v : Word) : Statement (.dpW a v) :=
  of_head rfl rfl ((by decide : ∀ a : RegAddr, requestByte false false a false false &&& 0x23#8 = 0x00#8) a)
theorem apW (a : RegAddr) (v : Word) : Statement (.apW a v) :=
  of_head rfl rfl ((by decide : ∀ a : RegAddr, requestByte true false a false false &&& 0x23#8 = 0x01#8) a)
theorem mask (v : Word) : Statement (.mask v) := of_head rfl rfl (by decide)
theorem tbRead (p : Bool) (a : RegAddr) : Statement (.tbRead p a) :=
  of_head rfl rfl ((by decide : ∀ (p : Bool) (a : RegAddr), requestByte p true a false false &&& 0x02#8 = 0x02#8) p a)
theorem tbWrite (p : Bool) (a : RegAddr) : Statement (.tbWrite p a) :=
  of_head rfl rfl ((by decide : ∀ (p : Bool) (a : RegAddr), requestByte p false a false false &&& 0x02#8 = 0x00#8) p a)
theorem swdHeader (r : BitVec 4) : Statement (.swdHeader r) :=
  of_head rfl rfl ((by decide : ∀ r : BitVec 4, headerByte r &&& 0xc1#8 = 0x81#8) r)
theorem swdPacket (q : Byte) (w : Word) : Statement (.swdPacket q w) := of_none rfl
theorem setIr (ir : Byte) : Statement (.setIr ir) := of_none rfl
theorem readDr32 : Statement (.readDr32) := of_none rfl
theorem jtagTransferScan (q : Byte) (w : Word) : Statement (.jtagTransferScan q w) := of_none rfl
theorem transferOp (q : Byte) (w : Word) : Statement (.transferOp q w) := of_none rfl
theorem transferRetry (q : Byte) (w : Word) : Statement (.transferRetry q w) := of_none rfl
theorem matchRead (q : Byte) (v : Word) : Statement (.matchRead q v) := of_none rfl
theorem halfDelay (r : Word) : Statement (.halfDelay r) := of_none rfl
theorem clockCycle : Statement (.clockCycle) := of_none rfl
theorem writeCycle (b : Bool) : Statement (.writeCycle b) := of_none rfl
theorem readCycle : Statement (.readCycle) := of_none rfl
theorem readWriteCycle (b : Bool) : Statement (.readWriteCycle b) := of_none rfl
theorem swdOutEnable (v : Bool) : Statement (.swdOutEnable v) := of_none rfl
theorem swdOutDisable : Statement (.swdOutDisable) := of_none rfl
theorem jcycle (tms tdi : Bool) : Statement (.jcycle tms tdi) := of_none rfl

end Sys2Proof.Laws.TableMatch
end

