-- ==== Sys2Proof/Tests/Slice0.lean ====
section
/-! SUPPORT. Tests: expected results are those of spec/95_test_vectors.md (named in each docstring) or are written out from
the spec's tables; and for every obligation with hypotheses a witness that meets them. -/

namespace Sys2Proof.Tests

open Sys2Proof Sys2Proof.Machine

set_option maxRecDepth 20000

/-! ### Helpers -/

/-- Bits written as 0 and 1. -/
def bits (ns : List Nat) : List Bool := ns.map (· == 1)

/-- Port SWD as Connect leaves it. -/
def swd : State :=
  { State.reset with
    driver := { State.reset.driver with port := .swd }
    pins := ⟨.high, .unknown, .unknown, .high, .high⟩ }

/-- Port JTAG with the chain of the given IR lengths, device `i` selected. -/
def jtag (lens : List Byte) (i : Byte) : State :=
  { State.reset with
    driver := { State.reset.driver with port := .jtag, chain := chainOf lens, index := i }
    pins := ⟨.high, .high, .high, .high, .high⟩ }

/-- At a command code, with the bytes of the request. -/
def atCommand (s : State) (bytes : List Byte) : State := { s with mem := ⟨bytes, 0, []⟩, phase := .command }

/-- At the first of `n` requests of a Transfer to device `i`, whose header has just run. -/
def inTransfer (s : State) (i : Byte) (n : Nat) (requests : List Byte) : State :=
  { s with
    mem := ⟨[0x05#8, i, BitVec.ofNat 8 n] ++ requests, 3, [0x05#8, 0#8, 0#8]⟩
    phase := .request
    work := { Work.initial with left := n, slotCompleted := 1, slotAck := 2 } }

/-- One posted read has been completed and is outstanding. -/
def afterRead (s : State) (ir : Option IrSel) : State :=
  { s with work := { s.work with postRead := true, completed := 1#8, lastAck := 1#8, irCache := ir } }

/-- At the request byte of a Transfer Block. -/
def inBlock (s : State) (i : Byte) (n : Half) (rest : List Byte) : State :=
  { s with
    mem := ⟨[0x06#8, i] ++ bytes16 n ++ rest, 4, []⟩
    phase := .blockRequest
    work := { Work.initial with blockIndex := i, blockCount := n } }

/-- Queue SWDIO samples. -/
def withSwdio (s : State) (bs : List Bool) : State := { s with input := { s.input with swdio := bs } }

/-- Queue TDO samples. -/
def withTdo (s : State) (bs : List Bool) : State := { s with input := { s.input with tdo := bs } }

/-- A draw of the pin direction that fails at once. -/
def badDirection (s : State) : State := { s with input := { s.input with dirFail := some 0 } }

/-- A field of the next state. -/
def after {α : Type} (o : Host.Outcome State Fault Refusal) (f : State → α) : Option α :=
  match o with
  | .next s => some (f s)
  | .fault _ => none
  | .refused _ => none

/-- The response and the number of cycles emitted. -/
def responseAndCycles (s : State) : List Byte × Nat := (s.mem.resp, s.trace.length)

/-- Results the packet and scan operations hand back, and the cycles. -/
def resultAndCycles (s : State) : Byte × Nat := (s.ret.res, s.trace.length)

/-- TMS and TDI of the JTAG records. -/
def jtagLines (s : State) : List Bool × List Bool :=
  (s.trace.map (fun c => match c with | .jtag m _ _ _ => m | .swd _ _ _ _ => false),
   s.trace.map (fun c => match c with | .jtag _ d _ _ => d | .swd _ _ _ _ => false))

/-- The levels the probe drives in the SWD records that it drives. -/
def driven (s : State) : List Bool :=
  s.trace.filterMap fun c => match c with | .swd _ o _ _ => o | .jtag _ _ _ _ => none

/-- The TDO samples of an OK scan of a one-device chain, idle 0. -/
def scanOk1 (v : Word) : List Bool := jtagOkAnswer [true, true, true] v [true, true]

/-! ### Ill-formed terms are refused -/

/-- JTAG Configure carries its count in one byte (R101). -/
theorem test_wellFormed_jtagCfg_refuses_256 :
    (Instr.jtagCfg (List.replicate 256 4#8)).wellFormed = false ∧
      (Instr.jtagCfg (List.replicate 255 4#8)).wellFormed = true := by decide

/-- HalfDelay's rate is at least 1 (R152). -/
theorem test_wellFormed_halfDelay_refuses_0 :
    (Instr.halfDelay 0#32).wellFormed = false ∧ (Instr.halfDelay 1#32).wellFormed = true := by decide

/-! ### Decoding: every encoded constructor, one word written out from 30_encoding R101, R104, R110, R114 -/

theorem test_decode_connect : decode .command [0x02#8, 0x01#8] = .instr (.connect 1#8) 2 := by decide
theorem test_decode_disconnect : decode .command [0x03#8] = .instr .disconnect 1 := by decide
theorem test_decode_xferCfg :
    decode .command [0x04#8, 0x02#8, 0x64#8, 0x00#8, 0x05#8, 0x01#8] = .instr (.xferCfg 2#8 100#16 0x105#16) 6 := by decide
theorem test_decode_transfer : decode .command [0x05#8, 0x01#8, 0x03#8, 0x0f#8] = .instr (.transfer 1#8 3#8) 3 := by decide
theorem test_decode_transferBlock :
    decode .command [0x06#8, 0x00#8, 0x03#8, 0x01#8, 0x0f#8] = .instr (.transferBlock 0#8 0x103#16) 4 := by decide
theorem test_decode_swjClock :
    decode .command [0x11#8, 0x20#8, 0x4e#8, 0x00#8, 0x00#8] = .instr (.swjClock 20000#32) 5 := by decide
theorem test_decode_swdCfg : decode .command [0x13#8, 0x05#8] = .instr (.swdCfg 5#8) 2 := by decide
theorem test_decode_jtagCfg :
    decode .command [0x15#8, 0x03#8, 0x04#8, 0x05#8, 0x03#8, 0x99#8] = .instr (.jtagCfg [4#8, 5#8, 3#8]) 5 := by decide
theorem test_decode_execCommands :
    decode .command [0x7f#8, 0x02#8, 0x03#8, 0x03#8] = .instr (.execCommands 2#8) 2 := by decide
theorem test_decode_dpR : decode .request [0x0e#8] = .instr (.dpR 3#2) 1 := by decide
theorem test_decode_apR : decode .request [0x07#8] = .instr (.apR 1#2) 1 := by decide
theorem test_decode_dpRM :
    decode .request [0x16#8, 0x01#8, 0x00#8, 0x00#8, 0x00#8] = .instr (.dpRM 1#2 1#32) 5 := by decide
theorem test_decode_apRM :
    decode .request [0x13#8, 0x01#8, 0x00#8, 0x00#8, 0x80#8] = .instr (.apRM 0#2 0x80000001#32) 5 := by decide
theorem test_decode_dpW :
    decode .request [0x08#8, 0x00#8, 0x00#8, 0x00#8, 0x20#8] = .instr (.dpW 2#2 0x20000000#32) 5 := by decide
theorem test_decode_apW :
    decode .request [0x0d#8, 0x78#8, 0x56#8, 0x34#8, 0x12#8] = .instr (.apW 3#2 0x12345678#32) 5 := by decide
theorem test_decode_mask :
    decode .request [0x20#8, 0xff#8, 0x00#8, 0x00#8, 0x00#8] = .instr (.mask 0xff#32) 5 := by decide
theorem test_decode_tbRead : decode .blockRequest [0x0f#8] = .instr (.tbRead true 3#2) 1 := by decide
theorem test_decode_tbWrite : decode .blockRequest [0x24#8] = .instr (.tbWrite false 1#2) 1 := by decide
theorem test_decode_swdHeader :
    decode .wireHeader [0xa5#8] = .instr (.swdHeader 2#4) 1 ∧ decode .wireHeader [0x85#8] = .notHeader 0x85#8 := by decide

/-! ### Commands (vectors C-n, S-n) -/

/-- C-1: `02 00` answers `02 02`, port JTAG, all lines high. -/
theorem test_connect_C1 :
    after (step (atCommand State.reset [0x02#8, 0x00#8])) (fun s => (s.mem.resp, s.driver.port, s.pins)) =
      some ([0x02#8, 0x02#8], .jtag, ⟨.high, .high, .high, .high, .high⟩) := by decide
/-- C-3: `02 03` on SWD answers `02 00` and leaves the port. -/
theorem test_connect_C3 :
    after (step (atCommand swd [0x02#8, 0x03#8])) (fun s => (s.mem.resp, s.driver.port)) =
      some ([0x02#8, 0x00#8], .swd) := by decide
/-- C-5: `03` answers `03 00`, port Disabled, SWDIO released. -/
theorem test_disconnect_C5 :
    after (step (atCommand (jtag [4#8] 0#8) [0x03#8])) (fun s => (s.mem.resp, s.driver.port, s.pins.swdioOe)) =
      some ([0x03#8, 0x00#8], .disabled, .low) := by decide
/-- C-7: the limits are not clamped. -/
theorem test_xferCfg_C7 :
    after (step (atCommand State.reset [0x04#8, 0x00#8, 0xff#8, 0xff#8, 0xff#8, 0xff#8]))
        (fun s => (s.mem.resp, s.driver.waitRetry, s.driver.matchRetry)) =
      some ([0x04#8, 0x00#8], 65535#16, 65535#16) := by decide
/-- C-8: `04 00 05` is a FramingError at 2 of width 2, after idle was written. -/
theorem test_xferCfg_C8 :
    after (step (atCommand State.reset [0x04#8, 0x09#8, 0x05#8]))
        (fun s => (s.driver.idleCycles, s.framing, s.driver.waitRetry, s.phase)) =
      some (9#8, some ⟨2, 2⟩, 100#16, .idle) := by decide
/-- S2: `11 20 4e 00 00` answers `11 00`; the delay becomes 25 000 ns. -/
theorem test_swjClock_S2 :
    after (step (atCommand State.reset [0x11#8, 0x20#8, 0x4e#8, 0x00#8, 0x00#8]))
        (fun s => (s.mem.resp, s.driver.clockRate, s.driver.halfDelay)) =
      some ([0x11#8, 0x00#8], 20000#32, 25000#32) := by decide
/-- C-10: rate 0 answers `11 ff` and changes nothing. -/
theorem test_swjClock_C10 :
    after (step (atCommand State.reset [0x11#8, 0x00#8, 0x00#8, 0x00#8, 0x00#8])) (fun s => (s.mem.resp, s.driver)) =
      some ([0x11#8, 0xff#8], State.reset.driver) := by decide
/-- C-11: `13 05` is trn 2, data phase on. -/
theorem test_swdCfg_C11 :
    after (step (atCommand State.reset [0x13#8, 0x05#8])) (fun s => (s.mem.resp, turnaround s.driver, s.driver.dataPhase)) =
      some ([0x13#8, 0x00#8], 2, true) := by decide
/-- R105: `13 03` is trn 4, data phase off. -/
theorem test_swdCfg_03 :
    after (step (atCommand State.reset [0x13#8, 0x03#8])) (fun s => (turnaround s.driver, s.driver.dataPhase)) =
      some (4, false) := by decide
/-- C-13: the bookkeeping of `15 03 04 05 03`. -/
theorem test_jtagCfg_C13 :
    after (step (atCommand State.reset [0x15#8, 0x03#8, 0x04#8, 0x05#8, 0x03#8])) (fun s => (s.mem.resp, s.driver.chain)) =
      some ([0x15#8, 0x00#8], [⟨4#8, 0#16, 8#16⟩, ⟨5#8, 4#16, 3#16⟩, ⟨3#8, 9#16, 0#16⟩]) := by decide
/-- S6: five devices are drained and refused with the whole request consumed. -/
theorem test_jtagCfg_S6 :
    after (step (atCommand (jtag [5#8] 0#8) [0x15#8, 0x05#8, 0x04#8, 0x04#8, 0x04#8, 0x04#8, 0x04#8]))
        (fun s => (s.mem.resp, s.mem.rd, s.driver.chain)) =
      some ([0x15#8, 0xff#8], 7, [⟨5#8, 0#16, 0#16⟩]) := by decide
/-- S5's header: `7f 02 03 03` writes the echo and goes to the first inner command. -/
theorem test_exec_S5 :
    after (step (atCommand State.reset [0x7f#8, 0x02#8, 0x03#8, 0x03#8]))
        (fun s => (s.mem.resp, s.mem.rd, s.phase, s.batch)) =
      some ([0x7f#8, 0x02#8], 2, .command, some 1) := by decide
/-- C-18, the inner command: `7f` inside a batch adds `ff` and ends the request. -/
theorem test_exec_C18 :
    after (step { State.reset with mem := ⟨[0x7f#8, 0x01#8, 0x7f#8, 0x00#8], 2, [0x7f#8, 0x01#8]⟩, phase := .command, batch := some 0 })
        (fun s => (s.mem.resp, s.phase)) =
      some ([0x7f#8, 0x01#8, 0xff#8], .respond) := by decide
/-- C-20, C-21: a code known to be unimplemented is answered `ff`; any other code without a rule is refused by name. -/
theorem test_codes_C20_C21 :
    after (step (atCommand { State.reset with params := { State.reset.params with unimplemented := [0x1d#8] } } [0x1d#8, 0x00#8]))
        (fun s => (s.mem.resp, s.phase)) = some ([0xff#8], .respond) ∧
      step (atCommand State.reset [0x00#8, 0x01#8]) = .refused (.commandWithoutRule 0#8) := ⟨by decide, rfl⟩

/-! ### Transfer and its requests on SWD (vectors V-n) -/

/-- V14: no requests: `05 00 00`, no cycle. -/
theorem test_transfer_V14 :
    after (step (atCommand swd [0x05#8, 0x00#8, 0x00#8])) (fun s => (responseAndCycles s, s.phase)) =
      some (([0x05#8, 0#8, 0#8], 0), .respond) := by decide
/-- Section 3: JTAG [4,5], `05 01 00` selects device 1. -/
theorem test_transfer_index :
    after (step (atCommand (jtag [4#8, 5#8] 0#8) [0x05#8, 0x01#8, 0x00#8])) (fun s => (s.mem.resp, s.driver.index)) =
      some ([0x05#8, 0#8, 0#8], 1#8) := by decide
/-- V1. -/
theorem test_dpR_V1 :
    after (step (withSwdio (inTransfer swd 0#8 1 [0x02#8]) (swdOkRead 0x2BA01477#32))) responseAndCycles =
      some ([0x05#8, 1#8, 1#8, 0x77#8, 0x14#8, 0xa0#8, 0x2b#8], 46) := by decide
/-- V4: a flipped parity bit is the result 0x08. -/
theorem test_dpR_V4 :
    after (step (withSwdio (inTransfer swd 0#8 1 [0x02#8]) (swdReadAnswer 0x2BA01477#32 true))) responseAndCycles =
      some ([0x05#8, 0#8, 0x08#8], 46) := by decide
/-- V2, its second request and the trailer: AP reads are posted. -/
theorem test_apR_V2 :
    after (exec (.apR 1#2) (withSwdio
        (afterRead (inTransfer swd 0#8 1 []) none)
        (swdOkRead 0x11111111#32 ++ swdOkRead 0x22222222#32))) responseAndCycles =
      some ([0x05#8, 2#8, 1#8, 0x11#8, 0x11#8, 0x11#8, 0x11#8, 0x22#8, 0x22#8, 0x22#8, 0x22#8], 92) := by decide
/-- V11: a match read that never matches. -/
theorem test_dpRM_V11 :
    after (step (withSwdio (inTransfer { swd with driver := { swd.driver with matchMask := 0xff#32, matchRetry := 1#16 } } 0#8 1
        [0x12#8, 0x01#8, 0x00#8, 0x00#8, 0x00#8]) (swdOkRead 0#32 ++ swdOkRead 0#32))) responseAndCycles =
      some ([0x05#8, 0#8, 0x11#8], 92) := by decide
/-- V12: an AP match read posts, then polls. -/
theorem test_apRM_V12 :
    after (step (withSwdio (inTransfer { swd with driver := { swd.driver with matchMask := 1#32, matchRetry := 5#16 } } 0#8 1
        [0x13#8, 0x01#8, 0x00#8, 0x00#8, 0x00#8]) (swdOkRead 7#32 ++ swdOkRead 0#32 ++ swdOkRead 1#32))) responseAndCycles =
      some ([0x05#8, 1#8, 1#8], 138) := by decide
/-- V3: a last write is checked through RDBUFF. -/
theorem test_dpW_V3 :
    after (step (withSwdio (inTransfer swd 0#8 1 [0x08#8, 0x00#8, 0x00#8, 0x00#8, 0x00#8]) (swdOkWrite ++ swdOkRead 0#32)))
        responseAndCycles =
      some ([0x05#8, 1#8, 1#8], 92) := by decide
/-- V7, its first request: FAULT starts the draining. -/
theorem test_dpW_V7 :
    after (step (withSwdio (inTransfer swd 0#8 2 [0x04#8, 0x01#8, 0x00#8, 0x00#8, 0x00#8, 0x02#8]) (bits [0, 0, 1])))
        (fun s => (s.work.lastAck, s.work.draining, s.work.completed, s.trace.length)) =
      some (4#8, true, 0#8, 13) := by decide
/-- V15. -/
theorem test_mask_V15 :
    after (step (inTransfer swd 0#8 1 [0x20#8, 0xff#8, 0x00#8, 0x00#8, 0x00#8]))
        (fun s => (responseAndCycles s, s.driver.matchMask)) =
      some (([0x05#8, 1#8, 1#8], 0), 0xff#32) := by decide
/-- V5: wait_retry 2, WAIT, WAIT, OK. -/
theorem test_retry_V5 :
    after (exec (.transferRetry 0x02#8 0#32) (withSwdio { swd with driver := { swd.driver with waitRetry := 2#16 } }
        (bits [0, 1, 0, 0, 1, 0] ++ swdOkRead 0x12345678#32))) (fun s => (resultAndCycles s, s.ret.data)) =
      some ((1#8, 72), 0x12345678#32) := by decide
/-- V6: wait_retry 1, WAIT twice. -/
theorem test_retry_V6 :
    after (exec (.transferRetry 0x02#8 0#32) (withSwdio { swd with driver := { swd.driver with waitRetry := 1#16 } }
        (bits [0, 1, 0, 0, 1, 0]))) resultAndCycles = some (2#8, 26) := by decide
/-- V20: a missing word is a FramingError at rd = 4 and sends nothing. -/
theorem test_request_V20 :
    after (step (inTransfer swd 0#8 1 [0x00#8])) (fun s => (s.framing, s.mem.resp, s.phase, s.trace.length)) =
      some (some ⟨4, 4⟩, [], .idle, 0) := by decide
/-- A request of a sequence whose configuration failed is drained (V13). -/
theorem test_request_V13 :
    after (step { inTransfer State.reset 0#8 1 [0x02#8] with
                  work := { Work.initial with left := 1, draining := true, slotCompleted := 1, slotAck := 2 } })
        responseAndCycles = some ([0x05#8, 0#8, 0#8], 0) := by decide

/-! ### The packet and the header -/

/-- The headers `0x0, 0x2, 0xD, 0xF` of R115. -/
theorem test_header_bytes :
    [headerByte 0x0#4, headerByte 0x2#4, headerByte 0xd#4, headerByte 0xf#4] = [0x81#8, 0xa5#8, 0xbb#8, 0x9f#8] := by decide
/-- 95 section 2.1: header 0xA5 is sent `1 0 1 0 0 1 0 1`. -/
theorem test_swdHeader_A5 :
    after (exec (.swdHeader 0x2#4) swd) driven = some (bits [1, 0, 1, 0, 0, 1, 0, 1]) := by decide
/-- The listing of V1: driven bits, then the parked line. -/
theorem test_packet_V1 :
    after (exec (.swdPacket 0x02#8 0#32) (withSwdio swd (bits [1, 0, 0] ++
        bits [1, 1, 1, 0, 1, 1, 1, 0, 0, 0, 1, 0, 1, 0, 0, 0, 0, 0, 0, 0, 0, 1, 0, 1, 1, 1, 0, 1, 0, 1, 0, 0] ++ [false])))
        (fun s => (resultAndCycles s, s.ret.data, driven s, s.pins.swdioOe, s.pins.swdioOut)) =
      some ((1#8, 46), 0x2BA01477#32, bits [1, 0, 1, 0, 0, 1, 0, 1], .high, .high) := by decide
/-- V17: protocol error 7 with trn 2. -/
theorem test_packet_V17 :
    after (exec (.swdPacket 0x02#8 0#32) (withSwdio { swd with driver := { swd.driver with trnField := 1#2 } } (bits [1, 1, 1])))
        resultAndCycles = some (7#8, 48) := by decide
/-- P-5, P-6: the data parity of R205. -/
theorem test_dataParity : dataParity 0x2BA01477#32 = false ∧ dataParity 0x4BA00477#32 = true := by decide

/-! ### JTAG (vectors J-n, JT-n) -/

/-- J2. -/
theorem test_setIr_J2 :
    after (exec (.setIr 0x0b#8) (jtag [4#8, 5#8, 3#8] 1#8)) jtagLines =
      some (bits [1,1,0,0,0,0,0,0,0,0,0,0,0,0,0,1,1,0], bits [1,1,1,1,1,1,1,1,1,1,0,1,0,1,1,1,1,1]) := by decide
/-- J2b: the value is cut to the IR's width. -/
theorem test_setIr_J2b :
    after (exec (.setIr 0x0b#8) (jtag [4#8, 5#8, 3#8] 2#8)) jtagLines =
      some (bits [1,1,0,0,0,0,0,0,0,0,0,0,0,0,0,1,1,0], bits [1,1,1,1,1,1,1,1,1,1,1,1,1,1,1,0,1,1]) := by decide
/-- J7: the word after one bypass bit. -/
theorem test_readDr32_J7 :
    after (exec .readDr32 (withTdo (jtag [4#8, 5#8] 1#8) (bits [0, 0, 0, 1] ++ bitsOf 0x4BA00477#32)))
        (fun s => (s.ret.data, s.trace.length, (jtagLines s).1)) =
      some (0x4BA00477#32, 38, bits [1, 0, 0, 0] ++ List.replicate 31 false ++ bits [1, 1, 0]) := by decide
/-- J4: a write to the middle device. -/
theorem test_scan_J4 :
    after (exec (.jtagTransferScan 0x04#8 0x80000001#32) (withTdo (jtag [4#8, 5#8, 3#8] 1#8) (bits [1, 1, 1, 1, 0, 1, 0])))
        (fun s => (s.ret.res, jtagLines s)) =
      some (1#8, bits [1, 0, 0] ++ List.replicate 36 false ++ bits [1, 1, 0],
        bits [1, 1, 1, 1, 0, 1, 0, 1] ++ List.replicate 30 false ++ bits [1, 1, 1, 1]) := by decide
/-- J5: WAIT cuts the scan short. -/
theorem test_scan_J5 :
    after (exec (.jtagTransferScan 0x02#8 0#32) (withTdo (jtag [4#8, 5#8, 3#8] 1#8) (bits [1, 1, 1, 1, 1, 0, 0])))
        (fun s => (s.ret.res, jtagLines s)) =
      some (2#8, bits [1,0,0,0,0,0,0,1,1,0], bits [1,1,1,1,1,0,0,1,1,1]) := by decide
/-- JT1: a posted DP read, its trailer, on a fresh IR cache. -/
theorem test_dpR_JT1 :
    after (step (withTdo (inTransfer (jtag [4#8] 0#8) 0#8 1 [0x02#8])
        (List.replicate 10 true ++ scanOk1 0#32 ++ scanOk1 0x4BA00477#32))) responseAndCycles =
      some ([0x05#8, 1#8, 1#8, 0x77#8, 0x04#8, 0xa0#8, 0x4b#8], 90) := by decide
/-- JT2: an AP write, then the IR changes for the RDBUFF trailer. -/
theorem test_apW_JT2 :
    after (step (withTdo (inTransfer (jtag [4#8] 0#8) 0#8 1 [0x05#8, 0x00#8, 0x00#8, 0x00#8, 0x20#8])
        (List.replicate 10 true ++ scanOk1 0#32 ++ List.replicate 10 true ++ scanOk1 0#32))) responseAndCycles =
      some ([0x05#8, 1#8, 1#8], 100) := by decide
/-- R243: RDBUFF answered FAULT before a write stops before `post_read <- false`; before a DP read, after it. -/
theorem test_apW_rdbuff_fails :
    after (exec (.apW 1#2 7#32) (withSwdio (afterRead (inTransfer swd 0#8 2 []) none) (bits [0, 0, 1])))
        (fun s => (s.work.postRead, s.work.lastAck, s.work.completed)) = some (true, 4#8, 1#8) ∧
      after (exec (.dpR 1#2) (withSwdio (afterRead (inTransfer swd 0#8 2 []) none) (bits [0, 0, 1])))
        (fun s => (s.work.postRead, s.work.lastAck, s.work.completed)) = some (false, 4#8, 1#8) := by decide
/-- JT5's second request: a read of the other space collects through RDBUFF, with the IR changed twice. -/
theorem test_apR_JT5 :
    after (exec (.apR 0#2) (withTdo
        (afterRead (inTransfer (jtag [4#8] 0#8) 0#8 1 []) (some .dpacc))
        (scanOk1 0x1234#32 ++ List.replicate 10 true ++ scanOk1 0#32 ++ List.replicate 10 true ++ scanOk1 0x5678#32)))
        responseAndCycles =
      some ([0x05#8, 2#8, 1#8, 0x34#8, 0x12#8, 0#8, 0#8, 0x78#8, 0x56#8, 0#8, 0#8], 140) := by decide
/-- R230: the operation on a disabled port, which no caller issues; and on SWD it is the packet. -/
theorem test_transferOp :
    exec (.transferOp 0x02#8 0#32) State.reset = .fault .transferWhileDisabled ∧
      after (exec (.transferOp 0x02#8 0#32) (withSwdio swd (bits [0, 1, 0]))) resultAndCycles = some (2#8, 13) := ⟨rfl, by decide⟩
/-- R247: an AP match read whose post step is answered FAULT does not poll. -/
theorem test_matchRead_post_fails :
    after (exec (.matchRead 0x13#8 1#32) (withSwdio swd (bits [0, 0, 1]))) resultAndCycles = some (4#8, 13) := by decide
/-- J1's IR scan takes an ideal TAP through Shift-IR back to Run-Test/Idle; a cut scan also ends there (R170). -/
theorem test_taps :
    after (exec (.setIr 0x0a#8) (jtag [4#8] 0#8)) (fun s => s.taps) = some (List.replicate 4 .runTestIdle) ∧
      Tap.run .runTestIdle (bits [1, 1, 0, 0]) = .shiftIr ∧ Tap.run .runTestIdle (bits [1, 0, 0]) = .shiftDr := by decide

/-! ### Transfer Block (vectors B-n) -/

/-- B1. -/
theorem test_tbRead_B1 :
    after (step (withSwdio (inBlock swd 0#8 3#16 [0x0f#8])
        (swdOkRead 9#32 ++ swdOkRead 1#32 ++ swdOkRead 2#32 ++ swdOkRead 3#32))) responseAndCycles =
      some ([0x06#8, 3#8, 0#8, 1#8] ++ bytes32 1#32 ++ bytes32 2#32 ++ bytes32 3#32, 184) := by decide
/-- B5. -/
theorem test_tbRead_B5 :
    after (step (withTdo (inBlock (jtag [4#8] 0#8) 0#8 2#16 [0x0f#8])
        (List.replicate 10 true ++ scanOk1 0#32 ++ scanOk1 7#32 ++ List.replicate 10 true ++ scanOk1 8#32))) responseAndCycles =
      some ([0x06#8, 2#8, 0#8, 1#8] ++ bytes32 7#32 ++ bytes32 8#32, 140) := by decide
/-- B4: FAULT on the second write; the third word is drained. -/
theorem test_tbWrite_B4 :
    after (step (withSwdio (inBlock swd 0#8 3#16 ([0x0d#8] ++ bytes32 1#32 ++ bytes32 2#32 ++ bytes32 3#32))
        (swdOkWrite ++ bits [0, 0, 1]))) (fun s => (responseAndCycles s, s.mem.rd)) =
      some (([0x06#8, 1#8, 0#8, 4#8], 59), 17) := by decide
/-- B6: Disabled; the words are drained. -/
theorem test_tbWrite_B6 :
    after (step (inBlock State.reset 0#8 2#16 ([0x0d#8] ++ bytes32 1#32 ++ bytes32 2#32)))
        (fun s => (responseAndCycles s, s.mem.rd)) =
      some (([0x06#8, 0#8, 0#8, 0#8], 0), 13) := by decide
/-- B8's header holds index and count until the request byte. -/
theorem test_transferBlock_B8 :
    after (step (atCommand swd [0x06#8, 0x00#8, 0x00#8, 0x00#8, 0x0f#8])) (fun s => (s.phase, s.work.blockCount, s.mem.rd)) =
      some (.blockRequest, 0#16, 4) := by decide

/-! ### Bit Engine (95 section 2.2) -/

/-- H-3, H-4, H-5, H-6. -/
theorem test_halfDelay :
    [halfDelayOf 3#32, halfDelayOf 300000#32, halfDelayOf 500000000#32, halfDelayOf 500000001#32, halfDelayOf 0xffffffff#32] =
      [166666666#32, 1666#32, 1#32, 0#32, 0#32] := by decide
/-- HALF_DELAY writes the field (R152, H-2). -/
theorem test_halfDelay_writes :
    after (exec (.halfDelay 20000#32) State.reset) (fun s => (s.driver.halfDelay, s.ret.data)) = some (25000#32, 25000#32) := by
  decide
/-- `clock_cycle()` with SWDIO released. -/
theorem test_clockCycle :
    after (exec .clockCycle { swd with pins := { swd.pins with swdioOe := .low } }) (fun s => s.trace) =
      some [.swd false none none 500#32] := by decide
/-- `write_cycle(1)`. -/
theorem test_writeCycle :
    after (exec (.writeCycle true) swd) (fun s => s.trace) = some [.swd true (some true) none 500#32] := by decide
/-- `read_cycle()` with the target driving 0. -/
theorem test_readCycle :
    after (exec .readCycle (withSwdio swd [false])) (fun s => (s.trace, s.ret.bit)) =
      some ([.swd false none (some false) 500#32], false) := by decide
/-- `read_write_cycle(0)` with the probe driving and the sample 1 (R159). -/
theorem test_readWriteCycle :
    after (exec (.readWriteCycle false) (withSwdio swd [true])) (fun s => (s.trace, s.ret.bit)) =
      some ([.swd true (some false) (some true) 500#32], true) := by decide
/-- `JCycle(1, 0)` with TDO 1. -/
theorem test_jcycle :
    after (exec (.jcycle true false) (withTdo (jtag [4#8] 0#8) [true])) (fun s => (s.trace, s.ret.bit)) =
      some ([.jtag true false true 500#32], true) := by decide
/-- `SwdOutEnable(0)` then drives a low level, without a cycle (R155). -/
theorem test_swdOutEnable :
    after (exec (.swdOutEnable false) State.reset) (fun s => (s.pins.swdioOe, s.pins.swdioOut, s.trace)) =
      some (.high, .low, []) := by decide
/-- `SwdOutDisable()` releases the line (R155); a failing direction change is Fatal (R326). -/
theorem test_swdOutDisable :
    after (exec .swdOutDisable swd) (fun s => (s.pins.swdioOe, s.pins.swdioOut)) = some (.low, .high) ∧
      exec .swdOutDisable (badDirection swd) = .fault .fatal := ⟨by decide, rfl⟩

/-! ### Table words and the fetch (Log 23) -/

/-- A command's table word is fetched and run as the first instruction after reset. -/
theorem test_withFetchWord_connect :
    decodeTableWord 8 0x02 = some (.connect 0#8) ∧
      after (step (State.reset.withFetchWord 8 0x02)) (fun s => s.mem.resp) = some [0x02#8, 0x02#8] := by decide
/-- A transfer request's table word is run as the one request of a Transfer: after reset, on a disabled port, drained. -/
theorem test_withFetchWord_dpRM :
    decodeTableWord 8 0x12 = some (.dpRM 0#2 0#32) ∧
      after (step (State.reset.withFetchWord 8 0x12)) (fun s => s.mem.resp) = some [0x05#8, 0#8, 0#8] := by decide
/-- The wire header's table word. -/
theorem test_decodeTableWord_header : decodeTableWord 8 0x81 = some (.swdHeader 0#4) := by decide

/-! ### Witnesses: for each obligation, states and operands that meet its hypotheses, clause by clause -/

/-- An outcome is a next state. -/
def isNext (o : Host.Outcome State Fault Refusal) : Bool :=
  match o with
  | .next _ => true
  | .fault _ => false
  | .refused _ => false

/-- Such an outcome is some next state. -/
theorem exists_next {o : Host.Outcome State Fault Refusal} (h : isNext o = true) : ∃ t, o = .next t := by
  cases o with
  | next t => exact ⟨t, rfl⟩
  | fault f => cases h
  | refused r => cases h

/-- The response has exactly `n` bytes left. -/
def room (s : State) (n : Nat) : State :=
  { s with params := { s.params with responseCapacity := s.mem.resp.length + n } }

/-- JTAG, the last device of a full chain, TAPs at rest. -/
def lastOfFour : State := jtag [1#8, 255#8, 4#8, 3#8] 3#8

/-- A device of a full chain that is neither first nor last. -/
def secondOfFour : State := jtag [1#8, 255#8, 4#8, 3#8] 1#8

theorem witness_DecodeEncode :
    (∃ bs, WellFormed (.jtagCfg (List.replicate 255 255#8)) ∧
      (Instr.jtagCfg (List.replicate 255 255#8)).context = some .command ∧
      encode (.jtagCfg (List.replicate 255 255#8)) = some bs) ∧
    (∃ bs, WellFormed (.apRM 3#2 0xffffffff#32) ∧ (Instr.apRM 3#2 0xffffffff#32).context = some .request ∧
      encode (.apRM 3#2 0xffffffff#32) = some bs) ∧
    (∃ bs, WellFormed (.tbWrite true 3#2) ∧ (Instr.tbWrite true 3#2).context = some .blockRequest ∧
      encode (.tbWrite true 3#2) = some bs) ∧
    ∃ bs, WellFormed (.swdHeader 15#4) ∧ (Instr.swdHeader 15#4).context = some .wireHeader ∧
      encode (.swdHeader 15#4) = some bs :=
  ⟨⟨_, by decide, by decide, rfl⟩, ⟨_, by decide, by decide, rfl⟩, ⟨_, by decide, by decide, rfl⟩,
    ⟨_, by decide, by decide, rfl⟩⟩

theorem witness_DecodedIsWellFormed :
    ∃ (c : Context) (bs : List Byte) (i : Instr) (n : Nat), decode c bs = .instr i n :=
  ⟨.command, [0x15#8, 0x01#8, 0xff#8, 0x00#8], .jtagCfg [0xff#8], 3, by decide⟩

theorem witness_DecodeReadsOnlyItsBytes :
    ∃ (c : Context) (bs : List Byte) (i : Instr) (n : Nat), decode c bs = .instr i n ∧ n < bs.length :=
  ⟨.request, [0x02#8, 0xff#8], .dpR 0#2, 1, by decide⟩

theorem witness_IgnoredRequestBits_read :
    ∃ b b' : Byte, b ≠ b' ∧ b.getLsbD 1 = true ∧ b.extractLsb' 0 4 = b'.extractLsb' 0 4 ∧
      (if b.getLsbD 1 then b.getLsbD 4 = b'.getLsbD 4 else b.getLsbD 5 = b'.getLsbD 5) :=
  ⟨0x12#8, 0xf2#8, by decide⟩

theorem witness_IgnoredRequestBits_write :
    ∃ b b' : Byte, b ≠ b' ∧ b.getLsbD 1 = false ∧ b.extractLsb' 0 4 = b'.extractLsb' 0 4 ∧
      (if b.getLsbD 1 then b.getLsbD 4 = b'.getLsbD 4 else b.getLsbD 5 = b'.getLsbD 5) :=
  ⟨0x2c#8, 0xfc#8, by decide⟩

/-- A MASK with the register and space bits all 0 and all 1; a block read and a block write with the match bits 0 and 1. -/
theorem witness_IgnoredRequestBits_mask :
    (∃ b b' : Byte, b ≠ b' ∧ b.getLsbD 1 = false ∧ b.getLsbD 5 = true ∧ b'.getLsbD 1 = false ∧ b'.getLsbD 5 = true) ∧
      (∃ b b' : Byte, b ≠ b' ∧ b.getLsbD 1 = true ∧ b.extractLsb' 0 4 = b'.extractLsb' 0 4) ∧
      ∃ b b' : Byte, b ≠ b' ∧ b.getLsbD 1 = false ∧ b.extractLsb' 0 4 = b'.extractLsb' 0 4 :=
  ⟨⟨0x20#8, 0xfd#8, by decide⟩, ⟨0x0f#8, 0xff#8, by decide⟩, ⟨0x04#8, 0xf4#8, by decide⟩⟩

theorem witness_StepRunsDecoded_command :
    ∃ s : State, s.phase = .command ∧ isNestedBatch s = false ∧ decode .command (pending s) = .instr (.swdCfg 5#8) 2 :=
  ⟨atCommand swd [0x13#8, 0x05#8], by decide⟩

theorem witness_StepRunsDecoded_request :
    ∃ s : State, s.phase = .request ∧ decode .request (pending s) = .instr (.dpR 0#2) 1 :=
  ⟨inTransfer swd 0#8 1 [0x02#8], by decide⟩

theorem witness_StepRunsDecoded_block :
    ∃ s : State, s.phase = .blockRequest ∧ decode .blockRequest (pending s) = .instr (.tbRead true 3#2) 1 :=
  ⟨inBlock swd 0#8 1#16 [0x0f#8], by decide⟩

/-- Exactly the bytes asked remain; one fewer; and four or more. -/
theorem witness_ReqReadRule :
    (∃ s : State, s.mem.rd + 2 ≤ s.mem.req.length ∧ s.mem.rd + 2 = s.mem.req.length) ∧
    (∃ s : State, s.mem.req.length < s.mem.rd + 2 ∧ s.mem.req.length + 1 = s.mem.rd + 2) ∧
    ∃ s : State, s.mem.req.drop s.mem.rd = 1#8 :: 2#8 :: 3#8 :: 4#8 :: [5#8] :=
  ⟨⟨{ swd with mem := ⟨[1#8, 2#8, 3#8], 1, []⟩ }, by decide⟩, ⟨{ swd with mem := ⟨[1#8, 2#8, 3#8], 2, []⟩ }, by decide⟩,
    ⟨{ swd with mem := ⟨[0#8, 1#8, 2#8, 3#8, 4#8, 5#8], 1, []⟩ }, by decide⟩⟩

/-- A response with exactly the room, and with one byte too few; a configuration command's answer, and a read's word, that
lack one byte of room. -/
theorem witness_ReqReadRule_response :
    (∃ (s : State) (bs : List Byte), s.mem.resp.length + bs.length ≤ s.params.responseCapacity ∧
      s.mem.resp.length + bs.length = s.params.responseCapacity) ∧
    (∃ (s : State) (bs : List Byte), s.params.responseCapacity < s.mem.resp.length + bs.length ∧
      s.params.responseCapacity + 1 = s.mem.resp.length + bs.length) ∧
    (∀ i ∈ [Instr.xferCfg 1#8 2#16 3#16, .swjClock 0#32, .swdCfg 1#8, .jtagCfg [4#8]],
      ∃ s : State, s.params.responseCapacity < s.mem.resp.length + 2 ∧
        ((∃ a b c, i = .xferCfg a b c) ∨ (∃ c, i = .swjClock c) ∨ (∃ c, i = .swdCfg c) ∨ (∃ l, i = .jtagCfg l))) ∧
    ∃ (s : State) (v : Word) (rest : List Bool), s.driver.port = .swd ∧ s.input.dirFail = none ∧
      s.work.draining = false ∧ s.work.postRead = false ∧ s.params.responseCapacity < s.mem.resp.length + 4 ∧
      s.input.swdio = swdOkRead v ++ rest := by
  refine ⟨⟨room swd 2, [1#8, 2#8], by decide⟩, ⟨room swd 1, [1#8, 2#8], by decide⟩, ?_,
    ⟨withSwdio (room (inTransfer swd 0#8 2 []) 3) (swdOkRead 7#32 ++ []), 7#32, [], by decide⟩⟩
  intro i hi
  refine ⟨room swd 1, by decide, ?_⟩
  simp only [List.mem_cons, List.not_mem_nil, or_false] at hi
  rcases hi with rfl | rfl | rfl | rfl
  · exact .inl ⟨_, _, _, rfl⟩
  · exact .inr (.inl ⟨_, rfl⟩)
  · exact .inr (.inr (.inl ⟨_, rfl⟩))
  · exact .inr (.inr (.inr ⟨_, rfl⟩))

theorem witness_TruncatedRequest_command :
    ∃ s : State, s.phase = .command ∧ isNestedBatch s = false ∧ decode .command (pending s) = .short 2 2 ∧
      s.params.resetOnFramingError = false :=
  ⟨atCommand swd [0x04#8, 0x02#8, 0x64#8], by decide⟩

theorem witness_TruncatedRequest_request :
    ∃ s : State, s.phase = .request ∧ decode .request (pending s) = .short 1 4 ∧ s.params.resetOnFramingError = true :=
  ⟨{ inTransfer swd 0#8 1 [0x00#8, 0x01#8] with params := { State.reset.params with resetOnFramingError := true } },
    by decide⟩

theorem witness_TruncatedRequest_block : ∃ s : State, s.phase = .blockRequest ∧ decode .blockRequest (pending s) = .short 0 1 :=
  ⟨inBlock swd 0#8 1#16 [], by decide⟩

/-- A truncated command that has written nothing: it is no Transfer Configure. -/
theorem witness_TruncatedRequest_other :
    ∃ s : State, s.phase = .command ∧ isNestedBatch s = false ∧ decode .command (pending s) = .short 1 1 ∧
      s.params.resetOnFramingError = false ∧ (pending s).head? ≠ some 0x04#8 :=
  ⟨atCommand swd [0x02#8], by decide⟩

/-- Each way a Transfer Configure can be cut short. -/
theorem witness_TruncatedRequest_xferCfg :
    ∀ bytes ∈ [[0x04#8], [0x04#8, 0xff#8], [0x04#8, 0xff#8, 0x01#8], [0x04#8, 0xff#8, 0x01#8, 0x02#8],
        [0x04#8, 0xff#8, 0x01#8, 0x02#8, 0x03#8]],
      (atCommand swd bytes).phase = .command ∧ isNestedBatch (atCommand swd bytes) = false ∧
        pending (atCommand swd bytes) = bytes ∧ (atCommand swd bytes).params.resetOnFramingError = false := by
  decide

/-- A request of exactly REQUEST_CAPACITY bytes; a response; no event. -/
theorem witness_HostExchange :
    (∃ (s : State) (bytes : List Byte) (evs : List HostEvent), s.phase = .idle ∧
      s.input.recv = .request bytes :: evs ∧ bytes.length ≤ s.params.requestCapacity ∧
      bytes.length = s.params.requestCapacity) ∧
    (∃ s : State, s.phase = .respond ∧ s.input.sendFail = [false, true] ∧ s.input.sendFail.head? ≠ some true) ∧
    ∃ s : State, s.phase = .idle ∧ s.input.recv = [] :=
  ⟨⟨{ swd with
        params := { State.reset.params with requestCapacity := 2 }
        input := { State.reset.input with recv := [.request [0x02#8, 0x01#8], .disconnect] } },
      [0x02#8, 0x01#8], [.disconnect], by decide⟩,
    ⟨{ swd with phase := .respond, input := { State.reset.input with sendFail := [false, true] } }, by decide⟩, ⟨State.reset, by decide⟩⟩

theorem witness_DisconnectResets :
    (∃ s : State, s.phase = .idle ∧ ∃ evs, s.input.recv = .disconnect :: evs) ∧
    ∃ s : State, s.phase = .respond ∧ s.input.sendFail.head? = some true :=
  ⟨⟨{ swd with input := { State.reset.input with recv := [.disconnect] } }, by decide, [], by decide⟩,
    ⟨{ swd with phase := .respond, input := { State.reset.input with sendFail := [true, true] } }, by decide⟩⟩

theorem witness_EventsOnlyBetweenRequests :
    ∃ s t : State, s.phase ≠ .idle ∧ s.input.recv ≠ [] ∧ step s = .next t := by
  have h : isNext (step (atCommand { swd with input := { State.reset.input with recv := [.disconnect] } } [0x03#8])) = true := by
    decide
  obtain ⟨t, ht⟩ := exists_next h
  exact ⟨_, t, by decide, by decide, ht⟩

/-- A disconnect of a machine with the decided parameters. -/
theorem witness_ResetValues :
    ∃ (s : State) (evs : List HostEvent), s.phase = .idle ∧ s.driver.port = .swd ∧ s.input.recv = .disconnect :: evs ∧
      s.params.defaultClockHz = 1000000#32 ∧ s.params.configDefaults = ⟨0#2, false, 0#8, 100#16, 0#16, 0#32⟩ :=
  ⟨{ swd with input := { State.reset.input with recv := [.disconnect] } }, [], by decide⟩

theorem witness_CodesWithoutRule_refused :
    ∃ (s : State) (code : Byte) (rest : List Byte), s.phase = .command ∧ isNestedBatch s = false ∧
      pending s = code :: rest ∧
      code ∉ [0x02#8, 0x03#8, 0x04#8, 0x05#8, 0x06#8, 0x11#8, 0x13#8, 0x15#8, 0x7f#8] ∧ code ∉ s.params.unimplemented :=
  ⟨atCommand swd [0x1c#8, 0x00#8], 0x1c#8, [0x00#8], by decide⟩

theorem witness_CodesWithoutRule_unimplemented :
    ∃ (s : State) (code : Byte) (rest : List Byte), s.phase = .command ∧ isNestedBatch s = false ∧
      pending s = code :: rest ∧
      code ∉ [0x02#8, 0x03#8, 0x04#8, 0x05#8, 0x06#8, 0x11#8, 0x13#8, 0x15#8, 0x7f#8] ∧ code ∈ s.params.unimplemented ∧
      s.mem.resp.length + 1 ≤ s.params.responseCapacity :=
  ⟨atCommand { swd with params := { State.reset.params with responseCapacity := 1, unimplemented := [0x1d#8] } } [0x1d#8, 0x00#8], 0x1d#8, [0x00#8], by decide⟩

theorem witness_NestedBatchRefused (code : Byte) (h : code = 0x7f#8 ∨ code = 0x7e#8) :
    ∃ (s : State) (k : Nat) (rest : List Byte), s.phase = .command ∧ s.batch = some k ∧ pending s = code :: rest ∧
      (code = 0x7f#8 ∨ code = 0x7e#8) ∧ Fits s 1 :=
  ⟨{ swd with mem := ⟨[0x7f#8, 0x01#8, code], 2, [0x7f#8, 0x01#8]⟩, phase := .command, batch := some 0
              params := { State.reset.params with responseCapacity := 3 } }, 0, [], rfl, rfl, rfl, h, by unfold Fits; exact Nat.le_refl _⟩

/-- Connect and Disconnect, with exactly the room they need. -/
theorem witness_ConnectSelects_DisconnectReleases :
    ∃ s : State, Fits s 2 ∧ s.input.dirFail = none ∧ s.mem.resp.length + 2 = s.params.responseCapacity ∧
      3 ≤ (3#8 : Byte).toNat := ⟨room swd 2, by unfold Fits; decide⟩

theorem witness_ConnectSelects_twice :
    ∃ (s t u : State) (p : Byte), s.input.dirFail = none ∧ Fits s 4 ∧ exec (.connect p) s = .next t ∧
      exec (.connect p) t = .next u :=
  ⟨room State.reset 4, _, _, 1#8, by decide, by unfold Fits; decide, rfl, rfl⟩

theorem witness_DirectionChanges :
    (∃ s : State, s.input.dirFail = none) ∧ ∃ s : State, s.input.dirFail = some 0 ∧ (2#8 : Byte).toNat ≤ 2 :=
  ⟨⟨swd, by decide⟩, ⟨badDirection swd, by decide⟩⟩

/-- Each of a packet's two direction changes, at a request of each kind. -/
theorem witness_DirectionChanges_packet :
    ∀ k ∈ [0, 1], ∃ s : State, (s.input.dirFail = some 0 ∨ s.input.dirFail = some 1) ∧ s.input.dirFail = some k ∧
      s.driver.port = .swd ∧ s.work.draining = false ∧
      ∀ i ∈ [Instr.dpR 0#2, .apR 3#2, .dpW 2#2 0#32, .apW 1#2 0#32, .dpRM 0#2 0#32, .apRM 0#2 0#32],
        plainRequest i ≠ none ∨ matchRequest i ≠ none := by
  intro k hk
  refine ⟨{ swd with input := { swd.input with dirFail := some k } }, ?_, rfl, rfl, rfl, by decide⟩
  simp only [List.mem_cons, List.not_mem_nil, or_false] at hk
  rcases hk with rfl | rfl
  · exact .inl rfl
  · exact .inr rfl

/-- Each of a packet's two direction changes, at a MASK with a read outstanding, at a last MASK with a write to check, and at a
block with the room it needs, whose first word is there and no more. -/
theorem witness_DirectionChanges_mask_block :
    ∀ k ∈ [0, 1],
      (∃ s : State, s.input.dirFail = some k ∧ s.driver.port = .swd ∧ s.work.draining = false ∧ s.work.postRead = true) ∧
      (∃ s : State, s.input.dirFail = some k ∧ s.driver.port = .swd ∧ s.work.draining = false ∧
        s.work.checkWrite = true ∧ s.work.left ≤ 1 ∧ s.work.left = 1) ∧
      ∃ s : State, s.input.dirFail = some k ∧ s.driver.port = .swd ∧ Fits s 4 ∧ s.work.blockCount ≠ 0#16 ∧
        s.mem.rd + 4 ≤ s.mem.req.length ∧ s.mem.rd + 4 = s.mem.req.length :=
  fun k _ => ⟨⟨{ afterRead (inTransfer swd 0#8 2 []) none with input := { swd.input with dirFail := some k } }, rfl, rfl, rfl, rfl⟩,
    ⟨{ swd with work := { Work.initial with checkWrite := true, left := 1 }, input := { swd.input with dirFail := some k } },
      rfl, rfl, rfl, rfl, Nat.le_refl 1, rfl⟩,
    ⟨{ room (inBlock swd 0#8 2#16 (bytes32 7#32)) 4 with input := { swd.input with dirFail := some k } }, rfl, rfl, Nat.le_refl _,
      (by decide : (2#16 : Half) ≠ 0#16), (by decide : 4 + 4 ≤ 8), rfl⟩⟩

/-- Transfer Configure, SWJ Clock, SWD Configure: two bytes of room, exactly. -/
theorem witness_TwoByteAnswers :
    ∃ s : State, Fits s 2 ∧ s.mem.resp.length + 2 = s.params.responseCapacity ∧ (1#32 : Word) ≠ 0#32 :=
  ⟨room (jtag [4#8] 0#8) 2, by unfold Fits; decide⟩

theorem witness_JtagCfgBuilds_decode :
    (∃ (n : Byte) (lens : List Byte), lens.length = n.toNat ∧ n = 255#8) ∧
      ∃ (n : Byte) (lens : List Byte), lens.length = n.toNat ∧ n = 0#8 :=
  ⟨⟨255#8, List.replicate 255 1#8, by decide⟩, ⟨0#8, [], by decide⟩⟩

theorem witness_JtagCfgBuilds_refuses :
    (∃ (s : State) (lens : List Byte), Fits s 2 ∧ (4 < lens.length ∨ ∃ l ∈ lens, l = 0#8) ∧ lens.length = 5) ∧
      ∃ (s : State) (lens : List Byte), Fits s 2 ∧ (4 < lens.length ∨ ∃ l ∈ lens, l = 0#8) ∧ lens.length = 4 :=
  ⟨⟨room swd 2, [1#8, 1#8, 1#8, 1#8, 1#8], by unfold Fits; decide⟩,
    ⟨room swd 2, [1#8, 1#8, 1#8, 0#8], by unfold Fits; decide⟩⟩

theorem witness_JtagCfgBuilds_accepts :
    (∃ (s : State) (lens : List Byte), Fits s 2 ∧ lens.length ≤ 4 ∧ (∀ l ∈ lens, l ≠ 0#8) ∧ lens.length = 4) ∧
      ∃ (s : State) (lens : List Byte), Fits s 2 ∧ lens.length ≤ 4 ∧ (∀ l ∈ lens, l ≠ 0#8) ∧ lens.length = 0 :=
  ⟨⟨room swd 2, [255#8, 255#8, 255#8, 1#8], by unfold Fits; decide⟩, ⟨room swd 2, [], by unfold Fits; decide⟩⟩

theorem witness_BatchRuns :
    (∃ s : State, s.batch = none ∧ Fits s 2) ∧ (∃ s : State, s.batch = some 0 ∧ Fits s 1) ∧
      (∃ s : State, s.batch = some (0 + 1)) ∧ ∃ s : State, s.batch = none ∨ s.batch = some 0 :=
  ⟨⟨room swd 2, by unfold Fits; decide⟩, ⟨{ room swd 1 with batch := some 0 }, by unfold Fits; decide⟩,
    ⟨{ swd with batch := some 1 }, by decide⟩, ⟨swd, by decide⟩⟩

/-- Every command completes with the room it needs, and with none ends in a FramingError, which is a next state too. -/
theorem witness_CommandFrame :
    ∀ i ∈ [Instr.xferCfg 255#8 0#16 65535#16, .swjClock 0#32, .swjClock 1#32, .swdCfg 255#8, .jtagCfg [1#8], .jtagCfg [0#8],
        .execCommands 0#8, .transferBlock 255#8 65535#16, .connect 0#8, .connect 255#8, .disconnect],
      (∃ t, exec i (room swd 2) = .next t) ∧ ∃ t, exec i (room swd 0) = .next t := by
  intro i hi
  refine ⟨exists_next ?_, exists_next ?_⟩ <;> revert i <;> decide

theorem witness_CycleRecords :
    (∃ s : State, s.pins.swdioOe = .low) ∧
      (∀ v : Bool, ∃ s : State, s.pins.swdioOe = .high ∧ s.pins.swdioOut = (if v then .high else .low)) ∧
      (∃ s : State, s.pins.swdioOe ≠ .unknown) ∧
      (∃ (s : State) (a : Bool) (as : List Bool), s.input.swdio = a :: as ∧ s.input.tdo = a :: as) ∧
      ∃ s : State, s.input.swdio = [] ∧ s.input.tdo = [] :=
  ⟨⟨{ swd with pins := { swd.pins with swdioOe := .low } }, by decide⟩,
    fun v => ⟨{ swd with pins := { swd.pins with swdioOut := if v then .high else .low } }, rfl, rfl⟩, ⟨swd, by decide⟩,
    ⟨withTdo (withSwdio swd [true]) [true], true, [], by decide⟩, ⟨swd, by decide⟩⟩

theorem witness_HalfDelayFloor : (1#32 : Word) ≠ 0#32 ∧ (0xffffffff#32 : Word) ≠ 0#32 := by decide

/-- A 1-bit and a 255-bit IR. -/
theorem witness_SetIrScan :
    (∃ (s : State) (d : Device), s.driver.chain[s.driver.index.toNat]? = some d ∧ d.irLength ≠ 0#8 ∧ d.irLength = 1#8) ∧
      ∃ (s : State) (d : Device), s.driver.chain[s.driver.index.toNat]? = some d ∧ d.irLength ≠ 0#8 ∧ d.irLength = 255#8 :=
  ⟨⟨jtag [1#8, 255#8, 4#8, 3#8] 0#8, ⟨1#8, 0#16, 262#16⟩, by decide⟩, ⟨secondOfFour, ⟨255#8, 1#16, 7#16⟩, by decide⟩⟩

/-- A device between others, its IR of 255 bits, and the last of four. -/
theorem witness_ScanBitsPlaced :
    (∃ (s : State) (d : Device), s.driver.chain[s.driver.index.toNat]? = some d ∧ d.irLength ≠ 0#8 ∧ d.irBitsBefore = 1#16 ∧
      d.irBitsAfter = 7#16) ∧
    (∃ s : State, s.driver.index.toNat < s.driver.chain.length ∧ s.driver.index = 3#8) ∧
    ∃ s : State, s.driver.index.toNat < s.driver.chain.length ∧ s.driver.chain.length = 1 :=
  ⟨⟨secondOfFour, ⟨255#8, 1#16, 7#16⟩, by decide⟩, ⟨lastOfFour, by decide⟩, ⟨jtag [4#8] 0#8, by decide⟩⟩

/-- The last of four devices, and the only device. -/
theorem witness_ReadDrWord :
    (∃ (s : State) (v : Word) (pre post rest : List Bool), s.driver.index.toNat < s.driver.chain.length ∧
      pre.length = s.driver.index.toNat + 3 ∧ post.length = 2 ∧ s.input.tdo = pre ++ bitsOf v ++ post ++ rest ∧
      s.driver.index.toNat = 3) ∧
    ∃ (s : State) (v : Word) (pre post rest : List Bool), s.driver.index.toNat < s.driver.chain.length ∧
      pre.length = s.driver.index.toNat + 3 ∧ post.length = 2 ∧ s.input.tdo = pre ++ bitsOf v ++ post ++ rest ∧
      s.driver.chain.length = 1 :=
  ⟨⟨withTdo lastOfFour (bits [1, 1, 1, 0, 0, 0] ++ bitsOf 0x4BA00477#32 ++ bits [1, 1] ++ [true]), 0x4BA00477#32,
      bits [1, 1, 1, 0, 0, 0], bits [1, 1], [true], by decide⟩,
    ⟨withTdo (jtag [4#8] 0#8) (bits [1, 1, 1] ++ bitsOf 5#32 ++ bits [1, 1] ++ []), 5#32, bits [1, 1, 1], bits [1, 1], [],
      by decide⟩⟩

/-- The last of four devices with no idle cycles, and the second of four with three. -/
theorem witness_TransferScanOk :
    (∃ (s : State) (v : Word) (pre post rest : List Bool), s.driver.index.toNat < s.driver.chain.length ∧
      pre.length = s.driver.index.toNat + 3 ∧
      post.length = s.driver.chain.length - 1 - s.driver.index.toNat + 2 + s.driver.idleCycles.toNat ∧
      s.input.tdo = jtagOkAnswer pre v post ++ rest ∧ s.driver.index.toNat = 3) ∧
    ∃ (s : State) (v : Word) (pre post rest : List Bool), s.driver.index.toNat < s.driver.chain.length ∧
      pre.length = s.driver.index.toNat + 3 ∧
      post.length = s.driver.chain.length - 1 - s.driver.index.toNat + 2 + s.driver.idleCycles.toNat ∧
      s.input.tdo = jtagOkAnswer pre v post ++ rest ∧ s.driver.idleCycles = 3#8 :=
  ⟨⟨withTdo lastOfFour (jtagOkAnswer (bits [1, 1, 1, 0, 0, 0]) 7#32 (bits [1, 1]) ++ [false]), 7#32, bits [1, 1, 1, 0, 0, 0],
      bits [1, 1], [false], by decide⟩,
    ⟨withTdo { secondOfFour with driver := { secondOfFour.driver with idleCycles := 3#8 } }
      (jtagOkAnswer (bits [1, 1, 1, 0]) 7#32 (bits [1, 1, 1, 1, 1, 1, 1]) ++ []), 7#32, bits [1, 1, 1, 0],
      bits [1, 1, 1, 1, 1, 1, 1], [], by decide⟩⟩

theorem witness_TransferScanNotOk :
    ∃ (s : State) (pre rest : List Bool) (t0 t1 t2 : Bool), s.driver.index.toNat < s.driver.chain.length ∧
      pre.length = s.driver.index.toNat + 3 ∧ (t0, t1, t2) ≠ (false, true, false) ∧
      s.input.tdo = pre ++ [t0, t1, t2] ++ rest :=
  ⟨withTdo lastOfFour (bits [1, 1, 1, 0, 0, 0] ++ [true, true, true] ++ []), bits [1, 1, 1, 0, 0, 0], [], true, true, true,
    by decide⟩

/-- Every scan, and every operation over scans, completes on JTAG with the TAPs at rest. -/
theorem witness_ScansReturnToIdle :
    ∀ i ∈ [Instr.setIr 0x0a#8, .readDr32, .jtagTransferScan 0x02#8 0#32, .transferOp 0x02#8 0#32, .transferRetry 0x02#8 0#32,
        .matchRead 0x02#8 0#32],
      TapsIdle (withTdo (jtag [4#8] 0#8) (List.replicate 60 true)) ∧
        (∀ d ∈ (withTdo (jtag [4#8] 0#8) (List.replicate 60 true)).driver.chain, d.irLength ≠ 0#8) ∧
        ∃ t, exec i (withTdo (jtag [4#8] 0#8) (List.replicate 60 true)) = .next t := by
  intro i hi
  refine ⟨by unfold TapsIdle; decide, by decide, exists_next ?_⟩
  revert i
  decide

theorem witness_ScanIndexStops :
    ∃ s : State, s.driver.chain.length ≤ s.driver.index.toNat ∧ s.driver.chain.length = s.driver.index.toNat :=
  ⟨jtag [4#8, 5#8] 2#8, by decide⟩

/-- A right and a wrong parity bit. -/
theorem witness_PacketReads (p : Bool) :
    ∃ (s : State) (req : Byte) (v : Word) (rest : List Bool), req.getLsbD 1 = true ∧ s.input.dirFail = none ∧
      s.input.swdio = swdReadAnswer v p ++ rest :=
  ⟨withSwdio swd (swdReadAnswer 5#32 p ++ [true]), 0x0f#8, 5#32, [true], by decide, rfl, rfl⟩

theorem witness_PacketWrites :
    ∃ (s : State) (req : Byte) (rest : List Bool), req.getLsbD 1 = false ∧ s.input.dirFail = none ∧
      s.input.swdio = swdOkWrite ++ rest := ⟨withSwdio swd (swdOkWrite ++ [true]), 0x0d#8, [true], by decide⟩

theorem witness_PacketWaitsOrFaults (a dataPhase : Bool) :
    ∃ (s : State) (rest : List Bool), s.input.dirFail = none ∧ s.input.swdio = [false, a, !a] ++ rest ∧
      s.driver.dataPhase = dataPhase :=
  ⟨withSwdio { swd with driver := { swd.driver with dataPhase := dataPhase } } ([false, a, !a] ++ []), [], rfl, rfl, rfl⟩

theorem witness_PacketProtocolErrors :
    ∃ (s : State) (a0 a1 a2 : Bool) (rest : List Bool), (a0, a1, a2) ≠ (true, false, false) ∧
      (a0, a1, a2) ≠ (false, true, false) ∧ (a0, a1, a2) ≠ (false, false, true) ∧ s.input.dirFail = none ∧
      s.input.swdio = [a0, a1, a2] ++ rest := ⟨withSwdio swd [false, false, false], false, false, false, [], by decide⟩

/-- Every wire operation completes. -/
theorem witness_WireOperationsFrame :
    (∀ i ∈ [Instr.swdPacket 0x02#8 0#32, .swdHeader 15#4, .clockCycle, .writeCycle true, .readCycle, .readWriteCycle true,
        .swdOutEnable true, .swdOutDisable, .transferOp 0x02#8 0#32, .transferRetry 0x02#8 0#32, .matchRead 0x02#8 0#32],
      ∃ t, exec i (withSwdio swd (List.replicate 3 true)) = .next t) ∧
    ∀ i ∈ [Instr.setIr 0x0a#8, .readDr32, .jtagTransferScan 0x02#8 0#32, .jcycle true true],
      ∃ t, exec i (withTdo (jtag [4#8] 0#8) (List.replicate 60 true)) = .next t := by
  refine ⟨?_, ?_⟩ <;> intro i hi <;> refine exists_next ?_ <;> revert i <;> decide

theorem witness_TransferDispatches_ports :
    (∃ s : State, s.driver.port = .swd) ∧ (∃ s : State, s.driver.port = .disabled) ∧
    ∃ (s : State) (req : Byte), s.driver.port = .jtag ∧
      s.work.irCache = some (if req.getLsbD 0 then .apacc else .dpacc) :=
  ⟨⟨swd, by decide⟩, ⟨State.reset, by decide⟩, ⟨afterRead (jtag [4#8] 0#8) (some .apacc), 0x03#8, by decide⟩⟩

theorem witness_TransferDispatches_ir :
    ∃ (s : State) (req : Byte) (v : Word) (d : Device) (irs pre post rest : List Bool), s.driver.port = .jtag ∧
      s.work.irCache ≠ some (if req.getLsbD 0 then .apacc else .dpacc) ∧ selected s.driver = some d ∧
      irs.length = d.irBitsBefore.toNat + d.irLength.toNat + d.irBitsAfter.toNat + 6 ∧
      pre.length = s.driver.index.toNat + 3 ∧
      post.length = s.driver.chain.length - 1 - s.driver.index.toNat + 2 + s.driver.idleCycles.toNat ∧
      s.input.tdo = irs ++ jtagOkAnswer pre v post ++ rest :=
  ⟨withTdo (jtag [4#8] 0#8) (List.replicate 10 true ++ scanOk1 7#32 ++ []), 0x02#8, 7#32, ⟨4#8, 0#16, 0#16⟩,
    List.replicate 10 true, bits [1, 1, 1], bits [1, 1], [], by decide⟩

theorem witness_TransferDispatches_swd :
    ∃ (s : State) (req : Byte) (v : Word) (rest : List Bool), s.driver.port = .swd ∧ req.getLsbD 1 = true ∧
      s.input.dirFail = none ∧ s.input.swdio = swdOkRead v ++ rest :=
  ⟨withSwdio swd (swdOkRead 7#32 ++ []), 0x02#8, 7#32, [], by decide⟩

/-- As many WAITs as the limit allows, with the data phase generated; a read and a write. -/
theorem witness_RetryCounts_ok :
    ∀ req ∈ [0x02#8, 0x00#8], ∃ (s : State) (v : Word) (k : Nat) (rest : List Bool), s.driver.port = .swd ∧
      s.driver.dataPhase = true ∧ s.input.dirFail = none ∧ k ≤ s.driver.waitRetry.toNat ∧
      k = s.driver.waitRetry.toNat ∧
      s.input.swdio = (List.replicate k [false, true, false]).flatten ++
        (if (req : Byte).getLsbD 1 then swdOkRead v else swdOkWrite) ++ rest := by
  intro req _
  exact ⟨withSwdio { swd with driver := { swd.driver with waitRetry := 2#16, dataPhase := true } }
    ((List.replicate 2 [false, true, false]).flatten ++ (if req.getLsbD 1 then swdOkRead 7#32 else swdOkWrite) ++ []), 7#32, 2, [],
    rfl, rfl, rfl, Nat.le_refl _, rfl, rfl⟩

theorem witness_RetryCounts_exhausted :
    ∃ (s : State) (rest : List Bool), s.driver.port = .swd ∧ s.input.dirFail = none ∧ s.driver.waitRetry = 0#16 ∧
      s.input.swdio = (List.replicate (s.driver.waitRetry.toNat + 1) [false, true, false]).flatten ++ rest :=
  ⟨withSwdio { swd with driver := { swd.driver with waitRetry := 0#16 } } [false, true, false], [], by decide⟩

theorem witness_MatchReadPolls_match :
    ∃ (s : State) (req : Byte) (mv v : Word) (vs : List Word) (rest : List Bool), s.driver.port = .swd ∧
      req.getLsbD 0 = false ∧ req.getLsbD 1 = true ∧ s.input.dirFail = none ∧
      vs.length ≤ s.driver.matchRetry.toNat ∧ vs.length = s.driver.matchRetry.toNat ∧
      (∀ x ∈ vs, x &&& s.driver.matchMask ≠ mv) ∧ v &&& s.driver.matchMask = mv ∧
      s.input.swdio = (vs ++ [v]).flatMap swdOkRead ++ rest :=
  ⟨withSwdio { swd with driver := { swd.driver with matchRetry := 1#16, matchMask := 1#32 } }
      (swdOkRead 0#32 ++ swdOkRead 3#32), 0x12#8, 1#32, 3#32, [0#32], [], rfl, rfl, rfl, rfl,
    by decide, rfl, fun x hx => by cases List.mem_singleton.mp hx; decide, by decide,
    by simp only [withSwdio, List.cons_append, List.nil_append, List.flatMap_cons, List.flatMap_nil, List.append_nil]⟩

theorem witness_MatchReadPolls_mismatch :
    ∃ (s : State) (req : Byte) (mv : Word) (vs : List Word) (rest : List Bool), s.driver.port = .swd ∧
      req.getLsbD 0 = false ∧ req.getLsbD 1 = true ∧ s.input.dirFail = none ∧
      vs.length = s.driver.matchRetry.toNat + 1 ∧ (∀ x ∈ vs, x &&& s.driver.matchMask ≠ mv) ∧
      s.input.swdio = vs.flatMap swdOkRead ++ rest :=
  ⟨withSwdio swd (swdOkRead 0#32), 0x12#8, 1#32, [0#32], [], rfl, rfl, rfl, rfl, rfl,
    fun x hx => by cases List.mem_singleton.mp hx; decide,
    by simp only [withSwdio, List.flatMap_cons, List.flatMap_nil, List.append_nil]⟩

/-- An outstanding read or none, on SWD in a Transfer with two requests left, with exactly the room needed. -/
def midTransfer (outstanding : Bool) (n : Nat) : State :=
  room { inTransfer swd 0#8 2 [] with
         work := { Work.initial with left := 2, postRead := outstanding, slotCompleted := 1, slotAck := 2 } } n

theorem witness_DpReadImmediate (outstanding : Bool) :
    ∃ (s : State) (v v0 : Word) (rest : List Bool), s.driver.port = .swd ∧ s.input.dirFail = none ∧
      s.work.draining = false ∧ 2 ≤ s.work.left ∧ Fits s 8 ∧ s.work.postRead = outstanding ∧
      s.input.swdio = (if s.work.postRead then swdOkRead v0 else []) ++ swdOkRead v ++ rest :=
  ⟨withSwdio (midTransfer outstanding 8) ((if outstanding then swdOkRead 6#32 else []) ++ swdOkRead 7#32 ++ []), 7#32, 6#32, [],
    rfl, rfl, rfl, by decide +revert, by unfold Fits; decide +revert, rfl, rfl⟩

theorem witness_ApReadPosted (outstanding : Bool) :
    ∃ (s : State) (v : Word) (rest : List Bool), s.driver.port = .swd ∧ s.input.dirFail = none ∧
      s.work.draining = false ∧ 2 ≤ s.work.left ∧ Fits s 4 ∧ s.work.postRead = outstanding ∧
      s.input.swdio = swdOkRead v ++ rest :=
  ⟨withSwdio (midTransfer outstanding 4) (swdOkRead 7#32 ++ []), 7#32, [], rfl, rfl, rfl, by decide +revert,
    by unfold Fits; decide +revert, rfl, rfl⟩

/-- What TDO gives during transfers answered OK: ones where nothing is asked of it. -/
def answersOf (d : Driver) : Option IrSel → List Access → List Bool
  | _, [] => []
  | ir, x :: xs => List.replicate (irLines d ir x.req).length true ++
      jtagOkAnswer (List.replicate (d.index.toNat + 3) true) x.answer
        (List.replicate (d.chain.length - 1 - d.index.toNat + 2 + d.idleCycles.toNat) true) ++
      answersOf d (some (spaceOf x.req)) xs

theorem jtagAnswers_answersOf (d : Driver) (ir : Option IrSel) (xs : List Access) :
    JtagAnswers d ir xs (answersOf d ir xs) := by
  induction xs generalizing ir with
  | nil => rfl
  | cons x xs ih => exact ⟨_, _, _, _, rfl, by simp, by simp, by simp, ih _⟩

/-- In a Transfer on JTAG with `n` requests left, a read outstanding or none, the IR holding `ir`, `k` bytes of room. -/
def midJtag (outstanding : Bool) (ir : Option IrSel) (n k : Nat) : State :=
  room { inTransfer (jtag [4#8, 5#8] 1#8) 1#8 n [] with
         work := { Work.initial with left := n, postRead := outstanding, irCache := ir, slotCompleted := 1, slotAck := 2 } } k

/-- With and without a read outstanding; the IR unknown, holding the space, holding the other one. -/
theorem witness_JtagReadPosted (ap outstanding : Bool) :
    ∀ ir ∈ [none, some IrSel.apacc, some IrSel.dpacc],
      ∃ (s : State) (v v1 : Word) (ans rest : List Bool) (req : Byte) (xs : List Access), s.driver.port = .jtag ∧
        s.driver.index.toNat < s.driver.chain.length ∧ s.work.draining = false ∧ 2 ≤ s.work.left ∧ Fits s 4 ∧
        s.work.postRead = outstanding ∧ s.work.irCache = ir ∧
        req = (if ap then 0x03#8 else 0x02#8) ||| ((3#2 : RegAddr).zeroExtend 8 <<< 2) ∧
        xs = (if s.work.postRead = true ∧ s.work.irCache ≠ some (if ap then .apacc else .dpacc) then
          [⟨0x0e#8, 0#32, v⟩, ⟨req, 0#32, v1⟩] else [⟨req, 0#32, v⟩]) ∧
        JtagAnswers s.driver s.work.irCache xs ans ∧ s.input.tdo = ans ++ rest := by
  intro ir _
  let req : Byte := (if ap then 0x03#8 else 0x02#8) ||| ((3#2 : RegAddr).zeroExtend 8 <<< 2)
  let xs : List Access := if outstanding = true ∧ ir ≠ some (if ap then .apacc else .dpacc) then
    [⟨0x0e#8, 0#32, 7#32⟩, ⟨req, 0#32, 8#32⟩] else [⟨req, 0#32, 7#32⟩]
  exact ⟨withTdo (midJtag outstanding ir 2 4) (answersOf (midJtag outstanding ir 2 4).driver ir xs ++ []), 7#32, 8#32, _, [], req,
    xs, rfl, (by decide : (1 : Nat) < 2), rfl, Nat.le_refl _, by unfold Fits; exact Nat.le_refl _, rfl, rfl, rfl, rfl,
    jtagAnswers_answersOf _ _ _, rfl⟩

theorem witness_WriteRequests (outstanding : Bool) :
    ∃ (s : State) (v0 : Word) (rest : List Bool), s.driver.port = .swd ∧ s.input.dirFail = none ∧
      s.work.draining = false ∧ 2 ≤ s.work.left ∧ Fits s 4 ∧ s.work.postRead = outstanding ∧
      s.input.swdio = (if s.work.postRead then swdOkRead v0 else []) ++ swdOkWrite ++ rest :=
  ⟨withSwdio (midTransfer outstanding 4) ((if outstanding then swdOkRead 6#32 else []) ++ swdOkWrite ++ []), 6#32, [],
    rfl, rfl, rfl, by decide +revert, by unfold Fits; decide +revert, rfl, rfl⟩

theorem witness_WriteRequests_jtag (ap outstanding : Bool) :
    ∀ ir ∈ [none, some IrSel.apacc, some IrSel.dpacc],
      ∃ (s : State) (w v0 v1 : Word) (ans rest : List Bool) (xs : List Access), s.driver.port = .jtag ∧
        s.driver.index.toNat < s.driver.chain.length ∧ s.work.draining = false ∧ 2 ≤ s.work.left ∧ Fits s 4 ∧
        s.work.postRead = outstanding ∧ s.work.irCache = ir ∧
        xs = (if s.work.postRead then [⟨0x0e#8, 0#32, v0⟩] else []) ++
          [⟨(if ap then 1#8 else 0#8) ||| ((2#2 : RegAddr).zeroExtend 8 <<< 2), w, v1⟩] ∧
        JtagAnswers s.driver s.work.irCache xs ans ∧ s.input.tdo = ans ++ rest := by
  intro ir _
  let xs : List Access := (if outstanding = true then [⟨0x0e#8, 0#32, 7#32⟩] else []) ++
    [⟨(if ap then 1#8 else 0#8) ||| ((2#2 : RegAddr).zeroExtend 8 <<< 2), 9#32, 8#32⟩]
  exact ⟨withTdo (midJtag outstanding ir 2 4) (answersOf (midJtag outstanding ir 2 4).driver ir xs ++ []), 9#32, 7#32, 8#32, _, [],
    xs, rfl, (by decide : (1 : Nat) < 2), rfl, Nat.le_refl _, by unfold Fits; exact Nat.le_refl _, rfl, rfl, rfl,
    jtagAnswers_answersOf _ _ _, rfl⟩

theorem witness_MatchRequests_match (ap : Bool) :
    ∃ (s : State) (mv v v0 : Word) (rest : List Bool), s.driver.port = .swd ∧ s.input.dirFail = none ∧
      s.work.draining = false ∧ s.work.postRead = false ∧ 2 ≤ s.work.left ∧ v &&& s.driver.matchMask = mv ∧
      s.input.swdio = (if ap then swdOkRead v0 else []) ++ swdOkRead v ++ rest :=
  ⟨withSwdio (midTransfer false 0) ((if ap then swdOkRead 6#32 else []) ++ swdOkRead 7#32 ++ []), 0#32, 7#32, 6#32, [],
    rfl, rfl, rfl, rfl, by decide +revert, by decide +revert, rfl⟩

theorem witness_MatchRequests_mismatch (ap : Bool) :
    ∃ (s : State) (mv v v0 : Word) (rest : List Bool), s.driver.port = .swd ∧ s.input.dirFail = none ∧
      s.work.draining = false ∧ s.work.postRead = false ∧ 2 ≤ s.work.left ∧ s.driver.matchRetry = 0#16 ∧
      v &&& s.driver.matchMask ≠ mv ∧ s.input.swdio = (if ap then swdOkRead v0 else []) ++ swdOkRead v ++ rest :=
  ⟨withSwdio (midTransfer false 0) ((if ap then swdOkRead 6#32 else []) ++ swdOkRead 7#32 ++ []), 1#32, 7#32, 6#32, [],
    rfl, rfl, rfl, rfl, by decide +revert, rfl, by decide +revert, rfl⟩

theorem witness_MaskLoads (outstanding : Bool) :
    ∃ (s : State) (v0 : Word) (rest : List Bool), s.work.draining = false ∧ 2 ≤ s.work.left ∧
      s.work.postRead = outstanding ∧
      (s.work.postRead = true → s.driver.port = .swd ∧ s.input.dirFail = none ∧ Fits s 4 ∧
        s.input.swdio = swdOkRead v0 ++ rest) :=
  ⟨withSwdio (midTransfer outstanding 4) (swdOkRead 6#32 ++ []), 6#32, [], rfl, by decide +revert, rfl,
    fun _ => ⟨rfl, rfl, by unfold Fits; decide +revert, rfl⟩⟩

theorem swdFails_once {d : Driver} {req : Byte} {ans : List Bool} {cs : List Cycle} {code : Byte}
    (h : SwdRefuses d req ans cs code) (hc : code ≠ 2#8) (n : Nat) : SwdFails d req n ans cs code := by
  cases n with
  | zero => exact h
  | succ n => exact .inl ⟨h, hc⟩

theorem swdFails_fault (d : Driver) (req : Byte) (n : Nat) :
    SwdFails d req n [false, false, true] (refusedPacket d req [false, false, true]) 4#8 :=
  swdFails_once (.inl ⟨false, rfl, rfl, rfl⟩) (by decide) n

theorem swdFails_protocol (d : Driver) (req : Byte) (n : Nat) : SwdFails d req n [true, true, true]
    (packetHead d req [true, true, true] ++ releasedRecords (turnaround d + 33) d.halfDelay) 7#8 :=
  swdFails_once (.inr (.inl ⟨true, true, true, rfl, by decide, rfl, by decide⟩)) (by decide) n

theorem swdFails_parity (d : Driver) (req : Byte) (v : Word) (n : Nat) (hr : req.getLsbD 1 = true) :
    SwdFails d req n (swdReadAnswer v (!dataParity v)) (readPacket d req v (!dataParity v)) 0x08#8 :=
  swdFails_once (.inr (.inr ⟨hr, v, _, by cases dataParity v <;> decide, rfl, rfl, rfl⟩)) (by decide) n

theorem swdFails_wait (d : Driver) (req : Byte) (n : Nat) :
    SwdFails d req n (List.replicate (n + 1) [false, true, false]).flatten
      (List.replicate (n + 1) (refusedPacket d req [false, true, false])).flatten 2#8 := by
  induction n with
  | zero => exact .inl ⟨true, rfl, by simp, rfl⟩
  | succ n ih => exact .inr ⟨_, _, by rw [List.replicate_succ, List.flatten_cons], by rw [List.replicate_succ, List.flatten_cons], ih⟩

theorem jtagFails_once {d : Driver} {ir : Option IrSel} {req : Byte} {ans : List Bool} {cs : List (Bool × Bool)} {code : Byte}
    (h : JtagRefuses d ir req ans cs code) (hc : code ≠ 2#8) (n : Nat) : JtagFails d req n ir ans cs code := by
  cases n with
  | zero => exact h
  | succ n => exact .inl ⟨h, hc⟩

/-- What TDO gives during a transfer that is answered with the ACK bits given. -/
def refusalOf (d : Driver) (ir : Option IrSel) (req : Byte) (t0 t1 t2 : Bool) : List Bool :=
  List.replicate (irLines d ir req).length true ++ List.replicate (d.index.toNat + 3) true ++ [t0, t1, t2] ++
    List.replicate (3 + d.idleCycles.toNat) true

theorem jtagRefuses_refusalOf (d : Driver) (ir : Option IrSel) (req : Byte) (t0 t1 t2 : Bool)
    (h : (t0, t1, t2) ≠ (false, true, false)) : JtagRefuses d ir req (refusalOf d ir req t0 t1 t2)
      (irLines d ir req ++ cutScanCycles d req) (BitVec.ofNat 8 (2 * t0.toNat + t1.toNat + 4 * t2.toNat)) :=
  ⟨_, _, t0, t1, t2, _, rfl, by simp, by simp, by simp, h, rfl, by revert t0 t1 t2; decide⟩

theorem jtagFails_fault (d : Driver) (ir : Option IrSel) (req : Byte) (n : Nat) :
    JtagFails d req n ir (refusalOf d ir req false false true) (irLines d ir req ++ cutScanCycles d req) 4#8 :=
  jtagFails_once (jtagRefuses_refusalOf d ir req false false true (by decide)) (by decide) n

/-- WAIT, and WAIT again in the one retry. -/
theorem jtagFails_waits (d : Driver) (ir : Option IrSel) (req : Byte) : ∃ ans cs, JtagFails d req 1 ir ans cs 2#8 :=
  ⟨_, _, .inr ⟨_, _, _, _, rfl, rfl, jtagRefuses_refusalOf d ir req true false false (by decide),
    jtagRefuses_refusalOf d (some (spaceOf req)) req true false false (by decide)⟩⟩

/-- Each kind of plain request, with and without a read outstanding, as the last request and before another, on SWD: FAULT,
WAIT after the retries, a protocol error. -/
theorem witness_DrainedRequests_swd (outstanding : Bool) (n : Nat) :
    ∀ code ∈ [4#8, 2#8, 7#8], ∀ i ∈ [Instr.dpR 1#2, .apR 3#2, .dpW 2#2 7#32, .apW 1#2 7#32],
      ∃ (s : State) (req : Byte) (w : Word) (bad rest : List Bool) (cs : List Cycle), plainRequest i = some (req, w) ∧
        s.driver.port = .swd ∧ s.input.dirFail = none ∧ s.work.draining = false ∧ s.work.left = n ∧
        s.work.postRead = outstanding ∧
        SwdFails s.driver (firstTransfer s req) s.driver.waitRetry.toNat bad cs code ∧ s.input.swdio = bad ++ rest := by
  intro code hcode i hi
  have key : ∃ r, plainRequest i = some r := by
    simp only [List.mem_cons, List.not_mem_nil, or_false] at hi
    rcases hi with rfl | rfl | rfl | rfl <;> exact ⟨_, rfl⟩
  obtain ⟨⟨req, w⟩, hr⟩ := key
  have fails : ∀ q, ∃ bad cs, SwdFails swd.driver q swd.driver.waitRetry.toNat bad cs code := by
    intro q
    simp only [List.mem_cons, List.not_mem_nil, or_false] at hcode
    rcases hcode with rfl | rfl | rfl
    · exact ⟨_, _, swdFails_fault _ _ _⟩
    · exact ⟨_, _, swdFails_wait _ _ _⟩
    · exact ⟨_, _, swdFails_protocol _ _ _⟩
  let s : State := { swd with work := { Work.initial with left := n, postRead := outstanding } }
  obtain ⟨bad, cs, h⟩ := fails (firstTransfer s req)
  exact ⟨withSwdio s (bad ++ []), req, w, bad, [], cs, hr, rfl, rfl, rfl, rfl, rfl, h, rfl⟩

/-- A wrong parity bit is a failure of a read. -/
theorem witness_DrainedRequests_parity :
    ∃ (s : State) (req : Byte) (w : Word) (bad rest : List Bool) (cs : List Cycle),
      plainRequest (.apR 3#2) = some (req, w) ∧ s.driver.port = .swd ∧ s.input.dirFail = none ∧ s.work.draining = false ∧
      s.work.left = 2 ∧ SwdFails s.driver (firstTransfer s req) s.driver.waitRetry.toNat bad cs 0x08#8 ∧
      s.input.swdio = bad ++ rest :=
  ⟨withSwdio (midTransfer false 0) (swdReadAnswer 7#32 (!dataParity 7#32) ++ []), 0x0f#8, 0#32, _, [], _, rfl, rfl, rfl, rfl, rfl,
    swdFails_parity _ _ _ _ (by decide), rfl⟩

/-- The same on JTAG: FAULT, and WAIT after the one retry. -/
theorem witness_DrainedRequests_jtag (outstanding : Bool) (ir : Option IrSel) (n : Nat) :
    ∀ code ∈ [4#8, 2#8], ∀ i ∈ [Instr.dpR 1#2, .apR 3#2, .dpW 2#2 7#32, .apW 1#2 7#32],
      ∃ (s : State) (req : Byte) (w : Word) (bad rest : List Bool) (cs : List (Bool × Bool)), plainRequest i = some (req, w) ∧
        s.driver.port = .jtag ∧ s.driver.index.toNat < s.driver.chain.length ∧ s.work.draining = false ∧ s.work.left = n ∧
        s.work.postRead = outstanding ∧
        JtagFails s.driver (firstTransfer s req) s.driver.waitRetry.toNat s.work.irCache bad cs code ∧
        s.input.tdo = bad ++ rest := by
  intro code hcode i hi
  have key : ∃ r, plainRequest i = some r := by
    simp only [List.mem_cons, List.not_mem_nil, or_false] at hi
    rcases hi with rfl | rfl | rfl | rfl <;> exact ⟨_, rfl⟩
  obtain ⟨⟨req, w⟩, hr⟩ := key
  let s : State := { jtag [4#8, 5#8] 1#8 with
    driver := { (jtag [4#8, 5#8] 1#8).driver with waitRetry := 1#16 }
    work := { Work.initial with left := n, postRead := outstanding, irCache := ir } }
  have fails : ∃ bad cs, JtagFails s.driver (firstTransfer s req) 1 ir bad cs code := by
    simp only [List.mem_cons, List.not_mem_nil, or_false] at hcode
    rcases hcode with rfl | rfl
    · exact ⟨_, _, jtagFails_fault _ _ _ _⟩
    · exact jtagFails_waits _ _ _
  obtain ⟨bad, cs, h⟩ := fails
  exact ⟨withTdo s (bad ++ []), req, w, bad, [], cs, hr, rfl, (by decide : (1 : Nat) < 2), rfl, rfl, rfl, h, rfl⟩

theorem witness_DrainedRequests :
    (∃ (s : State) (i : Instr), i.context = some .request ∧ s.work.draining = true ∧ 2 ≤ s.work.left) ∧
      ∃ (s : State) (i : Instr), i.context = some .request ∧ s.work.draining = true ∧ s.work.left = 1 ∧
        s.work.lastAck ≠ 1#8 :=
  ⟨⟨{ swd with work := { Work.initial with draining := true, left := 2 } }, .apW 0#2 0#32, by decide⟩,
    ⟨{ swd with work := { Work.initial with draining := true, left := 1 } }, .mask 0#32, by decide⟩⟩

/-- Three bytes of room exactly: on SWD, Disabled, and on JTAG with the last index in range and the first beyond it. -/
theorem witness_TransferHeader :
    ∀ s ∈ [swd, State.reset, jtag [4#8, 5#8] 0#8], Fits (room s 3) 3 ∧
      (room s 3).mem.resp.length + 3 = (room s 3).params.responseCapacity := by
  unfold Fits
  decide

theorem witness_TrailerCollects :
    (∃ (s : State) (v0 v : Word) (x y : Byte) (rest : List Bool), s.driver.port = .swd ∧ s.input.dirFail = none ∧
      s.work.draining = false ∧ s.work.postRead = false ∧ s.work.left = 1 ∧ s.work.slotCompleted = 1 ∧
      s.work.slotAck = 2 ∧ s.mem.resp = [0x05#8, x, y] ∧ 7 ≤ s.params.responseCapacity ∧ s.batch = none ∧
      s.input.swdio = swdOkRead v0 ++ swdOkRead v ++ rest) ∧
    ∃ (s : State) (v : Word) (p : Bool) (x y : Byte) (rest : List Bool), s.driver.port = .swd ∧
      s.input.dirFail = none ∧ s.work.draining = false ∧ s.work.postRead = false ∧ s.work.left = 1 ∧
      s.work.slotCompleted = 1 ∧ s.work.slotAck = 2 ∧ s.mem.resp = [0x05#8, x, y] ∧ s.batch = none ∧
      s.input.swdio = swdOkWrite ++ swdReadAnswer v p ++ rest :=
  ⟨⟨withSwdio (room (inTransfer swd 0#8 1 []) 4) (swdOkRead 6#32 ++ swdOkRead 7#32 ++ []), 6#32, 7#32, 0#8, 0#8, [], by decide⟩,
    ⟨withSwdio (room (inTransfer swd 0#8 1 []) 0) (swdOkWrite ++ swdReadAnswer 7#32 false ++ []), 7#32, false, 0#8, 0#8, [],
      by decide⟩⟩

/-- The last request on JTAG, with exactly the room a read's word needs. -/
theorem witness_TrailerCollects_jtag :
    ∀ i ∈ [Instr.dpR 1#2, .apR 3#2, .dpW 2#2 7#32, .apW 1#2 7#32],
      ∃ (s : State) (req x y : Byte) (w v0 v : Word) (ans rest : List Bool) (xs : List Access),
        plainRequest i = some (req, w) ∧ s.driver.port = .jtag ∧ s.driver.index.toNat < s.driver.chain.length ∧
        s.work.draining = false ∧ s.work.postRead = false ∧ s.work.left = 1 ∧ s.work.slotCompleted = 1 ∧
        s.work.slotAck = 2 ∧ s.mem.resp = [0x05#8, x, y] ∧ 7 ≤ s.params.responseCapacity ∧ s.batch = none ∧
        xs = [⟨req, w, v0⟩, ⟨0x0e#8, 0#32, v⟩] ∧ JtagAnswers s.driver s.work.irCache xs ans ∧
        s.input.tdo = ans ++ rest := by
  intro i hi
  have key : ∃ r, plainRequest i = some r := by
    simp only [List.mem_cons, List.not_mem_nil, or_false] at hi
    rcases hi with rfl | rfl | rfl | rfl <;> exact ⟨_, rfl⟩
  obtain ⟨⟨req, w⟩, hr⟩ := key
  exact ⟨withTdo (midJtag false none 1 4) (answersOf (midJtag false none 1 4).driver none _ ++ []), req, 0#8, 0#8, w, 6#32, 7#32,
    _, [], _, hr, rfl, (by decide : (1 : Nat) < 2), rfl, rfl, rfl, rfl, rfl, rfl, Nat.le_refl _, rfl, rfl,
    jtagAnswers_answersOf _ _ _, rfl⟩

theorem witness_TrailerCollects_mask :
    ∃ (s : State) (v : Word) (x y : Byte) (ans rest : List Bool) (xs : List Access), s.driver.port = .jtag ∧
      s.driver.index.toNat < s.driver.chain.length ∧ s.work.draining = false ∧ s.work.postRead = false ∧ s.work.left = 1 ∧
      s.work.slotCompleted = 1 ∧ s.work.slotAck = 2 ∧ s.mem.resp = [0x05#8, x, y] ∧ s.batch = none ∧
      xs = [⟨0x0e#8, 0#32, v⟩] ∧ JtagAnswers s.driver s.work.irCache xs ans ∧ s.input.tdo = ans ++ rest :=
  ⟨withTdo (midJtag false (some .apacc) 1 0) (answersOf (midJtag false (some .apacc) 1 0).driver (some .apacc) _ ++ []), 7#32, 0#8,
    0#8, _, [], _, rfl, (by decide : (1 : Nat) < 2), rfl, rfl, rfl, rfl, rfl, rfl, rfl, rfl, jtagAnswers_answersOf _ _ _, rfl⟩

/-! ### Witnesses on either port -/

/-- As `midJtag`, on the port given. -/
def midOn (p : Port) (outstanding : Bool) (ir : Option IrSel) (n : Nat) : State :=
  { midJtag outstanding ir n 0 with driver := { (jtag [4#8, 5#8] 1#8).driver with port := p, matchRetry := 1#16, matchMask := 1#32 } }

/-- `s` with other inputs and parameters. -/
def withInput (s : State) (q : Input) (pr : Params) : State := { s with input := q, params := pr }

/-- Exactly `n` bytes of room, and these answers queued on both ports. -/
def answering (s : State) (n : Nat) (swdio tdo : List Bool) : State :=
  withInput s { s.input with swdio := swdio, tdo := tdo, dirFail := none }
    { s.params with responseCapacity := s.mem.resp.length + n }

theorem fits_answering (s : State) (n : Nat) (a b : List Bool) : Fits (answering s n a b) n := Nat.le_refl _

/-- `xs` answered OK, on SWD and on JTAG. -/
theorem answers_answering (s : State) (n : Nat) (xs : List Access) (hp : s.driver.port ≠ .disabled)
    (hi : s.driver.index.toNat < s.driver.chain.length) :
    ∃ a b cs, Answers (answering s n a b) xs cs [] := by
  refine ⟨swdAnswersOf xs ++ [], answersOf s.driver s.work.irCache xs ++ [], ?_⟩
  unfold Answers
  simp only [answering, withInput]
  cases h : s.driver.port with
  | disabled => exact absurd h hp
  | swd => exact ⟨_, trivial, trivial, rfl⟩
  | jtag => exact ⟨_, hi, _, jtagAnswers_answersOf _ _ _, rfl, rfl⟩

/-- `xs` answered OK and then a FAULT, on SWD and on JTAG. -/
theorem fails_answering (s : State) (n : Nat) (xs : List Access) (req : Byte) (hp : s.driver.port ≠ .disabled)
    (hi : s.driver.index.toNat < s.driver.chain.length) :
    ∃ a b cs, AnswersThenFails (answering s n a b) xs req 4#8 cs [] := by
  refine ⟨swdAnswersOf xs ++ [false, false, true] ++ [], answersOf s.driver s.work.irCache xs ++
    refusalOf s.driver (irAfter s.work.irCache xs) req false false true ++ [], ?_⟩
  unfold AnswersThenFails
  simp only [answering, withInput]
  cases h : s.driver.port with
  | disabled => exact absurd h hp
  | swd => exact ⟨_, trivial, _, _, swdFails_fault _ _ _, rfl, rfl⟩
  | jtag => exact ⟨_, hi, _, _, _, jtagAnswers_answersOf _ _ _, jtagFails_fault _ _ _ _, rfl, rfl⟩

/-- The device selected by `midOn` is in its chain; one more poll is allowed, and bit 0 is compared. -/
theorem midOn_index (p : Port) (o : Bool) (ir : Option IrSel) (n : Nat) :
    (midOn p o ir n).driver.index.toNat < (midOn p o ir n).driver.chain.length := by
  show (1#8 : Byte).toNat < (chainOf [4#8, 5#8]).length
  decide

theorem polls_fit : ∀ vs ∈ [[], [0#32]], (vs : List Word).length ≤ (1#16 : Half).toNat ∧ ∀ x ∈ vs, x &&& 1#32 ≠ 1#32 := by
  intro vs hvs
  simp only [List.mem_cons, List.not_mem_nil, or_false] at hvs
  rcases hvs with rfl | rfl
  · exact ⟨Nat.zero_le _, fun _ hx => absurd hx List.not_mem_nil⟩
  · exact ⟨by decide, fun _ hx => by cases List.mem_singleton.mp hx; decide⟩

theorem polls_exhaust : ∀ x ∈ [0#32, 2#32], (x : Word) &&& 1#32 ≠ 1#32 := by
  intro x hx
  simp only [List.mem_cons, List.not_mem_nil, or_false] at hx
  rcases hx with rfl | rfl <;> decide

theorem poll_matches : (3#32 : Word) &&& 1#32 = 1#32 := by decide

/-- JTAG with the device's IR to be set first: no WAIT, and as many as the limit of 1 allows; and one more. -/
theorem witness_RetryCounts_jtag (n : Nat) (hn : n ≤ 1) (ir : Option IrSel) :
    (∃ (s : State) (v : Word) (waits : List (List Bool)) (irs pre post rest : List Bool), s.driver.port = .jtag ∧
      s.driver.index.toNat < s.driver.chain.length ∧ s.work.irCache = ir ∧ waits.length = n ∧
      waits.length ≤ s.driver.waitRetry.toNat ∧ s.driver.waitRetry = 1#16 ∧
      irs.length = (irLines s.driver s.work.irCache 0x0e#8).length ∧
      (∀ x ∈ waits, ∃ a b, x = a ++ [true, false, false] ++ b ∧ a.length = s.driver.index.toNat + 3 ∧
        b.length = 3 + s.driver.idleCycles.toNat) ∧
      pre.length = s.driver.index.toNat + 3 ∧
      post.length = s.driver.chain.length - 1 - s.driver.index.toNat + 2 + s.driver.idleCycles.toNat ∧
      s.input.tdo = irs ++ waits.flatten ++ jtagOkAnswer pre v post ++ rest) ∧
    ∃ (s : State) (waits : List (List Bool)) (irs rest : List Bool), s.driver.port = .jtag ∧
      s.driver.index.toNat < s.driver.chain.length ∧ s.work.irCache = ir ∧ waits.length = s.driver.waitRetry.toNat + 1 ∧
      s.driver.waitRetry = 1#16 ∧ irs.length = (irLines s.driver s.work.irCache 0x0e#8).length ∧
      (∀ x ∈ waits, ∃ a b, x = a ++ [true, false, false] ++ b ∧ a.length = s.driver.index.toNat + 3 ∧
        b.length = 3 + s.driver.idleCycles.toNat) ∧
      s.input.tdo = irs ++ waits.flatten ++ rest := by
  let s : State := { midOn .jtag false ir 2 with driver := { (midOn .jtag false ir 2).driver with waitRetry := 1#16 } }
  let wait : List Bool := bits [1, 1, 1, 1] ++ [true, false, false] ++ bits [1, 1, 1]
  have hw : ∀ k, ∀ x ∈ List.replicate k wait, ∃ a b, x = a ++ [true, false, false] ++ b ∧
      a.length = s.driver.index.toNat + 3 ∧ b.length = 3 + s.driver.idleCycles.toNat := by
    intro k x hx
    exact ⟨bits [1, 1, 1, 1], bits [1, 1, 1], List.eq_of_mem_replicate hx, rfl, rfl⟩
  refine ⟨⟨withTdo s (List.replicate (irLines s.driver ir 0x0e#8).length true ++ (List.replicate n wait).flatten ++
      jtagOkAnswer (bits [1, 1, 1, 1]) 7#32 (bits [1, 1]) ++ []), 7#32, List.replicate n wait, List.replicate _ true,
      bits [1, 1, 1, 1], bits [1, 1], [], rfl, (by decide : (1 : Nat) < 2), rfl, List.length_replicate, ?_, rfl,
      List.length_replicate, hw n, rfl, rfl, rfl⟩,
    ⟨withTdo s (List.replicate (irLines s.driver ir 0x0e#8).length true ++ (List.replicate 2 wait).flatten ++ []),
      List.replicate 2 wait, List.replicate _ true, [], rfl, (by decide : (1 : Nat) < 2), rfl, rfl, rfl,
      List.length_replicate, hw 2, rfl⟩⟩
  rw [List.length_replicate]
  exact hn

/-- A match read of a DP and of an AP register: as many polls as the limit of 1 allows, the last of which matches. -/
theorem witness_MatchReadPolls_answered (p : Port) (hp : p ≠ .disabled) (req : Byte) (hr : req.getLsbD 1 = true) :
    ∀ vs ∈ [[], [0#32]], ∃ (s : State) (mv v1 v : Word) (cs : List Cycle) (rest : List Bool), s.driver.port = p ∧
      req.getLsbD 1 = true ∧ vs.length ≤ s.driver.matchRetry.toNat ∧ (∀ x ∈ vs, x &&& s.driver.matchMask ≠ mv) ∧
      v &&& s.driver.matchMask = mv ∧ Answers s (matchPost s req v1 ++ polls req (vs ++ [v])) cs rest := by
  intro vs hvs
  obtain ⟨a, b, cs, h⟩ := answers_answering (midOn p false none 2) 0
    (matchPost (midOn p false none 2) req 6#32 ++ polls req (vs ++ [3#32])) hp (midOn_index _ _ _ _)
  exact ⟨answering (midOn p false none 2) 0 a b, 1#32, 6#32, 3#32, cs, [], rfl, hr, (polls_fit vs hvs).1, (polls_fit vs hvs).2,
    poll_matches, h⟩

/-- The same without a match; and with the post step or a poll that fails. -/
theorem witness_MatchReadPolls_ends (p : Port) (hp : p ≠ .disabled) (req : Byte) (hr : req.getLsbD 1 = true) :
    (∃ (s : State) (mv v1 : Word) (vs : List Word) (cs : List Cycle) (rest : List Bool), s.driver.port = p ∧
      req.getLsbD 1 = true ∧ vs.length = s.driver.matchRetry.toNat + 1 ∧ (∀ x ∈ vs, x &&& s.driver.matchMask ≠ mv) ∧
      Answers s (matchPost s req v1 ++ polls req vs) cs rest) ∧
    ∀ post : Bool, ∃ (s : State) (code : Byte) (mv v1 : Word) (vs : List Word) (xs : List Access) (cs : List Cycle)
        (rest : List Bool), s.driver.port = p ∧ req.getLsbD 1 = true ∧ vs.length ≤ s.driver.matchRetry.toNat ∧
      (∀ x ∈ vs, x &&& s.driver.matchMask ≠ mv) ∧ (xs = [] ∨ xs = matchPost s req v1 ++ polls req vs) ∧
      xs = (if post then [] else matchPost s req v1 ++ polls req vs) ∧ AnswersThenFails s xs req code cs rest := by
  refine ⟨?_, fun post => ?_⟩
  · obtain ⟨a, b, cs, h⟩ := answers_answering (midOn p false none 2) 0
      (matchPost (midOn p false none 2) req 6#32 ++ polls req [0#32, 2#32]) hp (midOn_index _ _ _ _)
    exact ⟨answering (midOn p false none 2) 0 a b, 1#32, 6#32, [0#32, 2#32], cs, [], rfl, hr, rfl, polls_exhaust, h⟩
  · obtain ⟨a, b, cs, h⟩ := fails_answering (midOn p false none 2) 0
      (if post then [] else matchPost (midOn p false none 2) req 6#32 ++ polls req [0#32]) req hp (midOn_index _ _ _ _)
    refine ⟨answering (midOn p false none 2) 0 a b, 4#8, 1#32, 6#32, [0#32], _, cs, [], rfl, hr,
      (polls_fit [0#32] (by decide)).1, (polls_fit [0#32] (by decide)).2, ?_, rfl, h⟩
    cases post
    · exact .inr rfl
    · exact .inl rfl

/-- Match reads in a Transfer, of either space on either port, with a read outstanding or none. -/
theorem witness_MatchRequests_ports (p : Port) (hp : p ≠ .disabled) (outstanding : Bool) (ir : Option IrSel) (n : Nat) :
    ∀ i ∈ [Instr.dpRM 1#2 1#32, .apRM 3#2 1#32],
      (∃ (s : State) (req : Byte) (mv v0 v1 v : Word) (vs : List Word) (cs : List Cycle) (rest : List Bool),
        s.driver.port = p ∧ s.work.postRead = outstanding ∧ s.work.left = n ∧ matchRequest i = some (req, mv) ∧
        s.work.draining = false ∧ Fits s 4 ∧ vs.length ≤ s.driver.matchRetry.toNat ∧
        vs.length = s.driver.matchRetry.toNat ∧ (∀ x ∈ vs, x &&& s.driver.matchMask ≠ mv) ∧
        v &&& s.driver.matchMask = mv ∧ Answers s (collectReads s v0 ++ matchPost s req v1 ++ polls req (vs ++ [v])) cs rest) ∧
      ∃ (s : State) (req : Byte) (mv v0 v1 : Word) (vs : List Word) (cs : List Cycle) (rest : List Bool),
        s.driver.port = p ∧ s.work.postRead = outstanding ∧ s.work.left = n ∧ matchRequest i = some (req, mv) ∧
        s.work.draining = false ∧ Fits s 4 ∧ vs.length = s.driver.matchRetry.toNat + 1 ∧
        (∀ x ∈ vs, x &&& s.driver.matchMask ≠ mv) ∧
        Answers s (collectReads s v0 ++ matchPost s req v1 ++ polls req vs) cs rest := by
  intro i hm
  have key : ∃ req, matchRequest i = some (req, 1#32) := by
    simp only [List.mem_cons, List.not_mem_nil, or_false] at hm
    rcases hm with rfl | rfl <;> exact ⟨_, rfl⟩
  obtain ⟨req, hr⟩ := key
  obtain ⟨a, b, cs, h⟩ := answers_answering (midOn p outstanding ir n) 4 (collectReads (midOn p outstanding ir n) 5#32 ++
    matchPost (midOn p outstanding ir n) req 6#32 ++ polls req ([0#32] ++ [3#32])) hp (midOn_index _ _ _ _)
  obtain ⟨a', b', ds, g⟩ := answers_answering (midOn p outstanding ir n) 4 (collectReads (midOn p outstanding ir n) 5#32 ++
    matchPost (midOn p outstanding ir n) req 6#32 ++ polls req [0#32, 2#32]) hp (midOn_index _ _ _ _)
  exact ⟨⟨answering (midOn p outstanding ir n) 4 a b, req, 1#32, 5#32, 6#32, 3#32, [0#32], cs, [], rfl, rfl, rfl, hr, rfl,
      fits_answering _ _ _ _, (polls_fit [0#32] (by decide)).1, rfl, (polls_fit [0#32] (by decide)).2, poll_matches, h⟩,
    ⟨answering (midOn p outstanding ir n) 4 a' b', req, 1#32, 5#32, 6#32, [0#32, 2#32], ds, [], rfl, rfl, rfl, hr, rfl,
      fits_answering _ _ _ _, rfl, polls_exhaust, g⟩⟩

/-- An outstanding read on JTAG, with the IR holding either instruction. -/
theorem witness_MaskLoads_jtag (ir : Option IrSel) :
    ∃ (s : State) (v0 : Word) (ans rest : List Bool) (xs : List Access), s.driver.port = .jtag ∧
      s.driver.index.toNat < s.driver.chain.length ∧ s.work.draining = false ∧ 2 ≤ s.work.left ∧ s.work.postRead = true ∧
      s.work.irCache = ir ∧ Fits s 4 ∧ xs = [⟨0x0e#8, 0#32, v0⟩] ∧ JtagAnswers s.driver s.work.irCache xs ans ∧
      s.input.tdo = ans ++ rest :=
  ⟨withTdo (midJtag true ir 2 4) (answersOf (midJtag true ir 2 4).driver ir [⟨0x0e#8, 0#32, 7#32⟩] ++ []), 7#32, _, [], _, rfl,
    (by decide : (1 : Nat) < 2), rfl, Nat.le_refl _, rfl, rfl, by unfold Fits; exact Nat.le_refl _, rfl,
    jtagAnswers_answersOf _ _ _, rfl⟩

/-- A stop of `i` there on port `p`, with `n` requests left and the room its words need, is met by some state. -/
def FailsThere (p : Port) (n : Nat) (i : Instr) (xs : List Access) (ws : List Word) (post : Bool) (req : Byte) : Prop :=
  ∃ (s : State) (code : Byte) (cs : List Cycle) (rest : List Bool), s.driver.port = p ∧ s.work.left = n ∧
    StopsAt s i xs ws post req ∧ s.work.draining = false ∧ Fits s (4 * ws.length) ∧ AnswersThenFails s xs req code cs rest

theorem failsThere {p : Port} {n : Nat} {o : Bool} {ir : Option IrSel} {i : Instr} {xs : List Access} {ws : List Word}
    {post : Bool} {req : Byte} (hp : p ≠ .disabled)
    (h : ∀ q pr, StopsAt (withInput (midOn p o ir n) q pr) i xs ws post req) : FailsThere p n i xs ws post req := by
  obtain ⟨a, b, cs, hf⟩ := fails_answering (midOn p o ir n) (4 * ws.length) xs req hp (midOn_index _ _ _ _)
  exact ⟨answering (midOn p o ir n) (4 * ws.length) a b, 4#8, cs, [], rfl, rfl, h _ _, rfl, fits_answering _ _ _ _, hf⟩

/-- RDBUFF fails before a read, a match read, a write and a MatchMask write. -/
theorem witness_DrainedRequests_rdbuff (p : Port) (hp : p ≠ .disabled) (n : Nat) :
    FailsThere p n (.dpR 1#2) [] [] false 0x0e#8 ∧ FailsThere p n (.dpRM 1#2 1#32) [] [] false 0x0e#8 ∧
      FailsThere p n (.apRM 3#2 1#32) [] [] false 0x0e#8 ∧ FailsThere p n (.dpW 2#2 7#32) [] [] true 0x0e#8 ∧
      FailsThere p n (.apW 1#2 7#32) [] [] true 0x0e#8 ∧ FailsThere p n (.mask 7#32) [] [] true 0x0e#8 := by
  have hc : ∀ q pr, collectsOutstanding (withInput (midOn p true (some .apacc) n) q pr) 0x06#8 = false := by
    intro q pr
    cases p <;> rfl
  exact ⟨failsThere hp fun q pr => .rdbuffOfRead _ 0x06#8 0#32 rfl rfl rfl (hc q pr),
    failsThere (o := true) (ir := none) hp fun _ _ => .rdbuffOfMatch _ 0x06#8 1#32 rfl rfl,
    failsThere (o := true) (ir := none) hp fun _ _ => .rdbuffOfMatch _ 0x0f#8 1#32 rfl rfl,
    failsThere (o := true) (ir := none) hp fun _ _ => .rdbuffOfWrite _ 0x08#8 7#32 rfl rfl rfl,
    failsThere (o := true) (ir := none) hp fun _ _ => .rdbuffOfWrite _ 0x05#8 7#32 rfl rfl rfl,
    failsThere (o := true) (ir := none) hp fun _ _ => .rdbuffOfMask 7#32 rfl⟩

/-- A transfer of the request's own register fails: a read that collects the outstanding one; a read and a write, the
outstanding read collected through RDBUFF before; a match read's post step; its first poll and its last. -/
theorem witness_DrainedRequests_own (p : Port) (hp : p ≠ .disabled) (n : Nat) :
    FailsThere p n (.apR 3#2) [] [] true 0x0f#8 ∧
      FailsThere p n (.dpR 1#2) [⟨0x0e#8, 0#32, 9#32⟩] [9#32] false 0x06#8 ∧
      FailsThere p n (.apW 1#2 7#32) [⟨0x0e#8, 0#32, 9#32⟩] [9#32] false 0x05#8 ∧
      FailsThere p n (.apRM 3#2 1#32) [⟨0x0e#8, 0#32, 9#32⟩] [9#32] false 0x0f#8 ∧
      ∀ vs ∈ [[], [0#32]], FailsThere p n (.apRM 3#2 1#32) ([⟨0x0e#8, 0#32, 9#32⟩, ⟨0x0f#8, 0#32, 8#32⟩] ++ polls 0x0f#8 vs)
        [9#32] false 0x0f#8 := by
  have hc : ∀ q pr, collectsOutstanding (withInput (midOn p true (some .apacc) n) q pr) 0x06#8 = false := by
    intro q pr
    cases p <;> rfl
  have hd : ∀ q pr, collectsOutstanding (withInput (midOn p true (some .apacc) n) q pr) 0x0f#8 = true := by
    intro q pr
    cases p <;> rfl
  have hpost : ∀ q pr, matchPost (withInput (midOn p true none n) q pr) 0x0f#8 8#32 = [⟨0x0f#8, 0#32, 8#32⟩] :=
    fun _ _ => if_pos (.inr rfl)
  refine ⟨failsThere hp fun q pr => .collecting _ 0x0f#8 0#32 rfl rfl (hd q pr),
    failsThere hp fun q pr => .own _ 0x06#8 0#32 9#32 rfl fun _ => hc q pr,
    failsThere (o := true) (ir := none) hp fun _ _ => .own _ 0x05#8 7#32 9#32 rfl fun _ => rfl,
    failsThere (o := true) (ir := none) hp fun _ _ => .post _ 0x0f#8 1#32 9#32 rfl (.inr rfl), fun vs hvs => ?_⟩
  refine failsThere (o := true) (ir := none) hp fun q pr => ?_
  have h := StopsAt.poll (s := withInput (midOn p true none n) q pr) (.apRM 3#2 1#32) 0x0f#8 1#32 9#32 8#32 vs rfl
    (polls_fit vs hvs).1 (polls_fit vs hvs).2
  rw [hpost] at h
  exact h

/-- What a request does when it completes depends on neither the inputs nor the parameters. -/
theorem completes_withInput {s : State} {i : Instr} {e : Effect} (h : Completes s i e) (q : Input) (pr : Params) :
    Completes (withInput s q pr) i e := by
  cases h with
  | collected i req v a b c => exact .collected (s := withInput s q pr) i req v a b c
  | posted i req v0 v a b c d => exact .posted (s := withInput s q pr) i req v0 v a b c d
  | immediate i req v0 v a b c d => exact .immediate (s := withInput s q pr) i req v0 v a b c d
  | matched i req mv v0 v1 v vs a b c d => exact .matched (s := withInput s q pr) i req mv v0 v1 v vs a b c d
  | written i req w v0 v a b => exact .written (s := withInput s q pr) i req w v0 v a b
  | masked m v0 => exact .masked (s := withInput s q pr) m v0

/-- A plain read that completes on a ready port. -/
theorem completes_read {s : State} {i : Instr} {req : Byte} (h : plainRequest i = some (req, 0#32))
    (hr : req.getLsbD 1 = true) (hp : s.driver.port ≠ .disabled) :
    ∃ e, Completes s i e ∧
      (e.post = true ↔ s.driver.port = .jtag ∨ req.getLsbD 0 = true) ∧ e.check = false := by
  by_cases hc : s.work.postRead = true ∧ collectsOutstanding s req = true
  · refine ⟨_, .collected i req 7#32 h hc.1 hc.2, ⟨fun _ => ?_, fun _ => rfl⟩, rfl⟩
    have h2 := hc.2
    unfold collectsOutstanding at h2
    rw [hr] at h2
    by_cases hj : s.driver.port = .jtag
    · exact .inl hj
    · simp only [hj, Bool.true_and, if_false] at h2
      exact .inr h2
  · by_cases hx : s.driver.port = .jtag ∨ req.getLsbD 0 = true
    · have hn : s.work.postRead = true → collectsOutstanding s req = false := by
        intro hpr
        cases hb : collectsOutstanding s req with
        | false => rfl
        | true => exact absurd ⟨hpr, hb⟩ hc
      exact ⟨_, .posted i req 6#32 7#32 h hr hx hn, ⟨fun _ => hx, fun _ => rfl⟩, rfl⟩
    · have hs : s.driver.port = .swd := by
        cases hq : s.driver.port with
        | disabled => exact absurd hq hp
        | swd => rfl
        | jtag => exact absurd (.inl hq) hx
      have h0 : req.getLsbD 0 = false := by
        cases hb : req.getLsbD 0 with
        | false => rfl
        | true => exact absurd (.inr hb) hx
      exact ⟨_, .immediate i req 6#32 7#32 h hr hs h0, ⟨fun hf => Bool.noConfusion hf, fun hf => absurd hf hx⟩, rfl⟩

/-- Every kind of request as the last one, with a read outstanding or none, meets the hypotheses of one of the three ends:
without a trailer, with one answered OK, with one that fails; `trails` says whether there is a trailer. -/
theorem ends_of_completes {p : Port} {o : Bool} {ir : Option IrSel} {i : Instr} {e : Effect} (hp : p ≠ .disabled)
    (h : Completes (midOn p o ir 1) i e) :
    (∃ (s : State) (cs : List Cycle) (rest : List Bool), s.driver.port = p ∧ s.work.postRead = o ∧ Completes s i e ∧
      s.work.draining = false ∧ s.work.left = 1 ∧ Fits s (4 * e.words.length + 4) ∧ Answers s e.accesses cs rest ∧
      (Trails s e ↔ Trails (midOn p o ir 1) e)) ∧
    (∃ (s : State) (v : Word) (cs : List Cycle) (rest : List Bool), s.driver.port = p ∧ s.work.postRead = o ∧
      Completes s i e ∧ s.work.draining = false ∧ s.work.left = 1 ∧ Fits s (4 * e.words.length + 4) ∧
      Answers s (e.accesses ++ [⟨0x0e#8, 0#32, v⟩]) cs rest ∧ (Trails s e ↔ Trails (midOn p o ir 1) e)) ∧
    ∃ (s : State) (code : Byte) (cs : List Cycle) (rest : List Bool), s.driver.port = p ∧ s.work.postRead = o ∧
      Completes s i e ∧ s.work.draining = false ∧ s.work.left = 1 ∧ Fits s (4 * e.words.length + 4) ∧
      AnswersThenFails s e.accesses 0x0e#8 code cs rest ∧ (Trails s e ↔ Trails (midOn p o ir 1) e) := by
  obtain ⟨a1, b1, c1, h1⟩ := answers_answering (midOn p o ir 1) (4 * e.words.length + 4) e.accesses hp (midOn_index _ _ _ _)
  obtain ⟨a2, b2, c2, h2⟩ := answers_answering (midOn p o ir 1) (4 * e.words.length + 4) (e.accesses ++ [⟨0x0e#8, 0#32, 4#32⟩]) hp
    (midOn_index _ _ _ _)
  obtain ⟨a3, b3, c3, h3⟩ := fails_answering (midOn p o ir 1) (4 * e.words.length + 4) e.accesses 0x0e#8 hp (midOn_index _ _ _ _)
  exact ⟨⟨answering (midOn p o ir 1) _ a1 b1, c1, [], rfl, rfl, completes_withInput h _ _, rfl, rfl,
      fits_answering _ _ _ _, h1, Iff.rfl⟩,
    ⟨answering (midOn p o ir 1) _ a2 b2, 4#32, c2, [], rfl, rfl, completes_withInput h _ _, rfl, rfl,
      fits_answering _ _ _ _, h2, Iff.rfl⟩,
    ⟨answering (midOn p o ir 1) _ a3 b3, 4#8, c3, [], rfl, rfl, completes_withInput h _ _, rfl, rfl,
      fits_answering _ _ _ _, h3, Iff.rfl⟩⟩

/-- No trailer: on SWD a DP read, the match reads, MASK. -/
theorem witness_TrailerCollects_none (o : Bool) (ir : Option IrSel) :
    ∀ i ∈ [Instr.dpR 1#2, .dpRM 1#2 1#32, .apRM 3#2 1#32, .mask 7#32],
      ∃ (s : State) (e : Effect) (cs : List Cycle) (rest : List Bool), s.driver.port = .swd ∧ s.work.postRead = o ∧
        Completes s i e ∧ s.work.draining = false ∧ s.work.left = 1 ∧ Fits s (4 * e.words.length + 4) ∧ ¬ Trails s e ∧
        Answers s e.accesses cs rest := by
  intro i hm
  have key : ∃ e, Completes (midOn .swd o ir 1) i e ∧ e.post = false ∧ e.check = false := by
    simp only [List.mem_cons, List.not_mem_nil, or_false] at hm
    rcases hm with rfl | rfl | rfl | rfl
    · exact ⟨_, .immediate _ 0x06#8 6#32 7#32 rfl rfl rfl rfl, rfl, rfl⟩
    · exact ⟨_, .matched _ 0x06#8 1#32 6#32 7#32 3#32 [0#32] rfl (polls_fit [0#32] (by decide)).1
        (polls_fit [0#32] (by decide)).2 poll_matches, rfl, rfl⟩
    · exact ⟨_, .matched _ 0x0f#8 1#32 6#32 7#32 3#32 [] rfl (polls_fit [] (by decide)).1
        (polls_fit [] (by decide)).2 poll_matches, rfl, rfl⟩
    · exact ⟨_, .masked 7#32 6#32, rfl, rfl⟩
  obtain ⟨e, he, hpost, hcheck⟩ := key
  obtain ⟨s, cs, rest, h1, h2, h3, h4, h5, h6, h7, h8⟩ := (ends_of_completes (by decide) he).1
  refine ⟨s, e, cs, rest, h1, h2, h3, h4, h5, h6, fun ht => ?_, h7⟩
  rcases h8.mp ht with hx | hx | hx
  · cases hx
  · rw [hpost] at hx; cases hx
  · rw [hcheck] at hx; cases hx

/-- A trailer, answered OK and failing: on JTAG every kind of request, on SWD an AP read and the writes. -/
theorem witness_TrailerCollects_trails (p : Port) (hp : p ≠ .disabled) (o : Bool) (ir : Option IrSel) :
    ∀ i ∈ [Instr.apR 3#2, .dpW 2#2 7#32, .apW 1#2 7#32] ++
        (if p = .jtag then [Instr.dpR 1#2, .dpRM 1#2 1#32, .apRM 3#2 1#32, .mask 7#32] else []),
      (∃ (s : State) (e : Effect) (v : Word) (cs : List Cycle) (rest : List Bool), s.driver.port = p ∧
        s.work.postRead = o ∧ Completes s i e ∧ s.work.draining = false ∧ s.work.left = 1 ∧
        Fits s (4 * e.words.length + 4) ∧ Trails s e ∧ Answers s (e.accesses ++ [⟨0x0e#8, 0#32, v⟩]) cs rest) ∧
      ∃ (s : State) (e : Effect) (code : Byte) (cs : List Cycle) (rest : List Bool), s.driver.port = p ∧
        s.work.postRead = o ∧ Completes s i e ∧ s.work.draining = false ∧ s.work.left = 1 ∧
        Fits s (4 * e.words.length + 4) ∧ Trails s e ∧ AnswersThenFails s e.accesses 0x0e#8 code cs rest := by
  intro i hm
  have key : ∃ e, Completes (midOn p o ir 1) i e ∧ Trails (midOn p o ir 1) e := by
    rcases List.mem_append.mp hm with hm | hm
    · simp only [List.mem_cons, List.not_mem_nil, or_false] at hm
      rcases hm with rfl | rfl | rfl
      · obtain ⟨e, h1, h2, -⟩ := completes_read (s := midOn p o ir 1) (i := .apR 3#2) (req := 0x0f#8) rfl rfl hp
        exact ⟨e, h1, .inr (.inl (h2.mpr (.inr rfl)))⟩
      · exact ⟨_, .written _ 0x08#8 7#32 6#32 5#32 rfl rfl, by
          cases p with
          | disabled => exact absurd rfl hp
          | swd => exact .inr (.inr rfl)
          | jtag => exact .inl rfl⟩
      · exact ⟨_, .written _ 0x05#8 7#32 6#32 5#32 rfl rfl, by
          cases p with
          | disabled => exact absurd rfl hp
          | swd => exact .inr (.inr rfl)
          | jtag => exact .inl rfl⟩
    · by_cases hj : p = .jtag
      · subst hj
        simp only [if_true, List.mem_cons, List.not_mem_nil, or_false] at hm
        rcases hm with rfl | rfl | rfl | rfl
        · obtain ⟨e, h1, -, -⟩ := completes_read (s := midOn .jtag o ir 1) (i := .dpR 1#2) (req := 0x06#8) rfl rfl hp
          exact ⟨e, h1, .inl rfl⟩
        · exact ⟨_, .matched _ 0x06#8 1#32 6#32 7#32 3#32 [0#32] rfl (polls_fit [0#32] (by decide)).1
            (polls_fit [0#32] (by decide)).2 poll_matches, .inl rfl⟩
        · exact ⟨_, .matched _ 0x0f#8 1#32 6#32 7#32 3#32 [] rfl (polls_fit [] (by decide)).1
            (polls_fit [] (by decide)).2 poll_matches, .inl rfl⟩
        · exact ⟨_, .masked 7#32 6#32, .inl rfl⟩
      · rw [if_neg hj] at hm
        cases hm
  obtain ⟨e, he, ht⟩ := key
  obtain ⟨-, ⟨s, v, cs, rest, h1, h2, h3, h4, h5, h6, h7, h8⟩, u, code, ds, more, g1, g2, g3, g4, g5, g6, g7, g8⟩ := ends_of_completes hp he
  exact ⟨⟨s, e, v, cs, rest, h1, h2, h3, h4, h5, h6, h8.mpr ht, h7⟩,
    ⟨u, e, code, ds, more, g1, g2, g3, g4, g5, g6, g8.mpr ht, g7⟩⟩

/-- A block of one word and one of two, each for DP and AP. -/
theorem witness_BlockReads_ok (ap : Bool) :
    ∀ us ∈ [[], [7#32]], ∃ (s : State) (v0 v : Word) (rest : List Bool), s.driver.port = .swd ∧
      s.input.dirFail = none ∧ us.length + 1 = s.work.blockCount.toNat ∧ Fits s (8 + 4 * us.length) ∧
      s.input.swdio = (if ap then swdOkRead v0 else []) ++ (us ++ [v]).flatMap swdOkRead ++ rest := by
  intro us hus
  refine ⟨withSwdio (room (inBlock swd 0#8 (BitVec.ofNat 16 (us.length + 1)) []) (8 + 4 * us.length))
    ((if ap then swdOkRead 6#32 else []) ++ (us ++ [8#32]).flatMap swdOkRead ++ []), 6#32, 8#32, [], rfl, rfl, ?_, ?_, rfl⟩
  · simp only [List.mem_cons, List.not_mem_nil, or_false] at hus
    rcases hus with rfl | rfl <;> rfl
  · unfold Fits; exact Nat.le_refl _

/-- A block of two words that fails at the first and at the last of them; the failing read is RDBUFF where it is an AP block's
last. -/
theorem witness_BlockReads_fails (ap : Bool) :
    ∀ us ∈ [[], [7#32]], ∃ (s : State) (v0 : Word) (bad rest : List Bool) (cs : List Cycle) (req code : Byte),
      s.driver.port = .swd ∧ s.input.dirFail = none ∧ us.length < s.work.blockCount.toNat ∧ Fits s (4 + 4 * us.length) ∧
      req = (if ap then 0x03#8 else 0x02#8) ||| ((3#2 : RegAddr).zeroExtend 8 <<< 2) ∧
      SwdFails s.driver (if ap = true ∧ us.length + 1 = s.work.blockCount.toNat then 0x0e#8 else req)
        s.driver.waitRetry.toNat bad cs code ∧
      s.input.swdio = (if ap then swdOkRead v0 else []) ++ us.flatMap swdOkRead ++ bad ++ rest := by
  intro us hus
  refine ⟨withSwdio (room (inBlock swd 0#8 2#16 []) (4 + 4 * us.length))
    ((if ap then swdOkRead 6#32 else []) ++ us.flatMap swdOkRead ++ [false, false, true] ++ []), 6#32, _, [], _, _, _, rfl, rfl, ?_,
    by unfold Fits; exact Nat.le_refl _, rfl, swdFails_fault _ _ _, rfl⟩
  simp only [List.mem_cons, List.not_mem_nil, or_false] at hus
  rcases hus with rfl | rfl
  · exact (by decide : 0 < 2)
  · exact (by decide : 1 < 2)

theorem witness_BlockReads_post :
    ∃ (s : State) (bad rest : List Bool) (cs : List Cycle) (code : Byte), s.driver.port = .swd ∧ s.input.dirFail = none ∧
      s.work.blockCount ≠ 0#16 ∧ Fits s 4 ∧
      SwdFails s.driver (0x03#8 ||| ((3#2 : RegAddr).zeroExtend 8 <<< 2)) s.driver.waitRetry.toNat bad cs code ∧
      s.input.swdio = bad ++ rest :=
  ⟨withSwdio (room (inBlock swd 0#8 1#16 []) 4) ([false, false, true] ++ []), _, [], _, _, rfl, rfl, (by decide : (1#16 : Half) ≠ 0#16),
    by unfold Fits; exact Nat.le_refl _, swdFails_fault _ _ _, rfl⟩

theorem witness_BlockReads_jtag (ap : Bool) :
    ∀ us ∈ [[], [7#32]], ∃ (s : State) (v0 v : Word) (ans rest : List Bool) (req : Byte) (d : Driver) (xs : List Access),
      s.driver.port = .jtag ∧ s.work.blockIndex.toNat < s.driver.chain.length ∧ us.length + 1 = s.work.blockCount.toNat ∧
      Fits s (8 + 4 * us.length) ∧ req = (if ap then 0x03#8 else 0x02#8) ||| ((3#2 : RegAddr).zeroExtend 8 <<< 2) ∧
      d = { s.driver with index := s.work.blockIndex } ∧
      xs = ⟨req, 0#32, v0⟩ :: us.map (fun x => ⟨req, 0#32, x⟩) ++ [⟨0x0e#8, 0#32, v⟩] ∧
      JtagAnswers d none xs ans ∧ s.input.tdo = ans ++ rest := by
  intro us hus
  refine ⟨withTdo (room (inBlock (jtag [4#8, 5#8] 0#8) 1#8 (BitVec.ofNat 16 (us.length + 1)) []) (8 + 4 * us.length))
    (answersOf (jtag [4#8, 5#8] 1#8).driver none _ ++ []), 6#32, 8#32, _, [], _, _, _, rfl, (by decide : (1 : Nat) < 2), ?_,
    by unfold Fits; exact Nat.le_refl _, rfl, rfl, rfl, jtagAnswers_answersOf _ _ _, rfl⟩
  simp only [List.mem_cons, List.not_mem_nil, or_false] at hus
  rcases hus with rfl | rfl <;> rfl

theorem witness_BlockWrites_ok :
    ∃ (s : State) (v : Word) (p : Bool) (ws : List Word) (more : List Byte) (rest : List Bool), s.driver.port = .swd ∧
      s.input.dirFail = none ∧ ws ≠ [] ∧ ws.length = s.work.blockCount.toNat ∧ Fits s 4 ∧
      pending s = ws.flatMap bytes32 ++ more ∧
      s.input.swdio = (ws.flatMap fun _ => swdOkWrite) ++ swdReadAnswer v p ++ rest :=
  ⟨withSwdio (room (inBlock swd 0#8 2#16 ([1#32, 2#32].flatMap bytes32 ++ [])) 4) (swdOkWrite ++ swdOkWrite ++ swdReadAnswer 7#32 true),
    7#32, true, [1#32, 2#32], [], [], by unfold Fits; decide⟩

/-- A block of two words that fails at the first, which leaves one to skip, and at the last, which leaves none. -/
theorem witness_BlockWrites_fails :
    (∃ (s : State) (ws : List Word) (w : Word) (skipped : List Word) (more : List Byte) (bad rest : List Bool)
        (cs : List Cycle) (req code : Byte), s.driver.port = .swd ∧ s.input.dirFail = none ∧
      ws.length + 1 + skipped.length = s.work.blockCount.toNat ∧ Fits s 4 ∧
      req = 1#8 ||| ((3#2 : RegAddr).zeroExtend 8 <<< 2) ∧
      pending s = (ws ++ [w] ++ skipped).flatMap bytes32 ++ more ∧
      SwdFails s.driver req s.driver.waitRetry.toNat bad cs code ∧
      s.input.swdio = (ws.flatMap fun _ => swdOkWrite) ++ bad ++ rest ∧ ws = []) ∧
    ∃ (s : State) (ws : List Word) (w : Word) (skipped : List Word) (more : List Byte) (bad rest : List Bool)
        (cs : List Cycle) (req code : Byte), s.driver.port = .swd ∧ s.input.dirFail = none ∧
      ws.length + 1 + skipped.length = s.work.blockCount.toNat ∧ Fits s 4 ∧
      req = 1#8 ||| ((3#2 : RegAddr).zeroExtend 8 <<< 2) ∧
      pending s = (ws ++ [w] ++ skipped).flatMap bytes32 ++ more ∧
      SwdFails s.driver req s.driver.waitRetry.toNat bad cs code ∧
      s.input.swdio = (ws.flatMap fun _ => swdOkWrite) ++ bad ++ rest ∧ skipped = [] :=
  ⟨⟨withSwdio (room (inBlock swd 0#8 2#16 ([1#32, 2#32].flatMap bytes32 ++ [])) 4) ([false, false, true] ++ []), [], 1#32, [2#32],
      [], _, [], _, _, _, rfl, rfl, rfl, by unfold Fits; exact Nat.le_refl _, rfl, rfl, swdFails_fault _ _ _, rfl, rfl⟩,
    ⟨withSwdio (room (inBlock swd 0#8 2#16 ([1#32, 2#32].flatMap bytes32 ++ [])) 4) (swdOkWrite ++ [true, true, true] ++ []),
      [1#32], 2#32, [], [], _, [], _, _, _, rfl, rfl, rfl, by unfold Fits; exact Nat.le_refl _, rfl, rfl,
      swdFails_protocol _ _ _, rfl, rfl⟩⟩

theorem witness_BlockWrites_rdbuff :
    ∃ (s : State) (ws : List Word) (more : List Byte) (bad rest : List Bool) (cs : List Cycle) (req code : Byte),
      s.driver.port = .swd ∧ s.input.dirFail = none ∧ ws ≠ [] ∧ ws.length = s.work.blockCount.toNat ∧ Fits s 4 ∧
      req = 1#8 ||| ((3#2 : RegAddr).zeroExtend 8 <<< 2) ∧ pending s = ws.flatMap bytes32 ++ more ∧
      SwdFails s.driver 0x0e#8 s.driver.waitRetry.toNat bad cs code ∧
      s.input.swdio = (ws.flatMap fun _ => swdOkWrite) ++ bad ++ rest :=
  ⟨withSwdio (room (inBlock swd 0#8 1#16 ([1#32].flatMap bytes32 ++ [])) 4) (swdOkWrite ++ [false, false, true] ++ []), [1#32], [], _, [],
    _, _, _, rfl, rfl, by decide, rfl, by unfold Fits; exact Nat.le_refl _, rfl, rfl, swdFails_fault _ _ _, rfl⟩

theorem witness_BlockWrites_jtag (ap : Bool) :
    ∃ (s : State) (v : Word) (ws : List (Word × Word)) (more : List Byte) (ans rest : List Bool) (req : Byte) (d : Driver)
        (xs : List Access), s.driver.port = .jtag ∧ s.work.blockIndex.toNat < s.driver.chain.length ∧ ws ≠ [] ∧
      ws.length = s.work.blockCount.toNat ∧ Fits s 4 ∧
      req = (if ap then 1#8 else 0#8) ||| ((3#2 : RegAddr).zeroExtend 8 <<< 2) ∧
      pending s = (ws.flatMap fun x => bytes32 x.1) ++ more ∧ d = { s.driver with index := s.work.blockIndex } ∧
      xs = ws.map (fun x => ⟨req, x.1, x.2⟩) ++ [⟨0x0e#8, 0#32, v⟩] ∧ JtagAnswers d none xs ans ∧
      s.input.tdo = ans ++ rest :=
  ⟨withTdo (room (inBlock (jtag [4#8, 5#8] 0#8) 1#8 2#16 ([1#32, 2#32].flatMap bytes32 ++ [])) 4)
    (answersOf (jtag [4#8, 5#8] 1#8).driver none _ ++ []), 8#32, [(1#32, 6#32), (2#32, 7#32)], [], _, [], _, _, _, rfl,
    (by decide : (1 : Nat) < 2), by decide, rfl, by unfold Fits; exact Nat.le_refl _, rfl, rfl, rfl, rfl,
    jtagAnswers_answersOf _ _ _, rfl⟩

/-- At the request of a block of `n` words to the second of two devices, on the port given, with these bytes to come. -/
def blockOn (p : Port) (n : Half) (bytes : List Byte) : State :=
  inBlock { jtag [4#8, 5#8] 0#8 with driver := { (jtag [4#8, 5#8] 0#8).driver with port := p } } 1#8 n bytes

/-- The device that the block's transfers go to is in the chain. -/
theorem blockOn_index (p : Port) (n : Half) (bytes : List Byte) :
    (atBlock (blockOn p n bytes)).driver.index.toNat < (atBlock (blockOn p n bytes)).driver.chain.length := by
  cases p with
  | disabled => exact (by decide : (0#8 : Byte).toNat < (chainOf [4#8, 5#8]).length)
  | swd => exact (by decide : (0#8 : Byte).toNat < (chainOf [4#8, 5#8]).length)
  | jtag => exact (by decide : (1#8 : Byte).toNat < (chainOf [4#8, 5#8]).length)

theorem blockOn_port {p : Port} (hp : p ≠ .disabled) (n : Half) (bytes : List Byte) :
    (atBlock (blockOn p n bytes)).driver.port ≠ .disabled := by
  cases p with
  | disabled => exact absurd rfl hp
  | swd => exact (by decide : Port.swd ≠ .disabled)
  | jtag => exact (by decide : Port.jtag ≠ .disabled)

/-- On either port: a block of two words that fails at the first and at the last of them, the last one RDBUFF where a read is
posted; and one whose post step fails. -/
theorem witness_BlockReads_stops (p : Port) (hp : p ≠ .disabled) (ap : Bool) :
    (∀ us ∈ [[], [7#32]], ∃ (s : State) (v0 : Word) (cs : List Cycle) (rest : List Bool) (req cur code : Byte)
        (post : List Access), s.driver.port = p ∧ us.length < s.work.blockCount.toNat ∧ Fits s (4 + 4 * us.length) ∧
      req = (if ap then 0x03#8 else 0x02#8) ||| ((3#2 : RegAddr).zeroExtend 8 <<< 2) ∧
      post = (if ap = true ∨ s.driver.port = .jtag then [⟨req, 0#32, v0⟩] else []) ∧
      cur = (if (ap = true ∨ s.driver.port = .jtag) ∧ us.length + 1 = s.work.blockCount.toNat then 0x0e#8 else req) ∧
      AnswersThenFails (atBlock s) (post ++ us.map fun x => ⟨req, 0#32, x⟩) cur code cs rest) ∧
    (ap = true ∨ p = .jtag → ∃ (s : State) (cs : List Cycle) (rest : List Bool) (req code : Byte), s.driver.port = p ∧
      s.work.blockCount ≠ 0#16 ∧ Fits s 4 ∧ (ap = true ∨ s.driver.port = .jtag) ∧
      req = (if ap then 0x03#8 else 0x02#8) ||| ((3#2 : RegAddr).zeroExtend 8 <<< 2) ∧
      AnswersThenFails (atBlock s) [] req code cs rest) := by
  refine ⟨fun us hus => ?_, fun h => ?_⟩
  · obtain ⟨a, b, cs, h⟩ := fails_answering (atBlock (blockOn p 2#16 [])) (4 + 4 * us.length)
      ((if ap = true ∨ p = .jtag then
        [⟨(if ap then 0x03#8 else 0x02#8) ||| ((3#2 : RegAddr).zeroExtend 8 <<< 2), 0#32, 6#32⟩] else []) ++
        us.map fun x => ⟨(if ap then 0x03#8 else 0x02#8) ||| ((3#2 : RegAddr).zeroExtend 8 <<< 2), 0#32, x⟩)
      (if (ap = true ∨ p = .jtag) ∧ us.length + 1 = 2 then 0x0e#8
        else (if ap then 0x03#8 else 0x02#8) ||| ((3#2 : RegAddr).zeroExtend 8 <<< 2))
      (blockOn_port hp _ _) (blockOn_index _ _ _)
    refine ⟨answering (blockOn p 2#16 []) (4 + 4 * us.length) a b, 6#32, cs, [], _, _, 4#8, _, rfl, ?_,
      fits_answering _ _ _ _, rfl, rfl, rfl, h⟩
    simp only [List.mem_cons, List.not_mem_nil, or_false] at hus
    rcases hus with rfl | rfl
    · exact (by decide : 0 < 2)
    · exact (by decide : 1 < 2)
  · obtain ⟨a, b, cs, hf⟩ := fails_answering (atBlock (blockOn p 1#16 [])) 4 []
      ((if ap then 0x03#8 else 0x02#8) ||| ((3#2 : RegAddr).zeroExtend 8 <<< 2)) (blockOn_port hp _ _) (blockOn_index _ _ _)
    exact ⟨answering (blockOn p 1#16 []) 4 a b, cs, [], _, 4#8, rfl, (by decide : (1#16 : Half) ≠ 0#16), fits_answering _ _ _ _, h,
      rfl, hf⟩

/-- On either port, a failing write: at the first and at the last word of two, with all the words there; and at the first of
three, with one word missing and three bytes of it there, and with both missing. -/
theorem witness_BlockWrites_stops (p : Port) (hp : p ≠ .disabled) (ap : Bool) :
    (∀ x ∈ [([], [8#32]), ([(1#32, 6#32)], [])], ∃ (s : State) (ws : List (Word × Word)) (w : Word) (skipped : List Word)
        (more : List Byte) (cs : List Cycle) (rest : List Bool) (req code : Byte), s.driver.port = p ∧ (ws, skipped) = x ∧
      req = (if ap then 1#8 else 0#8) ||| ((3#2 : RegAddr).zeroExtend 8 <<< 2) ∧ Fits s 4 ∧
      AnswersThenFails (atBlock s) (ws.map fun x => ⟨req, x.1, x.2⟩) req code cs rest ∧
      pending s = (ws.map Prod.fst ++ [w] ++ skipped).flatMap bytes32 ++ more ∧
      ws.length + 1 + skipped.length = s.work.blockCount.toNat) ∧
    ∀ x ∈ [([8#32], [1#8, 2#8, 3#8]), ([], [])], ∃ (s : State) (ws : List (Word × Word)) (w : Word) (skipped : List Word)
        (more : List Byte) (cs : List Cycle) (rest : List Bool) (req code : Byte), s.driver.port = p ∧ (skipped, more) = x ∧
      req = (if ap then 1#8 else 0#8) ||| ((3#2 : RegAddr).zeroExtend 8 <<< 2) ∧ Fits s 4 ∧
      AnswersThenFails (atBlock s) (ws.map fun x => ⟨req, x.1, x.2⟩) req code cs rest ∧
      pending s = (ws.map Prod.fst ++ [w] ++ skipped).flatMap bytes32 ++ more ∧
      ws.length + 1 + skipped.length < s.work.blockCount.toNat ∧ more.length < 4 := by
  have key (n : Half) (ws : List (Word × Word)) (skipped : List Word) (more : List Byte) :
      ∃ (s : State) (cs : List Cycle) (rest : List Bool), s.driver.port = p ∧ Fits s 4 ∧
        AnswersThenFails (atBlock s)
          (ws.map fun x => ⟨(if ap then 1#8 else 0#8) ||| ((3#2 : RegAddr).zeroExtend 8 <<< 2), x.1, x.2⟩)
          ((if ap then 1#8 else 0#8) ||| ((3#2 : RegAddr).zeroExtend 8 <<< 2)) 4#8 cs rest ∧
        pending s = (ws.map Prod.fst ++ [9#32] ++ skipped).flatMap bytes32 ++ more ∧ s.work.blockCount = n := by
    obtain ⟨a, b, cs, h⟩ := fails_answering
      (atBlock (blockOn p n ((ws.map Prod.fst ++ [9#32] ++ skipped).flatMap bytes32 ++ more))) 4
      (ws.map fun x => ⟨(if ap then 1#8 else 0#8) ||| ((3#2 : RegAddr).zeroExtend 8 <<< 2), x.1, x.2⟩)
      ((if ap then 1#8 else 0#8) ||| ((3#2 : RegAddr).zeroExtend 8 <<< 2)) (blockOn_port hp _ _) (blockOn_index _ _ _)
    exact ⟨answering (blockOn p n ((ws.map Prod.fst ++ [9#32] ++ skipped).flatMap bytes32 ++ more)) 4 a b, cs, [], rfl,
      fits_answering _ _ _ _, h, rfl, rfl⟩
  constructor <;> intro x hx <;> simp only [List.mem_cons, List.not_mem_nil, or_false] at hx <;> rcases hx with rfl | rfl
  · obtain ⟨s, cs, rest, h1, h2, h3, h4, h5⟩ := key 2#16 [] [8#32] []
    exact ⟨s, _, _, _, _, cs, rest, _, _, h1, rfl, rfl, h2, h3, h4, by rw [h5]; decide⟩
  · obtain ⟨s, cs, rest, h1, h2, h3, h4, h5⟩ := key 2#16 [(1#32, 6#32)] [] []
    exact ⟨s, _, _, _, _, cs, rest, _, _, h1, rfl, rfl, h2, h3, h4, by rw [h5]; decide⟩
  · obtain ⟨s, cs, rest, h1, h2, h3, h4, h5⟩ := key 3#16 [] [8#32] [1#8, 2#8, 3#8]
    exact ⟨s, _, _, _, _, cs, rest, _, _, h1, rfl, rfl, h2, h3, h4, by rw [h5]; decide, by decide⟩
  · obtain ⟨s, cs, rest, h1, h2, h3, h4, h5⟩ := key 3#16 [] [] []
    exact ⟨s, _, _, _, _, cs, rest, _, _, h1, rfl, rfl, h2, h3, h4, by rw [h5]; decide, by decide⟩

/-- On either port: a failing RDBUFF; and a block of two words of which none is there, and of which one is there with three bytes
of the next. -/
theorem witness_BlockWrites_short (p : Port) (hp : p ≠ .disabled) (ap : Bool) :
    (∃ (s : State) (ws : List (Word × Word)) (more : List Byte) (cs : List Cycle) (rest : List Bool) (req code : Byte),
      s.driver.port = p ∧ req = (if ap then 1#8 else 0#8) ||| ((3#2 : RegAddr).zeroExtend 8 <<< 2) ∧ Fits s 4 ∧
      pending s = (ws.map Prod.fst).flatMap bytes32 ++ more ∧ ws ≠ [] ∧ ws.length = s.work.blockCount.toNat ∧
      AnswersThenFails (atBlock s) (ws.map fun x => ⟨req, x.1, x.2⟩) 0x0e#8 code cs rest) ∧
    ∀ x ∈ [([], []), ([(1#32, 6#32)], [1#8, 2#8, 3#8])], ∃ (s : State) (ws : List (Word × Word)) (more : List Byte)
        (cs : List Cycle) (rest : List Bool) (req : Byte), s.driver.port = p ∧ (ws, more) = x ∧
      req = (if ap then 1#8 else 0#8) ||| ((3#2 : RegAddr).zeroExtend 8 <<< 2) ∧ Fits s 4 ∧
      pending s = (ws.map Prod.fst).flatMap bytes32 ++ more ∧ ws.length < s.work.blockCount.toNat ∧ more.length < 4 ∧
      Answers (atBlock s) (ws.map fun x => ⟨req, x.1, x.2⟩) cs rest := by
  constructor
  · obtain ⟨a, b, cs, h⟩ := fails_answering (atBlock (blockOn p 1#16 ([1#32].flatMap bytes32 ++ []))) 4
      ([(1#32, 6#32)].map fun x => ⟨(if ap then 1#8 else 0#8) ||| ((3#2 : RegAddr).zeroExtend 8 <<< 2), x.1, x.2⟩) 0x0e#8
      (blockOn_port hp _ _) (blockOn_index _ _ _)
    exact ⟨answering (blockOn p 1#16 ([1#32].flatMap bytes32 ++ [])) 4 a b, [(1#32, 6#32)], [], cs, [], _, 4#8, rfl, rfl,
      fits_answering _ _ _ _, rfl, by decide, rfl, h⟩
  · intro x hx
    obtain ⟨a, b, cs, h⟩ := answers_answering (atBlock (blockOn p 2#16 ((x.1.map Prod.fst).flatMap bytes32 ++ x.2))) 4
      (x.1.map fun x => ⟨(if ap then 1#8 else 0#8) ||| ((3#2 : RegAddr).zeroExtend 8 <<< 2), x.1, x.2⟩)
      (blockOn_port hp _ _) (blockOn_index _ _ _)
    refine ⟨answering (blockOn p 2#16 ((x.1.map Prod.fst).flatMap bytes32 ++ x.2)) 4 a b, x.1, x.2, cs, [], _, rfl, rfl, rfl,
      fits_answering _ _ _ _, rfl, ?_, ?_, h⟩
    · simp only [List.mem_cons, List.not_mem_nil, or_false] at hx
      rcases hx with rfl | rfl
      · exact (by decide : 0 < 2)
      · exact (by decide : 1 < 2)
    · simp only [List.mem_cons, List.not_mem_nil, or_false] at hx
      rcases hx with rfl | rfl <;> decide

/-- The block's precondition fails, and one of its two words is there with three bytes of the next, or none. -/
theorem witness_BlockWrites_skips :
    ∀ x ∈ [([7#32], [1#8, 2#8, 3#8]), ([], [])],
      (∃ (s : State) (ws : List Word) (more : List Byte), (ws, more) = x ∧ Fits s 4 ∧ s.driver.port = .disabled ∧
        ws.length < s.work.blockCount.toNat ∧ pending s = ws.flatMap bytes32 ++ more ∧ more.length < 4) ∧
      ∃ (s : State) (ws : List Word) (more : List Byte), (ws, more) = x ∧ Fits s 4 ∧ s.driver.port = .jtag ∧
        s.driver.chain.length = s.work.blockIndex.toNat ∧
        ws.length < s.work.blockCount.toNat ∧ pending s = ws.flatMap bytes32 ++ more ∧ more.length < 4 := by
  intro x hx
  have hl : x.1.length < 2 ∧ x.2.length < 4 := by
    simp only [List.mem_cons, List.not_mem_nil, or_false] at hx
    rcases hx with rfl | rfl <;> decide
  exact ⟨⟨room (inBlock State.reset 0#8 2#16 (x.1.flatMap bytes32 ++ x.2)) 4, x.1, x.2, rfl, Nat.le_refl _, rfl, hl.1, rfl, hl.2⟩,
    ⟨room (inBlock (jtag [4#8] 0#8) 1#8 2#16 (x.1.flatMap bytes32 ++ x.2)) 4, x.1, x.2, rfl, Nat.le_refl _, rfl, rfl, hl.1, rfl, hl.2⟩⟩

/-- A disabled port; JTAG with the first index beyond the chain; and the words of the write block all there. -/
theorem witness_BlockPrecondition :
    (∃ s : State, Fits s 4 ∧ (s.driver.port = .disabled ∨ s.driver.port = .jtag ∧ s.driver.chain.length ≤ s.work.blockIndex.toNat) ∧
      s.driver.port = .disabled ∧ s.mem.rd + 4 * s.work.blockCount.toNat ≤ s.mem.req.length) ∧
    ∃ s : State, Fits s 4 ∧ (s.driver.port = .disabled ∨ s.driver.port = .jtag ∧ s.driver.chain.length ≤ s.work.blockIndex.toNat) ∧
      s.driver.chain.length = s.work.blockIndex.toNat ∧ s.mem.rd + 4 * s.work.blockCount.toNat ≤ s.mem.req.length :=
  ⟨⟨room (inBlock State.reset 0#8 1#16 (bytes32 7#32)) 4, by unfold Fits; decide⟩,
    ⟨room (inBlock (jtag [4#8] 0#8) 1#8 1#16 (bytes32 7#32)) 4, by unfold Fits; decide⟩⟩

/-- Count 0 on SWD, and on JTAG with the last device of the chain. -/
theorem witness_BlockPrecondition_empty :
    (∃ s : State, Fits s 4 ∧ s.work.blockCount = 0#16 ∧ s.driver.port = .swd) ∧
    ∃ s : State, Fits s 4 ∧ s.work.blockCount = 0#16 ∧ s.driver.port = .jtag ∧
      s.work.blockIndex.toNat < s.driver.chain.length ∧ s.driver.index ≠ s.work.blockIndex :=
  ⟨⟨room (inBlock swd 0#8 0#16 []) 4, by unfold Fits; decide⟩,
    ⟨room (inBlock (jtag [4#8, 5#8] 0#8) 1#8 0#16 []) 4, by unfold Fits; decide⟩⟩

/-- Every request kind and both blocks complete. -/
theorem witness_RequestFrame :
    (∀ i ∈ [Instr.dpR 0#2, .apR 3#2, .dpRM 0#2 0#32, .apRM 0#2 0#32, .dpW 2#2 0#32, .apW 1#2 0#32, .mask 1#32],
      i.context = some .request ∧ ∃ t, exec i (withSwdio (inTransfer swd 0#8 2 []) (bits [0, 0, 1])) = .next t) ∧
    ∀ i ∈ [Instr.tbRead true 0#2, .tbWrite true 0#2],
      i.context = some .blockRequest ∧
        ∃ t, exec i (withSwdio (inBlock swd 0#8 1#16 (bytes32 7#32)) (bits [0, 0, 1])) = .next t := by
  refine ⟨?_, ?_⟩ <;> intro i hi <;> refine ⟨?_, exists_next ?_⟩ <;> revert i <;> decide

/-- A state in the middle of a Transfer has the invariant and steps on. -/
theorem witness_StepKeepsInvariant :
    ∃ s t : State, BlockInv s ∧ s.phase = .request ∧ step s = .next t := by
  have h : isNext (step (withSwdio (inTransfer swd 0#8 2 [0x02#8, 0x02#8]) (swdOkRead 7#32))) = true := by decide
  obtain ⟨t, ht⟩ := exists_next h
  refine ⟨_, t, ?_, rfl, ht⟩
  unfold BlockInv ClockInv ChainInv ParkInv TapsIdle TransferInv
  decide

theorem witness_TraceOnlyGrows :
    (∃ s t : State, s.driver.port = .swd ∧ step s = .next t) ∧ ∃ s t : State, s.driver.port = .disabled ∧ step s = .next t := by
  obtain ⟨t, ht⟩ := exists_next (o := step (withSwdio (inTransfer swd 0#8 2 [0x02#8]) (swdOkRead 7#32))) (by decide)
  obtain ⟨u, hu⟩ := exists_next (o := step (atCommand State.reset [0x03#8])) (by decide)
  exact ⟨⟨_, t, rfl, ht⟩, ⟨_, u, rfl, hu⟩⟩

/-- Every writer of Driver State, with what it writes really changed. -/
theorem witness_WhoWritesDriverState :
    (∃ s t : State, s.params.resetOnFramingError = false ∧ exec (.connect 1#8) s = .next t ∧ t.driver.port ≠ s.driver.port) ∧
    (∃ s t : State, s.params.resetOnFramingError = false ∧ exec (.swjClock 3#32) s = .next t ∧
      t.driver.clockRate ≠ s.driver.clockRate ∧ t.driver.halfDelay ≠ s.driver.halfDelay) ∧
    (∃ s t : State, s.params.resetOnFramingError = false ∧ exec (.jtagCfg [4#8]) s = .next t ∧
      t.driver.chain ≠ s.driver.chain) ∧
    (∃ s t : State, s.params.resetOnFramingError = false ∧ exec (.transfer 1#8 0#8) s = .next t ∧
      t.driver.index ≠ s.driver.index) ∧
    (∃ s t : State, s.params.resetOnFramingError = false ∧ exec (.swdCfg 7#8) s = .next t ∧
      t.driver.trnField ≠ s.driver.trnField ∧ t.driver.dataPhase ≠ s.driver.dataPhase) ∧
    (∃ s t : State, s.params.resetOnFramingError = false ∧ exec (.xferCfg 1#8 1#16 1#16) s = .next t ∧
      t.driver.idleCycles ≠ s.driver.idleCycles ∧ t.driver.waitRetry ≠ s.driver.waitRetry ∧
      t.driver.matchRetry ≠ s.driver.matchRetry) ∧
    ∃ s t : State, s.params.resetOnFramingError = false ∧ exec (.mask 1#32) s = .next t ∧
      t.driver.matchMask ≠ s.driver.matchMask :=
  ⟨⟨State.reset, _, by decide, rfl, by decide⟩, ⟨State.reset, _, by decide, rfl, by decide⟩,
    ⟨State.reset, _, by decide, rfl, by decide⟩, ⟨jtag [4#8, 5#8] 0#8, _, by decide, rfl, by decide⟩,
    ⟨State.reset, _, by decide, rfl, by decide⟩, ⟨State.reset, _, by decide, rfl, by decide⟩,
    ⟨inTransfer swd 0#8 1 [], _, by decide, rfl, by decide⟩⟩

end Sys2Proof.Tests
end

section
/-! The host's side of a step (R280, R329): what a step between requests and a step in `send` are, and the disconnect both
can end in. -/

namespace Sys2Proof.Machine

/-- Between requests a step is `recv` (R280). -/
theorem step_of_idle {s : State} (h : s.phase = .idle) : step s = receive s := by
  simp only [step, fetch, h]

/-- After a request a step is `send` (R280). -/
theorem step_of_respond {s : State} (h : s.phase = .respond) : step s = .next (sendResponse s) := by
  simp only [step, fetch, h]

theorem receive_of_disconnect {s : State} {evs : List HostEvent} (h : s.input.recv = .disconnect :: evs) :
    receive s = .next (resetDriver { s with input := { s.input with recv := evs } }) := by
  simp only [receive, h]

theorem sendResponse_of_fail {s : State} (h : s.input.sendFail.head? = some true) :
    sendResponse s = resetDriver { s with input := { s.input with sendFail := s.input.sendFail.tail } } := by
  simp only [sendResponse, h, if_true]

/-- Settles O11: a transport disconnect and a failing `send` are both one `resetDriver`, of a state that differs from the
one before in its inputs only. -/
theorem disconnectResets : Obligations.DisconnectResets := by
  intro s hs
  have hstep : ∃ i : Input, step s = .next (resetDriver { s with input := i }) := by
    obtain ⟨hidle, evs, hrecv⟩ | ⟨hrespond, hfail⟩ := hs
    · exact ⟨_, (step_of_idle hidle).trans (receive_of_disconnect hrecv)⟩
    · exact ⟨_, by rw [step_of_respond hrespond, sendResponse_of_fail hfail]⟩
  obtain ⟨i, hi⟩ := hstep
  exact ⟨_, hi, by simp [Memory.empty]⟩

end Sys2Proof.Machine
end

section
/-! What a step is (R39, R280): the decoder's bounds, and the ways a step can go, said once. -/

namespace Sys2Proof.Machine

/-! ### What the decoder answers -/

/-- The decoder's answer to `len` bytes in a context: an instruction is well formed, of that context, and takes no more
bytes than there are; a code without a rule is one of the bytes. -/
def DecodesWithin (c : Context) (len : Nat) : Decoded → Prop
  | .instr i n => WellFormed i ∧ i.context = some c ∧ 1 ≤ n ∧ n ≤ len
  | .short _ _ => True
  | .noRule _ => 1 ≤ len
  | .notHeader _ => 1 ≤ len

theorem decodeByteField_within {mk : Byte → Instr} (code : Byte) (rest : List Byte) (hw : ∀ b, WellFormed (mk b))
    (hc : ∀ b, (mk b).context = some .command) :
    DecodesWithin .command (code :: rest).length (decodeByteField mk rest) := by
  match rest with
  | [] => trivial
  | b :: _ => exact ⟨hw b, hc b, by decide, by simp⟩

theorem decodeXferCfg_within (code : Byte) (rest : List Byte) :
    DecodesWithin .command (code :: rest).length (decodeXferCfg rest) := by
  match rest with
  | [] | [_] | [_, _] | [_, _, _] | [_, _, _, _] => trivial
  | _ :: _ :: _ :: _ :: _ :: _ => exact ⟨rfl, rfl, by decide, by simp⟩

theorem decodeTransfer_within (code : Byte) (rest : List Byte) :
    DecodesWithin .command (code :: rest).length (decodeTransfer rest) := by
  match rest with
  | [] | [_] => trivial
  | _ :: _ :: _ => exact ⟨rfl, rfl, by decide, by simp⟩

theorem decodeTransferBlock_within (code : Byte) (rest : List Byte) :
    DecodesWithin .command (code :: rest).length (decodeTransferBlock rest) := by
  match rest with
  | [] | [_] | [_, _] => trivial
  | _ :: _ :: _ :: _ => exact ⟨rfl, rfl, by decide, by simp⟩

theorem decodeSwjClock_within (code : Byte) (rest : List Byte) :
    DecodesWithin .command (code :: rest).length (decodeSwjClock rest) := by
  match rest with
  | [] | [_] | [_, _] | [_, _, _] => trivial
  | _ :: _ :: _ :: _ :: _ => exact ⟨rfl, rfl, by decide, by simp⟩

theorem decodeJtagCfg_within (code : Byte) (rest : List Byte) :
    DecodesWithin .command (code :: rest).length (decodeJtagCfg rest) := by
  match rest with
  | [] => trivial
  | n :: lens =>
    rw [decodeJtagCfg]
    split
    · rename_i hn
      have h255 : n.toNat ≤ 255 := Nat.le_of_lt_succ n.isLt
      exact ⟨by simp [WellFormed, Instr.wellFormed]; omega, rfl, by omega, by simp; omega⟩
    · trivial

theorem decodeCommand_within (bs : List Byte) : DecodesWithin .command bs.length (decodeCommand bs) := by
  match bs with
  | [] => trivial
  | code :: rest =>
    rw [decodeCommand]
    split
    · exact decodeByteField_within (mk := .connect) code rest (fun _ => rfl) fun _ => rfl
    split
    · exact ⟨rfl, rfl, le_rfl, by simp⟩
    split
    · exact decodeXferCfg_within code rest
    split
    · exact decodeTransfer_within code rest
    split
    · exact decodeTransferBlock_within code rest
    split
    · exact decodeSwjClock_within code rest
    split
    · exact decodeByteField_within (mk := .swdCfg) code rest (fun _ => rfl) fun _ => rfl
    split
    · exact decodeJtagCfg_within code rest
    split
    · exact decodeByteField_within (mk := .execCommands) code rest (fun _ => rfl) fun _ => rfl
    · exact Nat.le_add_left 1 _

/-- Every request byte is a well-formed request. -/
theorem requestOf_request (b : Byte) (w : Word) :
    WellFormed (requestOf b w) ∧ (requestOf b w).context = some .request := by
  unfold requestOf
  repeat' split
  all_goals exact ⟨rfl, rfl⟩

theorem decodeRequest_within (bs : List Byte) : DecodesWithin .request bs.length (decodeRequest bs) := by
  have hw := fun b w => (requestOf_request b w).1
  have hc := fun b w => (requestOf_request b w).2
  unfold decodeRequest
  split
  · trivial
  · split
    · split
      · exact ⟨hw _ _, hc _ _, by decide, by simp⟩
      · trivial
    · exact ⟨hw _ _, hc _ _, le_rfl, by simp⟩

theorem decodeBlockRequest_within (bs : List Byte) :
    DecodesWithin .blockRequest bs.length (decodeBlockRequest bs) := by
  match bs with
  | [] => trivial
  | b :: _ =>
    rw [decodeBlockRequest]
    cases reqRnW b <;> exact ⟨rfl, rfl, le_rfl, by simp⟩

theorem decodeHeader_within (bs : List Byte) : DecodesWithin .wireHeader bs.length (decodeHeader bs) := by
  match bs with
  | [] => trivial
  | b :: _ =>
    rw [decodeHeader]
    split
    · exact ⟨rfl, rfl, le_rfl, by simp⟩
    · exact Nat.le_add_left 1 _

/-- What the decoder answers lies within the bytes at the cursor, in every context. -/
theorem decode_within (c : Context) (bs : List Byte) : DecodesWithin c bs.length (decode c bs) := by
  cases c with
  | command => exact decodeCommand_within bs
  | request => exact decodeRequest_within bs
  | blockRequest => exact decodeBlockRequest_within bs
  | wireHeader => exact decodeHeader_within bs

/-- A decoded instruction is well formed, of its context, and of at least one and at most the bytes there. -/
theorem decode_instr {c : Context} {bs : List Byte} {i : Instr} {n : Nat} (h : decode c bs = .instr i n) :
    WellFormed i ∧ i.context = some c ∧ 1 ≤ n ∧ n ≤ bs.length := by
  have hd := decode_within c bs
  rw [h] at hd
  exact hd

/-! ### The ways a step can go -/

/-- The context in which the command loop reads an instruction (R280); none while it waits or sends. -/
def Phase.reads : Phase → Option Context
  | .idle => none
  | .command => some .command
  | .request => some .request
  | .blockRequest => some .blockRequest
  | .respond => none

/-- The outcomes a step from `s` can have. -/
inductive StepKind (s : State) : Host.Outcome State Fault Refusal → Prop
  /-- waiting for a request -/
  | waits : s.phase = .idle → StepKind s (receive s)
  /-- handing over the response -/
  | sends : s.phase = .respond → StepKind s (.next (sendResponse s))
  /-- a code answered 0xff: a nested batch, or a code known to be unimplemented -/
  | answersError : 1 ≤ (pending s).length → StepKind s (answerError (advance 1 s)).outcome
  /-- a code without a rule -/
  | refuses (code : Byte) : s.params.unimplemented.contains code = false → StepKind s (.refused (.commandWithoutRule code))
  /-- a truncated instruction -/
  | truncated (c : Context) (off width : Nat) : s.phase.reads = some c → decode c (pending s) = .short off width →
      StepKind s (.next (takeFramingError ⟨s.mem.rd + off, width⟩ (writesBeforeShort c (pending s) s)))
  /-- an instruction of the context the loop stands in, with the cursor past it -/
  | runs (c : Context) (i : Instr) (n : Nat) : s.phase.reads = some c → decode c (pending s) = .instr i n →
      StepKind s (exec i (advance n s))

/-- The step that a fetched instruction makes. -/
def Fetched.outcome : Fetched → Host.Outcome State Fault Refusal
  | .run i s => exec i s
  | .done o => o

theorem step_of_fetch (s : State) : step s = (fetch s).outcome := by
  unfold step; cases fetch s <;> rfl

theorem fetch_of_command {s : State} (h : s.phase = .command) : fetch s = fetchCommand s := by rw [fetch, h]

theorem fetch_of_request {s : State} (h : s.phase = .request) : fetch s = fetchIn .request s := by rw [fetch, h]

theorem fetch_of_blockRequest {s : State} (h : s.phase = .blockRequest) : fetch s = fetchIn .blockRequest s := by
  rw [fetch, h]

theorem codeWithoutRule_kind {s : State} (code : Byte) (h : 1 ≤ (pending s).length) :
    StepKind s (codeWithoutRule code s) := by
  unfold codeWithoutRule
  split
  · exact .answersError h
  · rename_i hn
    exact .refuses code (by simpa using hn)

theorem fetchIn_kind {c : Context} {s : State} (hc : s.phase.reads = some c) : StepKind s (fetchIn c s).outcome := by
  have hd := decode_within c (pending s)
  unfold fetchIn
  cases h : decode c (pending s) with
  | instr i n => exact .runs c i n hc h
  | short at_ width => exact .truncated c at_ width hc h
  | noRule code => rw [h] at hd; exact codeWithoutRule_kind code hd
  | notHeader code => rw [h] at hd; exact codeWithoutRule_kind code hd

/-- A nested batch has a code. -/
theorem pending_of_isNestedBatch {s : State} (h : isNestedBatch s = true) : 1 ≤ (pending s).length := by
  unfold isNestedBatch at h
  cases hp : pending s with
  | nil => simp [hp] at h
  | cons code rest => simp

theorem fetchCommand_kind {s : State} (hc : s.phase = .command) : StepKind s (fetchCommand s).outcome := by
  unfold fetchCommand
  split
  · rename_i hn; exact .answersError (pending_of_isNestedBatch hn)
  · exact fetchIn_kind (by rw [hc]; rfl)

/-- Every step is of one of these kinds. -/
theorem step_kind (s : State) : StepKind s (step s) := by
  cases h : s.phase with
  | idle => rw [step_of_idle h]; exact .waits h
  | command => rw [step_of_fetch, fetch_of_command h]; exact fetchCommand_kind h
  | request => rw [step_of_fetch, fetch_of_request h]; exact fetchIn_kind (by rw [h]; rfl)
  | blockRequest => rw [step_of_fetch, fetch_of_blockRequest h]; exact fetchIn_kind (by rw [h]; rfl)
  | respond => rw [step_of_respond h]; exact .sends h

/-- Where the bytes at the cursor decode, reading them runs the instruction. -/
theorem fetchIn_of_decode {c : Context} {s : State} {i : Instr} {n : Nat} (h : decode c (pending s) = .instr i n) :
    fetchIn c s = .run i (advance n s) := by
  unfold fetchIn; rw [h]

/-- Settles O7: in each of the three phases in which an instruction is read, `fetch` is `fetchIn` of that context. -/
theorem stepRunsDecoded : Obligations.StepRunsDecoded := by
  intro s i n
  refine ⟨fun hp hn hd => ?_, fun hp hd => ?_, fun hp hd => ?_⟩
  · rw [step_of_fetch, fetch_of_command hp, fetchCommand, hn, if_neg Bool.false_ne_true, fetchIn_of_decode hd]; rfl
  · rw [step_of_fetch, fetch_of_request hp, fetchIn_of_decode hd]; rfl
  · rw [step_of_fetch, fetch_of_blockRequest hp, fetchIn_of_decode hd]; rfl

end Sys2Proof.Machine
end

section
/-! The invariant of the block without the part about a Transfer in progress, what a reset and a FramingError leave of it,
and the reset values (R50). -/

namespace Sys2Proof.Machine

/-! ### The invariant in two parts -/

/-- The part of the block's invariant that does not depend on where the command loop stands. -/
structure SteadyInv (s : State) : Prop where
  defaultClock : s.params.defaultClockHz ≠ 0#32
  clock : ClockInv s
  chain : ChainInv s
  park : ParkInv s
  taps : TapsIdle s
  wf : Memory.wf s.params s.mem = true

theorem blockInv_iff (s : State) : BlockInv s ↔ SteadyInv s ∧ TransferInv s :=
  ⟨fun ⟨hd, hk, hc, hp, ht, hw, hx⟩ => ⟨⟨hd, hk, hc, hp, ht, hw⟩, hx⟩,
    fun ⟨⟨hd, hk, hc, hp, ht, hw⟩, hx⟩ => ⟨hd, hk, hc, hp, ht, hw, hx⟩⟩

/-- Away from a Transfer's requests nothing is asked of the working state. -/
theorem transferInv_of_phase {s : State} (h : s.phase ≠ .request) : TransferInv s := fun hp => absurd hp h

theorem endCommand_transferInv (s : State) : TransferInv (endCommand s) :=
  transferInv_of_phase (by rcases endCommand_phase s with h | h <;> rw [h] <;> decide)

/-! ### Resets -/

theorem steadyInv_resetDriver {s : State} (h : s.params.defaultClockHz ≠ 0#32) (ht : TapsIdle s) :
    SteadyInv (resetDriver s) where
  defaultClock := h
  clock := ⟨h, rfl⟩
  chain := ⟨Nat.zero_le _, fun _ hd => absurd hd List.not_mem_nil, rfl⟩
  park := fun hp => Port.noConfusion hp
  taps := ht
  wf := empty_wf _

theorem blockInv_resetDriver {s : State} (h : s.params.defaultClockHz ≠ 0#32) (ht : TapsIdle s) :
    BlockInv (resetDriver s) :=
  (blockInv_iff _).mpr ⟨steadyInv_resetDriver h ht, transferInv_of_phase (fun hp => Phase.noConfusion hp)⟩

/-- What a FramingError leaves is a reset Driver State, or the one it is taken in (R321). -/
theorem takeFramingError_cases (e : FramingError) (s : State) :
    (∃ u, takeFramingError e s = resetDriver u ∧ s.params.resetOnFramingError = true ∧ u.params = s.params ∧
      u.taps = s.taps ∧ u.trace = s.trace) ∨
    (takeFramingError e s =
        { s with mem := Memory.empty, work := Work.initial, phase := .idle, batch := none, framing := some e } ∧
      s.params.resetOnFramingError = false) := by
  unfold takeFramingError
  cases h : s.params.resetOnFramingError with
  | true => exact .inl ⟨_, rfl, rfl, rfl, rfl, rfl⟩
  | false => exact .inr ⟨rfl, rfl⟩

@[simp] theorem takeFramingError_trace (e : FramingError) (s : State) : (takeFramingError e s).trace = s.trace := by
  rcases takeFramingError_cases e s with ⟨u, h, -, -, -, ht⟩ | ⟨h, -⟩ <;> rw [h]
  exact ht

theorem takeFramingError_driver {e : FramingError} {s : State} (h : s.params.resetOnFramingError = false) :
    (takeFramingError e s).driver = s.driver := by
  rcases takeFramingError_cases e s with ⟨u, -, ht, -⟩ | ⟨hk, -⟩
  · rw [h] at ht; cases ht
  · rw [hk]

/-- A FramingError keeps the invariant: it ends the request, and Driver State is as it was or reset. -/
theorem blockInv_takeFramingError {s : State} (e : FramingError) (h : SteadyInv s) :
    BlockInv (takeFramingError e s) := by
  rcases takeFramingError_cases e s with ⟨u, hu, -, hp, ht, -⟩ | ⟨hk, -⟩
  · rw [hu]
    exact blockInv_resetDriver (hp ▸ h.defaultClock) (by unfold TapsIdle; rw [ht]; exact h.taps)
  · rw [hk]
    exact (blockInv_iff _).mpr
      ⟨⟨h.defaultClock, h.clock, h.chain, h.park, h.taps, empty_wf _⟩, transferInv_of_phase (fun hp => Phase.noConfusion hp)⟩

/-- HalfDelay at the default clock (R50, R152). -/
theorem halfDelayOf_default : halfDelayOf 1000000#32 = 500#32 := by decide

/-- Settles O57: after reset Driver State is as a driver reset leaves it, with the delay of the default clock. -/
theorem resetHasInvariant : Obligations.ResetHasInvariant := by
  refine (blockInv_iff _).mpr ⟨⟨by decide, ⟨by decide, halfDelayOf_default.symm⟩, ?_, ?_, by unfold TapsIdle; decide, reset_wf⟩, ?_⟩
  · exact ⟨Nat.zero_le _, fun _ hd => absurd hd List.not_mem_nil, rfl⟩
  · exact fun hp => Port.noConfusion hp
  · exact transferInv_of_phase (fun hp => Phase.noConfusion hp)

/-! ### The reset values -/

theorem resetTable_resetDriver (s : State) : ResetTable (resetDriver s) :=
  ⟨rfl, rfl, rfl, rfl, rfl, rfl, rfl, rfl, rfl, rfl, rfl, rfl, rfl, rfl, rfl⟩

/-- With the values of R50 in the parameters, the parameters' table is R50's. -/
theorem decidedReset_of_table {s : State} (h : ResetTable s) (hc : s.params.defaultClockHz = 1000000#32)
    (hd : s.params.configDefaults = ConfigDefaults.decided) : DecidedReset s := by
  unfold ResetTable at h
  rw [hc, hd, halfDelayOf_default] at h
  obtain ⟨hport, hclock, hhalf, hchain, hindex, htrn, hphase, hidle, hwait, hmatch, hmask, hbuffers⟩ := h
  exact ⟨hport, hclock, hhalf, hchain, hindex, by rw [turnaround, htrn]; rfl, hphase, hidle, hwait, hmatch, hmask,
    hbuffers⟩

/-- Settles O13: a disconnect is `resetDriver`, which fills Driver State from the parameters. -/
theorem resetValues : Obligations.ResetValues := by
  have hr : ResetTable State.reset :=
    ⟨rfl, rfl, halfDelayOf_default.symm, rfl, rfl, rfl, rfl, rfl, rfl, rfl, rfl, rfl, rfl, rfl, rfl⟩
  refine ⟨⟨hr, decidedReset_of_table hr rfl rfl⟩, fun s evs hidle hrecv => ?_⟩
  exact ⟨_, (step_of_idle hidle).trans (receive_of_disconnect hrecv), resetTable_resetDriver _, rfl,
    fun hc hd => decidedReset_of_table (resetTable_resetDriver _) hc hd⟩

end Sys2Proof.Machine
end

section
/-! The commands that do nothing but write Driver State or pins and answer (R287 to R293, R282, and Transfer Block's header
R260): what each has written when it answers, and what the answer leaves. -/

namespace Sys2Proof.Machine

/-! ### How a step can end -/

/-- Every next state of the outcome satisfies `P`, or is the FramingError taken in such a state. -/
def Reaches (P : State → Prop) (o : Host.Outcome State Fault Refusal) : Prop :=
  ∀ t, o = .next t → ∃ u, (t = u ∨ ∃ e, t = takeFramingError e u) ∧ P u

theorem reaches_of_ends {P : State → Prop} {r : Res Unit} (h : r.Ends P) : Reaches P r.outcome := by
  intro t ht
  rcases outcome_next ht with rfl | ⟨e, u, rfl, rfl⟩
  · exact ⟨t, .inl rfl, h⟩
  · exact ⟨u, .inr ⟨e, rfl⟩, h⟩

theorem reaches_next {P : State → Prop} {s : State} (h : P s) : Reaches P (.next s) := by
  rintro t ⟨⟩
  exact ⟨s, .inl rfl, h⟩

/-- The trace at the end of a step is that of the state it reaches: taking a FramingError emits nothing. -/
theorem reaches_trace {P : State → Prop} {o : Host.Outcome State Fault Refusal} {t : State} (h : Reaches P o)
    (ht : o = .next t) : ∃ u, t.trace = u.trace ∧ P u := by
  obtain ⟨u, rfl | ⟨e, rfl⟩, hu⟩ := h t ht
  · exact ⟨t, rfl, hu⟩
  · exact ⟨u, takeFramingError_trace e u, hu⟩

/-- Two facts about the ends of one operation. -/
theorem Ends_and {α : Type} {P Q : State → Prop} {r : Res α} (h : r.Ends P) (k : r.Ends Q) :
    r.Ends fun t => P t ∧ Q t := by
  cases r with
  | ok a t => exact ⟨h, k⟩
  | framing e t => exact ⟨h, k⟩
  | fault f => trivial

/-- The step is safe, and the next state has the invariant. -/
def KeepsInv (o : Host.Outcome State Fault Refusal) : Prop := SafeOutcome o ∧ ∀ t, o = .next t → BlockInv t

theorem keepsInv_next {s : State} (h : BlockInv s) : KeepsInv (.next s) := ⟨trivial, by rintro t ⟨⟩; exact h⟩

/-- The operation meets no internal fault, and where it ends with a value a Transfer in progress is well formed. -/
def Res.Resumes {α : Type} : Res α → Prop
  | .ok _ t => TransferInv t
  | .framing _ _ => True
  | .fault f => f.internal = false

theorem resumes_bind {α β : Type} {r : Res α} {k : α → State → Res β} (h : r.NoInternal)
    (hk : ∀ a t, r = .ok a t → (k a t).Resumes) : (r.bind k).Resumes := by
  cases r with
  | ok a t => exact hk a t rfl
  | framing e t => trivial
  | fault f => exact h

/-- A step made by an operation keeps the invariant where the operation does. -/
theorem keepsInv_of_res {r : Res Unit} (h : r.Resumes) (hs : r.Ends SteadyInv) : KeepsInv r.outcome := by
  cases r with
  | ok a t => exact keepsInv_next ((blockInv_iff t).mpr ⟨hs, h⟩)
  | framing e u => exact keepsInv_next (blockInv_takeFramingError e hs)
  | fault f => exact ⟨h, fun t ht => by cases ht⟩

/-! ### Writing an answer -/

/-- Bytes were appended to the response and the command loop moved on; nothing else changed. -/
def Answered (s t : State) : Prop :=
  ∃ bs w p b, t = { s with mem := { s.mem with resp := s.mem.resp ++ bs }, work := w, phase := p, batch := b } ∧
    (Memory.wf s.params s.mem = true → Memory.wf s.params { s.mem with resp := s.mem.resp ++ bs } = true)

theorem Answered.refl (s : State) : Answered s s := ⟨[], s.work, s.phase, s.batch, by simp, by simp⟩

theorem Answered.trans {s t u : State} (h : Answered s t) (k : Answered t u) : Answered s u := by
  obtain ⟨bs, w, p, b, rfl, hw⟩ := h
  obtain ⟨bs', w', p', b', rfl, hw'⟩ := k
  exact ⟨bs ++ bs', w', p', b', by simp, fun h0 => by simpa using hw' (hw h0)⟩

/-- A change of the command loop's place alone. -/
theorem answered_loop (s : State) (w : Work) (p : Phase) (b : Option Nat) :
    Answered s { s with work := w, phase := p, batch := b } := ⟨[], w, p, b, by simp, by simp⟩

theorem answered_endCommand (s : State) : Answered s (endCommand s) := by
  unfold endCommand
  split <;> exact answered_loop s _ _ _

theorem answered_bind {α β : Type} {s : State} {r : Res α} {k : α → State → Res β} (h : r.Ends (Answered s))
    (hk : ∀ a t, (k a t).Ends (Answered t)) : (r.bind k).Ends (Answered s) :=
  Ends_bind h (fun _ _ _ hp => hp) fun a t _ ht => Ends_mono (hk a t) fun _ hu => ht.trans hu

theorem respWrite_answered (bs : List Byte) (s : State) : (respWrite bs s).Ends (Answered s) := by
  have hw := fun h => respWrite_wf (bs := bs) (s := s) h
  rcases respWrite_cases bs s with ⟨-, h⟩ | ⟨-, h⟩ <;> rw [h] at hw ⊢
  · exact ⟨bs, s.work, s.phase, s.batch, rfl, hw⟩
  · exact .refl s

theorem respPair_answered (a b : Byte) (s : State) : (respPair a b s).Ends (Answered s) :=
  answered_bind (respWrite_answered _ s) fun _ t => respWrite_answered _ t

theorem respReserve_answered (n : Nat) (s : State) : (respReserve n s).Ends (Answered s) :=
  answered_bind (respWrite_answered _ s) fun _ t => .refl t

theorem answer_answered (code result : Byte) (s : State) : (answer code result s).Ends (Answered s) :=
  answered_bind (respPair_answered _ _ s) fun _ t => answered_endCommand t

theorem answerError_answered (s : State) : (answerError s).Ends (Answered s) :=
  answered_bind (respWrite_answered _ s) fun _ t => answered_loop t _ _ _

section
variable {s t : State} (h : Answered s t)
include h

theorem Answered.quiet : QuietFrame s t := by
  obtain ⟨bs, w, p, b, rfl, -⟩ := h
  exact ⟨rfl, rfl, rfl, rfl, rfl, rfl, rfl, rfl⟩

theorem Answered.driver : t.driver = s.driver := by obtain ⟨bs, w, p, b, rfl, -⟩ := h; rfl

theorem Answered.req : t.mem.req = s.mem.req := by obtain ⟨bs, w, p, b, rfl, -⟩ := h; rfl

theorem Answered.rd : t.mem.rd = s.mem.rd := by obtain ⟨bs, w, p, b, rfl, -⟩ := h; rfl

theorem Answered.resp : s.mem.resp <+: t.mem.resp := by
  obtain ⟨bs, w, p, b, rfl, -⟩ := h
  exact List.prefix_append _ _

theorem Answered.steady (hs : SteadyInv s) : SteadyInv t := by
  obtain ⟨bs, w, p, b, rfl, hw⟩ := h
  exact ⟨hs.defaultClock, hs.clock, hs.chain, hs.park, hs.taps, hw hs.wf⟩

end

theorem respPair_noInternal (a b : Byte) (s : State) : (respPair a b s).NoInternal :=
  NoInternal_bind (respWrite_noInternal _ s) fun _ t _ => respWrite_noInternal _ t

theorem respReserve_noInternal (n : Nat) (s : State) : (respReserve n s).NoInternal :=
  NoInternal_bind (respWrite_noInternal _ s) fun _ _ _ => trivial

theorem answer_resumes (code result : Byte) (s : State) : (answer code result s).Resumes :=
  resumes_bind (respPair_noInternal _ _ s) fun _ t _ => endCommand_transferInv t

theorem answerError_resumes (s : State) : (answerError s).Resumes :=
  resumes_bind (respWrite_noInternal _ s) fun _ _ _ => transferInv_of_phase fun hp => Phase.noConfusion hp

/-! ### Which fields of Driver State an instruction writes (R48) -/

/-- From Driver State `d` instruction `i` can leave Driver State `e`. -/
def DriverWrites (i : Instr) (d e : Driver) : Prop :=
  match i with
  | .connect _ | .disconnect => e = { d with port := e.port }
  | .xferCfg _ _ _ =>
    e = { d with idleCycles := e.idleCycles, waitRetry := e.waitRetry, matchRetry := e.matchRetry }
  | .swjClock _ => e = { d with clockRate := e.clockRate, halfDelay := e.halfDelay }
  | .swdCfg _ => e = { d with trnField := e.trnField, dataPhase := e.dataPhase }
  | .jtagCfg _ => e = { d with chain := e.chain, index := e.index }
  | .transfer _ _ | .tbRead _ _ | .tbWrite _ _ =>
    e = { d with index := e.index } ∧ (d.port ≠ .jtag → e.index = d.index)
  | .mask _ => e = { d with matchMask := e.matchMask }
  | .halfDelay _ => e = { d with halfDelay := e.halfDelay }
  | _ => e = d

/-! ### What a command has written when it answers -/

/-- Connect and Disconnect. -/
def selectsPort : Instr → Bool
  | .connect _ | .disconnect => true
  | _ => false

/-- The commands but for Transfer's header. -/
def configures : Instr → Bool
  | .connect _ | .disconnect | .xferCfg _ _ _ | .swjClock _ | .swdCfg _ | .jtagCfg _ | .execCommands _
  | .transferBlock _ _ => true
  | _ => false

/-- Before its answer, command `i` has written of the state at most its fields of Driver State, the pins and the schedule of
pin-direction failures, the latter two only to select a port; the invariant is kept. -/
structure Prepares (i : Instr) (s s' : State) : Prop where
  frame : ∃ d p k, s' = { s with driver := d, pins := p, input := { s.input with dirFail := k } }
  driver : DriverWrites i s.driver s'.driver
  quiet : selectsPort i = false → s'.pins = s.pins ∧ s'.input = s.input
  steady : SteadyInv s → SteadyInv s'

/-- A command of which only Driver State is written. -/
theorem prepares_of_driver {i : Instr} {s : State} (d : Driver) (hw : DriverWrites i s.driver d)
    (hc : ClockInv s → ClockInv { s with driver := d }) (hch : ChainInv s → ChainInv { s with driver := d })
    (hp : d.port = s.driver.port) : Prepares i s { s with driver := d } :=
  ⟨⟨d, s.pins, s.input.dirFail, rfl⟩, hw, fun _ => ⟨rfl, rfl⟩, fun h =>
    ⟨h.defaultClock, hc h.clock, hch h.chain, fun hq => h.park (hp ▸ hq), h.taps, h.wf⟩⟩

/-- Command `i` prepares, then answers, in one operation. -/
def PreparesAndAnswers (i : Instr) (s : State) : Prop :=
  ∃ r : Res Unit, exec i s = r.outcome ∧ r.Resumes ∧ r.Ends fun u => ∃ s', Prepares i s s' ∧ Answered s' u

theorem preparesAndAnswers_of_answer {i : Instr} {s s' : State} {code result : Byte}
    (he : exec i s = (answer code result s').outcome) (hp : Prepares i s s') : PreparesAndAnswers i s :=
  ⟨_, he, answer_resumes _ _ s', Ends_mono (answer_answered _ _ s') fun _ hu => ⟨s', hp, hu⟩⟩

/-! ### The port commands (R287, R288) -/

/-- The state in which a port command answers. -/
def withPort (p : Port) (pins : Pins) (k : Option Nat) (s : State) : State :=
  { s with driver := { s.driver with port := p }, pins := pins, input := { s.input with dirFail := k } }

theorem prepares_withPort {i : Instr} {s : State} {p : Port} {pins : Pins} {k : Option Nat}
    (hi : ∀ d p, DriverWrites i d { d with port := p }) (hsel : selectsPort i = true)
    (hpark : p = .swd → pins.swdioOe = .high ∧ pins.swdioOut = .high) : Prepares i s (withPort p pins k s) :=
  ⟨⟨_, pins, k, rfl⟩, hi s.driver p, fun h => Bool.noConfusion (hsel.symm.trans h), fun h =>
    ⟨h.defaultClock, h.clock, h.chain, hpark, h.taps, h.wf⟩⟩

/-- After a pin-direction draw, a port command answers from the port's state. -/
theorem portCommand_answers {i : Instr} {s : State} {p : Port} {pins : Pins → Pins} {code result : Byte}
    (he : exec i s = ((pinDirection s).bind fun _ s1 =>
      answer code result (withPort p (pins s1.pins) s1.input.dirFail s1)).outcome)
    (hi : ∀ d p, DriverWrites i d { d with port := p }) (hsel : selectsPort i = true)
    (hpark : p = .swd → (pins s.pins).swdioOe = .high ∧ (pins s.pins).swdioOut = .high) : PreparesAndAnswers i s := by
  refine ⟨_, he, resumes_bind (pinDirection_noInternal s) fun _ t _ => answer_resumes _ _ _, ?_⟩
  rcases pinDirection_cases s with ⟨h, -⟩ | ⟨k, -, h⟩ <;> rw [h]
  · trivial
  · exact Ends_mono (answer_answered _ _ _) fun _ hu => ⟨withPort p (pins s.pins) k s, prepares_withPort hi hsel hpark, hu⟩

theorem connect_answers (port : Byte) (s : State) : PreparesAndAnswers (.connect port) s := by
  have he : exec (.connect port) s = execConnect port s := rfl
  unfold execConnect at he
  cases hp : connectPort port with
  | none =>
    rw [hp] at he
    exact preparesAndAnswers_of_answer he (prepares_of_driver s.driver rfl id id rfl)
  | some p =>
    rw [hp] at he
    simp only [setPort, res_bind_assoc, bind_ok] at he
    refine portCommand_answers (pins := connectPins p) he (fun _ _ => rfl) rfl ?_
    rintro rfl
    exact ⟨rfl, rfl⟩

theorem disconnect_answers (s : State) : PreparesAndAnswers .disconnect s :=
  portCommand_answers (p := .disabled) (pins := fun _ => { Pins.unspecified with swdioOe := .low }) rfl (fun _ _ => rfl) rfl
    fun hp => Port.noConfusion hp

/-! ### The configuration commands (R290 to R293) -/

theorem xferCfg_answers (idle : Byte) (waitRetry matchRetry : Half) (s : State) :
    PreparesAndAnswers (.xferCfg idle waitRetry matchRetry) s :=
  preparesAndAnswers_of_answer rfl (prepares_of_driver _ rfl id id rfl)

theorem swjClock_answers (hz : Word) (s : State) : PreparesAndAnswers (.swjClock hz) s := by
  have he : exec (.swjClock hz) s = execSwjClock hz s := rfl
  unfold execSwjClock at he
  by_cases h0 : hz = 0#32
  · rw [if_pos h0] at he
    exact preparesAndAnswers_of_answer he (prepares_of_driver s.driver rfl id id rfl)
  · rw [if_neg h0] at he
    exact preparesAndAnswers_of_answer he (prepares_of_driver _ rfl (fun _ => ⟨h0, rfl⟩) id rfl)

theorem swdCfg_answers (config : Byte) (s : State) : PreparesAndAnswers (.swdCfg config) s :=
  preparesAndAnswers_of_answer rfl (prepares_of_driver _ rfl id id rfl)

theorem chainFrom_irLengths (before : Nat) (lens : List Byte) :
    (chainFrom before lens).map Device.irLength = lens := by
  induction lens generalizing before with
  | nil => rfl
  | cons l ls ih => rw [chainFrom, List.map_cons, ih]

/-- The chain that JTAG Configure builds of lengths it accepts has the chain's bookkeeping (R33, R34, R293). -/
theorem chainInv_of_accepted {s : State} {lens : List Byte} (h : chainRejected lens = false)
    (hs : s.driver.chain = chainOf lens) : ChainInv s := by
  have hm : (chainOf lens).map Device.irLength = lens := chainFrom_irLengths 0 lens
  simp only [chainRejected, Bool.or_eq_false_iff, decide_eq_false_iff_not, not_lt, List.any_eq_false, beq_iff_eq] at h
  obtain ⟨hl, hn⟩ := h
  unfold ChainInv
  rw [hs, hm]
  refine ⟨?_, fun d hd => hn _ (hm ▸ List.mem_map_of_mem hd), rfl⟩
  rw [← List.length_map (f := Device.irLength), hm]
  exact hl

theorem jtagCfg_answers (lens : List Byte) (s : State) : PreparesAndAnswers (.jtagCfg lens) s := by
  have he : exec (.jtagCfg lens) s = execJtagCfg lens s := rfl
  unfold execJtagCfg at he
  cases hr : chainRejected lens with
  | true =>
    rw [hr, if_pos rfl] at he
    exact preparesAndAnswers_of_answer he (prepares_of_driver s.driver rfl id id rfl)
  | false =>
    rw [hr, if_neg Bool.false_ne_true] at he
    exact preparesAndAnswers_of_answer he
      (prepares_of_driver _ rfl id (fun _ => chainInv_of_accepted hr rfl) rfl)

/-! ### The headers of a batch and of a block (R282, R260) -/

theorem execCommands_answers (count : Byte) (s : State) : PreparesAndAnswers (.execCommands count) s := by
  have hp : Prepares (.execCommands count) s s := prepares_of_driver s.driver rfl id id rfl
  have he : exec (.execCommands count) s = execExecCommands count s := rfl
  unfold execExecCommands at he
  refine ⟨_, he, ?_, ?_⟩ <;> split
  · exact answerError_resumes s
  · exact resumes_bind (respPair_noInternal _ _ s) fun _ _ _ => endCommand_transferInv _
  · exact Ends_mono (answerError_answered s) fun _ hu => ⟨s, hp, hu⟩
  · exact Ends_mono (answered_bind (respPair_answered _ _ s) fun _ t =>
      (answered_loop t t.work t.phase _).trans (answered_endCommand _)) fun _ hu => ⟨s, hp, hu⟩

theorem transferBlock_answers (index : Byte) (count : Half) (s : State) :
    PreparesAndAnswers (.transferBlock index count) s :=
  ⟨.ok () _, rfl, transferInv_of_phase fun hp => Phase.noConfusion hp,
    s, prepares_of_driver s.driver rfl id id rfl, answered_loop s _ _ s.batch⟩

/-- Every command but Transfer's header prepares, then answers. -/
theorem configures_answers {i : Instr} (hi : configures i = true) (s : State) : PreparesAndAnswers i s := by
  cases i with
  | connect port => exact connect_answers port s
  | disconnect => exact disconnect_answers s
  | xferCfg idle waitRetry matchRetry => exact xferCfg_answers idle waitRetry matchRetry s
  | swjClock hz => exact swjClock_answers hz s
  | swdCfg config => exact swdCfg_answers config s
  | jtagCfg lens => exact jtagCfg_answers lens s
  | execCommands count => exact execCommands_answers count s
  | transferBlock index count => exact transferBlock_answers index count s
  | _ => exact absurd hi Bool.false_ne_true

theorem configures_reaches {i : Instr} (hi : configures i = true) (s : State) :
    Reaches (fun u => ∃ s', Prepares i s s' ∧ Answered s' u) (exec i s) := by
  obtain ⟨r, he, -, hr⟩ := configures_answers hi s
  rw [he]
  exact reaches_of_ends hr

theorem configures_keepsInv {i : Instr} (hi : configures i = true) {s : State} (hs : SteadyInv s) :
    KeepsInv (exec i s) := by
  obtain ⟨r, he, hx, hr⟩ := configures_answers hi s
  rw [he]
  exact keepsInv_of_res hx (Ends_mono hr fun _ ⟨_, hp, ha⟩ => ha.steady (hp.steady hs))

/-- A command that selects no port leaves the port and the match mask. -/
theorem DriverWrites.keeps {i : Instr} {d e : Driver} (h : DriverWrites i d e) (hc : configures i = true)
    (hs : selectsPort i = false) : e.port = d.port ∧ e.matchMask = d.matchMask := by
  cases i with
  | connect port | disconnect => cases hs
  | xferCfg idle waitRetry matchRetry | swjClock hz | swdCfg config | jtagCfg lens | execCommands count
  | transferBlock index count => rw [show e = _ from h]; exact ⟨rfl, rfl⟩
  | _ => exact absurd hc Bool.false_ne_true

/-- The frame of a command that selects no port. -/
theorem Prepares.quietFrame {i : Instr} {s s' : State} (h : Prepares i s s') (hs : selectsPort i = false) :
    QuietFrame s s' := by
  obtain ⟨hpins, hinput⟩ := h.quiet hs
  obtain ⟨d, p, k, rfl⟩ := h.frame
  exact ⟨rfl, hpins, rfl, hinput, rfl, rfl, rfl, rfl⟩

/-- Settles O24: a command writes at most its part of Driver State and the pins (`Prepares`), then its answer
(`Answered`), and neither emits a cycle. -/
theorem commandFrame : Obligations.CommandFrame := by
  intro s t i ht
  refine ⟨fun hi => ?_, fun hi => ?_⟩
  · have hc : configures i = true ∧ selectsPort i = false := by
      rcases hi with ⟨a, b, c, rfl⟩ | ⟨c, rfl⟩ | ⟨c, rfl⟩ | ⟨l, rfl⟩ | ⟨n, rfl⟩ | ⟨a, n, rfl⟩ <;> exact ⟨rfl, rfl⟩
    obtain ⟨u, htu, s', hp, ha⟩ := configures_reaches hc.1 s t ht
    have hq : QuietFrame s u := (hp.quietFrame hc.2).trans ha.quiet
    have hd := hp.driver.keeps hc.1 hc.2
    obtain ⟨d, p, k, rfl⟩ := hp.frame
    rcases htu with rfl | ⟨e, rfl⟩
    · exact .inl ⟨hq, ha.req, ha.rd, ha.resp, by rw [ha.driver]; exact hd⟩
    · exact .inr ⟨e, u, rfl, hq, ha.req, ha.rd⟩
  · have hc : configures i = true ∧ ∀ d e, DriverWrites i d e → e = { d with port := e.port } := by
      rcases hi with ⟨p, rfl⟩ | rfl <;> exact ⟨rfl, fun _ _ h => h⟩
    obtain ⟨u, htu, s', hp, ha⟩ := configures_reaches hc.1 s t ht
    have hd : u.driver = { s.driver with port := u.driver.port } := by rw [ha.driver]; exact hc.2 _ _ hp.driver
    have hq := ha.quiet
    obtain ⟨d, p, k, rfl⟩ := hp.frame
    rcases htu with rfl | ⟨e, rfl⟩
    · exact .inl ⟨hq.trace, hq.taps, hq.params, hq.sent, hq.ret, hq.free, hd, ha.req, ha.rd, ha.resp, by rw [hq.input]⟩
    · exact .inr ⟨e, u, rfl, hq.trace, hd⟩

end Sys2Proof.Machine
end

section
/-! A Transfer's requests, its header and the blocks as whole steps: what they leave of the state but for the Transfer's
slots (R242, R260), which of them write the match mask and the index, and that they keep the invariant. -/

namespace Sys2Proof.Machine

/-! ### Transfers on a disabled port -/

theorem retryLoop_disabled {s : State} (h : s.driver.port = .disabled) (req : Byte) (w : Word) (n : Nat) :
    retryLoop req w n s = .fault .transferWhileDisabled := by
  cases n <;> simp [retryLoop, transfer, h]

theorem transferRetry_disabled {s : State} (h : s.driver.port = .disabled) (req : Byte) (w : Word) :
    transferRetry req w s = .fault .transferWhileDisabled := retryLoop_disabled h req w _

theorem matchRead_disabled {s : State} (h : s.driver.port = .disabled) (req : Byte) (mv : Word) :
    matchRead req mv s = .fault .transferWhileDisabled := by
  unfold matchRead
  split
  · rw [transferRetry_disabled h]; rfl
  · cases s.driver.matchRetry.toNat <;> simp [pollLoop, transferRetry_disabled h]

/-! ### What leaves Driver State alone -/

/-- Driver State stays, and on a disabled port the trace. -/
structure DriverKept (s t : State) : Prop where
  driver : t.driver = s.driver
  silent : s.driver.port = .disabled → t.trace = s.trace

theorem DriverKept.refl (s : State) : DriverKept s s := ⟨rfl, fun _ => rfl⟩

theorem DriverKept.trans {s t u : State} (h : DriverKept s t) (k : DriverKept t u) : DriverKept s u :=
  ⟨k.driver.trans h.driver, fun hp => (k.silent (by rw [h.driver]; exact hp)).trans (h.silent hp)⟩

theorem kept_bind {α β : Type} {s : State} {r : Res α} {k : α → State → Res β} (h : r.Ends (DriverKept s))
    (hk : ∀ a t, (k a t).Ends (DriverKept t)) : (r.bind k).Ends (DriverKept s) :=
  Ends_bind h (fun _ _ _ hp => hp) fun a t _ ht => Ends_mono (hk a t) fun _ hu => ht.trans hu

/-- A transfer keeps Driver State; on a disabled port there is none. -/
theorem kept_of_moves {α : Type} {s : State} {r : Res α} (h : r.Ends (TransferMove s))
    (hd : s.driver.port = .disabled → r = .fault .transferWhileDisabled) : r.Ends (DriverKept s) := by
  by_cases hp : s.driver.port = .disabled
  · rw [hd hp]; trivial
  · exact Ends_mono h fun t ht => ⟨ht.frame.driver, fun hq => absurd hq hp⟩

theorem retry_kept (req : Byte) (w : Word) (s : State) : (transferRetry req w s).Ends (DriverKept s) :=
  kept_of_moves (transferRetry_moves req w s) fun h => transferRetry_disabled h req w

theorem matchRead_kept (req : Byte) (mv : Word) (s : State) : (matchRead req mv s).Ends (DriverKept s) :=
  kept_of_moves (matchRead_moves req mv s) fun h => matchRead_disabled h req mv

theorem respWrite_kept (bs : List Byte) (s : State) : (respWrite bs s).Ends (DriverKept s) :=
  Ends_mono (respWrite_answered bs s) fun _ h => ⟨h.driver, fun _ => h.quiet.trace⟩

theorem reqRead_kept (n : Nat) (s : State) : (reqRead n s).Ends (DriverKept s) := by
  rcases reqRead_cases n s with ⟨-, h⟩ | ⟨-, h⟩ <;> rw [h] <;> exact ⟨rfl, fun _ => rfl⟩

theorem reqSkip4_kept (n : Nat) (s : State) : (reqSkip4 n s).Ends (DriverKept s) := by
  induction n generalizing s with
  | zero => exact .refl s
  | succ n ih => exact kept_bind (reqRead_kept 4 s) fun _ t => ih t

theorem onOk_kept {r : Byte} {s : State} {k : State → Res Byte} (h : (k s).Ends (DriverKept s)) :
    (onOk r s k).Ends (DriverKept s) := by
  unfold onOk
  split
  · exact h
  · exact .refl s

theorem writeCollected_kept (r : Byte × Word) (s : State) : (writeCollected r s).Ends (DriverKept s) :=
  onOk_kept (kept_bind (respWrite_kept _ s) fun _ t => .refl t)

theorem collectSame_kept (req : Byte) (s : State) : (collectSame req s).Ends (DriverKept s) :=
  kept_bind (retry_kept _ _ s) writeCollected_kept

theorem collectForRead_kept (req : Byte) (mv : Option Word) (s : State) :
    (collectForRead req mv s).Ends (DriverKept s) := by
  unfold collectForRead
  split
  · split
    · exact collectSame_kept req s
    · exact kept_bind (retry_kept _ _ s) fun r t =>
        Ends_mono (writeCollected_kept r (setPostRead false t)) fun _ h => ⟨h.driver, h.silent⟩
  · exact .refl s

theorem plainRead_kept (req : Byte) (s : State) : (plainRead req s).Ends (DriverKept s) := by
  unfold plainRead
  split
  · split
    · exact .refl s
    · exact kept_bind (retry_kept _ _ s) fun _ t => onOk_kept ⟨rfl, fun _ => rfl⟩
  · exact collectSame_kept req s

theorem readRequest_kept (req : Byte) (mv : Option Word) (s : State) : (readRequest req mv s).Ends (DriverKept s) := by
  refine kept_bind (collectForRead_kept req mv s) fun _ t => onOk_kept (kept_bind ?_ fun _ u => onOk_kept ⟨rfl, fun _ => rfl⟩)
  cases mv with
  | some v => exact matchRead_kept req v t
  | none => exact plainRead_kept req t

theorem collectForWrite_kept (s : State) : (collectForWrite s).Ends (DriverKept s) := by
  unfold collectForWrite
  split
  · exact kept_bind (collectSame_kept _ s) fun _ t => onOk_kept ⟨rfl, fun _ => rfl⟩
  · exact .refl s

theorem writeRequest_kept (req : Byte) (w : Word) (s : State) : (writeRequest req w s).Ends (DriverKept s) := by
  refine kept_bind (collectForWrite_kept s) fun _ t => onOk_kept (kept_bind (retry_kept req w t) fun _ u => onOk_kept ?_)
  split <;> exact ⟨rfl, fun _ => rfl⟩

/-- MASK on a disabled port is silent as well. -/
theorem maskRequest_silent (w : Word) (s : State) :
    (maskRequest w s).Ends fun t => s.driver.port = .disabled → t.trace = s.trace := by
  refine Ends_bind (collectForWrite_kept s) (fun _ _ _ h => h.silent) fun r t _ h => ?_
  unfold onOk
  split <;> exact h.silent

theorem trailerRead_kept (b : Bool) (s : State) : (trailerRead b s).Ends (DriverKept s) := by
  refine kept_bind (retry_kept _ _ s) fun r t => ?_
  split
  · exact writeCollected_kept r t
  · exact .refl t

theorem trailer_kept (s : State) : (trailer s).Ends (DriverKept s) := by
  unfold trailer
  split
  · split
    · split
      · exact trailerRead_kept true s
      · split
        · exact trailerRead_kept false s
        · exact .refl s
    · exact trailerRead_kept _ s
    · exact .refl s
  · exact .refl s

theorem blockReadLoop_kept (req : Byte) (posted : Bool) (n : Nat) (c : Half) (s : State) :
    (blockReadLoop req posted n c s).Ends (DriverKept s) := by
  induction n generalizing c s with
  | zero => exact .refl s
  | succ n ih =>
    refine kept_bind (retry_kept _ _ s) fun r t => ?_
    split
    · exact kept_bind (respWrite_kept _ t) fun _ u => ih _ u
    · exact .refl t

theorem blockRead_kept (req : Byte) (n : Nat) (s : State) : (blockRead req n s).Ends (DriverKept s) := by
  unfold blockRead
  split
  · refine kept_bind (retry_kept _ _ s) fun r t => ?_
    split
    · exact blockReadLoop_kept req true n _ t
    · exact .refl t
  · exact blockReadLoop_kept req false n _ s

theorem blockWriteLoop_kept (req : Byte) (n : Nat) (c : Half) (s : State) :
    (blockWriteLoop req n c s).Ends (DriverKept s) := by
  induction n generalizing c s with
  | zero => exact kept_bind (retry_kept _ _ s) fun _ t => .refl t
  | succ n ih =>
    refine kept_bind (kept_bind (reqRead_kept 4 s) fun _ t => .refl t) fun w t => kept_bind (retry_kept _ _ t) fun r u => ?_
    split
    · exact ih _ u
    · exact kept_bind (reqSkip4_kept n u) fun _ v => .refl v

theorem blockDrain_kept (rnw : Bool) (n : Nat) (s : State) : (blockDrain rnw n s).Ends (DriverKept s) := by
  unfold blockDrain
  split
  · exact .refl s
  · exact kept_bind (reqSkip4_kept n s) fun _ t => .refl t

end Sys2Proof.Machine
end

section
/-! A whole step of a Transfer or of a block: its frame but for the slots (O56), which of them write the match mask and the
index, and that it keeps the invariant. -/

namespace Sys2Proof.Machine

/-! ### The frame of such a step -/

/-- What a step of a Transfer or a block can do. Of Driver State the match mask may change where `mask` holds and the index
where `index` does; of the response's bytes those at `slots`. -/
structure RequestMove (slots : Nat → Prop) (mask index : Prop) (s t : State) : Prop where
  params : t.params = s.params
  driver : t.driver = { s.driver with matchMask := t.driver.matchMask, index := t.driver.index }
  maskKept : ¬mask → t.driver.matchMask = s.driver.matchMask
  indexKept : ¬index → t.driver.index = s.driver.index
  req : t.mem.req = s.mem.req
  rd : s.mem.rd ≤ t.mem.rd
  length : s.mem.resp.length ≤ t.mem.resp.length
  resp : ∀ k < s.mem.resp.length, ¬slots k → t.mem.resp[k]? = s.mem.resp[k]?
  sent : t.sent = s.sent
  ret : t.ret = s.ret
  recv : t.input.recv = s.input.recv
  grows : TraceGrows s t
  silent : s.driver.port = .disabled → t.trace = s.trace
  park : ParkInv s → ParkInv t
  taps : ChainInv s → TapsIdle s → TapsIdle t
  wf : Memory.wf s.params s.mem = true → Memory.wf t.params t.mem = true

section
variable {slots : Nat → Prop} {mask index : Prop} {s t : State}

theorem RequestMove.port (h : RequestMove slots mask index s t) : t.driver.port = s.driver.port := by rw [h.driver]

theorem RequestMove.trans {u : State} (h : RequestMove slots mask index s t) (k : RequestMove slots mask index t u) :
    RequestMove slots mask index s u where
  params := k.params.trans h.params
  driver := by rw [k.driver, h.driver]
  maskKept := fun hm => (k.maskKept hm).trans (h.maskKept hm)
  indexKept := fun hm => (k.indexKept hm).trans (h.indexKept hm)
  req := k.req.trans h.req
  rd := h.rd.trans k.rd
  length := h.length.trans k.length
  resp := fun i hi hs => (k.resp i (Nat.lt_of_lt_of_le hi h.length) hs).trans (h.resp i hi hs)
  sent := k.sent.trans h.sent
  ret := k.ret.trans h.ret
  recv := k.recv.trans h.recv
  grows := h.grows.trans (by rw [h.driver]) k.grows
  silent := fun hp => (k.silent (by rw [h.port]; exact hp)).trans (h.silent hp)
  park := fun hp => k.park (h.park hp)
  taps := fun hc ht => k.taps (ChainInv_of_chain (by rw [h.driver]) hc) (h.taps hc ht)
  wf := fun hw => k.wf (h.wf hw)

/-- Such a step keeps the invariant. -/
theorem RequestMove.steady (h : RequestMove slots mask index s t) (hs : SteadyInv s) : SteadyInv t where
  defaultClock := by rw [h.params]; exact hs.defaultClock
  clock := by unfold ClockInv; rw [h.driver]; exact hs.clock
  chain := ChainInv_of_chain (by rw [h.driver]) hs.chain
  park := h.park hs.park
  taps := h.taps hs.chain hs.taps
  wf := h.wf hs.wf

theorem getElem?_of_prefix {l m : List Byte} (h : l <+: m) {k : Nat} (hk : k < l.length) : m[k]? = l[k]? := by
  obtain ⟨r, rfl⟩ := h
  exact List.getElem?_append_left hk

/-- The moves of requests and blocks are such steps: they only append to the response. -/
theorem EngineMove.toRequest (h : EngineMove s t) (hm : ¬mask → t.driver.matchMask = s.driver.matchMask)
    (hs : s.driver.port = .disabled → t.trace = s.trace) : RequestMove slots mask index s t where
  params := h.params
  driver := by rw [h.driver]
  maskKept := hm
  indexKept := fun _ => h.index
  req := h.req
  rd := h.rd
  length := h.resp.length_le
  resp := fun _ hk _ => getElem?_of_prefix h.resp hk
  sent := h.sent
  ret := h.ret
  recv := h.recv
  grows := h.grows
  silent := hs
  park := h.park
  taps := h.taps
  wf := h.wf

/-- An operation of the engine that keeps Driver State. -/
theorem request_of_engine {α : Type} {r : Res α} (h : r.Ends (EngineMove s)) (k : r.Ends (DriverKept s)) :
    r.Ends (RequestMove slots mask index s) :=
  Ends_mono (Ends_and h k) fun _ ⟨he, hk⟩ => he.toRequest (fun _ => by rw [hk.driver]) hk.silent

theorem Answered.toRequest (h : Answered s t) : RequestMove slots mask index s t := by
  obtain ⟨bs, w, p, b, rfl, hw⟩ := h
  exact ⟨rfl, rfl, fun _ => rfl, fun _ => rfl, rfl, le_rfl, by simp, fun _ hk _ => List.getElem?_append_left hk, rfl, rfl,
    rfl, .refl s, fun _ => rfl, id, fun _ h => h, hw⟩

theorem request_bind {α β : Type} {r : Res α} {k : α → State → Res β} (h : r.Ends (RequestMove slots mask index s))
    (hk : ∀ a t, r = .ok a t → (k a t).Ends (RequestMove slots mask index t)) :
    (r.bind k).Ends (RequestMove slots mask index s) :=
  Ends_bind h (fun _ _ _ hp => hp) fun a t ha ht => Ends_mono (hk a t ha) fun _ hu => ht.trans hu

/-- Patching a byte changes that byte alone (R75). -/
theorem overwrite_other (slot k : Nat) (bs l : List Byte) (h : k < slot ∨ slot + bs.length ≤ k) (hk : k < l.length) :
    (overwrite slot bs l)[k]? = l[k]? := by
  unfold overwrite
  rw [List.getElem?_take_of_lt hk, List.append_assoc]
  rcases h with h | h
  · rw [List.getElem?_append_left (by simp; omega), List.getElem?_take_of_lt h]
  · have h1 : (l.take slot).length = slot := by simp; omega
    rw [List.getElem?_append_right (by omega), List.getElem?_append_right (by omega), List.getElem?_drop, h1]
    congr 1
    omega

theorem respPatch_request (slot : Nat) (bs : List Byte) (s : State)
    (h : ∀ k, slot ≤ k → k < slot + bs.length → slots k) :
    RequestMove slots mask index s (respPatch slot bs s) := by
  refine ⟨rfl, rfl, fun _ => rfl, fun _ => rfl, rfl, le_rfl, by simp, fun k hk hs => ?_, rfl, rfl, rfl, .refl s,
    fun _ => rfl, id, fun _ h => h, respPatch_wf⟩
  exact overwrite_other slot k bs _ (by by_contra hc; exact hs (h k (by omega) (by omega))) hk

theorem selectIndex_request (i : Byte) (s : State) (h : s.driver.port = .jtag → index) :
    RequestMove slots mask index s (selectIndex i s) := by
  unfold selectIndex
  split
  · rename_i hp
    exact ⟨rfl, rfl, fun _ => rfl, fun hn => absurd (h hp) hn, rfl, le_rfl, le_rfl, fun _ _ _ => rfl, rfl, rfl, rfl,
      .refl s, fun _ => rfl, id, fun _ h => h, id⟩
  · exact (Answered.refl s).toRequest

end

/-! ### The end of a request and of a Transfer (R242) -/

/-- The slots of the Transfer in progress. -/
def transferSlots (s : State) (k : Nat) : Prop := k = s.work.slotCompleted ∨ k = s.work.slotAck

section
variable {slots : Nat → Prop} {mask index : Prop}

theorem patchByte_request (slot : Nat) (b : Byte) (s : State) (h : slots slot) :
    RequestMove slots mask index s (respPatch slot [b] s) :=
  respPatch_request slot [b] s fun k h1 h2 => by
    obtain rfl : k = slot := by simp at h2; omega
    exact h

/-- The epilogue patches the slots and ends the command. -/
theorem epilogue_request {s : State} (hc : slots s.work.slotCompleted) (ha : slots s.work.slotAck) :
    (epilogue s).Ends (RequestMove slots mask index s) := by
  refine request_bind (request_of_engine (trailer_engine s) (trailer_kept s)) fun r t ht => ?_
  have he := trailer_engine s
  rw [ht] at he
  exact ((patchByte_request _ _ t (by rw [he.slotCompleted]; exact hc)).trans
    (patchByte_request _ _ _ (by rw [he.slotAck]; exact ha))).trans (answered_endCommand _).toRequest

theorem nextRequest_request {s : State} (hc : slots s.work.slotCompleted) (ha : slots s.work.slotAck) :
    (nextRequest s).Ends (RequestMove slots mask index s) := by
  have hl : ∀ p, RequestMove slots mask index s
      { s with work := { s.work with left := s.work.left - 1 }, phase := p } := fun p =>
    (answered_loop s _ p s.batch).toRequest
  unfold nextRequest
  simp only
  split
  · exact Ends_mono (epilogue_request hc ha) fun _ hu => (hl s.phase).trans hu
  · exact hl .request

/-- Recording a result changes the working state alone, and not the slots. -/
theorem recordResult_eq (r : Byte) (s : State) : ∃ w, recordResult r s = { s with work := w } ∧
    w.slotCompleted = s.work.slotCompleted ∧ w.slotAck = s.work.slotAck ∧ w.left = s.work.left := by
  unfold recordResult
  split <;> exact ⟨_, rfl, rfl, rfl, rfl⟩

/-! ### One request -/

/-- What the bodies of the request kinds have in common; `mask` holds for MASK alone. -/
structure RequestBody (mask : Prop) (body : State → Res Byte) : Prop where
  engine : ∀ s, (body s).Ends (EngineMove s)
  maskKept : ¬mask → ∀ s, (body s).Ends (DriverKept s)
  silent : ∀ s, (body s).Ends fun t => s.driver.port = .disabled → t.trace = s.trace
  noInternal : ∀ s, PortReady s.driver → (body s).NoInternal

theorem readRequest_body (req : Byte) (mv : Option Word) : RequestBody mask (readRequest req mv) :=
  ⟨readRequest_engine req mv, fun _ => readRequest_kept req mv,
    fun s => Ends_mono (readRequest_kept req mv s) fun _ h => h.silent, fun _ => readRequest_noInternal req mv⟩

theorem writeRequest_body (req : Byte) (w : Word) : RequestBody mask (writeRequest req w) :=
  ⟨writeRequest_engine req w, fun _ => writeRequest_kept req w,
    fun s => Ends_mono (writeRequest_kept req w s) fun _ h => h.silent, fun _ => writeRequest_noInternal req w⟩

theorem maskRequest_body (w : Word) : RequestBody True (maskRequest w) :=
  ⟨maskRequest_engine w, fun h => absurd trivial h, maskRequest_silent w, fun _ => maskRequest_noInternal w⟩

/-- Every request kind is a body run as one request. -/
theorem exec_request {i : Instr} (hi : i.context = some .request) :
    ∃ body, (∀ s, exec i s = runRequest body s) ∧ RequestBody (∃ w, i = .mask w) body := by
  cases i with
  | dpR a | apR a | dpRM a v | apRM a v => exact ⟨_, fun _ => rfl, readRequest_body _ _⟩
  | dpW a v | apW a v => exact ⟨_, fun _ => rfl, writeRequest_body _ _⟩
  | mask v =>
    have h := maskRequest_body v
    exact ⟨_, fun _ => rfl, h.engine, fun hn => absurd ⟨v, rfl⟩ hn, h.silent, h.noInternal⟩
  | _ => cases hi

theorem RequestBody.request {body : State → Res Byte} (h : RequestBody mask body) (s : State) :
    (body s).Ends (RequestMove slots mask index s) := by
  have hm : (body s).Ends fun t => ¬mask → t.driver.matchMask = s.driver.matchMask := by
    by_cases hk : mask
    · exact Ends_mono (h.engine s) fun _ _ hn => absurd hk hn
    · exact Ends_mono (h.maskKept hk s) fun _ ht _ => by rw [ht.driver]
  exact Ends_mono (Ends_and (h.engine s) (Ends_and hm (h.silent s))) fun _ ⟨he, hmask, hsilent⟩ =>
    he.toRequest hmask hsilent

/-- A request that is not drained: its body, the record of its result, and what follows it. -/
theorem requestAndNext_request {body : State → Res Byte} (h : RequestBody mask body) (s : State) :
    ((body s).bind fun r t => nextRequest (recordResult r t)).Ends (RequestMove (transferSlots s) mask index s) := by
  refine request_bind (h.request s) fun r t ht => ?_
  have he := h.engine s
  rw [ht] at he
  obtain ⟨w, hr, hc, ha, -⟩ := recordResult_eq r t
  rw [hr]
  refine Ends_mono (nextRequest_request ?_ ?_) fun _ hu => (answered_loop t w t.phase t.batch).toRequest.trans hu
  · exact .inl (hc.trans he.slotCompleted)
  · exact .inr (ha.trans he.slotAck)

theorem runRequest_reaches {body : State → Res Byte} (h : RequestBody mask body) (s : State) :
    Reaches (RequestMove (transferSlots s) mask index s) (runRequest body s) := by
  unfold runRequest
  split
  · exact reaches_of_ends (nextRequest_request (.inl rfl) (.inr rfl))
  · exact reaches_of_ends (requestAndNext_request h s)

end

/-! ### The code and the slots of a response (R75, R242, R260) -/

/-- A slot begins where the response ended before it (R75). -/
theorem respReserve_slot {n a : Nat} {s t : State} (h : respReserve n s = .ok a t) : a = s.mem.resp.length := by
  obtain ⟨_, u, -, hk⟩ := bind_eq_ok.mp h
  cases hk
  rfl

/-- What follows the code and the slots starts from an answered state, with slots after the response as it was. -/
theorem slots_ends {s : State} {code : Byte} {n : Nat} {k : Nat → Nat → State → Res Unit} {P : State → Prop}
    (hP : ∀ t, Answered s t → P t)
    (hk : ∀ a b t, s.mem.resp.length ≤ a → s.mem.resp.length ≤ b → Answered s t → (k a b t).Ends P) :
    ((respWrite [code] s).bind fun _ s1 => (respReserve n s1).bind fun a s2 => (respReserve 1 s2).bind fun b s3 =>
      k a b s3).Ends P := by
  refine Ends_bind (respWrite_answered _ s) (fun u _ _ h => hP u h) fun _ s1 _ h1 => ?_
  refine Ends_bind (respReserve_answered n s1) (fun u _ _ h => hP u (h1.trans h)) fun a s2 ha h2 => ?_
  refine Ends_bind (respReserve_answered 1 s2) (fun u _ _ h => hP u (h1.trans (h2.trans h))) fun b s3 hb h3 => ?_
  refine hk a b s3 ?_ ?_ (h1.trans (h2.trans h3))
  · rw [respReserve_slot ha]; exact h1.resp.length_le
  · rw [respReserve_slot hb]; exact (h1.trans h2).resp.length_le

theorem slots_resumes {s : State} {code : Byte} {n : Nat} {k : Nat → Nat → State → Res Unit}
    (hk : ∀ a b t, Answered s t → (k a b t).Resumes) :
    ((respWrite [code] s).bind fun _ s1 => (respReserve n s1).bind fun a s2 => (respReserve 1 s2).bind fun b s3 =>
      k a b s3).Resumes := by
  refine resumes_bind (respWrite_noInternal _ s) fun _ s1 e1 => ?_
  refine resumes_bind (respReserve_noInternal n s1) fun a s2 e2 => ?_
  refine resumes_bind (respReserve_noInternal 1 s2) fun b s3 e3 => hk a b s3 ?_
  have h1 := respWrite_answered [code] s
  have h2 := respReserve_answered n s1
  have h3 := respReserve_answered 1 s2
  rw [e1] at h1
  rw [e2] at h2
  rw [e3] at h3
  exact Answered.trans h1 (Answered.trans h2 h3)

/-! ### Transfer's header (R240) -/

/-- The bytes after the response as it was. -/
def afterResponse (s : State) (k : Nat) : Prop := s.mem.resp.length ≤ k

theorem beginTransfer_request {slots : Nat → Prop} {mask : Prop} (index count : Byte) (a b : Nat) (s : State) :
    RequestMove slots mask (s.driver.port = .jtag) s (beginTransfer index count a b s) := by
  unfold beginTransfer
  simp only
  split
  · exact (answered_loop s _ s.phase s.batch).toRequest
  · exact (answered_loop s _ s.phase s.batch).toRequest.trans (selectIndex_request index _ id)

theorem beginTransfer_work (index count : Byte) (a b : Nat) (s : State) :
    (beginTransfer index count a b s).work = { Work.initial with
      left := count.toNat, draining := preconditionFails index s.driver, slotCompleted := a, slotAck := b } := by
  unfold beginTransfer selectIndex
  simp only
  split
  · rfl
  · split <;> rfl

/-- The operation of Transfer's header, whose outcome is its meaning. -/
def transferRes (index count : Byte) (s : State) : Res Unit :=
  (respWrite [0x05#8] s).bind fun _ s1 => (respReserve 1 s1).bind fun a s2 => (respReserve 1 s2).bind fun b s3 =>
    if (beginTransfer index count a b s3).work.left = 0 then epilogue (beginTransfer index count a b s3)
    else .ok () { beginTransfer index count a b s3 with phase := .request }

theorem exec_transfer (index count : Byte) (s : State) :
    exec (.transfer index count) s = (transferRes index count s).outcome := rfl

theorem transferRes_request (index count : Byte) (s : State) :
    (transferRes index count s).Ends (RequestMove (afterResponse s) False (s.driver.port = .jtag) s) := by
  refine slots_ends (fun t h => h.toRequest) fun a b t ha hb ht => ?_
  have hw := beginTransfer_work index count a b t
  have h0 : RequestMove (afterResponse s) False (s.driver.port = .jtag) s (beginTransfer index count a b t) :=
    ht.toRequest.trans (by rw [← ht.driver]; exact beginTransfer_request index count a b t)
  split
  · exact Ends_mono (epilogue_request (by rw [hw]; exact ha) (by rw [hw]; exact hb)) fun _ hu => h0.trans hu
  · exact h0.trans (answered_loop _ _ .request _).toRequest

/-! ### A block (R260) -/

theorem blockBody_request {slots : Nat → Prop} {mask : Prop} (req : Byte) (s : State) :
    (blockBody req s).Ends (RequestMove slots mask (s.driver.port = .jtag) s) := by
  have hd : ∀ (rnw : Bool) (n : Nat) (u : State),
      (blockDrain rnw n u).Ends (RequestMove slots mask (s.driver.port = .jtag) u) := fun rnw n u =>
    request_of_engine (blockDrain_engine rnw n u) (blockDrain_kept rnw n u)
  have hi : RequestMove slots mask (s.driver.port = .jtag) s (selectIndex s.work.blockIndex s) :=
    selectIndex_request _ s id
  unfold blockBody
  split
  · exact hd _ _ s
  · simp only
    split
    · exact Ends_mono (hd _ _ _) fun _ hu => hi.trans hu
    · split
      · exact Ends_mono (request_of_engine (blockRead_engine req _ _) (blockRead_kept req _ _)) fun _ hu => hi.trans hu
      · exact Ends_mono (request_of_engine (blockWriteLoop_engine req _ _ _) (blockWriteLoop_kept req _ _ _)) fun _ hu =>
          hi.trans hu

/-- The operation of a block, whose outcome is its meaning. -/
def blockRes (req : Byte) (s : State) : Res Unit :=
  (respWrite [0x06#8] s).bind fun _ s1 => (respReserve 2 s1).bind fun a s2 => (respReserve 1 s2).bind fun b s3 =>
    (blockBody req { s3 with work := { s3.work with irCache := none } }).bind fun r s4 =>
      .ok () (endCommand (respPatch b [r.1] (respPatch a (bytes16 r.2) s4)))

theorem runBlock_eq (req : Byte) (s : State) : runBlock req s = (blockRes req s).outcome := rfl

theorem blockRes_request (req : Byte) (s : State) :
    (blockRes req s).Ends (RequestMove (afterResponse s) False (s.driver.port = .jtag) s) := by
  refine slots_ends (fun t h => h.toRequest) fun a b t ha hb ht => ?_
  have h0 := (ht.trans (answered_loop t { t.work with irCache := none } t.phase t.batch)).toRequest
    (slots := afterResponse s) (mask := False) (index := s.driver.port = .jtag)
  refine Ends_bind (P := RequestMove (afterResponse s) False (s.driver.port = .jtag) s) ?_ (fun _ _ _ h => h) ?_
  · exact Ends_mono (by rw [← ht.driver]; exact blockBody_request req _) fun _ hu => h0.trans hu
  · intro r u _ hu
    refine hu.trans (((respPatch_request _ _ u fun k h1 _ => ?_).trans (patchByte_request _ _ _ hb)).trans
      (answered_endCommand _).toRequest)
    exact Nat.le_trans ha h1

theorem transfer_reaches (index count : Byte) (s : State) :
    Reaches (RequestMove (afterResponse s) False (s.driver.port = .jtag) s) (exec (.transfer index count) s) :=
  reaches_of_ends (transferRes_request index count s)

theorem runBlock_reaches (req : Byte) (s : State) :
    Reaches (RequestMove (afterResponse s) False (s.driver.port = .jtag) s) (runBlock req s) :=
  reaches_of_ends (blockRes_request req s)

theorem exec_block {i : Instr} (hi : i.context = some .blockRequest) : ∃ req, ∀ s, exec i s = runBlock req s := by
  cases i with
  | tbRead apndp a | tbWrite apndp a => exact ⟨_, fun _ => rfl⟩
  | _ => cases hi

/-- Settles O56: a request's frame is that of its body and the epilogue, a block's that of its header and its body. -/
theorem requestFrame : Obligations.RequestFrame := by
  intro s t i hi ht
  rcases hi with hi | hi
  · obtain ⟨body, he, hb⟩ := exec_request hi
    obtain ⟨u, htu, h⟩ := runRequest_reaches (index := False) hb s t (by rw [← he]; exact ht)
    exact ⟨u, htu, h.driver, fun hm => h.maskKept fun ⟨w, hw⟩ => hm w hw, fun _ => h.indexKept id, h.req, h.rd,
      fun k hk hs => h.resp k hk fun hor => hor.elim (hs hi).1 (hs hi).2, h.params, h.sent, h.ret, h.recv, h.grows⟩
  · obtain ⟨req, he⟩ := exec_block hi
    obtain ⟨u, htu, h⟩ := runBlock_reaches req s t (by rw [← he]; exact ht)
    have hn : i.context ≠ some .request := by rw [hi]; decide
    exact ⟨u, htu, h.driver, fun _ => h.maskKept id, fun hor => h.indexKept (hor.resolve_left hn), h.req, h.rd,
      fun k hk _ => h.resp k hk (Nat.not_le.mpr hk), h.params, h.sent, h.ret, h.recv, h.grows⟩

end Sys2Proof.Machine
end

section
/-! Every step keeps the invariant of the block (O58), and what a step does to the trace (O59). -/

namespace Sys2Proof.Machine

/-! ### A Transfer in progress -/

/-- A Transfer's sequence of requests: while it runs its port is ready, and once it drains its last result is not OK
(R240, R242). -/
structure SequenceInv (s : State) : Prop where
  ready : s.work.draining = false → PortReady s.driver
  failed : s.work.draining = true → s.work.lastAck ≠ ackOk

theorem SequenceInv.readyOfOk {s : State} (h : SequenceInv s) (hk : s.work.lastAck = ackOk) : PortReady s.driver :=
  h.ready (by cases hd : s.work.draining with
    | false => rfl
    | true => exact absurd hk (h.failed hd))

/-- The invariant of a Transfer in progress, at one of its requests. -/
theorem transferInv_of_sequence {s : State} (h : SequenceInv s) (h1 : 1 ≤ s.work.left) (hl : s.work.left ≤ 255) :
    TransferInv s := fun _ => ⟨h1, hl, h.ready, h.failed⟩

theorem sequence_of_transferInv {s : State} (h : TransferInv s) (hp : s.phase = .request) :
    SequenceInv s ∧ s.work.left ≤ 255 := by
  obtain ⟨-, hl, hr, hf⟩ := h hp
  exact ⟨⟨hr, hf⟩, hl⟩

theorem epilogue_resumes {s : State} (h : SequenceInv s) : (epilogue s).Resumes :=
  resumes_bind (trailer_noInternal h.readyOfOk) fun _ _ _ => endCommand_transferInv _

theorem nextRequest_resumes {s : State} (h : SequenceInv s) (hl : s.work.left ≤ 255) : (nextRequest s).Resumes := by
  unfold nextRequest
  simp only
  split
  · exact epilogue_resumes ⟨h.ready, h.failed⟩
  · rename_i h0
    exact transferInv_of_sequence ⟨h.ready, h.failed⟩ (Nat.one_le_iff_ne_zero.mpr h0) (Nat.le_trans (Nat.sub_le _ _) hl)

/-- A result that is not OK starts the draining; an OK one leaves the sequence running. -/
theorem recordResult_sequence {s : State} (r : Byte) (hd : s.work.draining = false) (hr : PortReady s.driver) :
    SequenceInv (recordResult r s) := by
  unfold recordResult
  split
  · exact ⟨fun _ => hr, fun h => absurd (hd.symm.trans h) Bool.false_ne_true⟩
  · rename_i hne
    exact ⟨fun h => Bool.noConfusion h, fun _ => hne⟩

theorem requestAndNext_resumes {mask : Prop} {body : State → Res Byte} (hb : RequestBody mask body) {s : State}
    (hd : s.work.draining = false) (hr : PortReady s.driver) (hl : s.work.left ≤ 255) :
    ((body s).bind fun r t => nextRequest (recordResult r t)).Resumes := by
  refine resumes_bind (hb.noInternal s hr) fun r t ht => ?_
  have he := hb.engine s
  rw [ht] at he
  refine nextRequest_resumes (recordResult_sequence r (he.draining.trans hd) (he.ready hr)) ?_
  obtain ⟨w, hw, -, -, hleft⟩ := recordResult_eq r t
  rw [hw]
  exact (hleft.trans he.left).trans_le hl

/-- A request of a Transfer in progress keeps the invariant. -/
theorem runRequest_keepsInv {mask : Prop} {body : State → Res Byte} (hb : RequestBody mask body) {s : State}
    (hs : SteadyInv s) (hq : SequenceInv s) (hl : s.work.left ≤ 255) : KeepsInv (runRequest body s) := by
  unfold runRequest
  split
  · exact keepsInv_of_res (nextRequest_resumes hq hl)
      (Ends_mono (nextRequest_request (mask := mask) (index := False) (slots := transferSlots s) (.inl rfl) (.inr rfl))
        fun _ hu => hu.steady hs)
  · rename_i hd
    have hd' : s.work.draining = false := by simpa using hd
    exact keepsInv_of_res (requestAndNext_resumes hb hd' (hq.ready hd') hl)
      (Ends_mono (requestAndNext_request (index := False) hb s) fun _ hu => hu.steady hs)

/-! ### Transfer's header and the blocks -/

/-- Where the precondition holds, the selected index makes the port ready (R240, R260). -/
theorem selectIndex_ready {i : Byte} {s : State} (h : preconditionFails i s.driver = false) :
    PortReady (selectIndex i s).driver := by
  unfold selectIndex
  split
  · exact h
  · rename_i hp
    unfold PortReady preconditionFails at *
    cases hq : s.driver.port with
    | jtag => exact absurd hq hp
    | swd => rfl
    | disabled => rw [hq] at h; exact h

theorem beginTransfer_sequence (index count : Byte) (a b : Nat) (s : State) :
    SequenceInv (beginTransfer index count a b s) := by
  have hw := beginTransfer_work index count a b s
  refine ⟨fun hd => ?_, fun _ => by rw [hw]; exact (by decide : (0#8 : Byte) ≠ ackOk)⟩
  rw [hw] at hd
  have hd' : preconditionFails index s.driver = false := hd
  unfold beginTransfer
  simp only [hd', Bool.false_eq_true, if_false]
  exact selectIndex_ready hd'

theorem transfer_keepsInv (index count : Byte) {s : State} (hs : SteadyInv s) :
    KeepsInv (exec (.transfer index count) s) := by
  rw [exec_transfer]
  refine keepsInv_of_res (slots_resumes fun a b t _ => ?_) ?_
  · have hq := beginTransfer_sequence index count a b t
    have hw := beginTransfer_work index count a b t
    split
    · exact epilogue_resumes hq
    · rename_i h0
      refine transferInv_of_sequence ⟨hq.ready, hq.failed⟩ (Nat.one_le_iff_ne_zero.mpr h0) ?_
      rw [hw]
      exact Nat.le_of_lt_succ count.isLt
  · exact Ends_mono (transferRes_request index count s) fun _ hu => hu.steady hs

theorem blockBody_noInternal (req : Byte) (s : State) : (blockBody req s).NoInternal := by
  unfold blockBody
  split
  · exact blockDrain_noInternal _ _ s
  · rename_i hp
    have hr := selectIndex_ready (i := s.work.blockIndex) (s := s) (by simpa using hp)
    simp only
    split
    · exact blockDrain_noInternal _ _ _
    · split
      · exact blockRead_noInternal req _ hr
      · exact blockWriteLoop_noInternal req _ _ hr

theorem runBlock_keepsInv (req : Byte) {s : State} (hs : SteadyInv s) : KeepsInv (runBlock req s) := by
  rw [runBlock_eq]
  exact keepsInv_of_res
    (slots_resumes fun _ _ _ _ => resumes_bind (blockBody_noInternal req _) fun _ _ _ => endCommand_transferInv _)
    (Ends_mono (blockRes_request req s) fun _ hu => hu.steady hs)

/-! ### The host's side -/

theorem receive_keepsInv {s : State} (h : BlockInv s) : KeepsInv (receive s) := by
  obtain ⟨hs, -⟩ := (blockInv_iff s).mp h
  unfold receive
  split
  · exact keepsInv_next h
  · exact keepsInv_next (blockInv_resetDriver hs.defaultClock hs.taps)
  · split
    · rename_i hl
      exact keepsInv_next ((blockInv_iff _).mpr
        ⟨⟨hs.defaultClock, hs.clock, hs.chain, hs.park, hs.taps, acceptRequest_wf hl⟩,
          transferInv_of_phase fun hq => Phase.noConfusion hq⟩)
    · exact ⟨rfl, fun t ht => by cases ht⟩

/-- A `send` that succeeds (R280). -/
theorem sendResponse_of_ok {s : State} (h : s.input.sendFail.head? ≠ some true) : sendResponse s = { s with
    input := { s.input with sendFail := s.input.sendFail.tail }, sent := s.sent ++ [s.mem.resp]
    mem := { s.mem with req := [], rd := 0 }, phase := .idle, batch := none } := if_neg h

theorem sendResponse_blockInv {s : State} (hs : SteadyInv s) : BlockInv (sendResponse s) := by
  have hw := sendResponse_wf hs.wf
  by_cases hf : s.input.sendFail.head? = some true
  · rw [sendResponse_of_fail hf]
    exact blockInv_resetDriver hs.defaultClock hs.taps
  · rw [sendResponse_of_ok hf] at hw ⊢
    exact (blockInv_iff _).mpr ⟨⟨hs.defaultClock, hs.clock, hs.chain, hs.park, hs.taps, hw⟩,
      transferInv_of_phase fun hq => Phase.noConfusion hq⟩

/-! ### What is done before an instruction's meaning -/

theorem steadyInv_advance {n : Nat} {s : State} (hn : n ≤ (pending s).length) (hs : SteadyInv s) :
    SteadyInv (advance n s) :=
  ⟨hs.defaultClock, hs.clock, hs.chain, hs.park, hs.taps, advance_wf hn hs.wf⟩

/-- A truncated instruction has written at most the idle cycles and the wait retry limit (R290, D40). -/
theorem writesBeforeShort_eq (c : Context) (bs : List Byte) (s : State) : ∃ i w,
    writesBeforeShort c bs s = { s with driver := { s.driver with idleCycles := i, waitRetry := w } } := by
  unfold writesBeforeShort
  split
  · split
    · unfold shortXferCfg
      split <;> exact ⟨_, _, rfl⟩
    · exact ⟨_, _, rfl⟩
  all_goals exact ⟨_, _, rfl⟩

theorem steadyInv_writesBeforeShort (c : Context) (bs : List Byte) {s : State} (hs : SteadyInv s) :
    SteadyInv (writesBeforeShort c bs s) := by
  obtain ⟨i, w, h⟩ := writesBeforeShort_eq c bs s
  rw [h]
  exact ⟨hs.defaultClock, hs.clock, hs.chain, hs.park, hs.taps, hs.wf⟩

/-! ### The instructions that are fetched -/

/-- A command is Transfer's header or one of those that prepare and answer. -/
theorem command_cases {i : Instr} (hi : i.context = some .command) :
    configures i = true ∨ ∃ index count, i = .transfer index count := by
  cases i with
  | transfer index count => exact .inr ⟨index, count, rfl⟩
  | connect p | disconnect | xferCfg a b c | transferBlock a n | swjClock hz | swdCfg c | jtagCfg l | execCommands n =>
    exact .inl rfl
  | _ => cases hi

/-- The command loop reads no wire header. -/
theorem reads_cases {p : Phase} {c : Context} (h : p.reads = some c) :
    c = .command ∨ (c = .request ∧ p = .request) ∨ c = .blockRequest := by
  cases p with
  | command => exact .inl (Option.some.inj h).symm
  | request => exact .inr (.inl ⟨(Option.some.inj h).symm, rfl⟩)
  | blockRequest => exact .inr (.inr (Option.some.inj h).symm)
  | idle | respond => cases h

theorem exec_keepsInv {i : Instr} {c : Context} {s : State} (hc : s.phase.reads = some c) (hi : i.context = some c)
    (hs : SteadyInv s) (hx : TransferInv s) : KeepsInv (exec i s) := by
  obtain rfl | ⟨rfl, hp⟩ | rfl := reads_cases hc
  · obtain hcfg | ⟨index, count, rfl⟩ := command_cases hi
    · exact configures_keepsInv hcfg hs
    · exact transfer_keepsInv index count hs
  · obtain ⟨body, he, hb⟩ := exec_request hi
    obtain ⟨hq, hl⟩ := sequence_of_transferInv hx hp
    rw [he]
    exact runRequest_keepsInv hb hs hq hl
  · obtain ⟨req, he⟩ := exec_block hi
    rw [he]
    exact runBlock_keepsInv req hs

theorem stepKind_keepsInv {s : State} {o : Host.Outcome State Fault Refusal} (h : BlockInv s) (ho : StepKind s o) :
    KeepsInv o := by
  obtain ⟨hs, hx⟩ := (blockInv_iff s).mp h
  cases ho with
  | waits _ => exact receive_keepsInv h
  | sends _ => exact keepsInv_next (sendResponse_blockInv hs)
  | answersError h1 =>
    exact keepsInv_of_res (answerError_resumes _)
      (Ends_mono (answerError_answered _) fun _ ha => ha.steady (steadyInv_advance h1 hs))
  | refuses code _ => exact ⟨trivial, fun t ht => by cases ht⟩
  | truncated c off width _ _ => exact keepsInv_next (blockInv_takeFramingError _ (steadyInv_writesBeforeShort c _ hs))
  | runs c i n hc hd =>
    obtain ⟨-, hi, -, hn⟩ := decode_instr hd
    exact exec_keepsInv hc hi (steadyInv_advance hn hs) hx

/-- Settles O58: whatever kind of step it is, each keeps the invariant (`StepKind`). -/
theorem stepKeepsInvariant : Obligations.StepKeepsInvariant :=
  fun s h => stepKind_keepsInv h (step_kind s)

/-! ### The trace -/

/-- The trace grew with the delay in force, and not at all on a disabled port. -/
def TraceRule (s t : State) : Prop := TraceGrows s t ∧ (s.driver.port = .disabled → t.trace = s.trace)

theorem traceRule_of_eq {s t : State} (h : t.trace = s.trace) : TraceRule s t :=
  ⟨⟨[], by rw [h, List.append_nil], fun _ hc => absurd hc List.not_mem_nil⟩, fun _ => h⟩

/-- The rule reads nothing but the trace of the later state. -/
theorem TraceRule.congr {s t u : State} (h : TraceRule s u) (ht : t.trace = u.trace) : TraceRule s t := by
  unfold TraceRule TraceGrows at *
  rw [ht]
  exact h

theorem RequestMove.traceRule {slots : Nat → Prop} {mask index : Prop} {s t : State}
    (h : RequestMove slots mask index s t) : TraceRule s t := ⟨h.grows, h.silent⟩

/-- Every instruction that the command loop fetches obeys the rule. -/
theorem exec_traceRule {i : Instr} {c : Context} {s t : State} {p : Phase} (hc : p.reads = some c)
    (hi : i.context = some c) (ht : exec i s = .next t) : TraceRule s t := by
  obtain rfl | ⟨rfl, -⟩ | rfl := reads_cases hc
  · obtain hcfg | ⟨index, count, rfl⟩ := command_cases hi
    · obtain ⟨u, htu, s', hp, ha⟩ := reaches_trace (configures_reaches hcfg s) ht
      refine traceRule_of_eq (htu.trans (ha.quiet.trace.trans ?_))
      obtain ⟨d, p, k, rfl⟩ := hp.frame
      rfl
    · obtain ⟨u, htu, h⟩ := reaches_trace (transfer_reaches index count s) ht
      exact h.traceRule.congr htu
  · obtain ⟨body, he, hb⟩ := exec_request hi
    rw [he] at ht
    obtain ⟨u, htu, h⟩ := reaches_trace (runRequest_reaches (index := False) hb s) ht
    exact h.traceRule.congr htu
  · obtain ⟨req, he⟩ := exec_block hi
    rw [he] at ht
    obtain ⟨u, htu, h⟩ := reaches_trace (runBlock_reaches req s) ht
    exact h.traceRule.congr htu

theorem receive_trace {s t : State} (h : receive s = .next t) : t.trace = s.trace := by
  unfold receive at h
  split at h
  · cases h; rfl
  · cases h; rfl
  · split at h
    · cases h; rfl
    · cases h

theorem sendResponse_trace (s : State) : (sendResponse s).trace = s.trace := by
  by_cases hf : s.input.sendFail.head? = some true
  · rw [sendResponse_of_fail hf]; rfl
  · rw [sendResponse_of_ok hf]

theorem stepKind_traceRule {s t : State} {o : Host.Outcome State Fault Refusal} (ho : StepKind s o)
    (ht : o = .next t) : TraceRule s t := by
  cases ho with
  | waits _ => exact traceRule_of_eq (receive_trace ht)
  | sends _ => cases ht; exact traceRule_of_eq (sendResponse_trace s)
  | answersError _ =>
    obtain ⟨u, htu, ha⟩ := reaches_trace (reaches_of_ends (answerError_answered (advance 1 s))) ht
    exact traceRule_of_eq (htu.trans ha.quiet.trace)
  | refuses code _ => cases ht
  | truncated c off width _ _ =>
    cases ht
    obtain ⟨i, w, hw⟩ := writesBeforeShort_eq c (pending s) s
    exact traceRule_of_eq (by rw [takeFramingError_trace, hw])
  | runs c i n hc hd =>
    have h := exec_traceRule hc (decode_instr hd).2.1 ht
    exact h

/-- Settles O59: only requests, Transfer's header and blocks emit cycles at all, and theirs obey the rule. -/
theorem traceOnlyGrows : Obligations.TraceOnlyGrows :=
  fun s _ ht => stepKind_traceRule (step_kind s) ht

end Sys2Proof.Machine
end

section
/-! Which instruction writes which field of Driver State (R48, O60): the engine's own operations but for HALF_DELAY write
none. -/

namespace Sys2Proof.Machine

/-- The parameters stay, and Driver State changes as instruction `i` may change it. -/
structure WritesOnly (i : Instr) (s t : State) : Prop where
  params : t.params = s.params
  driver : DriverWrites i s.driver t.driver

/-! ### The engine's operations as instructions -/

/-- The parameters and Driver State stay. -/
def SameDriver (s t : State) : Prop := t.params = s.params ∧ t.driver = s.driver

theorem WireFrame.sameDriver {s t : State} (h : WireFrame s t) : SameDriver s t := ⟨h.params, h.driver⟩

theorem TransferFrame.sameDriver {s t : State} (h : TransferFrame s t) : SameDriver s t := ⟨h.params, h.driver⟩

theorem jcycle_frame (tms tdi : Bool) (s : State) : WireFrame s (jcycle tms tdi s).2 := jrun_frame [(tms, tdi)] s

theorem emit_frame (c : Cycle) (s : State) : WireFrame s (emit c s) :=
  ⟨rfl, rfl, rfl, rfl, rfl, rfl, rfl, rfl, rfl, rfl, rfl⟩

theorem drawSwdio_frame (s : State) : WireFrame s (drawSwdio s).2 := by
  obtain ⟨q, hq⟩ := drawSwdio_state s
  rw [hq]; exact ⟨rfl, rfl, rfl, rfl, rfl, rfl, rfl, rfl, rfl, rfl, rfl⟩

theorem readLevel_frame (l : Level) (s : State) : WireFrame s (readLevel l s).2 := by
  obtain ⟨n, hn⟩ := readLevel_state l s
  rw [hn]; exact ⟨rfl, rfl, rfl, rfl, rfl, rfl, rfl, rfl, rfl, rfl, rfl⟩

theorem readWriteCycle_frame (b : Bool) (s : State) : WireFrame s (readWriteCycle b s).2 :=
  have hpins : WireFrame s { s with pins := { s.pins with swdioOut := levelOf b } } :=
    ⟨rfl, rfl, rfl, rfl, rfl, rfl, rfl, rfl, rfl, rfl, rfl⟩
  ((hpins.trans (drawSwdio_frame _)).trans (readLevel_frame _ _)).trans (emit_frame _ _)

/-- Handing back what the operation returns writes `ret` alone. -/
theorem returned_sameDriver {α : Type} {s : State} {r : Res α} {k : α → State → Res Unit} (h : r.Ends (SameDriver s))
    (hk : ∀ a t, ∃ v, k a t = .ok () { t with ret := v }) : Reaches (SameDriver s) (r.bind k).outcome := by
  refine reaches_of_ends (Ends_bind_same h fun a t ht => ?_)
  obtain ⟨v, hv⟩ := hk a t
  rw [hv]
  exact ht

theorem ops_sameDriver {i : Instr} (hc : i.context = none ∨ i.context = some .wireHeader) (hh : ∀ rate, i ≠ .halfDelay rate)
    (s : State) : Reaches (SameDriver s) (exec i s) := by
  cases i with
  | swdHeader r => exact reaches_next (writeBits_frame _ s).sameDriver
  | swdPacket req w =>
    exact returned_sameDriver (Ends_mono (swdPacket_moves req w s) fun _ h => h.1.frame.sameDriver) fun _ _ => ⟨_, rfl⟩
  | setIr ir => exact reaches_of_ends (Ends_mono (setInstructionRegister_moves ir s) fun _ h => h.frame.sameDriver)
  | readDr32 =>
    exact returned_sameDriver (Ends_mono (readDataRegister32_moves s) fun _ h => h.frame.sameDriver) fun _ _ => ⟨_, rfl⟩
  | jtagTransferScan req w =>
    exact returned_sameDriver (Ends_mono (jtagTransferScan_moves req w s) fun _ h => h.frame.sameDriver)
      fun _ _ => ⟨_, rfl⟩
  | transferOp req w =>
    exact returned_sameDriver (Ends_mono (transfer_moves req w s) fun _ h => h.frame.sameDriver) fun _ _ => ⟨_, rfl⟩
  | transferRetry req w =>
    exact returned_sameDriver (Ends_mono (transferRetry_moves req w s) fun _ h => h.frame.sameDriver)
      fun _ _ => ⟨_, rfl⟩
  | matchRead req mv =>
    exact returned_sameDriver (Ends_mono (matchRead_moves req mv s) fun _ h => h.frame.sameDriver) fun _ _ => ⟨_, rfl⟩
  | halfDelay rate => exact absurd rfl (hh rate)
  | clockCycle => exact reaches_next (clockCycles_frame 1 s).sameDriver
  | writeCycle b => exact reaches_next (writeBits_frame [b] s).sameDriver
  | readCycle => exact reaches_next (readCycle_frame s).sameDriver
  | readWriteCycle b => exact reaches_next (readWriteCycle_frame b s).sameDriver
  | swdOutEnable v => exact reaches_of_ends (Ends_mono (swdOutEnable_frame v s) fun _ h => h.sameDriver)
  | swdOutDisable => exact reaches_of_ends (Ends_mono (swdOutDisable_frame s) fun _ h => h.sameDriver)
  | jcycle tms tdi => exact reaches_next (jcycle_frame tms tdi s).sameDriver
  | _ => rcases hc with hc | hc <;> cases hc

/-! ### Every instruction -/

theorem reaches_mono {P Q : State → Prop} {o : Host.Outcome State Fault Refusal} (h : Reaches P o)
    (hpq : ∀ s, P s → Q s) : Reaches Q o := fun t ht => by
  obtain ⟨u, htu, hu⟩ := h t ht
  exact ⟨u, htu, hpq u hu⟩

theorem configures_writesOnly {i : Instr} (hi : configures i = true) (s : State) :
    Reaches (WritesOnly i s) (exec i s) :=
  reaches_mono (configures_reaches hi s) fun u ⟨s', hp, ha⟩ => by
    have hd := hp.driver
    obtain ⟨d, p, k, rfl⟩ := hp.frame
    exact ⟨ha.quiet.params, by rw [ha.driver]; exact hd⟩

/-- A step of the engine that may write the index on JTAG alone, as Transfer's header and the blocks do. -/
theorem RequestMove.writesIndex {slots : Nat → Prop} {s t : State}
    (h : RequestMove slots False (s.driver.port = .jtag) s t) :
    t.driver = { s.driver with index := t.driver.index } ∧ (s.driver.port ≠ .jtag → t.driver.index = s.driver.index) := by
  refine ⟨?_, h.indexKept⟩
  have hd := h.driver
  rwa [h.maskKept id] at hd

/-- A request writes of Driver State nothing, or for MASK the match mask. -/
theorem RequestMove.writesMask {i : Instr} {slots : Nat → Prop} {s t : State} (hi : i.context = some .request)
    (h : RequestMove slots (∃ w, i = .mask w) False s t) : DriverWrites i s.driver t.driver := by
  have hd := h.driver
  rw [h.indexKept id] at hd
  cases i with
  | mask w => exact hd
  | dpR a | apR a | dpRM a v | apRM a v | dpW a v | apW a v =>
    rwa [h.maskKept fun ⟨w, hw⟩ => by cases hw] at hd
  | _ => cases hi

/-- The operations that are no command and no request write no field of Driver State, but for HALF_DELAY. -/
theorem driverWrites_of_same {i : Instr} (hc : i.context = none ∨ i.context = some .wireHeader)
    (hh : ∀ rate, i ≠ .halfDelay rate) (d : Driver) : DriverWrites i d d := by
  cases i with
  | halfDelay rate => exact absurd rfl (hh rate)
  | swdHeader r | swdPacket req w | setIr ir | readDr32 | jtagTransferScan req w | transferOp req w
  | transferRetry req w | matchRead req mv | clockCycle | writeCycle b | readCycle | readWriteCycle b | swdOutEnable v
  | swdOutDisable | jcycle tms tdi => rfl
  | _ => rcases hc with hc | hc <;> cases hc

theorem ops_writesOnly {i : Instr} (hc : i.context = none ∨ i.context = some .wireHeader) (s : State) :
    Reaches (WritesOnly i s) (exec i s) := by
  by_cases hh : ∃ rate, i = .halfDelay rate
  · obtain ⟨rate, rfl⟩ := hh
    exact reaches_next ⟨rfl, rfl⟩
  · have hh' : ∀ rate, i ≠ .halfDelay rate := fun rate h => hh ⟨rate, h⟩
    exact reaches_mono (ops_sameDriver hc hh' s) fun u ⟨hp, hd⟩ => ⟨hp, by rw [hd]; exact driverWrites_of_same hc hh' _⟩

theorem block_writesOnly {i : Instr} (hi : i.context = some .blockRequest) (s : State) :
    Reaches (WritesOnly i s) (exec i s) := by
  cases i with
  | tbRead apndp a | tbWrite apndp a =>
    exact reaches_mono (runBlock_reaches _ s) fun u h => ⟨h.params, h.writesIndex⟩
  | _ => cases hi

/-- Every instruction writes of Driver State at most its own fields. -/
theorem exec_writesOnly (i : Instr) (s : State) : Reaches (WritesOnly i s) (exec i s) := by
  cases hc : i.context with
  | none => exact ops_writesOnly (.inl hc) s
  | some c =>
    cases c with
    | command =>
      obtain hcfg | ⟨index, count, rfl⟩ := command_cases hc
      · exact configures_writesOnly hcfg s
      · exact reaches_mono (transfer_reaches index count s) fun u h => ⟨h.params, h.writesIndex⟩
    | request =>
      obtain ⟨body, he, hb⟩ := exec_request hc
      rw [he]
      exact reaches_mono (runRequest_reaches hb s) fun u h => ⟨h.params, h.writesMask hc⟩
    | blockRequest => exact block_writesOnly hc s
    | wireHeader => exact ops_writesOnly (.inr hc) s

/-- Without RESET_ON_FRAMING_ERROR the next state's Driver State is that of the state the instruction reaches. -/
theorem exec_driver {i : Instr} {s t : State} (hr : s.params.resetOnFramingError = false) (ht : exec i s = .next t) :
    DriverWrites i s.driver t.driver := by
  obtain ⟨u, rfl | ⟨e, rfl⟩, hp, hw⟩ := exec_writesOnly i s t ht
  · exact hw
  · rw [takeFramingError_driver (by rw [hp]; exact hr)]
    exact hw

/-- Settles O60: `DriverWrites`, read field by field. -/
theorem whoWritesDriverState : Obligations.WhoWritesDriverState := by
  intro s t i hr ht
  have hw := exec_driver hr ht
  generalize t.driver = e at hw ⊢
  cases i with
  | transfer index count | tbRead apndp a | tbWrite apndp a =>
    obtain ⟨he, hindex⟩ := hw
    have hjtag : e.index ≠ s.driver.index → s.driver.port = .jtag := fun hn => by_contra fun hp => hn (hindex hp)
    rw [he]
    simpa using hjtag
  | _ =>
    rw [show e = _ from hw]
    simp

end Sys2Proof.Machine
end

section
/-! The buffers at their bounds (R72, R74, R281, R321): a request whose bytes run out, and a response that does not fit. -/

namespace Sys2Proof.Machine

/-! ### What taking a FramingError keeps -/

theorem takeFramingError_params (e : FramingError) (s : State) : (takeFramingError e s).params = s.params := by
  rcases takeFramingError_cases e s with ⟨u, h, -, hp, -⟩ | ⟨h, -⟩ <;> rw [h]
  exact hp

theorem takeFramingError_pins {e : FramingError} {s : State} (h : s.params.resetOnFramingError = false) :
    (takeFramingError e s).pins = s.pins := by
  rcases takeFramingError_cases e s with ⟨u, -, ht, -⟩ | ⟨hk, -⟩
  · rw [h] at ht; cases ht
  · rw [hk]

/-! ### Little-endian words (R76) -/

/-- A byte appended below moves the value up by its weight. -/
theorem toNat_append_byte {n : Nat} (v : BitVec n) (b : Byte) : (v ++ b).toNat = 256 * v.toNat + b.toNat := by
  rw [BitVec.toNat_append, ← Nat.shiftLeft_add_eq_or_of_lt b.isLt, Nat.shiftLeft_eq, Nat.mul_comm]

theorem toNat_le32 (b0 b1 b2 b3 : Byte) :
    (le32 b0 b1 b2 b3).toNat = b0.toNat + 256 * b1.toNat + 65536 * b2.toNat + 16777216 * b3.toNat := by
  rw [le32, toNat_append_byte, toNat_append_byte, toNat_append_byte]
  omega

/-- Four bytes at the cursor are a word. -/
theorem reqRead4_bytes {s : State} {b0 b1 b2 b3 : Byte} {rest : List Byte}
    (h : s.mem.req.drop s.mem.rd = b0 :: b1 :: b2 :: b3 :: rest) : reqRead4 s = .ok (le32 b0 b1 b2 b3) (skipped s 4) := by
  have hl : s.mem.rd + 4 ≤ s.mem.req.length := by
    have := congrArg List.length h
    simp only [List.length_drop, List.length_cons] at this
    omega
  rw [reqRead4, reqRead, if_pos hl, h]
  rfl

/-! ### A response that does not fit (R74) -/

theorem respWrite_over {bs : List Byte} {s : State} (h : s.params.responseCapacity < s.mem.resp.length + bs.length) :
    respWrite bs s = .framing ⟨s.mem.rd, bs.length⟩ s := by
  rw [respWrite, if_neg (by omega)]

/-- A code and a result byte that do not both fit: the first may have been written. -/
theorem answer_over {code result : Byte} {s : State} (h : s.params.responseCapacity < s.mem.resp.length + 2) :
    ∃ u, answer code result s = .framing ⟨s.mem.rd, 1⟩ u ∧ u.params = s.params ∧ u.sent = s.sent ∧ u.trace = s.trace := by
  unfold answer respPair
  rcases respWrite_cases [code] s with ⟨-, h1⟩ | ⟨-, h1⟩ <;> rw [h1]
  · rw [bind_ok, respWrite_over (by simp only [List.length_append, List.length_singleton]; omega)]
    exact ⟨_, rfl, rfl, rfl, rfl⟩
  · exact ⟨s, rfl, rfl, rfl, rfl⟩

/-- The four configuration commands answer with a code and a result byte. -/
theorem configuration_answers {i : Instr}
    (hi : (∃ a b c, i = .xferCfg a b c) ∨ (∃ c, i = .swjClock c) ∨ (∃ c, i = .swdCfg c) ∨ ∃ l, i = .jtagCfg l) (s : State) :
    ∃ code result d, exec i s = (answer code result { s with driver := d }).outcome := by
  rcases hi with ⟨a, b, c, rfl⟩ | ⟨hz, rfl⟩ | ⟨c, rfl⟩ | ⟨l, rfl⟩
  · exact ⟨_, _, _, rfl⟩
  · show ∃ code result d, execSwjClock hz s = _
    unfold execSwjClock
    split <;> exact ⟨_, _, _, rfl⟩
  · exact ⟨_, _, _, rfl⟩
  · show ∃ code result d, execJtagCfg l s = _
    unfold execJtagCfg
    split <;> exact ⟨_, _, _, rfl⟩

/-- A configuration command whose answer does not fit ends in a FramingError. -/
theorem configuration_over {i : Instr} {s : State}
    (hi : (∃ a b c, i = .xferCfg a b c) ∨ (∃ c, i = .swjClock c) ∨ (∃ c, i = .swdCfg c) ∨ ∃ l, i = .jtagCfg l)
    (h : s.params.responseCapacity < s.mem.resp.length + 2) :
    ∃ t d, exec i s = .next t ∧ FramingEnds s t ⟨s.mem.rd, 1⟩ d [] := by
  obtain ⟨code, result, d, he⟩ := configuration_answers hi s
  obtain ⟨u, hu, hp, hs, ht⟩ := answer_over (code := code) (result := result) (s := { s with driver := d }) h
  rw [hu] at he
  exact ⟨_, _, he, (framingEnds_of (s := s) (cs := []) hp hs (by rw [List.append_nil]; exact ht)).1⟩

/-- A DP read on SWD whose word does not fit ends in a FramingError after its packet (R243, R248). -/
theorem dpR_over {s : State} {a : RegAddr} {v : Word} {rest : List Bool} (hp : s.driver.port = .swd)
    (hd : s.input.dirFail = none) (hdr : s.work.draining = false) (hpost : s.work.postRead = false)
    (h : s.params.responseCapacity < s.mem.resp.length + 4) (hq : s.input.swdio = swdOkRead v ++ rest) :
    ∃ t d, exec (.dpR a) s = .next t ∧ FramingEnds s t ⟨s.mem.rd, 4⟩ d
      (readPacket s.driver (0x02#8 ||| (a.zeroExtend 8 <<< 2)) v (dataParity v)) := by
  have hreq : (0x02#8 ||| (a.zeroExtend 8 <<< 2)).getLsbD 1 = true ∧
      (0x02#8 ||| (a.zeroExtend 8 <<< 2)).getLsbD 0 = false := by clear * -; revert a; decide
  have he := plainRequest_read (i := .dpR a) rfl hreq.1 s
  generalize (0x02#8 ||| (a.zeroExtend 8 <<< 2)) = req at hreq he ⊢
  obtain ⟨hr, hap⟩ := hreq
  have hc : Course s [⟨req, 0#32, v⟩] none (readPacket s.driver req v (dataParity v)) rest := by
    simp only [Course, Answers, hp, swdAnswersOf_cons, if_pos hr, swdRecordsOf_one]
    exact ⟨hd, by simpa [swdAnswersOf] using hq, trivial⟩
  obtain ⟨t, c, c', w, ht, hw, hcs, hwired, hdone⟩ := hc.first
  obtain ⟨rfl, -⟩ := hdone.done
  have hover : respWrite4 w t = .framing ⟨s.mem.rd, 4⟩ t := by
    have := respWrite_over (bs := bytes32 w) (s := t) (by rw [hwired.params, hwired.mem]; exact h)
    rwa [hwired.mem] at this
  have hplain : plainRead req s = .framing ⟨s.mem.rd, 4⟩ t := by
    rw [plainRead, if_neg (by rw [hp, show reqAPnDP req = false from hap]; decide), collectSame, ht, bind_ok, writeCollected,
      onOk_ok, hover, bind_framing]
  have hbody : readRequest req none s = .framing ⟨s.mem.rd, 4⟩ t := by
    simp [readRequest, collectForRead, hpost, onOk_ok, hplain]
  refine ⟨_, _, ?_, (framingEnds_of (e := ⟨s.mem.rd, 4⟩) (u := t) hwired.params ?_ ?_).1⟩
  · rw [he, runRequest, if_neg (by simp [hdr]), hbody, bind_framing, outcome_framing]
  · obtain ⟨p, ta, i, f, rfl⟩ := hwired; rfl
  · rw [hwired.trace, hcs, List.append_nil]

/-- Settles O8: `reqRead` and `respWrite` by their bound, the little-endian word by its bytes, and the two ways a response
that does not fit ends the command. -/
theorem reqReadRule : Obligations.ReqReadRule := by
  refine ⟨fun n s h => ?_, fun n s h => ?_, fun s b0 b1 b2 b3 rest h => ?_, fun bs s => ⟨respWrite_fits, respWrite_over⟩,
    fun s i h hi => ?_, fun s a v rest hp hd hdr hpost h hq => ?_⟩
  · rw [reqRead, if_pos h]
  · rw [reqRead, if_neg (by omega)]
  · exact ⟨_, _, reqRead4_bytes h, rfl, toNat_le32 b0 b1 b2 b3⟩
  · obtain ⟨t, d, ht, hf⟩ := configuration_over hi h
    exact ⟨t, ht, hf.framing, hf.sent, hf.mem, hf.phase, hf.batch, by simpa using hf.trace⟩
  · obtain ⟨t, d, ht, hf⟩ := dpR_over (a := a) hp hd hdr hpost h hq
    exact ⟨t, ht, hf.framing, hf.sent, hf.mem, hf.phase, hf.batch, hf.trace⟩

/-! ### A truncated instruction (R281) -/

/-- Where an instruction is read, a truncated one is a FramingError, taken in what its handler has written. -/
theorem step_of_short {s : State} {c : Context} {off width : Nat}
    (hc : s.phase = .command ∧ c = .command ∧ isNestedBatch s = false ∨ s.phase = .request ∧ c = .request ∨
      s.phase = .blockRequest ∧ c = .blockRequest) (h : decode c (pending s) = .short off width) :
    step s = .next (takeFramingError ⟨s.mem.rd + off, width⟩ (writesBeforeShort c (pending s) s)) := by
  have hin : fetchIn c s =
      .done (.next (takeFramingError ⟨s.mem.rd + off, width⟩ (writesBeforeShort c (pending s) s))) := by
    rw [fetchIn, h]
  rw [step_of_fetch]
  rcases hc with ⟨hp, rfl, hn⟩ | ⟨hp, rfl⟩ | ⟨hp, rfl⟩
  · rw [fetch_of_command hp, fetchCommand, hn, if_neg Bool.false_ne_true, hin]; rfl
  · rw [fetch_of_request hp, hin]; rfl
  · rw [fetch_of_blockRequest hp, hin]; rfl

/-- Only Transfer Configure has written anything before a missing field (D40). -/
theorem writesBeforeShort_other {c : Context} {bs : List Byte} (s : State) (h : c ≠ .command ∨ bs.head? ≠ some 0x04#8) :
    writesBeforeShort c bs s = s := by
  cases c with
  | command =>
    cases bs with
    | nil => rfl
    | cons code fields =>
      rw [writesBeforeShort, if_neg]
      rintro rfl
      exact h.elim (absurd rfl) (absurd rfl)
  | request | blockRequest | wireHeader => rfl

/-- A truncated Transfer Configure leaves what its handler has written of Driver State. -/
theorem step_of_shortXferCfg {s : State} {fields : List Byte} {off width : Nat} (hp : s.phase = .command)
    (hn : isNestedBatch s = false) (hr : s.params.resetOnFramingError = false) (hb : pending s = 0x04#8 :: fields)
    (h : decodeXferCfg fields = .short off width) : ∃ t, step s = .next t ∧
      t.framing = some ⟨s.mem.rd + off, width⟩ ∧ t.driver = (shortXferCfg fields s).driver := by
  have hw : writesBeforeShort .command (pending s) s = shortXferCfg fields s := by rw [hb]; rfl
  have hk : (shortXferCfg fields s).params = s.params := by
    obtain ⟨i, w, he⟩ := writesBeforeShort_eq .command (pending s) s
    rw [← hw, he]
  refine ⟨_, step_of_short (off := off) (width := width) (.inl ⟨hp, rfl, hn⟩) (by rw [hb]; exact h), ?_, ?_⟩
  · exact (framingEnds_of (cs := []) rfl rfl (List.append_nil _).symm).1.framing
  · rw [hw]; exact takeFramingError_driver (by rw [hk]; exact hr)

/-- Settles O9: a truncated instruction is `takeFramingError` of what its handler has written, which is something for
Transfer Configure alone. -/
theorem truncatedRequest : Obligations.TruncatedRequest := by
  refine ⟨fun s c off width hc h => ?_, fun s idle w0 w1 m0 hp hn hr => ?_⟩
  · obtain ⟨i, w, he⟩ := writesBeforeShort_eq c (pending s) s
    have hother := writesBeforeShort_other (c := c) (bs := pending s) s
    have hstep := step_of_short hc h
    generalize writesBeforeShort c (pending s) s = u at he hother hstep
    have hparams : u.params = s.params := by rw [he]
    have hpins : u.pins = s.pins := by rw [he]
    obtain ⟨hf, hinput⟩ := framingEnds_of (s := s) (u := u) (e := ⟨s.mem.rd + off, width⟩) (cs := []) hparams
      (by rw [he]) (by rw [he, List.append_nil])
    refine ⟨_, hstep, hf.framing, hf.sent, by simpa using hf.trace, hinput.trans (by rw [he]),
      (takeFramingError_params _ u).trans hparams, hf.mem, hf.phase, hf.batch, fun hr => ⟨?_, fun ho => ?_⟩, fun hr => ?_⟩
    · exact (takeFramingError_pins (by rw [hparams]; exact hr)).trans hpins
    · rw [hf.kept hr, hother ho]
    · exact (hf.reset hr).symm
  · refine ⟨fun hb => ?_, fun hb => ?_, fun hb => ?_⟩
    · exact step_of_shortXferCfg hp hn hr hb rfl
    · rcases hb with hb | hb <;> exact step_of_shortXferCfg hp hn hr hb rfl
    · rcases hb with hb | hb <;> exact step_of_shortXferCfg hp hn hr hb rfl

end Sys2Proof.Machine
end

section
/-! The bits on the SWD wire: the header's eight cycles (R114, R202), the parity of a word (R205) and the write packet
answered OK. -/

namespace Sys2Proof.Machine

/-! ### The header (R77, R114) -/

/-- The bits of a header in the order they are sent. -/
theorem bitsOf_headerByte (r : BitVec 4) : bitsOf (headerByte r) = [true, r.getLsbD 0, r.getLsbD 1, r.getLsbD 2,
    r.getLsbD 3, (r.getLsbD 0 ^^ r.getLsbD 1 ^^ r.getLsbD 2 ^^ r.getLsbD 3), false, true] := by
  revert r; decide

/-- Bits that end with `b`: the line is left at `b`, with the clock raised (R157). -/
theorem writeBits_endsWith (bs : List Bool) (b : Bool) (s : State) : writeBits (bs ++ [b]) s =
    { s with pins := { s.pins with clk := .high, swdioOut := levelOf b }
             trace := s.trace ++ writeRecords (bs ++ [b]) s.driver.halfDelay } := by
  induction bs generalizing s with
  | nil => rfl
  | cons b' bs ih =>
    rw [List.cons_append, writeBits, ih, writeCycle_eq]
    simp [writeRecords]

/-- Settles O27: a header's bits are read off the sixteen port requests, and its last bit leaves the line high. -/
theorem headerCycles : Obligations.HeaderCycles := by
  refine ⟨fun req => ⟨rfl, ?_⟩, fun s r => ?_⟩
  · rw [swdHeaderOf, bitsOf_headerByte]
    simp [portNibble]
  · have h := writeBits_endsWith [true, r.getLsbD 0, r.getLsbD 1, r.getLsbD 2, r.getLsbD 3,
      (r.getLsbD 0 ^^ r.getLsbD 1 ^^ r.getLsbD 2 ^^ r.getLsbD 3), false] true s
    have he : exec (.swdHeader r) s = .next (writeBits (bitsOf (headerByte r)) s) := rfl
    rw [bitsOf_headerByte] at he
    exact ⟨_, he.trans (congrArg _ h), rfl, rfl, rfl⟩

/-! ### The parity of a word (R205) -/

/-- Folding XOR over bits counts the set ones mod 2. -/
theorem toNat_foldl_xor {α : Type} (f : α → Bool) (l : List α) (p : Bool) :
    (l.foldl (fun q a => q ^^ f a) p).toNat = (p.toNat + l.countP f) % 2 := by
  induction l generalizing p with
  | nil => cases p <;> rfl
  | cons a l ih =>
    rw [List.foldl_cons, ih, List.countP_cons]
    cases p <;> cases f a <;> simp <;> omega

theorem toNat_parityOf {n : Nat} (v : BitVec n) :
    (parityOf v).toNat = ((List.range n).countP fun k => v.getLsbD k) % 2 := by
  rw [parityOf, toNat_foldl_xor, Bool.toNat_false, Nat.zero_add]

theorem getElem?_bitsOf {n : Nat} (v : BitVec n) {k : Nat} (h : k < n) : (bitsOf v)[k]? = some (v.getLsbD k) := by
  simp [bitsOf, h]

/-! ### The write packet (R202) -/

theorem readRecords_length (bs : List Bool) (h : Word) : (readRecords bs h).length = bs.length := List.length_map _

theorem writeRecords_length (bs : List Bool) (h : Word) : (writeRecords bs h).length = bs.length := List.length_map _

theorem releasedRecords_length (n : Nat) (h : Word) : (releasedRecords n h).length = n := List.length_replicate

theorem packetHead_length (d : Driver) (req : Byte) (ack : List Bool) :
    (packetHead d req ack).length = 8 + turnaround d + ack.length := by
  simp [packetHead, readRecords_length, writeRecords_length, releasedRecords_length, Nat.add_assoc]

/-- A write packet takes 44 cycles, two turnarounds and the idle cycles. -/
theorem writePacket_length (d : Driver) (req : Byte) (w : Word) :
    (writePacket d req w).length = 44 + 2 * turnaround d + d.idleCycles.toNat := by
  simp only [writePacket, packetIdle, List.length_append, packetHead_length, writeRecords_length, releasedRecords_length,
    bitsOf_length, List.length_replicate, swdOkWrite, List.length_cons, List.length_nil]
  omega

/-- SWD_PACKET of a write answered OK. -/
theorem exec_swdPacket_write {s : State} {req : Byte} {w : Word} {rest : List Bool} (hr : req.getLsbD 1 = false)
    (hd : s.input.dirFail = none) (hq : s.input.swdio = swdOkWrite ++ rest) :
    ∃ t, exec (.swdPacket req w) s = .next t ∧ t.ret.res = ackOk ∧ t.trace = s.trace ++ writePacket s.driver req w ∧
      t.input.swdio = rest ∧ Parked t ∧ WireFrame s { t with ret := s.ret } := by
  obtain ⟨p, hoe, hout, h⟩ := swdPacket_write s s.pins s.trace s.taps s.input s.free (w := w) hr hd hq
  rw [onWire_self] at h
  have he : exec (.swdPacket req w) s = ((swdPacket req w s).bind retPair).outcome := rfl
  rw [h] at he
  exact ⟨_, he, rfl, rfl, rfl, ⟨hoe, hout⟩, onWire_frame _ _ _ _ _ _ rfl rfl⟩

/-- Settles O36: the parity is the fold of XOR over the bits, and the packet is `swdPacket_write`'s. -/
theorem packetWrites : Obligations.PacketWrites := by
  refine ⟨fun v => ⟨toNat_parityOf v, bitsOf_length v, fun k hk => getElem?_bitsOf v hk⟩, fun s req w rest hr hd hq => ?_⟩
  obtain ⟨t, he, hres, htrace, hleft, hpark, hframe⟩ := exec_swdPacket_write (w := w) hr hd hq
  refine ⟨t, he, hres, htrace, ?_, hleft, hpark, hframe⟩
  rw [htrace, List.length_append, writePacket_length]
  omega

end Sys2Proof.Machine
end

section
/-! The events waiting at `recv` (R79, R329): everything but `recv` itself neither reads them nor takes one. Each operation
is shown to be deaf to them along its own composition. -/

namespace Sys2Proof.Machine

/-! ### States and results with other events waiting -/

/-- `s` with these events waiting. -/
def withRecv (evs : List HostEvent) (s : State) : State := { s with input := { s.input with recv := evs } }

theorem withRecv_self (s : State) : withRecv s.input.recv s = s := rfl

@[simp] theorem withRecv_driver (evs : List HostEvent) (s : State) : (withRecv evs s).driver = s.driver := rfl
@[simp] theorem withRecv_pins (evs : List HostEvent) (s : State) : (withRecv evs s).pins = s.pins := rfl
@[simp] theorem withRecv_work (evs : List HostEvent) (s : State) : (withRecv evs s).work = s.work := rfl
@[simp] theorem withRecv_mem (evs : List HostEvent) (s : State) : (withRecv evs s).mem = s.mem := rfl
@[simp] theorem withRecv_params (evs : List HostEvent) (s : State) : (withRecv evs s).params = s.params := rfl
@[simp] theorem withRecv_batch (evs : List HostEvent) (s : State) : (withRecv evs s).batch = s.batch := rfl

/-- The result with these events waiting. -/
def Res.withRecv {α : Type} (evs : List HostEvent) : Res α → Res α
  | .ok a s => .ok a (Machine.withRecv evs s)
  | .framing e s => .framing e (Machine.withRecv evs s)
  | .fault f => .fault f

/-- The outcome with these events waiting. -/
def outcomeWithRecv (evs : List HostEvent) : Host.Outcome State Fault Refusal → Host.Outcome State Fault Refusal
  | .next s => .next (withRecv evs s)
  | .fault f => .fault f
  | .refused r => .refused r

/-- The operation neither reads the waiting events nor takes one. -/
def Deaf {α : Type} (r : State → Res α) : Prop := ∀ evs s, r (withRecv evs s) = (r s).withRecv evs

/-- The step neither reads the waiting events nor takes one. -/
def DeafStep (o : State → Host.Outcome State Fault Refusal) : Prop :=
  ∀ evs s, o (withRecv evs s) = outcomeWithRecv evs (o s)

/-! ### Composition -/

section
variable {α β : Type}

theorem bind_withRecv {evs : List HostEvent} {r : Res α} {k k' : α → State → Res β}
    (hk : ∀ a s, k a (withRecv evs s) = (k' a s).withRecv evs) : (r.withRecv evs).bind k = (r.bind k').withRecv evs := by
  cases r with
  | ok a s => exact hk a s
  | framing e s => rfl
  | fault f => rfl

theorem Deaf.bind {r : State → Res α} {k : α → State → Res β} (h : Deaf r) (hk : ∀ a, Deaf (k a)) :
    Deaf fun s => (r s).bind k := fun evs s => by
  simp only [h evs s]
  exact bind_withRecv fun a t => hk a evs t

/-- A case distinction on what the events are no part of. -/
theorem Deaf.ite {c : State → Prop} [DecidablePred c] {r q : State → Res α} (hc : ∀ evs s, c (withRecv evs s) = c s)
    (hr : Deaf r) (hq : Deaf q) : Deaf fun s => if c s then r s else q s := by
  intro evs s
  simp only [hc]
  split
  · exact hr evs s
  · exact hq evs s

/-- A change of the state before the operation that is deaf too. -/
theorem Deaf.comp {r : State → Res α} {f : State → State} (h : Deaf r)
    (hf : ∀ evs s, f (withRecv evs s) = withRecv evs (f s)) : Deaf fun s => r (f s) := fun evs s => by
  simp only [hf, h evs (f s)]

/-- Ending with a change of the state that is deaf. -/
theorem deaf_ok (a : α) {f : State → State} (hf : ∀ evs s, f (withRecv evs s) = withRecv evs (f s)) :
    Deaf fun s => .ok a (f s) := fun evs s => by
  simp only [hf]; rfl

theorem takeFramingError_withRecv (e : FramingError) (evs : List HostEvent) (s : State) :
    takeFramingError e (withRecv evs s) = withRecv evs (takeFramingError e s) := by
  unfold takeFramingError
  rw [withRecv_params]
  simp only
  split <;> rfl

theorem Deaf.outcome {r : State → Res Unit} (h : Deaf r) : DeafStep fun s => (r s).outcome := by
  intro evs s
  simp only [h evs s]
  cases r s with
  | ok a t => rfl
  | framing e t => exact congrArg _ (takeFramingError_withRecv e evs t)
  | fault f => rfl

end

/-! ### Cycles -/

section
variable (evs : List HostEvent)

theorem readLevel_withRecv (l : Level) (s : State) :
    readLevel l (withRecv evs s) = ((readLevel l s).1, withRecv evs (readLevel l s).2) := by cases l <;> rfl

theorem clockCycle_withRecv (s : State) : clockCycle (withRecv evs s) = withRecv evs (clockCycle s) := by
  unfold clockCycle drivenOut
  simp only [withRecv_pins, readLevel_withRecv]
  split <;> rfl

theorem clockCycles_withRecv (n : Nat) (s : State) : clockCycles n (withRecv evs s) = withRecv evs (clockCycles n s) := by
  induction n generalizing s with
  | zero => rfl
  | succ n ih => rw [clockCycles, clockCycle_withRecv, ih]; rfl

theorem writeBits_withRecv (bs : List Bool) (s : State) : writeBits bs (withRecv evs s) = withRecv evs (writeBits bs s) := by
  induction bs generalizing s with
  | nil => rfl
  | cons b bs ih => exact ih (writeCycle b s)

theorem readCycle_withRecv (s : State) :
    readCycle (withRecv evs s) = ((readCycle s).1, withRecv evs (readCycle s).2) := by
  unfold readCycle drawSwdio
  rw [show (withRecv evs s).input.swdio = s.input.swdio from rfl]
  split <;> rfl

theorem readBits_withRecv (n : Nat) (s : State) :
    readBits n (withRecv evs s) = ((readBits n s).1, withRecv evs (readBits n s).2) := by
  induction n generalizing s with
  | zero => rfl
  | succ n ih => simp only [readBits, readCycle_withRecv, ih]

theorem jcycle_withRecv (tms tdi : Bool) (s : State) :
    jcycle tms tdi (withRecv evs s) = ((jcycle tms tdi s).1, withRecv evs (jcycle tms tdi s).2) := by
  unfold jcycle drawTdo
  simp only [show (withRecv evs s).input.tdo = s.input.tdo from rfl]
  split <;> rfl

theorem jrun_withRecv (cs : List (Bool × Bool)) (s : State) :
    jrun cs (withRecv evs s) = ((jrun cs s).1, withRecv evs (jrun cs s).2) := by
  induction cs generalizing s with
  | nil => rfl
  | cons d ds ih => simp only [jrun, jcycle_withRecv, ih]

theorem idleAndPark_withRecv (s : State) : idleAndPark (withRecv evs s) = withRecv evs (idleAndPark s) := by
  unfold idleAndPark
  rw [withRecv_driver, writeBits_withRecv]
  rfl

theorem readAck_withRecv (s : State) : readAck (withRecv evs s) = ((readAck s).1, withRecv evs (readAck s).2) := by
  simp only [readAck, readCycle_withRecv]

end

theorem pinDirection_deaf : Deaf pinDirection := by
  intro evs s
  unfold pinDirection
  rw [show (withRecv evs s).input.dirFail = s.input.dirFail from rfl]
  simp only
  split <;> rfl

theorem swdOutEnable_deaf (v : Bool) : Deaf (swdOutEnable v) := pinDirection_deaf.bind fun _ => deaf_ok () fun _ _ => rfl

theorem swdOutDisable_deaf : Deaf swdOutDisable := pinDirection_deaf.bind fun _ => deaf_ok () fun _ _ => rfl

/-! ### Packets and scans -/

theorem packetReadOk_deaf : Deaf packetReadOk := by
  intro evs s
  simp only [packetReadOk, readBits_withRecv, readCycle_withRecv, clockCycles_withRecv, withRecv_driver,
    swdOutEnable_deaf false evs]
  exact bind_withRecv fun _ t => by rw [idleAndPark_withRecv]; rfl

theorem packetWriteOk_deaf (w : Word) : Deaf (packetWriteOk w) := by
  intro evs s
  simp only [packetWriteOk, clockCycles_withRecv, withRecv_driver, swdOutEnable_deaf false evs]
  refine bind_withRecv fun _ t => ?_
  rw [writeBits_withRecv, show writeCycle (dataParity w) (withRecv evs (writeBits (bitsOf w) t)) =
    withRecv evs (writeCycle (dataParity w) (writeBits (bitsOf w) t)) from rfl, idleAndPark_withRecv]
  rfl

theorem packetWaitFault_deaf (req a : Byte) : Deaf (packetWaitFault req a) := by
  intro evs s
  unfold packetWaitFault
  simp only [withRecv_driver, clockCycles_withRecv, ← apply_ite (withRecv evs), swdOutEnable_deaf true evs]
  refine bind_withRecv fun _ t => ?_
  simp only [withRecv_driver, writeBits_withRecv, ← apply_ite (withRecv evs)]
  rfl

theorem packetProtocolError_deaf (a : Byte) : Deaf (packetProtocolError a) := by
  intro evs s
  simp only [packetProtocolError, clockCycles_withRecv, withRecv_driver, swdOutEnable_deaf true evs]
  exact bind_withRecv fun _ t => rfl

theorem swdPacket_deaf (req : Byte) (w : Word) : Deaf (swdPacket req w) := by
  intro evs s
  unfold swdPacket sendHeader
  rw [writeBits_withRecv, swdOutDisable_deaf evs]
  refine bind_withRecv fun _ t => ?_
  simp only [withRecv_driver, clockCycles_withRecv, readAck_withRecv]
  split
  · split
    · exact packetReadOk_deaf evs _
    · exact packetWriteOk_deaf w evs _
  · split
    · exact packetWaitFault_deaf req _ evs _
    · exact packetProtocolError_deaf _ evs _

theorem setInstructionRegister_deaf (ir : Byte) : Deaf (setInstructionRegister ir) := by
  intro evs s
  unfold setInstructionRegister
  rw [withRecv_driver]
  cases selected s.driver with
  | some d => simp only [jrun_withRecv]; rfl
  | none => rfl

theorem jtagTransferScan_deaf (req : Byte) (w : Word) : Deaf (jtagTransferScan req w) := by
  intro evs s
  unfold jtagTransferScan
  rw [withRecv_driver]
  cases selected s.driver with
  | some d =>
    simp only [jrun_withRecv]
    split <;> rfl
  | none => rfl

/-! ### Transfers -/

theorem selectIr_deaf (need : IrSel) : Deaf (selectIr need) :=
  .ite (fun _ _ => rfl) (deaf_ok () fun _ _ => rfl)
    ((setInstructionRegister_deaf _).bind fun _ => deaf_ok () fun _ _ => rfl)

theorem transfer_deaf (req : Byte) (w : Word) : Deaf (transfer req w) := by
  intro evs s
  unfold transfer
  rw [withRecv_driver]
  cases s.driver.port with
  | swd => exact swdPacket_deaf req w evs s
  | jtag => exact (selectIr_deaf _).bind (fun _ => jtagTransferScan_deaf req w) evs s
  | disabled => rfl

theorem retryLoop_deaf (req : Byte) (w : Word) (n : Nat) : Deaf (retryLoop req w n) := by
  induction n with
  | zero => exact transfer_deaf req w
  | succ n ih => exact (transfer_deaf req w).bind fun r => .ite (fun _ _ => rfl) ih (deaf_ok r fun _ _ => rfl)

theorem transferRetry_deaf (req : Byte) (w : Word) : Deaf (transferRetry req w) := fun evs s =>
  retryLoop_deaf req w _ evs s

theorem pollLoop_deaf (req : Byte) (mv : Word) (n : Nat) : Deaf (pollLoop req mv n) := by
  induction n with
  | zero =>
    exact (transferRetry_deaf req _).bind fun r => .ite (fun _ _ => rfl) (deaf_ok _ fun _ _ => rfl)
      (.ite (fun _ _ => rfl) (deaf_ok _ fun _ _ => rfl) (deaf_ok _ fun _ _ => rfl))
  | succ n ih =>
    exact (transferRetry_deaf req _).bind fun r => .ite (fun _ _ => rfl) (deaf_ok _ fun _ _ => rfl)
      (.ite (fun _ _ => rfl) (deaf_ok _ fun _ _ => rfl) ih)

theorem matchRead_deaf (req : Byte) (mv : Word) : Deaf (matchRead req mv) :=
  .ite (fun _ _ => rfl)
    ((transferRetry_deaf req _).bind fun _ => .ite (fun _ _ => rfl) (deaf_ok _ fun _ _ => rfl) fun evs s =>
      pollLoop_deaf req mv _ evs s)
    fun evs s => pollLoop_deaf req mv _ evs s

/-! ### Buffers -/

theorem reqRead_deaf (n : Nat) : Deaf (reqRead n) := by
  intro evs s
  unfold reqRead
  rw [withRecv_mem]
  split <;> rfl

theorem reqRead4_deaf : Deaf reqRead4 := (reqRead_deaf 4).bind fun _ => deaf_ok _ fun _ _ => rfl

theorem reqSkip4_deaf (n : Nat) : Deaf (reqSkip4 n) := by
  induction n with
  | zero => exact deaf_ok () fun _ _ => rfl
  | succ n ih => exact (reqRead_deaf 4).bind fun _ => ih

theorem respWrite_deaf (bs : List Byte) : Deaf (respWrite bs) := by
  intro evs s
  unfold respWrite
  rw [withRecv_mem, withRecv_params]
  split <;> rfl

theorem respReserve_deaf (n : Nat) : Deaf (respReserve n) := fun evs s => by
  simp only [respReserve, respWrite_deaf _ evs]
  exact bind_withRecv fun _ _ => rfl

theorem endCommand_withRecv (evs : List HostEvent) (s : State) :
    endCommand (withRecv evs s) = withRecv evs (endCommand s) := by
  unfold endCommand
  rw [withRecv_batch]
  split <;> rfl

theorem respPair_deaf (a b : Byte) : Deaf (respPair a b) := (respWrite_deaf _).bind fun _ => respWrite_deaf _

theorem answer_deaf (code result : Byte) : Deaf (answer code result) :=
  (respPair_deaf _ _).bind fun _ => deaf_ok () endCommand_withRecv

theorem answerError_deaf : Deaf answerError := (respWrite_deaf _).bind fun _ => deaf_ok () fun _ _ => rfl

/-! ### One request of a Transfer -/

theorem onOk_deaf (r : Byte) {k : State → Res Byte} (h : Deaf k) : Deaf fun s => onOk r s k :=
  .ite (fun _ _ => rfl) h (deaf_ok r fun _ _ => rfl)

theorem writeCollected_deaf (r : Byte × Word) : Deaf (writeCollected r) :=
  onOk_deaf r.1 ((respWrite_deaf _).bind fun _ => deaf_ok r.1 fun _ _ => rfl)

theorem collectRdbuff_deaf : Deaf collectRdbuff :=
  (transferRetry_deaf _ _).bind fun r => (writeCollected_deaf r).comp fun _ _ => rfl

theorem collectSame_deaf (req : Byte) : Deaf (collectSame req) := (transferRetry_deaf _ _).bind writeCollected_deaf

theorem postRead_deaf (req : Byte) : Deaf (postRead req) :=
  (transferRetry_deaf _ _).bind fun r => onOk_deaf r.1 (deaf_ok r.1 fun _ _ => rfl)

theorem collectForRead_deaf (req : Byte) (mv : Option Word) : Deaf (collectForRead req mv) :=
  .ite (fun _ _ => rfl) (.ite (fun _ _ => rfl) (collectSame_deaf req) collectRdbuff_deaf) (deaf_ok _ fun _ _ => rfl)

theorem plainRead_deaf (req : Byte) : Deaf (plainRead req) :=
  .ite (fun _ _ => rfl) (.ite (fun _ _ => rfl) (deaf_ok _ fun _ _ => rfl) (postRead_deaf req)) (collectSame_deaf req)

theorem readRequest_deaf (req : Byte) (mv : Option Word) : Deaf (readRequest req mv) := by
  have hend (r : Byte) : Deaf fun s => onOk r s fun t => .ok ackOk (setCheckWrite false t) :=
    onOk_deaf r (deaf_ok _ fun _ _ => rfl)
  cases mv with
  | some v => exact (collectForRead_deaf req _).bind fun r => onOk_deaf r ((matchRead_deaf req v).bind hend)
  | none => exact (collectForRead_deaf req _).bind fun r => onOk_deaf r ((plainRead_deaf req).bind hend)

theorem collectForWrite_deaf : Deaf collectForWrite :=
  .ite (fun _ _ => rfl) ((collectSame_deaf _).bind fun r => onOk_deaf r (deaf_ok r fun _ _ => rfl))
    (deaf_ok _ fun _ _ => rfl)

theorem writeRequest_deaf (req : Byte) (w : Word) : Deaf (writeRequest req w) :=
  collectForWrite_deaf.bind fun r => onOk_deaf r ((transferRetry_deaf req w).bind fun r2 => onOk_deaf r2.1
    (deaf_ok ackOk fun evs s => by rw [withRecv_driver]; split <;> rfl))

theorem maskRequest_deaf (w : Word) : Deaf (maskRequest w) :=
  collectForWrite_deaf.bind fun r => onOk_deaf r (deaf_ok ackOk fun _ _ => rfl)

theorem trailerRead_deaf (write : Bool) : Deaf (trailerRead write) :=
  (transferRetry_deaf _ _).bind fun r => .ite (fun _ _ => rfl) (writeCollected_deaf r) (deaf_ok r.1 fun _ _ => rfl)

theorem trailer_deaf : Deaf trailer := by
  intro evs s
  unfold trailer
  rw [withRecv_driver, withRecv_work]
  split
  · cases s.driver.port with
    | swd =>
      simp only
      split
      · exact trailerRead_deaf true evs s
      · split
        · exact trailerRead_deaf false evs s
        · rfl
    | jtag => exact trailerRead_deaf _ evs s
    | disabled => rfl
  · rfl

theorem epilogue_deaf : Deaf epilogue :=
  trailer_deaf.bind fun r => deaf_ok () fun evs s => endCommand_withRecv evs
    (respPatch s.work.slotAck [r] (respPatch s.work.slotCompleted [s.work.completed] s))

theorem nextRequest_deaf : Deaf nextRequest :=
  .ite (fun _ _ => rfl) (epilogue_deaf.comp fun _ _ => rfl) (deaf_ok () fun _ _ => rfl)

theorem recordResult_withRecv (r : Byte) (evs : List HostEvent) (s : State) :
    recordResult r (withRecv evs s) = withRecv evs (recordResult r s) := by
  unfold recordResult
  split <;> rfl

theorem runRequest_deaf {body : State → Res Byte} (h : Deaf body) : DeafStep (runRequest body) := by
  intro evs s
  unfold runRequest
  rw [withRecv_work]
  split
  · exact nextRequest_deaf.outcome evs s
  · exact (h.bind fun r => nextRequest_deaf.comp (recordResult_withRecv r)).outcome evs s

/-! ### Transfer's header and the blocks -/

theorem selectIndex_withRecv (index : Byte) (evs : List HostEvent) (s : State) :
    selectIndex index (withRecv evs s) = withRecv evs (selectIndex index s) := by
  unfold selectIndex
  rw [withRecv_driver]
  split <;> rfl

theorem beginTransfer_withRecv (index count : Byte) (a b : Nat) (evs : List HostEvent) (s : State) :
    beginTransfer index count a b (withRecv evs s) = withRecv evs (beginTransfer index count a b s) := by
  unfold beginTransfer
  rw [withRecv_driver]
  simp only
  split
  · rfl
  · exact selectIndex_withRecv index evs { s with work := { Work.initial with
      left := count.toNat, draining := preconditionFails index s.driver, slotCompleted := a, slotAck := b } }

theorem transferRes_deaf (index count : Byte) : Deaf (transferRes index count) :=
  (respWrite_deaf _).bind fun _ => (respReserve_deaf 1).bind fun a => (respReserve_deaf 1).bind fun b => by
    refine Deaf.comp (r := fun s => if s.work.left = 0 then epilogue s else .ok () { s with phase := .request }) ?_
      (beginTransfer_withRecv index count a b)
    exact .ite (fun _ _ => rfl) epilogue_deaf (deaf_ok () fun _ _ => rfl)

theorem blockReadLoop_deaf (req : Byte) (posted : Bool) (n : Nat) (c : Half) : Deaf (blockReadLoop req posted n c) := by
  induction n generalizing c with
  | zero => exact deaf_ok _ fun _ _ => rfl
  | succ n ih =>
    exact (transferRetry_deaf _ _).bind fun r => .ite (fun _ _ => rfl) ((respWrite_deaf _).bind fun _ => ih _)
      (deaf_ok _ fun _ _ => rfl)

theorem blockRead_deaf (req : Byte) (n : Nat) : Deaf (blockRead req n) :=
  .ite (fun _ _ => rfl)
    ((transferRetry_deaf _ _).bind fun _ => .ite (fun _ _ => rfl) (blockReadLoop_deaf req true n _)
      (deaf_ok _ fun _ _ => rfl))
    (blockReadLoop_deaf req false n _)

theorem blockWriteLoop_deaf (req : Byte) (n : Nat) (c : Half) : Deaf (blockWriteLoop req n c) := by
  induction n generalizing c with
  | zero => exact (transferRetry_deaf _ _).bind fun r => deaf_ok _ fun _ _ => rfl
  | succ n ih =>
    exact reqRead4_deaf.bind fun w => (transferRetry_deaf _ _).bind fun r => .ite (fun _ _ => rfl) (ih _)
      ((reqSkip4_deaf n).bind fun _ => deaf_ok _ fun _ _ => rfl)

theorem blockDrain_deaf (rnw : Bool) (n : Nat) : Deaf (blockDrain rnw n) :=
  .ite (fun _ _ => rfl) (deaf_ok _ fun _ _ => rfl) ((reqSkip4_deaf n).bind fun _ => deaf_ok _ fun _ _ => rfl)

theorem blockBody_deaf (req : Byte) : Deaf (blockBody req) := by
  intro evs s
  unfold blockBody
  rw [withRecv_driver, withRecv_work]
  split
  · exact blockDrain_deaf _ _ evs s
  · simp only [selectIndex_withRecv, withRecv_work]
    split
    · exact blockDrain_deaf _ _ evs _
    · split
      · exact blockRead_deaf _ _ evs _
      · exact blockWriteLoop_deaf _ _ _ evs _

theorem blockRes_deaf (req : Byte) : Deaf (blockRes req) :=
  (respWrite_deaf _).bind fun _ => (respReserve_deaf 2).bind fun a => (respReserve_deaf 1).bind fun b =>
    ((blockBody_deaf req).comp fun _ _ => rfl).bind fun r => deaf_ok () fun evs s =>
      endCommand_withRecv evs (respPatch b [r.1] (respPatch a (bytes16 r.2) s))

/-! ### Every instruction that is fetched -/

theorem command_deaf {i : Instr} (hi : i.context = some .command) : DeafStep (exec i) := by
  cases i with
  | connect port =>
    refine Deaf.outcome (Deaf.bind (r := fun s => match connectPort port with
      | some p => setPort p s
      | none => .ok () s) ?_ fun _ => answer_deaf _ _)
    cases connectPort port with
    | some p => exact pinDirection_deaf.bind fun _ => deaf_ok () fun _ _ => rfl
    | none => exact deaf_ok () fun _ _ => rfl
  | disconnect => exact Deaf.outcome (pinDirection_deaf.bind fun _ => (answer_deaf _ _).comp fun _ _ => rfl)
  | xferCfg idle waitRetry matchRetry => exact Deaf.outcome ((answer_deaf _ _).comp fun _ _ => rfl)
  | transfer index count => exact (transferRes_deaf index count).outcome
  | transferBlock index count => exact Deaf.outcome (deaf_ok () fun _ _ => rfl)
  | swjClock hz =>
    exact Deaf.outcome (.ite (fun _ _ => rfl) (answer_deaf _ _) ((answer_deaf _ _).comp fun _ _ => rfl))
  | swdCfg config => exact Deaf.outcome ((answer_deaf _ _).comp fun _ _ => rfl)
  | jtagCfg lens =>
    exact Deaf.outcome (.ite (fun _ _ => rfl) (answer_deaf _ _) ((answer_deaf _ _).comp fun _ _ => rfl))
  | execCommands count =>
    exact Deaf.outcome (.ite (fun _ _ => rfl) answerError_deaf ((respPair_deaf _ _).bind fun _ =>
      deaf_ok () fun evs s => endCommand_withRecv evs { s with batch := some count.toNat }))
  | _ => cases hi

theorem request_deaf {i : Instr} (hi : i.context = some .request) : DeafStep (exec i) := by
  cases i with
  | dpR a | apR a | dpRM a v | apRM a v => exact runRequest_deaf (readRequest_deaf _ _)
  | dpW a v | apW a v => exact runRequest_deaf (writeRequest_deaf _ _)
  | mask v => exact runRequest_deaf (maskRequest_deaf v)
  | _ => cases hi

theorem block_deaf {i : Instr} (hi : i.context = some .blockRequest) : DeafStep (exec i) := by
  cases i with
  | tbRead apndp a | tbWrite apndp a => exact (blockRes_deaf _).outcome
  | _ => cases hi

theorem exec_deaf {i : Instr} {c : Context} {p : Phase} (hp : p.reads = some c) (hi : i.context = some c) :
    DeafStep (exec i) := by
  rcases reads_cases hp with rfl | ⟨rfl, -⟩ | rfl
  · exact command_deaf hi
  · exact request_deaf hi
  · exact block_deaf hi

/-! ### The step -/

theorem codeWithoutRule_deaf (code : Byte) : DeafStep (codeWithoutRule code) := by
  intro evs s
  unfold codeWithoutRule
  rw [withRecv_params]
  split
  · exact (answerError_deaf.comp fun _ _ => rfl).outcome evs s
  · rfl

theorem writesBeforeShort_withRecv (c : Context) (bs : List Byte) (evs : List HostEvent) (s : State) :
    writesBeforeShort c bs (withRecv evs s) = withRecv evs (writesBeforeShort c bs s) := by
  unfold writesBeforeShort
  split
  · split
    · unfold shortXferCfg
      split <;> rfl
    · rfl
  all_goals rfl

theorem fetchIn_deaf {c : Context} {p : Phase} (hp : p.reads = some c) : DeafStep fun s => (fetchIn c s).outcome := by
  intro evs s
  show (fetchIn c (withRecv evs s)).outcome = outcomeWithRecv evs (fetchIn c s).outcome
  unfold fetchIn
  rw [show pending (withRecv evs s) = pending s from rfl]
  cases h : decode c (pending s) with
  | instr i n => exact exec_deaf hp (decode_instr h).2.1 evs (advance n s)
  | short off width =>
    simp only [Fetched.outcome, writesBeforeShort_withRecv, takeFramingError_withRecv]
    rfl
  | noRule code => exact codeWithoutRule_deaf code evs s
  | notHeader code => exact codeWithoutRule_deaf code evs s

theorem fetchCommand_deaf : DeafStep fun s => (fetchCommand s).outcome := by
  intro evs s
  show (fetchCommand (withRecv evs s)).outcome = outcomeWithRecv evs (fetchCommand s).outcome
  unfold fetchCommand
  rw [show isNestedBatch (withRecv evs s) = isNestedBatch s from rfl]
  split
  · exact (answerError_deaf.comp fun _ _ => rfl).outcome evs s
  · exact fetchIn_deaf (p := .command) rfl evs s

theorem sendResponse_withRecv (evs : List HostEvent) (s : State) :
    sendResponse (withRecv evs s) = withRecv evs (sendResponse s) := by
  unfold sendResponse
  rw [show (withRecv evs s).input.sendFail = s.input.sendFail from rfl]
  simp only
  split <;> rfl

/-- A step that does not wait at `recv` is deaf to the events waiting there. -/
theorem step_withRecv {s : State} (h : s.phase ≠ .idle) (evs : List HostEvent) :
    step (withRecv evs s) = outcomeWithRecv evs (step s) := by
  have hphase : (withRecv evs s).phase = s.phase := rfl
  cases hp : s.phase with
  | idle => exact absurd hp h
  | command =>
    rw [step_of_fetch, step_of_fetch, fetch_of_command hp, fetch_of_command (hphase.trans hp)]
    exact fetchCommand_deaf evs s
  | request =>
    rw [step_of_fetch, step_of_fetch, fetch_of_request hp, fetch_of_request (hphase.trans hp)]
    exact fetchIn_deaf (p := .request) rfl evs s
  | blockRequest =>
    rw [step_of_fetch, step_of_fetch, fetch_of_blockRequest hp, fetch_of_blockRequest (hphase.trans hp)]
    exact fetchIn_deaf (p := .blockRequest) rfl evs s
  | respond =>
    rw [step_of_respond hp, step_of_respond (hphase.trans hp), sendResponse_withRecv]
    rfl

/-- Settles O12: a step outside `recv` commutes with any change of the waiting events; with the events that do wait, that
says none is taken. -/
theorem eventsOnlyBetweenRequests : Obligations.EventsOnlyBetweenRequests := by
  intro s t h ht
  have hdeaf (evs : List HostEvent) : step (withRecv evs s) = .next (withRecv evs t) := by
    rw [step_withRecv h, ht]; rfl
  refine ⟨?_, hdeaf⟩
  have hself := hdeaf s.input.recv
  rw [withRecv_self, ht] at hself
  injection hself with hself
  rw [hself]
  rfl

end Sys2Proof.Machine
end

section
/-! Transfer's header (R240) and the end of a Transfer after its last request (R242 to R244): the trailer, the slots, and
what they make of the response. -/

namespace Sys2Proof.Machine

/-! ### Transfer's header (R240) -/

theorem preconditionFails_eq (index : Byte) (d : Driver) : preconditionFails index d =
    decide (d.port = .disabled ∨ d.port = .jtag ∧ d.chain.length ≤ index.toNat) := by
  unfold preconditionFails
  cases d.port <;> simp

/-- The state in which a Transfer's header leaves its requests: code and slots written, the index selected on JTAG where it is
in range, the requests drained on a port that is not ready. -/
def transferBegun (index count : Byte) (s : State) : State :=
  { s with
    mem := { s.mem with resp := s.mem.resp ++ [0x05#8, 0#8, 0#8] }
    driver := if s.driver.port = .jtag ∧ index.toNat < s.driver.chain.length then { s.driver with index := index }
      else s.driver
    work := { Work.initial with
      left := count.toNat
      draining := decide (s.driver.port = .disabled ∨ s.driver.port = .jtag ∧ s.driver.chain.length ≤ index.toNat)
      slotCompleted := s.mem.resp.length + 1
      slotAck := s.mem.resp.length + 2 } }

theorem beginTransfer_eq (index count : Byte) (s : State) :
    beginTransfer index count (s.mem.resp.length + 1) (s.mem.resp.length + 2) (grown s [0x05#8, 0#8, 0#8]) =
      transferBegun index count s := by
  unfold beginTransfer selectIndex transferBegun
  rw [grown_driver, preconditionFails_eq]
  by_cases hj : s.driver.port = .jtag
  · by_cases hi : index.toNat < s.driver.chain.length
    · simp [hj, hi, Nat.not_le.mpr hi, grown]
    · simp [hj, hi, Nat.le_of_not_lt hi, grown]
  · by_cases hd : s.driver.port = .disabled <;> simp [hj, hd, grown]

/-- Transfer's header where the code and the slots fit. -/
theorem transferRes_fits (index count : Byte) {s : State} (hf : Fits s 3) : transferRes index count s =
    if count.toNat = 0 then epilogue (transferBegun index count s)
    else .ok () { transferBegun index count s with phase := .request } := by
  rw [← beginTransfer_eq]
  unfold Fits at hf
  unfold transferRes respReserve
  rw [respWrite_fits (by simp; omega)]
  simp only [bind_ok]
  rw [respWrite_fits (by simp; omega)]
  simp only [bind_ok]
  rw [respWrite_fits (by simp; omega)]
  simp only [bind_ok, beginTransfer_work, List.append_assoc, List.length_append]
  rfl

/-- Without an OK result the epilogue reads nothing: it patches the slots and ends the command. -/
theorem epilogue_of_notOk {s : State} (h : s.work.lastAck ≠ ackOk) : epilogue s =
    .ok () (endCommand (respPatch s.work.slotAck [s.work.lastAck] (respPatch s.work.slotCompleted [s.work.completed] s))) := by
  rw [epilogue, trailer, if_neg h, bind_ok]

/-- The two slots of a response that ends with its code and the slots. -/
theorem overwrite_transferSlots (l m : List Byte) (x y c r : Byte) :
    overwrite (l.length + 2) [r] (overwrite (l.length + 1) [c] (l ++ [0x05#8, x, y] ++ m)) =
      l ++ [0x05#8, c, r] ++ m := by
  have e1 := overwrite_append (l := l ++ [0x05#8]) (old := [x]) (bs := [c]) (m := [y] ++ m) rfl
  have e2 := overwrite_append (l := l ++ [0x05#8, c]) (old := [y]) (bs := [r]) (m := m) rfl
  simp at e1 e2 ⊢
  rw [e1, e2]

/-- Settles O50: the header leaves `transferBegun`, and with no requests the epilogue has no result to look at. -/
theorem transferHeader : Obligations.TransferHeader := by
  intro s index count hf
  have he := exec_transfer index count s
  rw [transferRes_fits index count hf] at he
  by_cases hc : count = 0#8
  · have hres : (transferBegun index count s).work.lastAck ≠ ackOk := (by decide : (0#8 : Byte) ≠ 1#8)
    rw [if_pos (by rw [hc]; rfl), epilogue_of_notOk hres, outcome_ok] at he
    refine ⟨_, 0#8, 0#8, he, ?_, fun _ => ⟨rfl, rfl⟩, ?_, ?_, fun _ => (endCommand_phase _).symm,
      fun hn => absurd hc hn⟩
    · have hslots := overwrite_transferSlots s.mem.resp [] 0#8 0#8 0#8 0#8
      simp only [List.append_nil] at hslots
      rw [endCommand_mem, respPatch_mem, respPatch_mem]
      exact congrArg (fun l => { s.mem with resp := l }) hslots
    · constructor <;> simp [transferBegun]
    · simp [transferBegun]
  · have hn : count.toNat ≠ 0 := fun h0 => hc (BitVec.eq_of_toNat_eq h0)
    rw [if_neg hn, outcome_ok] at he
    exact ⟨_, 0#8, 0#8, he, rfl, fun h0 => absurd h0 hc, ⟨rfl, rfl, rfl, rfl, rfl, rfl, rfl, rfl⟩, rfl,
      fun h0 => absurd h0 hc, fun _ => ⟨rfl, rfl, rfl⟩⟩

end Sys2Proof.Machine
end

section
/-! The end of a Transfer after its last request (R242 to R244): the trailer reads RDBUFF or does not, and the slots take the
count and the last result. -/

namespace Sys2Proof.Machine

/-! ### The trailer's read -/

/-- The trailer's RDBUFF answered OK: its word is written where a read is outstanding. -/
theorem trailerRead_course {s : State} {v : Word} {cs : List Cycle} {rest : List Bool} (write : Bool)
    (h : Course s [⟨0x0e#8, 0#32, v⟩] none cs rest) (hf : write = true → Fits s 4) : ∃ t ir,
      trailerRead write s = .ok ackOk t ∧ Wired (grown s ((if write then [v] else []).flatMap bytes32)) t ir cs ∧
        queue t = rest := by
  obtain ⟨t, c, c', d, ht, hv, rfl, hw, hc⟩ := h.first
  obtain ⟨rfl, hq⟩ := hc.done
  obtain rfl : d = v := hv (by decide : (0x0e#8 : Byte).getLsbD 1 = true)
  have hread : trailerRead write s = if write then writeCollected (ackOk, d) t else .ok ackOk t := by
    rw [trailerRead, show Config.rdbuffRead = 0x0e#8 from rfl, ht, bind_ok]
  cases write with
  | true =>
    rw [if_pos rfl, writeCollected_ok (hw.fits (hf rfl))] at hread
    exact ⟨_, _, hread, by simpa using hw.grown (bytes32 d), hq⟩
  | false => exact ⟨_, _, hread, by simpa using hw, hq⟩

/-- The trailer's RDBUFF fails: no word is written. -/
theorem trailerRead_fails {s : State} {code : Byte} {cs : List Cycle} {rest : List Bool} (write : Bool)
    (h : Course s [] (some (0x0e#8, code)) cs rest) : ∃ t ir,
      trailerRead write s = .ok code t ∧ Wired s t ir cs ∧ queue t = rest := by
  obtain ⟨t, d, ht, hne, hw, hq⟩ := h.fails 0#32
  refine ⟨t, _, ?_, hw, hq⟩
  rw [trailerRead, show Config.rdbuffRead = 0x0e#8 from rfl, ht, bind_ok]
  split
  · exact writeCollected_ne hne
  · rfl

/-! ### After the last request -/

/-- `s` with a completed last request counted. -/
def lastCounted (s : State) : State :=
  { s with work := { s.work with lastAck := ackOk, completed := s.work.completed + 1#8, left := 0 } }

theorem course_lastCounted {s : State} {xs : List Access} {f : Option (Byte × Byte)} {cs : List Cycle} {rest : List Bool} :
    Course (lastCounted s) xs f cs rest ↔ Course s xs f cs rest := Course.congr rfl rfl rfl

/-- Whether a trailer is read is a matter of the port and the request's effect. -/
theorem trails_lastCounted {s u : State} {e : Effect} {ir : Option IrSel} {c : List Cycle}
    (hw : Wired (effected s e) u ir c) : Trails (lastCounted u) e ↔ Trails s e := by
  have hp : (lastCounted u).driver.port = s.driver.port := by
    show u.driver.port = _
    rw [hw.driver]; rfl
  unfold Trails
  rw [hp]

/-- The trailer after a completed request reads RDBUFF where the effect asks for it. -/
theorem trailer_lastCounted {s u : State} {e : Effect} {ir : Option IrSel} {c : List Cycle}
    (hw : Wired (effected s e) u ir c) (hp : u.driver.port = .swd ∨ u.driver.port = .jtag) :
    (Trails s e → trailer (lastCounted u) = trailerRead e.post (lastCounted u)) ∧
      (¬ Trails s e → trailer (lastCounted u) = .ok ackOk (lastCounted u)) := by
  have hu : u.work = { s.work with postRead := e.post, checkWrite := e.check, irCache := ir } := hw.work
  have hpost : (lastCounted u).work.postRead = e.post := by simp [lastCounted, hu]
  have hcheck : (lastCounted u).work.checkWrite = e.check := by simp [lastCounted, hu]
  rw [← trails_lastCounted hw]
  exact ⟨trailer_reads rfl hpost hcheck hp, trailer_none rfl hpost hcheck hp⟩

section
variable {body : State → Res Byte} {s u : State} {e : Effect} {ir : Option IrSel} {c c' : List Cycle} {rest : List Bool}
  (hd : s.work.draining = false) (hl : s.work.left = 1) (hb : body s = .ok ackOk u) (hw : Wired (effected s e) u ir c)
include hd hl hb hw

/-- A completed last request, when the trailer has ended with `code` and written the words `ws`. -/
theorem lastRequest_ends {t : State} {ws : List Word} {code : Byte} {ir' : Option IrSel}
    (ht : trailer (lastCounted u) = .ok code t) (hw' : Wired (grown (lastCounted u) (ws.flatMap bytes32)) t ir' c')
    (hq : queue t = rest) : ∃ v, runRequest body s = .next v ∧ v.driver = { s.driver with matchMask := e.mask } ∧
      TransferEnds s v (e.words ++ ws) (s.work.completed + 1#8) code (c ++ c') rest := by
  have hu : u.work = { s.work with postRead := e.post, checkWrite := e.check, irCache := ir } := hw.work
  have he : runRequest body s = (epilogue (lastCounted u)).outcome := by
    rw [runRequest_last hd hb (by rw [hu]; exact hl), if_pos rfl]; rfl
  have htw : t.work = { u.work with lastAck := ackOk, completed := u.work.completed + 1#8, left := 0, irCache := ir' } :=
    hw'.work
  obtain ⟨v, hv, hdr, hends⟩ := epilogue_ends (s := s) (ws := e.words ++ ws) (n := s.work.completed + 1#8) (cs := c ++ c') ht
    (by rw [hw'.mem, grown_mem, show (lastCounted u).mem = u.mem from rfl, hw.mem]
        simp [effected])
    (by rw [hw'.trace, show (grown (lastCounted u) (ws.flatMap bytes32)).trace = u.trace from rfl, hw.trace,
          ← List.append_assoc]; rfl)
    (by rw [hw'.batch]; exact hw.batch) (by rw [htw, hu]) (by rw [htw, hu]) (by rw [htw, hu]) hq
  exact ⟨v, he.trans hv, hdr.trans (hw'.driver.trans hw.driver), hends⟩

/-- Without a trailer the result is 1. -/
theorem lastRequest_plain (hn : ¬ Trails s e) (hc : Course u [] none c' rest) : ∃ v, runRequest body s = .next v ∧
    v.driver = { s.driver with matchMask := e.mask } ∧
      TransferEnds s v e.words (s.work.completed + 1#8) 1#8 (c ++ c') rest := by
  obtain ⟨rfl, hq⟩ := hc.done
  have ht := (trailer_lastCounted hw hc.port).2 hn
  have := lastRequest_ends hd hl hb hw (ws := []) ht (by simpa using Wired.self (lastCounted u)) hq
  rwa [List.append_nil] at this

/-- With a trailer answered OK the result is 1, and its word is written where a read is outstanding. -/
theorem lastRequest_trailed {v : Word} (hn : Trails s e) (hc : Course u [⟨0x0e#8, 0#32, v⟩] none c' rest)
    (hf : e.post = true → Fits u 4) : ∃ t, runRequest body s = .next t ∧
      t.driver = { s.driver with matchMask := e.mask } ∧
      TransferEnds s t (e.words ++ if e.post then [v] else []) (s.work.completed + 1#8) 1#8 (c ++ c') rest := by
  obtain ⟨t, ir', ht, hw', hq⟩ := trailerRead_course e.post (course_lastCounted.mpr hc) hf
  exact lastRequest_ends hd hl hb hw (((trailer_lastCounted hw hc.port).1 hn).trans ht) hw' hq

/-- With a trailer that fails the result is its code, and no word is written. -/
theorem lastRequest_trailerFails {code : Byte} (hn : Trails s e) (hc : Course u [] (some (0x0e#8, code)) c' rest) :
    ∃ t, runRequest body s = .next t ∧ t.driver = { s.driver with matchMask := e.mask } ∧
      TransferEnds s t e.words (s.work.completed + 1#8) code (c ++ c') rest := by
  obtain ⟨t, ir', ht, hw', hq⟩ := trailerRead_fails e.post (course_lastCounted.mpr hc)
  have := lastRequest_ends hd hl hb hw (ws := []) (((trailer_lastCounted hw hc.port).1 hn).trans ht)
    (by simpa using hw') hq
  rwa [List.append_nil] at this

end

/-! ### A completing request as the last one -/

section
variable {s : State} {i : Instr} {e : Effect} {cs : List Cycle} {rest : List Bool} (h : Completes s i e)
  (hd : s.work.draining = false) (hl : s.work.left = 1)
include h hd hl

theorem completes_plain (hf : Fits s (4 * e.words.length)) (hn : ¬ Trails s e) (ha : Answers s e.accesses cs rest) :
    ∃ t, exec i s = .next t ∧ t.driver = { s.driver with matchMask := e.mask } ∧
      TransferEnds s t e.words (s.work.completed + 1#8) 1#8 cs rest := by
  obtain ⟨body, u, ir, c, c', he, hb, rfl, hw, hc⟩ := h.body (ys := []) (f := none) (by simpa [Course] using ha) hf
  rw [he]
  exact lastRequest_plain hd hl hb hw hn hc

theorem completes_trailed {v : Word} (hf : Fits s (4 * e.words.length + 4)) (hn : Trails s e)
    (ha : Answers s (e.accesses ++ [⟨0x0e#8, 0#32, v⟩]) cs rest) :
    ∃ t, exec i s = .next t ∧ t.driver = { s.driver with matchMask := e.mask } ∧
      TransferEnds s t (e.words ++ if e.post then [v] else []) (s.work.completed + 1#8) 1#8 cs rest := by
  have hw0 : Fits s (4 * e.words.length) := Nat.le_trans (Nat.le_add_right _ 4) hf
  obtain ⟨body, u, ir, c, c', he, hb, rfl, hw, hc⟩ := h.body (f := none) ha hw0
  rw [he]
  refine lastRequest_trailed hd hl hb hw hn hc fun _ => hw.fits ?_
  unfold Fits effected at *
  simp only [List.length_append, flatMap_bytes32_length]
  omega

theorem completes_trailerFails {code : Byte} (hf : Fits s (4 * e.words.length)) (hn : Trails s e)
    (ha : AnswersThenFails s e.accesses 0x0e#8 code cs rest) :
    ∃ t, exec i s = .next t ∧ t.driver = { s.driver with matchMask := e.mask } ∧
      TransferEnds s t e.words (s.work.completed + 1#8) code cs rest := by
  obtain ⟨body, u, ir, c, c', he, hb, rfl, hw, hc⟩ := h.body (ys := []) (f := some (0x0e#8, code))
    (by simpa [Course] using ha) hf
  rw [he]
  exact lastRequest_trailerFails hd hl hb hw hn hc

end

/-! ### A response that starts at offset 0 -/

/-- The response of a Transfer that is the request's first command, and where the command leaves the loop. -/
theorem TransferEnds.atStart {s t : State} {ws : List Word} {n code x y : Byte} {cs : List Cycle} {rest : List Bool}
    (h : TransferEnds s t ws n code cs rest) (h1 : s.work.slotCompleted = 1) (h2 : s.work.slotAck = 2)
    (hr : s.mem.resp = [0x05#8, x, y]) (hb : s.batch = none) :
    t.mem.resp = [0x05#8, n, code] ++ ws.flatMap bytes32 ∧ t.phase = .respond := by
  refine ⟨?_, h.phase hb⟩
  rw [h.mem, h1, h2, hr]
  exact overwrite_transferSlots [] (ws.flatMap bytes32) x y n code

/-! ### RDBUFF on SWD with any parity bit -/

theorem swdAnswersOf_append (xs ys : List Access) : swdAnswersOf (xs ++ ys) = swdAnswersOf xs ++ swdAnswersOf ys :=
  List.flatMap_append

theorem swdRecordsOf_append (d : Driver) (xs ys : List Access) :
    swdRecordsOf d (xs ++ ys) = swdRecordsOf d xs ++ swdRecordsOf d ys := List.flatMap_append

theorem swdFails_of_refuses {d : Driver} {req code : Byte} {ans : List Bool} {cs : List Cycle}
    (h : SwdRefuses d req ans cs code) (hc : code ≠ 2#8) (n : Nat) : SwdFails d req n ans cs code := by
  cases n with
  | zero => exact h
  | succ n => exact .inl ⟨h, hc⟩

/-- Transfers answered OK on SWD and then an RDBUFF read with parity bit `p`: it is answered OK, or it fails with 8. -/
theorem course_rdbuffParity {s : State} {xs : List Access} {v : Word} {p : Bool} {rest : List Bool}
    (hp : s.driver.port = .swd) (hd : s.input.dirFail = none)
    (hq : s.input.swdio = swdAnswersOf xs ++ swdReadAnswer v p ++ rest) :
    (p = dataParity v → Course s (xs ++ [⟨0x0e#8, 0#32, v⟩]) none
      (swdRecordsOf s.driver xs ++ readPacket s.driver 0x0e#8 v p) rest) ∧
    (p ≠ dataParity v → Course s xs (some (0x0e#8, 0x08#8))
      (swdRecordsOf s.driver xs ++ readPacket s.driver 0x0e#8 v p) rest) := by
  have hr : (0x0e#8 : Byte).getLsbD 1 = true := by decide
  refine ⟨?_, fun hne => ?_⟩
  · rintro rfl
    simp only [Course, Answers, hp]
    refine ⟨hd, ?_, ?_⟩
    · rw [hq, swdAnswersOf_append, swdAnswersOf_cons, if_pos hr]
      simp [swdAnswersOf, swdOkRead]
    · rw [swdRecordsOf_append, swdRecordsOf_one, if_pos hr]
  · simp only [Course, AnswersThenFails, hp]
    exact ⟨hd, _, _, swdFails_of_refuses (.inr (.inr ⟨hr, v, p, hne, rfl, rfl, rfl⟩)) (by decide) _, hq, rfl⟩

/-! ### Writes and MatchMask writes with no read outstanding -/

/-- A write on SWD with no read outstanding: it writes nothing to the response. -/
theorem writeRequest_alone {s : State} {req : Byte} {w v : Word} {ys : List Access} {f : Option (Byte × Byte)}
    {cs : List Cycle} {rest : List Bool} (hp : s.driver.port = .swd) (hpost : s.work.postRead = false)
    (h : Course s (⟨req, w, v⟩ :: ys) f cs rest) : ∃ u ir c c', writeRequest req w s = .ok ackOk u ∧ cs = c ++ c' ∧
      Wired (effected s ⟨[], [], false, true, s.driver.matchMask⟩) u ir c ∧ Course u ys f c' rest := by
  obtain ⟨t, c, c', d, ht, -, hcs, hw, hc⟩ := h.first
  refine ⟨setCheckWrite true t, irMove s req, c, c', ?_, hcs, ?_, (Course.congr rfl rfl rfl).mpr hc⟩
  · have htp : t.driver.port = .swd := by rw [hw.driver]; exact hp
    rw [writeRequest, collectForWrite, if_neg (by rw [hpost]; decide), bind_ok, onOk_ok, ht, bind_ok, onOk_ok, if_pos htp]
  · have := hw.setCheckWrite true
    convert this using 1
    simp [effected, setCheckWrite, hpost]

/-- A last write on SWD, checked through RDBUFF, whose result is that of RDBUFF's parity. -/
theorem lastWrite_checked {s : State} {req : Byte} {w v : Word} {p : Bool} {rest : List Bool} (hr : req.getLsbD 1 = false)
    (hp : s.driver.port = .swd) (hdir : s.input.dirFail = none) (hd : s.work.draining = false)
    (hpost : s.work.postRead = false) (hl : s.work.left = 1)
    (hq : s.input.swdio = swdOkWrite ++ swdReadAnswer v p ++ rest) :
    ∃ t, runRequest (writeRequest req w) s = .next t ∧ t.driver = s.driver ∧
      TransferEnds s t [] (s.work.completed + 1#8) (if p = dataParity v then 1#8 else 0x08#8)
        (writePacket s.driver req w ++ readPacket s.driver 0x0e#8 v p) rest := by
  have hr' : ¬ req.getLsbD 1 = true := by rw [hr]; decide
  obtain ⟨hok, hbad⟩ := course_rdbuffParity (xs := [⟨req, w, 0#32⟩]) (v := v) (p := p) (rest := rest) hp hdir
    (by rw [hq, swdAnswersOf_cons, if_neg hr']; simp [swdAnswersOf])
  rw [swdRecordsOf_one, if_neg hr'] at hok hbad
  by_cases hpar : p = dataParity v
  · obtain ⟨u, ir, c, c', hbody, hcs, hw, hc⟩ := writeRequest_alone hp hpost (hok hpar)
    rw [if_pos hpar, hcs]
    exact lastRequest_trailed hd hl hbody hw (.inr (.inr rfl)) hc (fun h => by cases h)
  · obtain ⟨u, ir, c, c', hbody, hcs, hw, hc⟩ := writeRequest_alone hp hpost (hbad hpar)
    rw [if_neg hpar, hcs]
    exact lastRequest_trailerFails hd hl hbody hw (.inr (.inr rfl)) hc

/-- A MatchMask write with no read outstanding touches the mask alone. -/
theorem maskRequest_alone {s : State} (m : Word) (hpost : s.work.postRead = false) :
    maskRequest m s = .ok ackOk (effected s ⟨[], [], false, s.work.checkWrite, m⟩) := by
  rw [maskRequest, collectForWrite, if_neg (by rw [hpost]; decide), bind_ok, onOk_ok]
  simp [effected, ← hpost]

/-- A read request carries no word. -/
theorem plainRequest_readWord {i : Instr} {req : Byte} {w : Word} (hi : plainRequest i = some (req, w))
    (hr : req.getLsbD 1 = true) : w = 0#32 := by
  have bit (ap : Bool) (a : RegAddr) : (portRequest ap false a).getLsbD 1 = false := by revert ap a; decide
  rcases plainRequest_cases hi with ⟨-, -, -, hw, -⟩ | ⟨ap, a, rfl, -⟩
  · exact hw
  · rw [bit] at hr; cases hr

/-- A plain request on JTAG with no read outstanding: its own transfer, which leaves a read outstanding. -/
theorem plainRequest_completes {s : State} {i : Instr} {req : Byte} {w : Word} (hi : plainRequest i = some (req, w))
    (hp : s.driver.port = .jtag) (hpost : s.work.postRead = false) (v : Word) : ∃ check,
      Completes s i ⟨[⟨req, w, v⟩], [], req.getLsbD 1, check, s.driver.matchMask⟩ := by
  have hreads : collectReads s 0#32 = [] := by rw [collectReads, if_neg (by rw [hpost]; decide)]
  have hwords : collectWords s 0#32 = [] := by rw [collectWords, if_neg (by rw [hpost]; decide)]
  cases hr : req.getLsbD 1 with
  | true =>
    obtain rfl : w = 0#32 := plainRequest_readWord hi hr
    have hc := Completes.posted (s := s) i req 0#32 v hi hr (.inl hp) (by simp [hpost])
    rw [hreads, hwords] at hc
    exact ⟨_, hc⟩
  | false =>
    have hc := Completes.written (s := s) i req w 0#32 v hi hr
    rw [hreads, hwords] at hc
    exact ⟨_, hc⟩

/-- Settles O51: the last request's effect (`Completes.body`) and then the trailer, which reads RDBUFF or not (`Trails`); the
first clauses are instances. -/
theorem trailerCollects : Obligations.TrailerCollects := by
  refine ⟨?_, ?_, ?_, ?_, ?_⟩
  · intro s a v0 v x y rest hp hdir hd hpost hl h1 h2 hr hcap hb hq
    have hbits : (0x03#8 ||| (a.zeroExtend 8 <<< 2)).getLsbD 1 = true ∧
        (0x03#8 ||| (a.zeroExtend 8 <<< 2)).getLsbD 0 = true := by clear * -; revert a; decide
    have hc : Completes s (.apR a) _ := .posted _ _ 0#32 v0 rfl hbits.1 (.inr hbits.2) (by simp [hpost])
    simp only [collectReads, collectWords, hpost, Bool.false_eq_true, if_false, List.nil_append] at hc
    have ha := (course_rdbuffParity (xs := [⟨0x03#8 ||| (a.zeroExtend 8 <<< 2), 0#32, v0⟩]) (v := v) (rest := rest) hp hdir
      (by rw [hq, swdAnswersOf_cons, if_pos hbits.1]; simp [swdAnswersOf, swdOkRead])).1 rfl
    obtain ⟨t, he, hdr, ht⟩ := completes_trailed hc hd hl (by simp [Fits, hr]; omega) (.inr (.inl rfl)) ha
    obtain ⟨hresp, hphase⟩ := ht.atStart h1 h2 hr hb
    refine ⟨t, he, by simpa using hresp, ?_, hphase, ht.work, hdr, ?_⟩
    · rw [ht.trace, swdRecordsOf_one, if_pos hbits.1, List.append_assoc]
    · simpa [queue, hdr, hp] using ht.left
  · intro s a w v p x y rest hp hdir hd hpost hl h1 h2 hr hb hq
    have hbit : (a.zeroExtend 8 <<< 2 : Byte).getLsbD 1 = false := by clear * -; revert a; decide
    have he := plainRequest_write (i := .dpW a w) rfl hbit s
    obtain ⟨t, ht, hdr, hends⟩ := lastWrite_checked (w := w) hbit hp hdir hd hpost hl hq
    obtain ⟨hresp, hphase⟩ := hends.atStart h1 h2 hr hb
    refine ⟨t, he.trans ht, by simpa using hresp, by rw [hends.trace, List.append_assoc], hphase, hdr, ?_⟩
    simpa [queue, hdr, hp] using hends.left
  · intro s i req x y w v0 v ans rest xs hi hp hidx hd hpost hl h1 h2 hr hcap hb hxs hans hq
    subst hxs
    have ha : Answers s ([⟨req, w, v0⟩] ++ [⟨0x0e#8, 0#32, v⟩])
        (jtagRecords (jtagLinesOf s.driver s.work.irCache [⟨req, w, v0⟩, ⟨0x0e#8, 0#32, v⟩]) ans s.driver.halfDelay)
        rest := by
      simp only [Answers, hp]
      exact ⟨hidx, ans, hans, hq, rfl⟩
    obtain ⟨check, hc⟩ := plainRequest_completes hi hp hpost v0
    obtain ⟨t, he, hdr, ht⟩ := completes_trailed hc hd hl (by simp [Fits, hr]; omega) (.inl hp) ha
    obtain ⟨hresp, hphase⟩ := ht.atStart h1 h2 hr hb
    refine ⟨t, he, ?_, ht.trace, hphase, ht.work, hdr, ?_⟩
    · rw [hresp]
      cases req.getLsbD 1 <;> simp
    · simpa [queue, hdr, hp] using ht.left
  · intro s m v x y ans rest xs hp hidx hd hpost hl h1 h2 hr hb hxs hans hq
    subst hxs
    have ha : Course s [⟨0x0e#8, 0#32, v⟩] none
        (jtagRecords (jtagLinesOf s.driver s.work.irCache [⟨0x0e#8, 0#32, v⟩]) ans s.driver.halfDelay) rest := by
      simp only [Course, Answers, hp]
      exact ⟨hidx, ans, hans, hq, rfl⟩
    obtain ⟨t, he, hdr, ht⟩ := lastRequest_trailed hd hl (maskRequest_alone m hpost) (Wired.self _) (.inl hp)
      ((Course.congr rfl rfl rfl).mpr (ha.withMask m)) (fun h => by cases h)
    obtain ⟨hresp, hphase⟩ := ht.atStart h1 h2 hr hb
    refine ⟨t, he, by simpa using hresp, by simpa using ht.trace, hphase, ht.work, hdr, ?_⟩
    simpa [queue, hdr, hp] using ht.left
  · intro s i e v code cs rest h hd hl hf
    have hw : Fits s (4 * e.words.length) := Nat.le_trans (Nat.le_add_right _ 4) hf
    exact ⟨completes_plain h hd hl hw, completes_trailed h hd hl hf, completes_trailerFails h hd hl hw⟩

end Sys2Proof.Machine
end

section
/-! A write block as a whole (R260, R261): answered OK, failing at a write or at RDBUFF, and cut short where the request's
bytes run out. -/

namespace Sys2Proof.Machine

/-! ### A packet leaves the line parked (R200) -/

theorem transferRetry_parks {s : State} (hp : s.driver.port = .swd) (req : Byte) (w : Word) :
    (transferRetry req w s).Ends Parked := by
  suffices h : ∀ n, (retryLoop req w n s).Ends Parked from h _
  intro n
  induction n generalizing s with
  | zero =>
    rw [retryLoop, transfer_swd hp]
    exact Ends_mono (swdPacket_moves req w s) fun _ h => h.2
  | succ n ih =>
    rw [retryLoop, transfer_swd hp]
    refine Ends_bind (swdPacket_moves req w s) (fun _ _ _ h => h.2) fun r t _ ⟨hm, hpark⟩ => ?_
    split
    · exact ih (by rw [hm.frame.driver]; exact hp)
    · exact hpark

theorem reqSkip4_pins (n : Nat) (s : State) : (reqSkip4 n s).Ends fun t => t.pins = s.pins := by
  induction n generalizing s with
  | zero => rfl
  | succ n ih =>
    rw [reqSkip4]
    rcases reqRead_cases 4 s with ⟨-, h⟩ | ⟨-, h⟩ <;> rw [h]
    · exact ih _
    · rfl

/-- The writes of a block that end with a result end with a packet. -/
theorem blockWriteLoop_parks {req : Byte} {n : Nat} {c : Half} {s t : State} {r : Byte × Half}
    (hp : s.driver.port = .swd) (h : blockWriteLoop req n c s = .ok r t) : Parked t := by
  induction n generalizing c s with
  | zero =>
    obtain ⟨x, u, hx, hu⟩ := bind_eq_ok.mp h
    cases hu
    have hpark := transferRetry_parks hp Config.rdbuffRead 0#32
    rwa [hx] at hpark
  | succ n ih =>
    obtain ⟨w, s1, h1, h⟩ := bind_eq_ok.mp h
    obtain ⟨x, u, hx, h⟩ := bind_eq_ok.mp h
    have hread : (reqRead4 s).Ends (EngineMove s) := engine_bind (reqRead_engine 4 s) fun _ v _ => .refl v
    rw [h1] at hread
    have hp1 : s1.driver.port = .swd := hread.port.trans hp
    have hpark := transferRetry_parks hp1 req w
    have hmove := retry_engine req w s1
    rw [hx] at hpark hmove
    split at h
    · exact ih (hmove.port.trans hp1) h
    · obtain ⟨_, v, hv, he⟩ := bind_eq_ok.mp h
      cases he
      have hpins := reqSkip4_pins n u
      rw [hv] at hpins
      unfold Parked
      rw [show t.pins = u.pins from hpins]
      exact hpark

/-! ### The request byte and the block's state -/

/-- TB_WRITE is the block of a write request byte. -/
theorem exec_tbWrite {ap : Bool} {a : RegAddr} {req : Byte}
    (h : req = (if ap then 1#8 else 0#8) ||| (a.zeroExtend 8 <<< 2)) :
    req.getLsbD 1 = false ∧ ∀ s, exec (.tbWrite ap a) s = runBlock req s := by
  have hreq : (if ap then 1#8 else 0#8) ||| (a.zeroExtend 8 <<< 2) = portRequest ap false a := by
    clear h; revert ap a; decide
  rw [h, hreq]
  exact ⟨by clear h hreq; revert ap a; decide, fun _ => rfl⟩

theorem atBlock_swd {s : State} (hp : s.driver.port = .swd) : (atBlock s).driver = s.driver := by
  unfold atBlock; rw [if_neg (by rw [hp]; decide)]

theorem atBlock_jtag {s : State} (hp : s.driver.port = .jtag) :
    (atBlock s).driver = { s.driver with index := s.work.blockIndex } := by
  unfold atBlock; rw [if_pos hp]

theorem blockReady_pending (s : State) : (blockReady s).mem.req.drop (blockReady s).mem.rd = pending s := by
  rw [blockReady_mem]; rfl

/-! ### A block that ends with a response -/

/-- A write block has ended with its response: `n` bytes of the request read, the slots hold `c` and `code`; `cs` are the
records it left since `s`. -/
structure WriteBlockEnds (s t : State) (n : Nat) (c : Half) (code : Byte) (cs : List Cycle) (rest : List Bool) : Prop where
  mem : t.mem = { s.mem with rd := s.mem.rd + n, resp := s.mem.resp ++ [0x06#8] ++ bytes16 c ++ [code] }
  trace : t.trace = s.trace ++ cs
  work : t.work = Work.initial
  phase : s.batch = none → t.phase = .respond
  driver : t.driver = (atBlock s).driver
  left : queue t = rest
  parked : s.driver.port = .swd → Parked t

/-- What is queued on SWD after a block. -/
theorem WriteBlockEnds.swdio {s t : State} {n : Nat} {c : Half} {code : Byte} {cs : List Cycle} {rest : List Bool}
    (h : WriteBlockEnds s t n c code cs rest) (hp : s.driver.port = .swd) : t.input.swdio = rest := by
  have hq := h.left
  unfold queue at hq
  rwa [h.driver, atBlock_port, if_neg (by rw [hp]; decide)] at hq

section
variable {s : State} {req code : Byte} {cs : List Cycle} {rest : List Bool} {ws : List (Word × Word)} {more : List Byte}
  (hr : req.getLsbD 1 = false) (hf : Fits s 4)
include hr hf

/-- A block whose writes have ended with a result. -/
theorem writeBlock_ends {u : State} {ir : Option IrSel} {n : Nat} {c : Half}
    (hp : preconditionFails s.work.blockIndex s.driver = false) (hn : s.work.blockCount ≠ 0#16)
    (hb : blockWriteLoop req s.work.blockCount.toNat 0#16 (blockReady s) = .ok (code, c) u)
    (hw : Wired (skipped (blockReady s) n) u ir cs) (hq : queue u = rest) :
    ∃ t, runBlock req s = .next t ∧ WriteBlockEnds s t n c code cs rest := by
  have hbody : blockBody req (blockStart s) = .ok (code, c) u := by
    rw [blockBody_ready hp hn, if_neg (by rw [show reqRnW req = false from hr]; decide), hb]
  obtain ⟨t, ht, hmem, htrace, hwork, hphase, hdriver, hleft⟩ := runBlock_done (m := []) hf hbody
    (by rw [grown_nil]; exact hw) hq
  obtain ⟨t', ht', -, hquiet, -⟩ := runBlock_of_body (m := []) hf hbody (by rw [hw.mem]; simp)
  obtain rfl : t = t' := by rw [ht] at ht'; injection ht'
  refine ⟨t, ht, by simpa using hmem, htrace, hwork, hphase, hdriver, hleft, fun hswd => ?_⟩
  unfold Parked
  rw [hquiet.pins]
  exact blockWriteLoop_parks (by rw [blockReady_driver, atBlock_port]; exact hswd) hb

/-- A block whose writes have ended in a FramingError. -/
theorem writeBlock_framing {u : State} {ir : Option IrSel} {n : Nat} {e : FramingError}
    (hp : preconditionFails s.work.blockIndex s.driver = false) (hn : s.work.blockCount ≠ 0#16)
    (hb : blockWriteLoop req s.work.blockCount.toNat 0#16 (blockReady s) = .framing e u)
    (hw : Wired (skipped (blockReady s) n) u ir cs) (hq : queue u = rest) :
    ∃ t, runBlock req s = .next t ∧ (if s.driver.port = .jtag then t.input.tdo else t.input.swdio) = rest ∧
      FramingEnds s t e (atBlock s).driver cs :=
  runBlock_framing hf (by rw [blockBody_ready hp hn, if_neg (by rw [show reqRnW req = false from hr]; decide), hb]) hw hq

omit hr hf in
/-- A block that has words has a count. -/
theorem blockCount_ne {n : Nat} (h : n < s.work.blockCount.toNat) : s.work.blockCount ≠ 0#16 := fun h0 => by
  rw [h0] at h
  exact Nat.not_lt_zero n h

omit hr hf in
/-- The words answered OK, with the rest of the block and of the course to come. -/
theorem writeBlock_course {k : Nat} {xs : List Access} {f : Option (Byte × Byte)}
    (h : Course (atBlock s) ((ws.map fun x => ⟨req, x.1, x.2⟩) ++ xs) f cs rest)
    (hm : pending s = (ws.map Prod.fst).flatMap bytes32 ++ more) (hc : ws.length + k = s.work.blockCount.toNat) :
    ∃ t ir d cs', blockWriteLoop req s.work.blockCount.toNat 0#16 (blockReady s) =
        blockWriteLoop req k (BitVec.ofNat 16 ws.length) t ∧ cs = d ++ cs' ∧
      Wired (skipped (blockReady s) (4 * ws.length)) t ir d ∧ t.mem.req.drop t.mem.rd = more ∧ Course t xs f cs' rest := by
  obtain ⟨t, ir, d, cs', hb, hrest⟩ := blockWriteLoop_course (k := k) (blockReady s) 0#16 (course_blockReady.mpr h)
    ((blockReady_pending s).trans hm)
  rw [hc, BitVec.zero_add] at hb
  exact ⟨t, ir, d, cs', hb, hrest⟩

/-- All words and RDBUFF answered OK. -/
theorem writeBlock_ok {v : Word} (hne : ws ≠ []) (hc : ws.length = s.work.blockCount.toNat)
    (hm : pending s = (ws.map Prod.fst).flatMap bytes32 ++ more)
    (h : Course (atBlock s) ((ws.map fun x => ⟨req, x.1, x.2⟩) ++ [⟨0x0e#8, 0#32, v⟩]) none cs rest) :
    ∃ t, runBlock req s = .next t ∧ WriteBlockEnds s t (4 * ws.length) s.work.blockCount 1#8 cs rest := by
  obtain ⟨t, ir, d, cs', hb, rfl, hw, -, hcourse⟩ := writeBlock_course (k := 0) h hm hc
  obtain ⟨u, c, c', x, hx, -, rfl, hwu, hdone⟩ := hcourse.first
  obtain ⟨rfl, hq⟩ := hdone.done
  refine writeBlock_ends hr hf h.precondition (blockCount_ne (hc ▸ List.length_pos_of_ne_nil hne)) (u := u) ?_
    (by simpa using hw.trans hwu) hq
  rw [hb, blockWriteLoop, show Config.rdbuffRead = 0x0e#8 from rfl, hx, hc, BitVec.ofNat_toNat, BitVec.setWidth_eq]
  rfl

/-- All words answered OK, and RDBUFF fails. -/
theorem writeBlock_rdbuffFails (hne : ws ≠ []) (hc : ws.length = s.work.blockCount.toNat)
    (hm : pending s = (ws.map Prod.fst).flatMap bytes32 ++ more)
    (h : Course (atBlock s) (ws.map fun x => ⟨req, x.1, x.2⟩) (some (0x0e#8, code)) cs rest) :
    ∃ t, runBlock req s = .next t ∧ WriteBlockEnds s t (4 * ws.length) s.work.blockCount code cs rest := by
  obtain ⟨t, ir, d, cs', hb, rfl, hw, -, hcourse⟩ := writeBlock_course (k := 0) (by rwa [List.append_nil]) hm hc
  obtain ⟨u, ir', hu, hwu, hq⟩ := blockWriteLoop_rdbuffFails (req := req) (c := BitVec.ofNat 16 ws.length) hcourse
  refine writeBlock_ends hr hf h.precondition (blockCount_ne (hc ▸ List.length_pos_of_ne_nil hne)) (u := u) ?_
    (hw.trans hwu) hq
  rw [hb, hu, hc, BitVec.ofNat_toNat, BitVec.setWidth_eq]

section
variable {w : Word} {ss : List Word}
  (h : Course (atBlock s) (ws.map fun x => ⟨req, x.1, x.2⟩) (some (req, code)) cs rest)
  (hm : pending s = (ws.map Prod.fst ++ [w] ++ ss).flatMap bytes32 ++ more)
include h hm

omit hr hf in
/-- Up to the write that fails, with `k` words after it to be skipped. -/
theorem writeBlock_toFailure {k : Nat} (hc : ws.length + 1 + k = s.work.blockCount.toNat) : ∃ t ir,
    blockWriteLoop req s.work.blockCount.toNat 0#16 (blockReady s) =
      (reqSkip4 k t).bind (fun _ u => .ok (code, BitVec.ofNat 16 ws.length) u) ∧
    Wired (skipped (blockReady s) (4 * (ws.length + 1))) t ir cs ∧
    t.mem.req.drop t.mem.rd = ss.flatMap bytes32 ++ more ∧ queue t = rest := by
  obtain ⟨t, ir, d, cs', hb, rfl, hw, hleft, hcourse⟩ := writeBlock_course (k := k + 1) (f := some (req, code))
    (more := bytes32 w ++ (ss.flatMap bytes32 ++ more)) (by rwa [List.append_nil]) (by simpa using hm) (by omega)
  obtain ⟨u, ir', hu, hwu, hdrop, hq⟩ := blockWriteLoop_stops (n := k) (c := BitVec.ofNat 16 ws.length) hcourse hleft
  exact ⟨u, ir', hb.trans hu, by simpa [Nat.mul_add] using (hw.skipped 4).trans hwu, hdrop, hq⟩

/-- A write fails, and the words after it are skipped. -/
theorem writeBlock_fails (hc : ws.length + 1 + ss.length = s.work.blockCount.toNat) :
    ∃ t, runBlock req s = .next t ∧
      WriteBlockEnds s t (4 * s.work.blockCount.toNat) (BitVec.ofNat 16 ws.length) code cs rest := by
  obtain ⟨t, ir, hb, hw, hdrop, hq⟩ := writeBlock_toFailure h hm hc
  have hroom : t.mem.rd + 4 * ss.length ≤ t.mem.req.length := by
    have hl := congrArg List.length hdrop
    have hrd : t.mem.rd ≤ t.mem.req.length := by
      have hp := congrArg List.length ((blockReady_pending s).trans hm)
      rw [hw.mem, skipped_mem]
      simp only [List.length_drop, List.length_append, flatMap_bytes32_length, List.length_map, List.length_singleton] at hp ⊢
      omega
    simp only [List.length_drop, List.length_append, flatMap_bytes32_length] at hl
    omega
  rw [reqSkip4_ok _ _ hroom, bind_ok] at hb
  have hws := hw.skipped (4 * ss.length)
  rw [skipped_skipped, ← Nat.mul_add, hc] at hws
  exact writeBlock_ends hr hf h.precondition (blockCount_ne (n := ws.length) (by omega)) hb hws hq

/-- A write fails, and a word to be skipped is not there. -/
theorem writeBlock_skipsShort (hc : ws.length + 1 + ss.length < s.work.blockCount.toNat) (hmore : more.length < 4) :
    ∃ t, runBlock req s = .next t ∧ (if s.driver.port = .jtag then t.input.tdo else t.input.swdio) = rest ∧
      FramingEnds s t ⟨s.mem.rd + 4 * (ws.length + 1 + ss.length), 4⟩ (atBlock s).driver cs := by
  obtain ⟨k, hk⟩ := Nat.exists_eq_add_of_lt hc
  obtain ⟨t, ir, hb, hw, hdrop, hq⟩ := writeBlock_toFailure h hm (k := ss.length + k + 1) (by omega)
  have hrd : t.mem.rd + 4 * ss.length = s.mem.rd + 4 * (ws.length + 1 + ss.length) := by
    rw [hw.mem, skipped_mem, blockReady_mem, Nat.mul_add 4 (ws.length + 1), ← Nat.add_assoc]; rfl
  rw [reqSkip4_short t hdrop hmore (by omega), bind_framing, hrd] at hb
  have hws := hw.skipped (4 * ss.length)
  rw [skipped_skipped] at hws
  exact writeBlock_framing hr hf h.precondition (blockCount_ne hc) hb hws hq

end

/-- A word to be written is not there. -/
theorem writeBlock_short (hc : ws.length < s.work.blockCount.toNat) (hmore : more.length < 4)
    (hm : pending s = (ws.map Prod.fst).flatMap bytes32 ++ more)
    (h : Course (atBlock s) (ws.map fun x => ⟨req, x.1, x.2⟩) none cs rest) :
    ∃ t, runBlock req s = .next t ∧ (if s.driver.port = .jtag then t.input.tdo else t.input.swdio) = rest ∧
      FramingEnds s t ⟨s.mem.rd + 4 * ws.length, 4⟩ (atBlock s).driver cs := by
  obtain ⟨k, hk⟩ := Nat.exists_eq_add_of_lt hc
  obtain ⟨t, ir, d, cs', hb, rfl, hw, hdrop, hcourse⟩ := writeBlock_course (k := k + 1) (by rwa [List.append_nil]) hm
    (by omega)
  obtain ⟨rfl, hq⟩ := hcourse.done
  have hshort : t.mem.req.length < t.mem.rd + 4 := by
    have hl := congrArg List.length hdrop
    rw [List.length_drop] at hl
    omega
  have hrd : t.mem.rd = s.mem.rd + 4 * ws.length := by rw [hw.mem, skipped_mem, blockReady_mem]; rfl
  rw [blockWriteLoop_short hshort, hrd] at hb
  exact writeBlock_framing hr hf h.precondition (blockCount_ne hc) hb (by simpa using hw) hq

/-- The precondition fails, and a word to be skipped is not there. -/
theorem writeBlock_drainsShort {ss : List Word} (hp : preconditionFails s.work.blockIndex s.driver = true)
    (hc : ss.length < s.work.blockCount.toNat) (hm : pending s = ss.flatMap bytes32 ++ more) (hmore : more.length < 4) :
    ∃ t, runBlock req s = .next t ∧ FramingEnds s t ⟨s.mem.rd + 4 * ss.length, 4⟩ s.driver [] := by
  have hbody : blockBody req (blockStart s) =
      .framing ⟨s.mem.rd + 4 * ss.length, 4⟩ (skipped (blockStart s) (4 * ss.length)) := by
    rw [blockBody, if_pos (show preconditionFails (blockStart s).work.blockIndex (blockStart s).driver = true from hp),
      blockDrain, if_neg (by rw [show reqRnW req = false from hr]; decide),
      reqSkip4_short (n := (blockStart s).work.blockCount.toNat) (blockStart s) hm hmore hc, bind_framing]
    rfl
  exact ⟨_, runBlock_of_framing hf hbody, (framingEnds_of rfl rfl (List.append_nil _).symm).1⟩

end

/-! ### Words written on SWD -/

/-- Words to be written on SWD; the answer of a write is free. -/
def swdWrites (ws : List Word) : List (Word × Word) := ws.map fun w => (w, 0#32)

@[simp] theorem swdWrites_length (ws : List Word) : (swdWrites ws).length = ws.length := List.length_map _

@[simp] theorem swdWrites_fst (ws : List Word) : (swdWrites ws).map Prod.fst = ws := by simp [swdWrites, Function.comp_def]

theorem swdWrites_ne {ws : List Word} (h : ws ≠ []) : swdWrites ws ≠ [] := by simpa [swdWrites] using h

section
variable {req : Byte} (hr : req.getLsbD 1 = false) (ws : List Word)
include hr

theorem swdAnswersOf_writes :
    swdAnswersOf ((swdWrites ws).map fun x => ⟨req, x.1, x.2⟩) = ws.flatMap fun _ => swdOkWrite := by
  simp only [swdAnswersOf, swdWrites, List.flatMap_map, hr, Bool.false_eq_true, if_false]

theorem swdRecordsOf_writes (d : Driver) :
    swdRecordsOf d ((swdWrites ws).map fun x => ⟨req, x.1, x.2⟩) = ws.flatMap fun w => writePacket d req w := by
  simp only [swdRecordsOf, swdWrites, List.flatMap_map, hr, Bool.false_eq_true, if_false]

/-- The words answered OK on SWD, and then a transfer that fails. -/
theorem course_swdWrites {s : State} {next code : Byte} {bad rest : List Bool} {cs : List Cycle}
    (hp : s.driver.port = .swd) (hd : s.input.dirFail = none)
    (hbad : SwdFails s.driver next s.driver.waitRetry.toNat bad cs code)
    (hq : s.input.swdio = (ws.flatMap fun _ => swdOkWrite) ++ bad ++ rest) :
    Course (atBlock s) ((swdWrites ws).map fun x => ⟨req, x.1, x.2⟩) (some (next, code))
      ((ws.flatMap fun w => writePacket s.driver req w) ++ cs) rest := by
  simp only [Course, AnswersThenFails, atBlock_swd hp, hp, swdAnswersOf_writes hr, swdRecordsOf_writes hr]
  exact ⟨hd, bad, cs, hbad, hq, rfl⟩

/-- All words answered OK on SWD, and RDBUFF with any parity bit. -/
theorem writeBlock_swd {s : State} {v : Word} {p : Bool} {more : List Byte} {rest : List Bool} {ws : List Word}
    (hf : Fits s 4) (hp : s.driver.port = .swd) (hd : s.input.dirFail = none) (hne : ws ≠ [])
    (hc : ws.length = s.work.blockCount.toNat) (hm : pending s = ws.flatMap bytes32 ++ more)
    (hq : s.input.swdio = (ws.flatMap fun _ => swdOkWrite) ++ swdReadAnswer v p ++ rest) :
    ∃ t, runBlock req s = .next t ∧ WriteBlockEnds s t (4 * ws.length) s.work.blockCount
      (if p = dataParity v then 1#8 else 0x08#8)
      ((ws.flatMap fun w => writePacket s.driver req w) ++ readPacket s.driver 0x0e#8 v p) rest := by
  have hm' : pending s = ((swdWrites ws).map Prod.fst).flatMap bytes32 ++ more := by rw [swdWrites_fst]; exact hm
  have hc' : (swdWrites ws).length = s.work.blockCount.toNat := (swdWrites_length ws).trans hc
  obtain ⟨hok, hbad⟩ := course_rdbuffParity (s := atBlock s) (xs := (swdWrites ws).map fun x => ⟨req, x.1, x.2⟩) (v := v)
    (p := p) (rest := rest) (by rw [atBlock_swd hp]; exact hp) hd (by rw [swdAnswersOf_writes hr]; exact hq)
  rw [atBlock_swd hp, swdRecordsOf_writes hr] at hok hbad
  rw [← swdWrites_length ws]
  by_cases hpar : p = dataParity v
  · rw [if_pos hpar]
    exact writeBlock_ok hr hf (swdWrites_ne hne) hc' hm' (hok hpar)
  · rw [if_neg hpar]
    exact writeBlock_rdbuffFails hr hf (swdWrites_ne hne) hc' hm' (hbad hpar)

end

/-- Settles O54: each clause is one way the block's course of writes and its request's bytes can go. -/
theorem blockWrites : Obligations.BlockWrites := by
  refine ⟨?_, ?_, ?_, ?_, ?_, ?_, ?_⟩
  · intro s ap a v p ws more rest hp hd hne hc hf hm hq
    obtain ⟨hr, he⟩ := exec_tbWrite (ap := ap) (a := a) rfl
    obtain ⟨t, ht, h⟩ := writeBlock_swd hr hf hp hd hne hc hm hq
    exact ⟨t, (he s).trans ht, h.mem, by rw [h.trace, List.append_assoc], h.driver.trans (atBlock_swd hp), h.swdio hp,
      h.parked hp⟩
  · intro s ap a ws w ss more bad rest cs req code hp hd hc hf hreq hm hbad hq
    obtain ⟨hr, he⟩ := exec_tbWrite hreq
    obtain ⟨t, ht, h⟩ := writeBlock_fails (ws := swdWrites ws) (ss := ss) hr hf (course_swdWrites hr ws hp hd hbad hq)
      (by rw [swdWrites_fst]; exact hm) (by rw [swdWrites_length]; exact hc)
    exact ⟨t, (he s).trans ht, by rw [h.mem, swdWrites_length], by rw [h.trace, List.append_assoc],
      h.driver.trans (atBlock_swd hp), h.swdio hp, h.parked hp⟩
  · intro s ap a ws more bad rest cs req code hp hd hne hc hf hreq hm hbad hq
    obtain ⟨hr, he⟩ := exec_tbWrite hreq
    obtain ⟨t, ht, h⟩ := writeBlock_rdbuffFails (ws := swdWrites ws) hr hf (swdWrites_ne hne)
      (by rw [swdWrites_length]; exact hc) (by rw [swdWrites_fst]; exact hm) (course_swdWrites hr ws hp hd hbad hq)
    exact ⟨t, (he s).trans ht, by rw [h.mem, swdWrites_length], by rw [h.trace, List.append_assoc],
      h.driver.trans (atBlock_swd hp), h.swdio hp, h.parked hp⟩
  · intro s ap a v ws more ans rest req d xs hp hidx hne hc hf hreq hm hdd hxs hans hq
    obtain ⟨hr, he⟩ := exec_tbWrite hreq
    have hdriver : (atBlock s).driver = d := (atBlock_jtag hp).trans hdd.symm
    have hcourse : Course (atBlock s) xs none (jtagRecords (jtagLinesOf d none xs) ans s.driver.halfDelay) rest := by
      unfold Course Answers
      rw [atBlock_port, hp, hdriver, hdd]
      rw [hdd] at hans
      exact ⟨hidx, ans, hans, hq, rfl⟩
    rw [hxs] at hcourse
    obtain ⟨t, ht, h⟩ := writeBlock_ok hr hf hne hc (by rw [List.flatMap_map]; exact hm) hcourse
    rw [← hxs] at h
    refine ⟨t, (he s).trans ht, h.mem, h.trace, h.driver.trans hdriver, ?_⟩
    have hq' := h.left
    unfold queue at hq'
    rwa [h.driver, atBlock_port, if_pos hp] at hq'
  · intro s ap a ws w ss more cs rest req code hreq hf h hm
    obtain ⟨hr, he⟩ := exec_tbWrite hreq
    rw [he]
    refine ⟨fun hc => ?_, writeBlock_skipsShort hr hf h hm⟩
    obtain ⟨t, ht, h⟩ := writeBlock_fails hr hf h hm hc
    exact ⟨t, ht, h.mem, h.trace, h.work, h.phase, h.driver, h.left⟩
  · intro s ap a ws more cs rest req code hreq hf hm
    obtain ⟨hr, he⟩ := exec_tbWrite hreq
    rw [he]
    refine ⟨fun hne hc h => ?_, fun hc hmore h => writeBlock_short hr hf hc hmore hm h⟩
    obtain ⟨t, ht, h⟩ := writeBlock_rdbuffFails hr hf hne hc hm h
    exact ⟨t, ht, h.mem, h.trace, h.work, h.phase, h.driver, h.left⟩
  · intro s ap a ws more hf hp hc hm hmore
    obtain ⟨hr, he⟩ := exec_tbWrite (ap := ap) (a := a) rfl
    rw [he]
    exact writeBlock_drainsShort hr hf (by rw [preconditionFails_eq]; exact decide_eq_true hp) hc hm hmore

end Sys2Proof.Machine
end

section
/-! Decoding and encoding (30_encoding): each context's decoder gives back what is encoded (R101, R104, R110, R114), and reads
an instruction from its own bytes only (R280). -/

namespace Sys2Proof.Machine

/-! ### Fields -/

/-- A half is read back from its bytes (R76). -/
theorem le16_bytes16 (v : Half) : le16 (v.extractLsb' 0 8) (v.extractLsb' 8 8) = v := by
  rw [le16, BitVec.extractLsb'_append_extractLsb'_eq_extractLsb' (by decide)]
  exact BitVec.extractLsb'_eq_self

/-- A word is read back from its bytes (R76). -/
theorem le32_bytes32 (v : Word) :
    le32 (v.extractLsb' 0 8) (v.extractLsb' 8 8) (v.extractLsb' 16 8) (v.extractLsb' 24 8) = v := wordOfBytes_bytes32 v

section
variable (ap rnw mv mm : Bool) (a : RegAddr)

@[simp] theorem reqAPnDP_requestByte : reqAPnDP (requestByte ap rnw a mv mm) = ap := by
  revert ap rnw mv mm a; decide
@[simp] theorem reqRnW_requestByte : reqRnW (requestByte ap rnw a mv mm) = rnw := by
  revert ap rnw mv mm a; decide
@[simp] theorem reqMatchValue_requestByte : reqMatchValue (requestByte ap rnw a mv mm) = mv := by
  revert ap rnw mv mm a; decide
@[simp] theorem reqMatchMask_requestByte : reqMatchMask (requestByte ap rnw a mv mm) = mm := by
  revert ap rnw mv mm a; decide
@[simp] theorem reqAddr_requestByte : reqAddr (requestByte ap rnw a mv mm) = a := by
  revert ap rnw mv mm a; decide
@[simp] theorem reqHasData_requestByte : reqHasData (requestByte ap rnw a mv mm) = (!rnw || mv) := by
  simp [reqHasData]

end

/-- A header's bits 4:1 are the port request it was made of (R114). -/
theorem extractLsb'_headerByte (r : BitVec 4) : (headerByte r).extractLsb' 1 4 = r := by
  revert r; decide

/-! ### Decoding what is encoded -/

theorem decodeXferCfg_fields (idle : Byte) (waitRetry matchRetry : Half) (tail : List Byte) :
    decodeXferCfg (idle :: (bytes16 waitRetry ++ bytes16 matchRetry ++ tail)) =
      .instr (.xferCfg idle waitRetry matchRetry) 6 := by
  simp [bytes16, decodeXferCfg, le16_bytes16]

theorem decodeTransferBlock_fields (index : Byte) (count : Half) (tail : List Byte) :
    decodeTransferBlock (index :: (bytes16 count ++ tail)) = .instr (.transferBlock index count) 4 := by
  simp [bytes16, decodeTransferBlock, le16_bytes16]

theorem decodeSwjClock_fields (hz : Word) (tail : List Byte) :
    decodeSwjClock (bytes32 hz ++ tail) = .instr (.swjClock hz) 5 := by
  simp [bytes32, decodeSwjClock, le32_bytes32]

/-- The count byte holds the number of lengths, since there are at most 255 (R293). -/
theorem decodeJtagCfg_fields {lens : List Byte} (h : lens.length ≤ 255) (tail : List Byte) :
    decodeJtagCfg (BitVec.ofNat 8 lens.length :: (lens ++ tail)) = .instr (.jtagCfg lens) (lens.length + 2) := by
  have hn : (BitVec.ofNat 8 lens.length).toNat = lens.length := by
    rw [BitVec.toNat_ofNat, Nat.mod_eq_of_lt (by omega)]
  rw [decodeJtagCfg, hn, if_pos (by simp), List.take_left, Nat.add_comm]

theorem decodeCommand_encode {i : Instr} {bs : List Byte} (hw : WellFormed i) (hc : i.context = some .command)
    (he : encode i = some bs) (tail : List Byte) : decodeCommand (bs ++ tail) = .instr i bs.length := by
  cases i with
  | connect | disconnect | transfer | swdCfg | execCommands => cases he; rfl
  | xferCfg idle waitRetry matchRetry => cases he; exact decodeXferCfg_fields idle waitRetry matchRetry tail
  | transferBlock index count => cases he; exact decodeTransferBlock_fields index count tail
  | swjClock hz => cases he; exact decodeSwjClock_fields hz tail
  | jtagCfg lens => cases he; exact decodeJtagCfg_fields (of_decide_eq_true hw) tail
  | _ => cases hc

/-- A request byte without data stands alone (R104). -/
theorem decodeRequest_bare {b : Byte} (h : reqHasData b = false) (rest : List Byte) :
    decodeRequest (b :: rest) = .instr (requestOf b 0#32) 1 := by
  simp [decodeRequest, h]

/-- A request byte with data is followed by its word (R104, R241). -/
theorem decodeRequest_word {b : Byte} (h : reqHasData b = true) (v : Word) (rest : List Byte) :
    decodeRequest (b :: (bytes32 v ++ rest)) = .instr (requestOf b v) 5 := by
  simp [decodeRequest, h, bytes32, le32_bytes32]

theorem decodeRequest_encode {i : Instr} {bs : List Byte} (hc : i.context = some .request) (he : encode i = some bs)
    (tail : List Byte) : decodeRequest (bs ++ tail) = .instr i bs.length := by
  cases i with
  | dpR | apR =>
    cases he
    rw [List.singleton_append, decodeRequest_bare (by simp)]
    simp [requestOf]
  | dpRM | apRM | dpW | apW | mask =>
    cases he
    rw [List.cons_append, decodeRequest_word (by simp)]
    simp [requestOf, bytes32]
  | _ => cases hc

theorem decodeBlockRequest_encode {i : Instr} {bs : List Byte} (hc : i.context = some .blockRequest)
    (he : encode i = some bs) (tail : List Byte) : decodeBlockRequest (bs ++ tail) = .instr i bs.length := by
  cases i with
  | tbRead | tbWrite => cases he; simp [decodeBlockRequest]
  | _ => cases hc

theorem decodeHeader_encode {i : Instr} {bs : List Byte} (hc : i.context = some .wireHeader) (he : encode i = some bs)
    (tail : List Byte) : decodeHeader (bs ++ tail) = .instr i bs.length := by
  cases i with
  | swdHeader r => cases he; simp [decodeHeader, extractLsb'_headerByte]
  | _ => cases hc

/-- Settles O3: the decoder of the instruction's own context gives it back. -/
theorem decodeEncode : Obligations.DecodeEncode := by
  intro i c bs tail hw hc he
  cases c with
  | command => exact decodeCommand_encode hw hc he tail
  | request => exact decodeRequest_encode hc he tail
  | blockRequest => exact decodeBlockRequest_encode hc he tail
  | wireHeader => exact decodeHeader_encode hc he tail

/-- Settles O4: `decode_within` in every context. -/
theorem decodedIsWellFormed : Obligations.DecodedIsWellFormed := fun _ _ _ _ => decode_instr

/-! ### An instruction's own bytes -/

/-- A decoder of the fields after a first byte reads an instruction of `n` more bytes from these. -/
def ReadsOwnFields (fieldsOf : List Byte → Decoded) : Prop :=
  ∀ (fields tail : List Byte) (i : Instr) (n : Nat),
    fieldsOf fields = .instr i (n + 1) → fieldsOf (fields.take n ++ tail) = .instr i (n + 1)

theorem decodeByteField_own (mk : Byte → Instr) : ReadsOwnFields (decodeByteField mk) := by
  intro fields tail i n h
  match fields with
  | [] => cases h
  | b :: _ => cases h; rfl

theorem decodeXferCfg_own : ReadsOwnFields decodeXferCfg := by
  intro fields tail i n h
  match fields with
  | [] | [_] | [_, _] | [_, _, _] | [_, _, _, _] => cases h
  | _ :: _ :: _ :: _ :: _ :: _ => cases h; rfl

theorem decodeTransfer_own : ReadsOwnFields decodeTransfer := by
  intro fields tail i n h
  match fields with
  | [] | [_] => cases h
  | _ :: _ :: _ => cases h; rfl

theorem decodeTransferBlock_own : ReadsOwnFields decodeTransferBlock := by
  intro fields tail i n h
  match fields with
  | [] | [_] | [_, _] => cases h
  | _ :: _ :: _ :: _ => cases h; rfl

theorem decodeSwjClock_own : ReadsOwnFields decodeSwjClock := by
  intro fields tail i n h
  match fields with
  | [] | [_] | [_, _] | [_, _, _] => cases h
  | _ :: _ :: _ :: _ :: _ => cases h; rfl

theorem decodeJtagCfg_own : ReadsOwnFields decodeJtagCfg := by
  intro fields tail i n h
  match fields with
  | [] => cases h
  | count :: lens =>
    rw [decodeJtagCfg] at h
    split at h
    · rename_i hle
      obtain ⟨rfl, hn⟩ : .jtagCfg (lens.take count.toNat) = i ∧ 2 + count.toNat = n + 1 := by simpa using h
      obtain rfl : n = count.toNat + 1 := by omega
      have hl : (lens.take count.toNat).length = count.toNat := by simpa using hle
      rw [List.take_succ_cons, List.cons_append, decodeJtagCfg, if_pos (by simp; omega), List.take_left' hl, hn]
    · cases h

/-- The decoder of each command's fields reads them from their own bytes. -/
theorem decodeCommand_own (code : Byte) : ReadsOwnFields fun fields => decodeCommand (code :: fields) := by
  intro fields tail i n h
  simp only [decodeCommand] at h ⊢
  split_ifs at h ⊢
  · exact decodeByteField_own _ _ _ _ _ h
  · cases h; rfl
  · exact decodeXferCfg_own _ _ _ _ h
  · exact decodeTransfer_own _ _ _ _ h
  · exact decodeTransferBlock_own _ _ _ _ h
  · exact decodeSwjClock_own _ _ _ _ h
  · exact decodeByteField_own _ _ _ _ _ h
  · exact decodeJtagCfg_own _ _ _ _ h
  · exact decodeByteField_own _ _ _ _ _ h

theorem decodeRequest_own (b : Byte) : ReadsOwnFields fun fields => decodeRequest (b :: fields) := by
  intro fields tail i n h
  simp only [decodeRequest] at h ⊢
  split_ifs at h ⊢
  · match fields with
    | [] | [_] | [_, _] | [_, _, _] => cases h
    | _ :: _ :: _ :: _ :: _ => cases h; rfl
  · exact h

theorem decode_own (c : Context) (b : Byte) : ReadsOwnFields fun fields => decode c (b :: fields) := by
  cases c with
  | command => exact decodeCommand_own b
  | request => exact decodeRequest_own b
  | blockRequest => exact fun _ _ _ _ h => h
  | wireHeader => exact fun _ _ _ _ h => h

/-- Settles O5: an instruction has a first byte, and its other bytes are its fields. -/
theorem decodeReadsOnlyItsBytes : Obligations.DecodeReadsOnlyItsBytes := by
  intro c bs tail i n h
  obtain ⟨-, -, hpos, hlen⟩ := decode_instr h
  cases bs with
  | nil => exact absurd (hpos.trans hlen) (by simp)
  | cons b fields =>
    obtain ⟨m, rfl⟩ : ∃ m, n = m + 1 := ⟨n - 1, by omega⟩
    exact decode_own c b fields tail i m h

/-! ### The words of the spec's tables -/

/-- Settles O1: ten closed words. -/
theorem specWordsDecode : Obligations.SpecWordsDecode := by
  unfold Obligations.SpecWordsDecode; decide

/-- Settles O2: the sixteen port requests, and the bits of each one's header. -/
theorem headerFormula : Obligations.HeaderFormula :=
  ⟨by decide, by decide⟩

end Sys2Proof.Machine
end

section
/-! The bits of a request byte that count (R110, R111, R131, R252, R260): the decoders and the wire read it through its fields. -/

namespace Sys2Proof.Machine

/-- The two bytes agree in bits 3:0, which alone reach the wire (R111). -/
structure SameNibble (b b' : Byte) : Prop where
  nibble : portNibble b = portNibble b'
  apndp : reqAPnDP b = reqAPnDP b'
  rnw : reqRnW b = reqRnW b'
  a2 : b.getLsbD 2 = b'.getLsbD 2
  a3 : b.getLsbD 3 = b'.getLsbD 3
  addr : reqAddr b = reqAddr b'

theorem sameNibble_of_extract {b b' : Byte} (h : b.extractLsb' 0 4 = b'.extractLsb' 0 4) : SameNibble b b' := by
  have bit : ∀ k, k < 4 → b.getLsbD k = b'.getLsbD k := fun k hk => by
    have := congrArg (·.getLsbD k) h
    simpa [hk] using this
  refine ⟨h, bit 0 (by decide), bit 1 (by decide), bit 2 (by decide), bit 3 (by decide), ?_⟩
  apply BitVec.eq_of_getLsbD_eq
  intro k hk
  simp only [reqAddr, BitVec.getLsbD_extractLsb', bit (2 + k) (by omega)]

/-! ### The decoder -/

/-- Bytes with the same request at every word, and with data or without it together, decode alike. -/
theorem decodeRequest_congr {b b' : Byte} (hr : ∀ w, requestOf b w = requestOf b' w) (hd : reqHasData b = reqHasData b')
    (rest : List Byte) : decodeRequest (b :: rest) = decodeRequest (b' :: rest) := by
  simp only [decodeRequest, hr, hd]

section
variable {b b' : Byte} (h : SameNibble b b')
  (hm : if reqRnW b then reqMatchValue b = reqMatchValue b' else reqMatchMask b = reqMatchMask b')
include h hm

/-- MatchValue counts for reads and MatchMask for writes only (R110, D18). -/
theorem requestOf_congr (w : Word) : requestOf b w = requestOf b' w := by
  simp only [requestOf, ← h.rnw, ← h.apndp, ← h.addr]
  split at hm
  · simp [*]
  · simp [*]

theorem reqHasData_congr : reqHasData b = reqHasData b' := by
  simp only [reqHasData, ← h.rnw]
  split at hm
  · rw [hm]
  · simp [*]

end

/-- A write with MatchMask loads the mask, whatever its other bits (R252). -/
theorem requestOf_mask {b : Byte} (hr : reqRnW b = false) (hm : reqMatchMask b = true) (w : Word) :
    requestOf b w = .mask w := by
  simp [requestOf, hr, hm]

theorem reqHasData_of_write {b : Byte} (hr : reqRnW b = false) : reqHasData b = true := by
  simp [reqHasData, hr]

/-! ### The wire -/

section
variable {b b' : Byte} (h : SameNibble b b')
include h

theorem swdPacket_congr (w : Word) (s : State) : swdPacket b w s = swdPacket b' w s := by
  simp only [swdPacket, packetWaitFault, swdHeaderOf, h.nibble, h.rnw]

theorem jtagTransferScan_congr (w : Word) (s : State) : jtagTransferScan b w s = jtagTransferScan b' w s := by
  have hhead : ∀ i, scanHead i b = scanHead i b' := fun i => by
    simp only [scanHead, show b.getLsbD 1 = b'.getLsbD 1 from h.rnw, h.a2, h.a3]
  simp only [jtagTransferScan, hhead, scanOkTail, scanData, h.rnw]

end

/-- Settles O6: by the fields of `SameNibble`, and for a MASK by `requestOf_mask` of either byte. -/
theorem ignoredRequestBits : Obligations.IgnoredRequestBits := by
  refine ⟨fun b b' w rest hb hm => ?_, fun b b' w s hb => ?_, fun b b' w rest hr hm hr' hm' => ?_,
    fun b b' rest rest' hb => ?_⟩
  · have h := sameNibble_of_extract hb
    exact ⟨requestOf_congr h hm w, reqHasData_congr h hm,
      decodeRequest_congr (requestOf_congr h hm) (reqHasData_congr h hm) rest⟩
  · have h := sameNibble_of_extract hb
    exact ⟨congrArg (fun r => (r.bind retPair).outcome) (swdPacket_congr h w s),
      congrArg (fun r => (r.bind retPair).outcome) (jtagTransferScan_congr h w s)⟩
  · have hd := reqHasData_of_write hr
    have hreq : ∀ v, requestOf b v = requestOf b' v := fun v => by rw [requestOf_mask hr hm, requestOf_mask hr' hm']
    exact ⟨hreq w, requestOf_mask hr hm w, decodeRequest_congr hreq (hd.trans (reqHasData_of_write hr').symm) rest,
      (decodeRequest_word hd w rest).trans (by rw [requestOf_mask hr hm])⟩
  · have h := sameNibble_of_extract hb
    refine ⟨?_, rfl⟩
    simp only [decode, decodeBlockRequest, h.rnw, h.apndp, h.addr]

end Sys2Proof.Machine
end

section
/-! The SWD packet that is not answered OK (R120, R202), and what an operation leaves when it is run as an instruction of its
own. -/

namespace Sys2Proof.Machine

/-! ### An operation run as an instruction -/

/-- What an operation that ended with a code and a word hands back. -/
theorem outcome_retPair {r : Res (Byte × Word)} {p : Byte × Word} {u : State} (h : r = .ok p u) :
    (r.bind retPair).outcome = .next { u with ret := { u.ret with res := p.1, data := p.2 } } := by
  rw [h]; rfl

/-- An operation on SWD has left the records `cs` and the line parked. -/
theorem outcome_parked {s : State} {r : Res (Byte × Word)} {code : Byte} {d : Word} {p : Pins} {cs : List Cycle}
    {rest : List Bool} {n f : Nat} (hoe : p.swdioOe = .high) (hout : p.swdioOut = .high)
    (h : r = .ok (code, d) (onWire s p (s.trace ++ cs) s.taps (s.input.swdioLeft rest n) f)) :
    ∃ t, (r.bind retPair).outcome = .next t ∧ t.ret.res = code ∧ t.ret.data = d ∧ t.trace = s.trace ++ cs ∧
      t.input.swdio = rest ∧ Parked t ∧ WireFrame s { t with ret := s.ret } :=
  ⟨_, outcome_retPair h, rfl, rfl, rfl, rfl, ⟨hoe, hout⟩, onWire_frame _ _ _ _ _ _ rfl rfl⟩

/-! ### The packets -/

/-- A refused packet takes 11 cycles and two turnarounds, with the data phase 33 more, on a read and on a write. -/
theorem refusedPacket_length (d : Driver) (req : Byte) {ack : List Bool} (h : ack.length = 3) :
    (refusedPacket d req ack).length = (if d.dataPhase then 44 else 11) + 2 * turnaround d := by
  have hdata : (if d.dataPhase && req.getLsbD 1 then releasedRecords 33 d.halfDelay else []).length +
      (if d.dataPhase && !req.getLsbD 1 then writeRecords (List.replicate 33 false) d.halfDelay else []).length =
      if d.dataPhase then 33 else 0 := by
    cases d.dataPhase <;> cases req.getLsbD 1 <;> rfl
  have hsum : (if d.dataPhase then 44 else 11) = 11 + if d.dataPhase then 33 else 0 := by split <;> rfl
  simp only [refusedPacket, List.length_append, packetHead_length, releasedRecords_length, h]
  omega

/-- Settles O37: `swdPacket_waitFault`, whose records are `refusedPacket`'s. -/
theorem packetWaitsOrFaults : Obligations.PacketWaitsOrFaults := by
  intro s req w a rest hd hq
  obtain ⟨p, hoe, hout, h⟩ := swdPacket_waitFault s s.pins s.trace s.taps s.input s.free (w := w) hd hq
  rw [onWire_self] at h
  obtain ⟨t, he, hres, -, htrace, hleft, hpark, hframe⟩ := outcome_parked hoe hout h
  refine ⟨t, he, hres, by simpa only [refusedPacket, List.append_assoc] using htrace, ?_, hleft, hpark, hframe⟩
  rw [htrace, List.length_append, refusedPacket_length _ _ rfl, Nat.add_assoc]

/-- Settles O38: `swdPacket_protocol`; the raw ACK is the number of its bits. -/
theorem packetProtocolErrors : Obligations.PacketProtocolErrors := by
  intro s req w a0 a1 a2 rest hok hwait hfault hd hq
  have hn : [a0, a1, a2] ∉ [[true, false, false], [false, true, false], [false, false, true]] := by
    simpa [Prod.ext_iff] using And.intro hok (And.intro hwait hfault)
  obtain ⟨p, hoe, hout, h⟩ := swdPacket_protocol s s.pins s.trace s.taps s.input s.free (req := req) (w := w) hd hn hq
  rw [onWire_self, List.append_assoc] at h
  obtain ⟨t, he, hres, -, htrace, hleft, hpark, hframe⟩ := outcome_parked hoe hout h
  refine ⟨t, he, ?_, by rw [htrace, List.append_assoc], ?_, hleft, hpark, hframe⟩
  · rw [hres]
    clear * -
    revert a0 a1 a2; decide
  · rw [htrace, List.length_append, List.length_append, packetHead_length, releasedRecords_length]
    simp only [List.length_cons, List.length_nil]
    omega

end Sys2Proof.Machine
end

section
/-! The transfer scan run as an instruction, answered OK and cut short (R173, R185 to R187). -/

namespace Sys2Proof.Machine

/-- A JTAG operation has left the records `cs`, and the IR holding `ir`. -/
theorem outcome_scanned {s : State} {r : Res (Byte × Word)} {code : Byte} {d : Word} {ir : Option IrSel} {p : Pins}
    {cs : List Cycle} {ta : List Tap} {i : Input} {f : Nat} (hr : i.recv = s.input.recv)
    (hs : i.sendFail = s.input.sendFail)
    (h : r = .ok (code, d) (onWire (holding s ir) p (s.trace ++ cs) ta i f)) :
    ∃ t, (r.bind retPair).outcome = .next t ∧ t.ret.res = code ∧ t.ret.data = d ∧ t.trace = s.trace ++ cs ∧
      t.input = i ∧ t.work = { s.work with irCache := ir } ∧ WireFrame (holding s ir) { t with ret := s.ret } :=
  ⟨_, outcome_retPair h, rfl, rfl, rfl, rfl, rfl, onWire_frame _ _ _ _ _ _ hr hs⟩

theorem jtagRecords_length {cs : List (Bool × Bool)} {bs : List Bool} (h : Word) (hl : bs.length = cs.length) :
    (jtagRecords cs bs h).length = cs.length := by
  simp [jtagRecords, hl]

theorem jtagOkAnswer_length {d : Driver} {pre post : List Bool} (v : Word) (req : Byte) (w : Word)
    (hidx : d.index.toNat < d.chain.length) (hpre : pre.length = d.index.toNat + 3)
    (hpost : post.length = d.chain.length - 1 - d.index.toNat + 2 + d.idleCycles.toNat) :
    (jtagOkAnswer pre v post).length = (okScanCycles d req w).length := by
  rw [okScanCycles_length _ _ _ hidx]
  simp only [jtagOkAnswer, List.length_append, bitsOf_length, List.length_cons, List.length_nil]
  omega

theorem cutScanCycles_length (d : Driver) (req : Byte) :
    (cutScanCycles d req).length = d.index.toNat + 9 + d.idleCycles.toNat := by
  rw [cutScanCycles_eq, List.length_append, scanHead_length, scanAbortTail_length]; omega

/-- Settles O31: `jtagTransferScan_ok`, whose records are `okScanCycles`'. -/
theorem transferScanOk : Obligations.TransferScanOk := by
  intro s req w v pre post rest hidx hpre hpost hq
  obtain ⟨p, ta, n, h⟩ := jtagTransferScan_ok s s.pins s.trace s.taps s.input s.free (req := req) (w := w) hidx hpre hpost hq
  rw [onWire_self] at h
  obtain ⟨t, he, hres, hdata, htrace, hleft, -, hframe⟩ := outcome_scanned (ir := s.work.irCache) (by rfl) (by rfl) h
  refine ⟨t, _, he, hres, hdata, by rw [hleft]; rfl, rfl, htrace, ?_, hframe⟩
  rw [htrace, List.length_append, jtagRecords_length _ (jtagOkAnswer_length v req w hidx hpre hpost),
    okScanCycles_length _ _ _ hidx]
  omega

/-- A sequence of JTAG cycles, whatever supplies its samples. -/
theorem jrun_onWire_free (cs : List (Bool × Bool)) (s : State) (p : Pins) (tr : List Cycle) (ta : List Tap) (i : Input)
    (f : Nat) : ∃ bs p' ta' i', bs.length = cs.length ∧ i'.recv = i.recv ∧ i'.sendFail = i.sendFail ∧
      jrun cs (onWire s p tr ta i f) =
        (bs, onWire s p' (tr ++ jtagRecords cs bs s.driver.halfDelay) ta' i' f) := by
  obtain ⟨q, p', hl, he, -⟩ := jrun_eq cs (onWire s p tr ta i f)
  exact ⟨_, p', _, _, hl, by rfl, by rfl, Prod.ext rfl he⟩

/-- A transfer scan that is cut short after queued ACK bits, whatever supplies the samples after them. -/
theorem jtagTransferScan_cut_free (s : State) {req : Byte} {w : Word} {pre rest : List Bool} {t0 t1 t2 : Bool}
    (hidx : s.driver.index.toNat < s.driver.chain.length) (hpre : pre.length = s.driver.index.toNat + 3)
    (hne : (t0, t1, t2) ≠ (false, true, false)) (hq : s.input.tdo = pre ++ [t0, t1, t2] ++ rest) :
    ∃ samples p ta i f, samples.length = 3 + s.driver.idleCycles.toNat ∧ i.recv = s.input.recv ∧
      i.sendFail = s.input.sendFail ∧ jtagTransferScan req w s = .ok (jtagAck t0 t1 t2, Config.undefinedRdata s.free)
        (onWire s p (s.trace ++ jtagRecords (cutScanCycles s.driver req) (pre ++ [t0, t1, t2] ++ samples)
          s.driver.halfDelay) ta i f) := by
  obtain ⟨e, he⟩ : ∃ e, selected s.driver = some e := ⟨_, List.getElem?_eq_getElem hidx⟩
  have hl : (pre ++ [t0, t1, t2]).length = (scanHead s.driver.index.toNat req).length := by
    rw [scanHead_length]; simp; omega
  obtain ⟨p1, ta1, h1⟩ := jrun_onWire (scanHead s.driver.index.toNat req) (pre ++ [t0, t1, t2]) rest s s.pins s.trace s.taps
    s.input s.free hl hq
  obtain ⟨samples, p, ta, i, hlen, hr, hs, h2⟩ := jrun_onWire_free (scanAbortTail s.driver.idleCycles.toNat) s p1
    (s.trace ++ jtagRecords (scanHead s.driver.index.toNat req) (pre ++ [t0, t1, t2]) s.driver.halfDelay) ta1
    (s.input.tdoLeft rest (scanHead s.driver.index.toNat req).length) s.free
  rw [onWire_self] at h1
  have hack : scanAck s.driver.index.toNat (pre ++ [t0, t1, t2]) = jtagAck t0 t1 t2 := by
    rw [scanAck, List.drop_left' (by omega)]
  have hno : jtagAck t0 t1 t2 ≠ ackOk := by clear * - hne; revert t0 t1 t2; decide
  refine ⟨samples, p, ta, i, s.free + 1, by rw [hlen, scanAbortTail_length, Nat.add_comm], hr, hs, ?_⟩
  rw [cutScanCycles_eq, jtagRecords_append _ hl.symm, ← List.append_assoc]
  simp only [jtagTransferScan, he, h1, hack, if_neg hno, h2]
  rfl

/-- Settles O32: the head's samples are queued, and the abort's may be free values. -/
theorem transferScanNotOk : Obligations.TransferScanNotOk := by
  intro s req w pre rest t0 t1 t2 hidx hpre hne hq
  obtain ⟨samples, p, ta, i, f, hlen, hr, hs, h⟩ := jtagTransferScan_cut_free s (req := req) (w := w) hidx hpre hne hq
  obtain ⟨t, he, hres, -, htrace, -, -, hframe⟩ := outcome_scanned (ir := s.work.irCache) hr hs h
  have hcut := cutScanCycles_length s.driver req
  refine ⟨t, samples, he, ?_, hlen, htrace, ?_, hframe⟩
  · rw [hres]
    clear * -
    revert t0 t1 t2; decide
  · rw [htrace, List.length_append, jtagRecords_length _ (by simp [hpre, hlen, hcut]; omega), hcut]
    omega

end Sys2Proof.Machine
end

section
/-! Retries of a transfer answered WAIT (R233): after some WAITs the loop goes on with fewer retries left, on SWD packet by
packet and on JTAG scan by scan. -/

namespace Sys2Proof.Machine

theorem ackOk_ne_ackWait : ackOk ≠ ackWait := by decide

/-! ### On SWD -/

/-- WAIT in every attempt fails the transfer with WAIT. -/
theorem swdFails_of_waits (d : Driver) (req : Byte) (n : Nat) :
    SwdFails d req n (List.replicate (n + 1) [false, true, false]).flatten
      (List.replicate (n + 1) (refusedPacket d req [false, true, false])).flatten 2#8 := by
  induction n with
  | zero => exact .inl ⟨true, rfl, List.append_nil _, rfl⟩
  | succ n ih =>
    rw [List.replicate_succ, List.flatten_cons, List.replicate_succ (a := refusedPacket _ _ _), List.flatten_cons]
    exact .inr ⟨_, _, rfl, rfl, ih⟩

/-- One attempt answered OK, whatever retries are left. -/
theorem retryLoop_swdOk {s : State} {req : Byte} {w v : Word} {rest : List Bool} (n : Nat) (p : Pins) (tr : List Cycle)
    (ta : List Tap) (i : Input) (f : Nat) (hp : s.driver.port = .swd) (hd : i.dirFail = none)
    (hq : i.swdio = (if req.getLsbD 1 then swdOkRead v else swdOkWrite) ++ rest) : ∃ p' k f' d,
      p'.swdioOe = .high ∧ p'.swdioOut = .high ∧ (req.getLsbD 1 = true → d = v) ∧
      retryLoop req w n (onWire s p tr ta i f) = .ok (ackOk, d) (onWire s p'
        (tr ++ (if req.getLsbD 1 then readPacket s.driver req v (dataParity v) else writePacket s.driver req w)) ta
        (i.swdioLeft rest k) f') := by
  have hport : (onWire s p tr ta i f).driver.port = .swd := hp
  cases hr : req.getLsbD 1 with
  | true =>
    rw [hr, if_pos rfl] at hq
    obtain ⟨p', hoe, hout, h⟩ := swdPacket_read s p tr ta i f (w := w) hr hd hq
    rw [readResult, if_pos rfl, ← transfer_swd hport] at h
    exact ⟨p', _, _, v, hoe, hout, fun _ => rfl, retryLoop_of_transfer n h ackOk_ne_ackWait⟩
  | false =>
    rw [hr, if_neg Bool.false_ne_true] at hq
    obtain ⟨p', hoe, hout, h⟩ := swdPacket_write s p tr ta i f (w := w) hr hd hq
    rw [← transfer_swd hport] at h
    exact ⟨p', _, _, _, hoe, hout, fun h => absurd h Bool.false_ne_true, retryLoop_of_transfer n h ackOk_ne_ackWait⟩

/-! ### On JTAG -/

/-- What TDO gives during a scan answered WAIT: anything, but for the ACK 1 0 0 (R122, R185). -/
def JtagWait (d : Driver) (x : List Bool) : Prop :=
  ∃ a b, x = a ++ [true, false, false] ++ b ∧ a.length = d.index.toNat + 3 ∧ b.length = 3 + d.idleCycles.toNat

theorem irLines_held (d : Driver) (req : Byte) : irLines d (some (spaceOf req)) req = [] := if_pos rfl

/-- A scan answered WAIT refuses the transfer with WAIT, after the Set-IR scan where there is one. -/
theorem JtagWait.refuses {d : Driver} {x irs : List Bool} {ir : Option IrSel} {req : Byte} (h : JtagWait d x)
    (hirs : irs.length = (irLines d ir req).length) :
    JtagRefuses d ir req (irs ++ x) (irLines d ir req ++ cutScanCycles d req) 2#8 := by
  obtain ⟨a, b, rfl, ha, hb⟩ := h
  exact ⟨irs, a, true, false, false, b, by simp, hirs, ha, hb, by decide, rfl, rfl⟩

/-- WAIT in every attempt fails the transfer with WAIT; only the first attempt has a Set-IR scan. -/
theorem jtagFails_of_waits {d : Driver} {req : Byte} {waits : List (List Bool)} (n : Nat) {ir : Option IrSel}
    {irs : List Bool} (hlen : waits.length = n + 1) (hirs : irs.length = (irLines d ir req).length)
    (hw : ∀ x ∈ waits, JtagWait d x) :
    JtagFails d req n ir (irs ++ waits.flatten)
      (irLines d ir req ++ (List.replicate waits.length (cutScanCycles d req)).flatten) 2#8 := by
  induction n generalizing waits ir irs with
  | zero =>
    obtain ⟨x, rfl⟩ := List.length_eq_one_iff.mp hlen
    have h := (hw x (by simp)).refuses hirs
    simpa [JtagFails] using h
  | succ n ih =>
    obtain _ | ⟨x, waits⟩ := waits
    · simp at hlen
    · have h := (hw x (by simp)).refuses hirs
      have hmore := ih (ir := some (spaceOf req)) (irs := []) (Nat.succ.inj hlen) (by rw [irLines_held]; rfl)
        fun y hy => hw y (List.mem_cons_of_mem x hy)
      rw [irLines_held, List.nil_append, List.nil_append] at hmore
      exact .inr ⟨_, _, _, _, by rw [List.flatten_cons, List.append_assoc],
        by rw [List.length_cons, List.replicate_succ, List.flatten_cons, List.append_assoc], h, hmore⟩

/-- One attempt on JTAG answered OK. -/
theorem transfer_jtagOk {s : State} {req : Byte} {w v : Word} {irs pre post rest : List Bool} (p : Pins) (tr : List Cycle)
    (ta : List Tap) (i : Input) (f : Nat) (hp : s.driver.port = .jtag)
    (hidx : s.driver.index.toNat < s.driver.chain.length)
    (hirs : irs.length = (irLines s.driver s.work.irCache req).length) (hpre : pre.length = s.driver.index.toNat + 3)
    (hpost : post.length = s.driver.chain.length - 1 - s.driver.index.toNat + 2 + s.driver.idleCycles.toNat)
    (hq : i.tdo = irs ++ jtagOkAnswer pre v post ++ rest) : ∃ p' ta' n,
      transfer req w (onWire s p tr ta i f) = .ok (ackOk, v) (onWire (holding s (some (spaceOf req))) p'
        (tr ++ jtagRecords (irLines s.driver s.work.irCache req ++ okScanCycles s.driver req w)
          (irs ++ jtagOkAnswer pre v post) s.driver.halfDelay) ta' (i.tdoLeft rest n) f) := by
  obtain ⟨p1, ta1, n1, h1⟩ := selectIr_onWire s p tr ta i f (req := req) (rest := jtagOkAnswer pre v post ++ rest) hidx hirs
    (by simpa using hq)
  obtain ⟨p2, ta2, n2, h2⟩ := jtagTransferScan_ok (holding s (some (spaceOf req))) p1
    (tr ++ jtagRecords (irLines s.driver s.work.irCache req) irs s.driver.halfDelay) ta1
    (i.tdoLeft (jtagOkAnswer pre v post ++ rest) n1) f (req := req) (w := w) hidx hpre hpost rfl
  refine ⟨p2, ta2, n1 + n2, ?_⟩
  simp only [transfer, onWire_driver, hp, h1, bind_ok, h2, holding_driver, tdoLeft_twice]
  rw [jtagRecords_append _ hirs.symm, List.append_assoc]

/-- WAITs, no more than retries are left, and then OK; only the first attempt has a Set-IR scan. -/
theorem retryLoop_jtagWaits {s : State} {req : Byte} {w v : Word} {waits : List (List Bool)}
    {irs pre post rest : List Bool} (n : Nat) (p : Pins) (tr : List Cycle) (ta : List Tap) (i : Input) (f : Nat)
    (hp : s.driver.port = .jtag) (hidx : s.driver.index.toNat < s.driver.chain.length)
    (hirs : irs.length = (irLines s.driver s.work.irCache req).length) (hw : ∀ x ∈ waits, JtagWait s.driver x)
    (hpre : pre.length = s.driver.index.toNat + 3)
    (hpost : post.length = s.driver.chain.length - 1 - s.driver.index.toNat + 2 + s.driver.idleCycles.toNat)
    (hq : i.tdo = irs ++ waits.flatten ++ jtagOkAnswer pre v post ++ rest) : ∃ p' ta' k f',
      retryLoop req w (n + waits.length) (onWire s p tr ta i f) =
        .ok (ackOk, v) (onWire (holding s (some (spaceOf req))) p'
          (tr ++ jtagRecords (irLines s.driver s.work.irCache req ++
            (List.replicate waits.length (cutScanCycles s.driver req)).flatten ++ okScanCycles s.driver req w)
            (irs ++ waits.flatten ++ jtagOkAnswer pre v post) s.driver.halfDelay) ta' (i.tdoLeft rest k) f') := by
  induction waits generalizing s p tr ta i f irs with
  | nil =>
    obtain ⟨p', ta', k, h⟩ := transfer_jtagOk p tr ta i f (w := w) hp hidx hirs hpre hpost (by simpa using hq)
    exact ⟨p', ta', k, f, by simpa using retryLoop_of_transfer n h ackOk_ne_ackWait⟩
  | cons x waits ih =>
    have hx := (hw x (by simp)).refuses hirs
    obtain ⟨p1, ta1, k1, d1, h1⟩ := transfer_jtagRefused s p tr ta i f (w := w)
      (rest := waits.flatten ++ jtagOkAnswer pre v post ++ rest) hp hidx hx (by simpa using hq)
    obtain ⟨p', ta', k, f', h2⟩ := ih (s := holding s (some (spaceOf req))) (irs := []) p1
      (tr ++ jtagRecords (irLines s.driver s.work.irCache req ++ cutScanCycles s.driver req) (irs ++ x) s.driver.halfDelay)
      ta1 (i.tdoLeft (waits.flatten ++ jtagOkAnswer pre v post ++ rest) k1) (f + 1) hp hidx (by simp [irLines_held])
      (fun y hy => hw y (List.mem_cons_of_mem x hy)) hpre hpost rfl
    refine ⟨p', ta', k1 + k, f', ?_⟩
    rw [List.length_cons, ← Nat.add_assoc]
    simp only [retryLoop, h1, bind_ok]
    rw [if_pos (by decide), h2]
    simp only [holding_holding, holding_driver, holding_work, tdoLeft_twice, irLines_held, List.nil_append]
    rw [List.append_assoc tr, ← jtagRecords_append _ hx.length]
    simp [List.replicate_succ]

/-- Settles O41: the loop runs through the WAITs, and then its transfer is answered OK or its last attempt waits too. -/
theorem retryCounts : Obligations.RetryCounts := by
  refine ⟨?_, ?_, ?_, ?_⟩
  · intro s req w v k rest hp hd hk hq
    obtain ⟨p1, f1, h1⟩ := retryLoop_swdWaits s.pins s.trace s.taps s.input s.free (req := req) (w := w)
      (s.driver.waitRetry.toNat - k) k hp hd (hq.trans (List.append_assoc _ _ _))
    obtain ⟨p, n, f, d, hoe, hout, hdata, h2⟩ := retryLoop_swdOk (s := s) (w := w) (s.driver.waitRetry.toNat - k) p1
      (s.trace ++ (List.replicate k (refusedPacket s.driver req [false, true, false])).flatten) s.taps
      (s.input.swdioLeft _ (3 * k)) f1 hp hd rfl
    rw [onWire_self, Nat.sub_add_cancel hk, h2, List.append_assoc, swdioLeft_twice] at h1
    obtain ⟨t, he, hres, hword, htrace, hleft, hpark, -⟩ := outcome_parked hoe hout (h1 : transferRetry req w s = _)
    exact ⟨t, he, hres, fun hr => hword.trans (hdata hr), hleft, htrace.trans (List.append_assoc _ _ _).symm, hpark⟩
  · intro s req w rest hp hd hq
    obtain ⟨p, n, f, d, hoe, hout, h⟩ := transferRetry_swdFails s.pins s.trace s.taps s.input s.free (w := w) hp hd
      (swdFails_of_waits s.driver req _) hq
    obtain ⟨t, he, hres, -, htrace, hleft, hpark, -⟩ := outcome_parked hoe hout h
    exact ⟨t, he, hres, hleft, htrace, hpark⟩
  · intro s req w v waits irs pre post rest hp hidx hk hirs hw hpre hpost hq
    obtain ⟨p, ta, n, f, h⟩ := retryLoop_jtagWaits (s.driver.waitRetry.toNat - waits.length) s.pins s.trace s.taps s.input
      s.free (w := w) hp hidx hirs hw hpre hpost hq
    rw [onWire_self, Nat.sub_add_cancel hk] at h
    obtain ⟨t, he, hres, hdata, htrace, hinput, hwork, -⟩ :=
      outcome_scanned (by rfl) (by rfl) (h : transferRetry req w s = _)
    exact ⟨t, he, hres, hdata, by rw [hinput]; rfl, hwork, htrace⟩
  · intro s req w waits irs rest hp hidx hk hirs hw hq
    obtain ⟨p, ta, n, f, d, h⟩ := transferRetry_jtagFails s s.pins s.trace s.taps s.input s.free (w := w) hp hidx
      (jtagFails_of_waits _ hk hirs hw) hq
    obtain ⟨t, he, hres, -, htrace, hinput, hwork, -⟩ := outcome_scanned (by rfl) (by rfl) h
    exact ⟨t, he, hres, by rw [hinput]; rfl, hwork, htrace⟩

end Sys2Proof.Machine
end

section
/-! Where a direction change fails (R155, R326): the instructions that end in Fatal, and the packet whose two draws
succeed. -/

namespace Sys2Proof.Machine

/-! ### Draws and packets -/

theorem outcome_bind_of_fault {α : Type} {r : Res α} {f : Fault} (h : r = .fault f) (k : α → State → Res Unit) :
    (r.bind k).outcome = .fault f := by
  rw [h]; rfl

theorem pinDirection_fatal {s : State} (h : s.input.dirFail = some 0) : pinDirection s = .fault .fatal := by
  rw [pinDirection, h]; rfl

/-- The port values that Connect accepts (R103, R287). -/
theorem connectPort_listed {p : Byte} (h : p.toNat ≤ 2) : ∃ port, connectPort p = some port := by
  unfold connectPort
  split
  · exact ⟨_, rfl⟩
  · rw [if_pos (by bv_omega)]
    exact ⟨_, rfl⟩

theorem exec_connect_fatal {s : State} {p : Byte} (h : s.input.dirFail = some 0) (hp : p.toNat ≤ 2) :
    exec (.connect p) s = .fault .fatal := by
  obtain ⟨port, hport⟩ := connectPort_listed hp
  have hset : setPort port s = .fault .fatal := by rw [setPort, pinDirection_fatal h]; rfl
  show execConnect p s = _
  rw [execConnect, hport]
  exact outcome_bind_of_fault hset _

/-- The packet as an instruction: it depends on the schedule through its two draws only (R202). -/
theorem exec_swdPacket_draws (req : Byte) (w : Word) (s : State) : ∃ t, ∀ f,
    exec (.swdPacket req w) (withDirFail f s) = if f = some 0 ∨ f = some 1 then .fault .fatal
      else .next (withDirFail (drawFailure (drawFailure f).2).2 t) := by
  obtain ⟨r, t, ht⟩ := swdPacket_draws req w s
  refine ⟨{ t with ret := { t.ret with res := r.1, data := r.2 } }, fun f => ?_⟩
  show ((swdPacket req w (withDirFail f s)).bind retPair).outcome = _
  rw [ht]
  split <;> rfl

/-! ### Requests -/

theorem runRequest_of_fault {body : State → Res Byte} {s : State} {f : Fault} (hd : s.work.draining = false)
    (hb : body s = .fault f) : runRequest body s = .fault f := by
  rw [runRequest, if_neg (by simp [hd])]
  exact outcome_bind_of_fault hb _

/-- Every request but a MASK clocks a packet first. -/
theorem request_fatal {s : State} {i : Instr} (h : FailsInPacket s) (hd : s.work.draining = false)
    (hi : plainRequest i ≠ none ∨ matchRequest i ≠ none) : exec i s = .fault .fatal := by
  rcases hi with hi | hi <;> obtain ⟨⟨req, w⟩, hi⟩ := Option.ne_none_iff_exists'.mp hi
  · rcases plainRequest_cases hi with ⟨-, -, -, -, he⟩ | ⟨-, -, -, he⟩ <;> rw [he]
    · exact runRequest_of_fault hd (readRequest_fatal h req none)
    · exact runRequest_of_fault hd (writeRequest_fatal h req w)
  · rw [(matchRequest_cases hi).2]
    exact runRequest_of_fault hd (readRequest_fatal h req (some w))

/-! ### The statement -/

/-- Settles O17: a draw is none, fatal or counted down (`drawFailure`); a packet makes two (`swdPacket_draws`), and whatever
begins with a packet ends as that packet does. -/
theorem directionChanges : Obligations.DirectionChanges := by
  refine ⟨fun s v p => ⟨fun h => ?_, fun h => ?_⟩, fun s req w h => ?_, fun s req w h => ⟨?_, fun hp => ?_⟩⟩
  · show ((pinDirection s).bind _).outcome = _ ∧ ((pinDirection s).bind _).outcome = _
    rw [pinDirection_none h]
    exact ⟨rfl, rfl⟩
  · have hd := pinDirection_fatal h
    have henable : swdOutEnable v s = .fault .fatal := by rw [swdOutEnable, hd]; rfl
    have hdisable : swdOutDisable s = .fault .fatal := by rw [swdOutDisable, hd]; rfl
    exact ⟨congrArg Res.outcome henable, congrArg Res.outcome hdisable, outcome_bind_of_fault hd _, exec_connect_fatal h⟩
  · obtain ⟨t, ht⟩ := exec_swdPacket_draws req w s
    have h0 := ht s.input.dirFail
    rw [withDirFail_self, h] at h0
    exact ⟨withDirFail none t, h0, rfl, fun k => ht (some (k + 2))⟩
  · exact outcome_bind_of_fault (swdPacket_fatal h) retPair
  · have hf : FailsInPacket s := ⟨hp, h⟩
    obtain ⟨htransfer, hretry⟩ := transferRetry_fatal hf req w
    refine ⟨outcome_bind_of_fault htransfer retPair, outcome_bind_of_fault hretry retPair,
      outcome_bind_of_fault (matchRead_fatal hf req w) retCode, fun i hd hi => request_fatal hf hd hi,
      fun hd hr => execMask_fatal hf hd w hr, fun ap a hfits hn => ⟨?_, fun hw => ?_⟩⟩
    · exact runBlock_fatal hf hfits hn (by simp [portRequest])
    · exact runBlock_fatal hf hfits hn fun _ => hw

end Sys2Proof.Machine
end

section
/-! The cycle primitives as instructions (R156 to R160), each one's record and the sample that it draws; and HalfDelay
(R152). -/

namespace Sys2Proof.Machine

/-! ### Samples (R45) -/

/-- A drawn SWDIO sample is the head of the queue, or the free value where nothing is queued. -/
theorem drawSwdio_eq (s : State) : drawSwdio s = (s.input.swdio.headD (Config.swdio s.input.swdioDrawn),
    { s with input := { s.input with swdio := s.input.swdio.tail, swdioDrawn := s.input.swdioDrawn + 1 } }) := by
  unfold drawSwdio
  cases h : s.input.swdio with
  | nil => simp [h]
  | cons b bs => rfl

/-- As for SWDIO. -/
theorem drawTdo_eq (s : State) : drawTdo s = (s.input.tdo.headD (Config.tdo s.input.tdoDrawn),
    { s with input := { s.input with tdo := s.input.tdo.tail, tdoDrawn := s.input.tdoDrawn + 1 } }) := by
  unfold drawTdo
  cases h : s.input.tdo with
  | nil => simp [h]
  | cons b bs => rfl

theorem headD_tail_drawn (queue : List Bool) (free : Bool) :
    (∀ a as, queue = a :: as → queue.headD free = a ∧ queue.tail = as) ∧
      (queue = [] → queue.headD free = free ∧ queue.tail = []) :=
  ⟨by rintro a as rfl; exact ⟨rfl, rfl⟩, by rintro rfl; exact ⟨rfl, rfl⟩⟩

/-! ### Levels -/

@[simp] theorem readLevel_levelOf (b : Bool) (s : State) : readLevel (levelOf b) s = (b, s) := by cases b <;> rfl

theorem readLevel_known {l : Level} (h : l ≠ .unknown) (s : State) : readLevel l s = (decide (l = .high), s) := by
  cases l with
  | low => rfl
  | high => rfl
  | unknown => exact absurd rfl h

/-! ### Records -/

/-- A driven clock cycle records the level on SWDIO (R156). -/
theorem clockCycle_driven {s : State} {v : Bool} (hoe : s.pins.swdioOe = .high) (hout : s.pins.swdioOut = levelOf v) :
    clockCycle s = emit (.swd true (some v) none s.driver.halfDelay) s := by
  simp [clockCycle, drivenOut, hoe, hout, readLevel_known (l := .high)]

/-- A read-write cycle drives its bit, and records it, exactly where the probe drives SWDIO (R159). -/
theorem readWriteCycle_known {s : State} (w : Bool) (h : s.pins.swdioOe ≠ .unknown) :
    readWriteCycle w s = ((drawSwdio s).1, emit (.swd (decide (s.pins.swdioOe = .high))
        (if s.pins.swdioOe = .high then some w else none) (some (drawSwdio s).1) s.driver.halfDelay)
      { (drawSwdio s).2 with pins := { s.pins with swdioOut := levelOf w } }) := by
  simp [readWriteCycle, drawSwdio_eq, readLevel_known h]

/-- Settles O25: each primitive is one `emit`, and a sample is `drawSwdio_eq`'s or `drawTdo_eq`'s. -/
theorem cycleRecords : Obligations.CycleRecords := by
  intro s
  refine ⟨fun h => ?_, fun v hoe hout => ?_, fun b => rfl, ?_, fun w => ?_, fun tms tdi => ?_⟩
  · exact congrArg Host.Outcome.next (clockCycle_released h)
  · exact congrArg Host.Outcome.next (clockCycle_driven hoe hout)
  · refine ⟨_, _, ?_, headD_tail_drawn s.input.swdio (Config.swdio s.input.swdioDrawn)⟩
    show Host.Outcome.next (retBit (readCycle s)) = _
    rw [readCycle, drawSwdio_eq]; rfl
  · refine ⟨_, _, fun h => ?_, headD_tail_drawn s.input.swdio (Config.swdio s.input.swdioDrawn)⟩
    show Host.Outcome.next (retBit (readWriteCycle w s)) = _
    rw [readWriteCycle_known w h, drawSwdio_eq]; rfl
  · refine ⟨_, _, ?_, headD_tail_drawn s.input.tdo (Config.tdo s.input.tdoDrawn)⟩
    show Host.Outcome.next (retBit (jcycle tms tdi s)) = _
    rw [jcycle, drawTdo_eq]; rfl

/-! ### The half-cycle delay (R152) -/

theorem toNat_halfDelayOf {rate : Word} (h : rate ≠ 0#32) : (halfDelayOf rate).toNat = 500000000 / rate.toNat := by
  rw [halfDelayOf, if_neg h, BitVec.toNat_udiv]; rfl

/-- Halving the cycle and halving the dividend are the same floor. -/
theorem half_of_cycle (r : Nat) : 1000000000 / r / 2 = 500000000 / r := by
  rw [Nat.div_div_eq_div_mul, Nat.mul_comm, ← Nat.div_div_eq_div_mul]

/-- Settles O26: both forms are `halfDelayOf`, by `half_of_cycle`. -/
theorem halfDelayFloor : Obligations.HalfDelayFloor := fun _ rate h =>
  ⟨_, rfl, (toNat_halfDelayOf h).trans (half_of_cycle rate.toNat).symm, toNat_halfDelayOf h, rfl⟩

end Sys2Proof.Machine
end

section
/-! The Set-IR scan and the plain 32-bit read as instructions (R175, R180), what the records of each scan shift (R171, R176),
and the stop of a scan outside the chain (R172). -/

namespace Sys2Proof.Machine

/-! ### The selected device (R172) -/

theorem selected_of_lt {d : Driver} (h : d.index.toNat < d.chain.length) : ∃ e, selected d = some e :=
  ⟨_, List.getElem?_eq_getElem h⟩

theorem selected_none {d : Driver} (h : d.chain.length ≤ d.index.toNat) : selected d = none :=
  List.getElem?_eq_none h

/-- Settles O34: no device is selected. -/
theorem scanIndexStops : Obligations.ScanIndexStops := by
  intro s ir req w h
  have hnone := selected_none h
  refine ⟨?_, ?_, ?_⟩
  · show (setInstructionRegister ir s).outcome = _
    rw [setInstructionRegister, hnone]; rfl
  · show ((readDataRegister32 s).bind _).outcome = _
    rw [readDataRegister32, hnone]; rfl
  · show ((jtagTransferScan req w s).bind retPair).outcome = _
    rw [jtagTransferScan, hnone]; rfl

/-! ### The Set-IR scan (R175) -/

theorem exec_setIr {s : State} {d : Device} (ir : Byte) (h : selected s.driver = some d) :
    exec (.setIr ir) s = .next (jrun (setIrCycles d ir) s).2 := by
  show (setInstructionRegister ir s).outcome = _
  rw [setInstructionRegister, h]; rfl

/-- Settles O28: the scan is one run of `setIrCycles`, which are the lines written out in `setIrLines`. -/
theorem setIrScan : Obligations.SetIrScan := by
  intro s ir d hd _
  obtain ⟨q, p, hlen, hrun, -⟩ := jrun_eq (setIrCycles d ir) s
  have htrace := congrArg State.trace hrun
  have hlines := setIrCycles_length d ir
  refine ⟨_, (jrun (setIrCycles d ir) s).1, setIrBits d ir, exec_setIr ir hd, jrun_frame _ s, rfl, ?_, ?_, ?_⟩
  · rw [hlen, hlines, setIrBits_length]
  · rw [htrace, ← setIrLines_eq]; rfl
  · rw [htrace, List.length_append, jtagRecords_length _ hlen, hlines]
    omega

/-! ### The plain 32-bit read (R180) -/

theorem readDataRegister32_eq {s : State} (h : s.driver.index.toNat < s.driver.chain.length) :
    readDataRegister32 s =
      .ok (wordOfBits (((jrun (readDrCycles s.driver.index.toNat) s).1.drop (3 + s.driver.index.toNat)).take 32))
        (jrun (readDrCycles s.driver.index.toNat) s).2 := by
  obtain ⟨e, he⟩ := selected_of_lt h
  rw [readDataRegister32, he]

theorem exec_readDr32 {s u : State} {v : Word} (h : readDataRegister32 s = .ok v u) :
    exec .readDr32 s = .next { u with ret := { u.ret with data := v } } := by
  show ((readDataRegister32 s).bind _).outcome = _
  rw [h]; rfl

/-- TMS is 1 on the last of the ones shifted. -/
theorem shiftOut_ones (n : Nat) :
    shiftOut (List.replicate (n + 1) true) = List.replicate n (false, true) ++ [(true, true)] := by
  induction n with
  | zero => rfl
  | succ n ih =>
    rw [List.replicate_succ] at ih
    rw [List.replicate_succ, List.replicate_succ, shiftOut, ih]
    rfl

theorem readDrCycles_eq (i : Nat) : readDrCycles i =
    [(true, true), (false, true), (false, true)] ++ List.replicate i (false, true) ++ List.replicate 31 (false, true) ++
      [(true, true)] ++ [(true, true), (false, true)] := by
  rw [readDrCycles, shiftOut_ones 31, ← List.append_assoc _ (List.replicate 31 _)]; rfl

theorem readDrAnswer_length {i : Nat} {pre post : List Bool} (v : Word) (hpre : pre.length = i + 3)
    (hpost : post.length = 2) : (pre ++ bitsOf v ++ post).length = (readDrCycles i).length := by
  rw [readDrCycles_length]
  simp only [List.length_append, bitsOf_length, hpre, hpost]

/-- The plain read where its samples are queued. -/
theorem readDataRegister32_queued {s : State} {v : Word} {pre post rest : List Bool}
    (hidx : s.driver.index.toNat < s.driver.chain.length) (hpre : pre.length = s.driver.index.toNat + 3)
    (hpost : post.length = 2) (hq : s.input.tdo = pre ++ bitsOf v ++ post ++ rest) : ∃ p ta n,
      readDataRegister32 s = .ok v (onWire s p (s.trace ++ jtagRecords (readDrCycles s.driver.index.toNat)
        (pre ++ bitsOf v ++ post) s.driver.halfDelay) ta (s.input.tdoLeft rest n) s.free) := by
  obtain ⟨p, ta, h⟩ := jrun_onWire _ _ rest s s.pins s.trace s.taps s.input s.free (readDrAnswer_length v hpre hpost) hq
  rw [onWire_self] at h
  refine ⟨p, ta, (readDrCycles s.driver.index.toNat).length, ?_⟩
  rw [readDataRegister32_eq hidx, h, List.append_assoc, List.drop_left' (by omega), List.take_left' (bitsOf_length v),
    wordOfBits_bitsOf]

/-- Settles O30: `readDataRegister32_queued`, whose cycles are those written out in `readDrCycles_eq`. -/
theorem readDrWord : Obligations.ReadDrWord := by
  intro s v pre post rest hidx hpre hpost hq
  obtain ⟨p, ta, n, h⟩ := readDataRegister32_queued hidx hpre hpost hq
  refine ⟨_, exec_readDr32 h, rfl, rfl, ?_, ?_, onWire_frame _ _ _ _ _ _ rfl rfl⟩
  · rw [← readDrCycles_eq]; rfl
  · show (s.trace ++ jtagRecords _ _ _).length = _
    rw [List.length_append, jtagRecords_length _ (readDrAnswer_length v hpre hpost), readDrCycles_length]
    rfl

/-! ### What the scans shift (R171, R176) -/

/-- The cycles that follow a transfer scan's head after the given ACK (R185). -/
def scanTail (d : Driver) (req : Byte) (w : Word) (ack : Byte) : List (Bool × Bool) :=
  if ack = ackOk then scanOkTail (d.chain.length - 1 - d.index.toNat) d.idleCycles.toNat req w
  else scanAbortTail d.idleCycles.toNat

theorem jrun_append (as bs : List (Bool × Bool)) (s : State) : (jrun (as ++ bs) s).2 = (jrun bs (jrun as s).2).2 := by
  induction as generalizing s with
  | nil => rfl
  | cons c cs ih => exact ih (jcycle c.1 c.2 s).2

/-- A transfer scan of a device of the chain, whatever answers it, runs its head and the tail that its ACK picks. -/
theorem jtagTransferScan_trace {s : State} (req : Byte) (w : Word)
    (hidx : s.driver.index.toNat < s.driver.chain.length) : ∃ ack v t, jtagTransferScan req w s = .ok (ack, v) t ∧
      t.trace = (jrun (scanHead s.driver.index.toNat req ++ scanTail s.driver req w ack) s).2.trace := by
  obtain ⟨e, he⟩ := selected_of_lt hidx
  rw [jtagTransferScan, he]
  simp only
  split <;> rename_i hack
  · exact ⟨_, _, _, rfl, by rw [jrun_append, scanTail, if_pos hack]⟩
  · exact ⟨_, _, _, rfl, by rw [jrun_append, scanTail, if_neg hack]; rfl⟩

/-- From Shift-DR an OK tail shifts the data and the bypass bits after the target, an aborted one a single bit. -/
theorem tdiShiftedIn_scanTail (d : Driver) (req : Byte) (w : Word) (ack : Byte) :
    tdiShiftedIn .shiftDr .shiftDr (scanTail d req w ack) =
        (if ack = ackOk then scanData req w ++ List.replicate (d.chain.length - 1 - d.index.toNat) true else [true]) ∧
      tdiShiftedIn .shiftIr .shiftDr (scanTail d req w ack) = [] := by
  unfold scanTail
  split
  · exact tdiShiftedIn_scanOkTail _ _ req w
  · exact tdiShiftedIn_scanAbortTail _

/-- Settles O29: each scan's records carry its cycles (`jrun_tmsTdi`), and those shift the bits named. -/
theorem scanBitsPlaced : Obligations.ScanBitsPlaced := by
  refine ⟨fun s ir d hd hir => ?_, fun s req w hidx => ?_, fun s hidx => ?_⟩
  · obtain ⟨cs, htrace, hcs⟩ := jrun_tmsTdi (setIrCycles d ir) s
    refine ⟨_, cs, exec_setIr ir hd, htrace, ?_⟩
    rw [hcs]
    exact tdiShiftedIn_setIr ir hir
  · obtain ⟨ack, v, t, h, hrun⟩ := jtagTransferScan_trace req w hidx
    obtain ⟨cs, htrace, hcs⟩ := jrun_tmsTdi (scanHead s.driver.index.toNat req ++ scanTail s.driver req w ack) s
    obtain ⟨hheadDr, hheadIr⟩ := tdiShiftedIn_scanHead s.driver.index.toNat req
    obtain ⟨htailDr, htailIr⟩ := tdiShiftedIn_scanTail s.driver req w ack
    refine ⟨_, cs, outcome_retPair h, hrun.trans htrace, ?_, ?_⟩ <;> rw [hcs, tdiShiftedIn_append, Tap.run_scanHead]
    · rw [hheadDr, htailDr]; rfl
    · rw [hheadIr, htailIr]; rfl
  · obtain ⟨cs, htrace, hcs⟩ := jrun_tmsTdi (readDrCycles s.driver.index.toNat) s
    refine ⟨_, cs, exec_readDr32 (readDataRegister32_eq hidx), htrace, ?_⟩
    rw [hcs]
    exact tdiShiftedIn_readDr _

end Sys2Proof.Machine
end

section
/-! Every scan, and every operation made of scans, leaves every TAP in Run-Test/Idle (R170). -/

namespace Sys2Proof.Machine

/-- What a scan needs to return to Run-Test/Idle: the TAPs start there, and no Set-IR shift is empty. -/
structure ScanReady (s : State) : Prop where
  lengths : ∀ d ∈ s.driver.chain, d.irLength ≠ 0#8
  taps : TapsIdle s

/-- A run of cycles that leads a TAP from Run-Test/Idle back to it. -/
theorem jrun_scanReady {cs : List (Bool × Bool)} {s : State} (h : ScanReady s)
    (hcs : Tap.run .runTestIdle (cs.map Prod.fst) = .runTestIdle) : ScanReady (jrun cs s).2 := by
  refine ⟨by rw [(jrun_frame cs s).driver]; exact h.lengths, fun t ht => ?_⟩
  rw [jrun_taps] at ht
  obtain ⟨t0, h0, rfl⟩ := List.mem_map.mp ht
  rw [h.taps t0 h0, hcs]

/-! ### The scans -/

theorem setInstructionRegister_scanReady (ir : Byte) {s : State} (h : ScanReady s) :
    (setInstructionRegister ir s).Ends ScanReady := by
  rw [setInstructionRegister]
  cases hd : selected s.driver with
  | some d => exact jrun_scanReady h (Tap.run_setIr ir (h.lengths d (selected_mem hd)))
  | none => trivial

theorem readDataRegister32_scanReady {s : State} (h : ScanReady s) : (readDataRegister32 s).Ends ScanReady := by
  rw [readDataRegister32]
  cases selected s.driver with
  | some d => exact jrun_scanReady h (Tap.run_readDr _)
  | none => trivial

theorem jtagTransferScan_scanReady (req : Byte) (w : Word) {s : State} (h : ScanReady s) :
    (jtagTransferScan req w s).Ends ScanReady :=
  Ends_mono (Ends_and (jtagTransferScan_moves req w s) (jtagTransferScan_taps req w h.taps)) fun _ ⟨hm, ht⟩ =>
    ⟨by rw [hm.frame.driver]; exact h.lengths, ht⟩

/-! ### Transfers, retries and match reads -/

theorem selectIr_scanReady (need : IrSel) {s : State} (h : ScanReady s) : (selectIr need s).Ends ScanReady := by
  unfold selectIr
  split
  · exact h
  · exact Ends_bind_same (setInstructionRegister_scanReady _ h) fun _ _ ht => ⟨ht.lengths, ht.taps⟩

theorem transfer_scanReady (req : Byte) (w : Word) {s : State} (h : ScanReady s) :
    (transfer req w s).Ends ScanReady := by
  unfold transfer
  split
  · exact Ends_mono (swdPacket_moves req w s) fun t ⟨hm, _⟩ =>
      ⟨by rw [hm.frame.driver]; exact h.lengths, by rw [TapsIdle, hm.taps]; exact h.taps⟩
  · exact Ends_bind_same (selectIr_scanReady _ h) fun _ _ ht => jtagTransferScan_scanReady req w ht
  · trivial

theorem retryLoop_scanReady (req : Byte) (w : Word) (n : Nat) {s : State} (h : ScanReady s) :
    (retryLoop req w n s).Ends ScanReady := by
  induction n generalizing s with
  | zero => exact transfer_scanReady req w h
  | succ n ih =>
    refine Ends_bind_same (transfer_scanReady req w h) fun r t ht => ?_
    split
    · exact ih ht
    · exact ht

theorem pollLoop_scanReady (req : Byte) (mv : Word) (n : Nat) {s : State} (h : ScanReady s) :
    (pollLoop req mv n s).Ends ScanReady := by
  induction n generalizing s with
  | zero =>
    refine Ends_bind_same (retryLoop_scanReady req _ _ h) fun r t ht => ?_
    split
    · exact ht
    · split <;> exact ht
  | succ n ih =>
    refine Ends_bind_same (retryLoop_scanReady req _ _ h) fun r t ht => ?_
    split
    · exact ht
    · split
      · exact ht
      · exact ih ht

theorem matchRead_scanReady (req : Byte) (mv : Word) {s : State} (h : ScanReady s) :
    (matchRead req mv s).Ends ScanReady := by
  unfold matchRead
  split
  · refine Ends_bind_same (retryLoop_scanReady req _ _ h) fun r t ht => ?_
    split
    · exact ht
    · exact pollLoop_scanReady req mv _ ht
  · exact pollLoop_scanReady req mv _ h

/-! ### As instructions -/

theorem takeFramingError_taps (e : FramingError) (s : State) : (takeFramingError e s).taps = s.taps := by
  rcases takeFramingError_cases e s with ⟨u, h, -, -, ht, -⟩ | ⟨h, -⟩ <;> rw [h]
  exact ht

theorem tapsIdle_of_outcome {r : Res Unit} {t : State} (hr : r.Ends ScanReady) (h : r.outcome = .next t) : TapsIdle t :=
  outcome_next_of_Ends h (Ends_mono hr fun _ hu => hu.taps) fun e u hu => by
    rw [TapsIdle, takeFramingError_taps]; exact hu

/-- Handing back what the operation returns moves no TAP. -/
theorem tapsIdle_of_returned {α : Type} {r : Res α} {k : α → State → Res Unit} {t : State} (hr : r.Ends ScanReady)
    (hk : ∀ a u, ∃ v, k a u = .ok () { u with ret := v }) (h : (r.bind k).outcome = .next t) : TapsIdle t := by
  refine tapsIdle_of_outcome (Ends_bind_same hr fun a u hu => ?_) h
  obtain ⟨v, hv⟩ := hk a u
  rw [hv]
  exact ⟨hu.lengths, hu.taps⟩

/-- Settles O33: every scan keeps `ScanReady`, and so does whatever is made of scans. -/
theorem scansReturnToIdle : Obligations.ScansReturnToIdle := by
  rintro s t i htaps hlengths h hi
  have hs : ScanReady s := ⟨hlengths, htaps⟩
  rcases hi with ⟨ir, rfl⟩ | rfl | ⟨q, w, rfl⟩ | ⟨q, w, rfl⟩ | ⟨q, w, rfl⟩ | ⟨q, v, rfl⟩
  · exact tapsIdle_of_outcome (setInstructionRegister_scanReady ir hs) h
  · exact tapsIdle_of_returned (readDataRegister32_scanReady hs) (fun _ _ => ⟨_, rfl⟩) h
  · exact tapsIdle_of_returned (jtagTransferScan_scanReady q w hs) (fun _ _ => ⟨_, rfl⟩) h
  · exact tapsIdle_of_returned (transfer_scanReady q w hs) (fun _ _ => ⟨_, rfl⟩) h
  · exact tapsIdle_of_returned (retryLoop_scanReady q w _ hs) (fun _ _ => ⟨_, rfl⟩) h
  · exact tapsIdle_of_returned (matchRead_scanReady q v hs) (fun _ _ => ⟨_, rfl⟩) h

end Sys2Proof.Machine
end

section
/-! The SWD read packet answered OK (R202, R205, R206), and what the wire operations leave when each is run as an
instruction of its own (R151, R200, R201). -/

namespace Sys2Proof.Machine

/-! ### The read packet (R202) -/

/-- A read packet takes 44 cycles, two turnarounds and the idle cycles. -/
theorem readPacket_length (d : Driver) (req : Byte) (v : Word) (p : Bool) :
    (readPacket d req v p).length = 44 + 2 * turnaround d + d.idleCycles.toNat := by
  simp only [readPacket, packetIdle, List.length_append, packetHead_length, writeRecords_length, releasedRecords_length,
    bitsOf_length, List.length_replicate, swdReadAnswer, List.length_cons, List.length_nil]
  omega

/-- Settles O35: the packet is `swdPacket_read`'s, whose result compares the parity bit with the word's. -/
theorem packetReads : Obligations.PacketReads := by
  intro s req w v p rest hr hd hq
  obtain ⟨p', hoe, hout, h⟩ := swdPacket_read s s.pins s.trace s.taps s.input s.free (w := w) hr hd hq
  rw [onWire_self] at h
  obtain ⟨t, he, hres, hdata, htrace, hleft, hpark, hframe⟩ := outcome_parked hoe hout h
  refine ⟨t, he, hres, hdata, htrace, ?_, hleft, hpark, hframe⟩
  rw [htrace, List.length_append, readPacket_length]
  omega

/-! ### No FramingError on the wire (R321) -/

/-- The operation ends in no FramingError. -/
def Res.NoFraming {α : Type} (r : Res α) : Prop := ∀ e t, r ≠ .framing e t

theorem noFraming_ok {α : Type} (a : α) (s : State) : (Res.ok a s).NoFraming := fun _ _ h => nomatch h

theorem noFraming_fault {α : Type} (f : Fault) : (Res.fault f : Res α).NoFraming := fun _ _ h => nomatch h

theorem noFraming_bind {α β : Type} {r : Res α} {k : α → State → Res β} (hr : r.NoFraming)
    (hk : ∀ a s, (k a s).NoFraming) : (r.bind k).NoFraming := by
  cases r with
  | ok a s => exact hk a s
  | framing e s => exact absurd rfl (hr e s)
  | fault f => exact noFraming_fault f

theorem swdPacket_noFraming (req : Byte) (w : Word) (s : State) : (swdPacket req w s).NoFraming :=
  fun _ _ => swdPacket_ne_framing

theorem setInstructionRegister_noFraming (ir : Byte) (s : State) : (setInstructionRegister ir s).NoFraming := by
  unfold setInstructionRegister
  split
  · exact noFraming_ok _ _
  · exact noFraming_fault _

theorem readDataRegister32_noFraming (s : State) : (readDataRegister32 s).NoFraming := by
  unfold readDataRegister32
  split
  · exact noFraming_ok _ _
  · exact noFraming_fault _

theorem jtagTransferScan_noFraming (req : Byte) (w : Word) (s : State) : (jtagTransferScan req w s).NoFraming := by
  unfold jtagTransferScan
  split
  · simp only
    split <;> exact noFraming_ok _ _
  · exact noFraming_fault _

theorem selectIr_noFraming (need : IrSel) (s : State) : (selectIr need s).NoFraming := by
  unfold selectIr
  split
  · exact noFraming_ok _ _
  · exact noFraming_bind (setInstructionRegister_noFraming _ s) fun _ _ => noFraming_ok _ _

theorem transfer_noFraming (req : Byte) (w : Word) (s : State) : (transfer req w s).NoFraming := by
  unfold transfer
  split
  · exact swdPacket_noFraming req w s
  · exact noFraming_bind (selectIr_noFraming _ s) fun _ t => jtagTransferScan_noFraming req w t
  · exact noFraming_fault _

theorem retryLoop_noFraming (req : Byte) (w : Word) (n : Nat) (s : State) : (retryLoop req w n s).NoFraming := by
  induction n generalizing s with
  | zero => exact transfer_noFraming req w s
  | succ n ih =>
    refine noFraming_bind (transfer_noFraming req w s) fun r t => ?_
    split
    · exact ih t
    · exact noFraming_ok _ _

theorem transferRetry_noFraming (req : Byte) (w : Word) (s : State) : (transferRetry req w s).NoFraming :=
  retryLoop_noFraming req w _ s

theorem pollLoop_noFraming (req : Byte) (mv : Word) (n : Nat) (s : State) : (pollLoop req mv n s).NoFraming := by
  induction n generalizing s with
  | zero =>
    refine noFraming_bind (transferRetry_noFraming req _ s) fun r t => ?_
    split
    · exact noFraming_ok _ _
    · split <;> exact noFraming_ok _ _
  | succ n ih =>
    refine noFraming_bind (transferRetry_noFraming req _ s) fun r t => ?_
    split
    · exact noFraming_ok _ _
    · split
      · exact noFraming_ok _ _
      · exact ih t

theorem matchRead_noFraming (req : Byte) (mv : Word) (s : State) : (matchRead req mv s).NoFraming := by
  unfold matchRead
  split
  · refine noFraming_bind (transferRetry_noFraming req _ s) fun r t => ?_
    split
    · exact noFraming_ok _ _
    · exact pollLoop_noFraming req mv _ t
  · exact pollLoop_noFraming req mv _ s

/-! ### What an instruction leaves but for the values it returns -/

/-- Every next state of the outcome satisfies `P`, once `ret` is put back to what it was in `s`. -/
def Leaves (s : State) (P : State → Prop) (o : Host.Outcome State Fault Refusal) : Prop :=
  ∀ t, o = .next t → P { t with ret := s.ret }

section
variable {s : State} {P : State → Prop} (hret : ∀ u, P u → u.ret = s.ret)
include hret

theorem leaves_next {u : State} (h : P u) (v : Returned) : Leaves s P (.next { u with ret := v }) := by
  rintro t ⟨⟩
  have hu : u.ret = s.ret := hret u h
  show P { u with ret := s.ret }
  rw [← hu]
  exact h

/-- An operation that hands back nothing. -/
theorem leaves_outcome {r : Res Unit} (hn : r.NoFraming) (h : r.Ends P) : Leaves s P r.outcome := by
  cases r with
  | ok a u => exact leaves_next hret h u.ret
  | framing e u => exact absurd rfl (hn e u)
  | fault f => rintro t ⟨⟩

/-- An operation that hands back what it computed. -/
theorem leaves_returned {α : Type} {r : Res α} {k : α → State → Res Unit} (hn : r.NoFraming) (h : r.Ends P)
    (hk : ∀ a u, ∃ v, k a u = .ok () { u with ret := v }) : Leaves s P (r.bind k).outcome := by
  cases r with
  | ok a u =>
    obtain ⟨v, hv⟩ := hk a u
    rw [bind_ok, hv]
    exact leaves_next hret h v
  | framing e u => exact absurd rfl (hn e u)
  | fault f => rintro t ⟨⟩

end

theorem Leaves.mono {s : State} {P Q : State → Prop} {o : Host.Outcome State Fault Refusal} (h : Leaves s P o)
    (hpq : ∀ u, P u → Q u) : Leaves s Q o := fun t ht => hpq _ (h t ht)

/-! ### The wire operations -/

/-- Only the wire side changed, and the trace grew with the delay in force. -/
structure WireMove (s t : State) : Prop where
  frame : WireFrame s t
  grows : TraceGrows s t

theorem SwdMove.wireMove {s t : State} (h : SwdMove s t) : WireMove s t := ⟨h.frame, h.grows⟩

theorem JtagMove.wireMove {s t : State} (h : JtagMove s t) : WireMove s t := ⟨h.frame, h.grows⟩

theorem readLevel_trace (l : Level) (s : State) : (readLevel l s).2.trace = s.trace := by
  obtain ⟨n, hn⟩ := readLevel_state l s
  rw [hn]

theorem drawSwdio_trace (s : State) : (drawSwdio s).2.trace = s.trace := by
  obtain ⟨q, hq⟩ := drawSwdio_state s
  rw [hq]

/-- Its one record carries the half-cycle delay in force also where the level of SWDIO_OE is unknown (R159). -/
theorem readWriteCycle_grows (b : Bool) (s : State) : TraceGrows s (readWriteCycle b s).2 :=
  ⟨_, congrArg (· ++ [_]) ((readLevel_trace _ _).trans (drawSwdio_trace _)), by simp [cycleDelay]⟩

/-- A packet clocks no TAP and leaves the line parked (R200, R201). -/
theorem exec_swdPacket_leaves (req : Byte) (w : Word) (s : State) :
    Leaves s (fun u => SwdMove s u ∧ Parked u) (exec (.swdPacket req w) s) :=
  leaves_returned (fun _ h => h.1.frame.ret) (swdPacket_noFraming req w s) (swdPacket_moves req w s) fun _ _ => ⟨_, rfl⟩

/-- The operations that change the wire side only: the packet and its header, the scans, the primitives. -/
theorem exec_wireMove {i : Instr}
    (hi : (∃ q w, i = .swdPacket q w) ∨ (∃ r, i = .swdHeader r) ∨ (∃ ir, i = .setIr ir) ∨ i = .readDr32 ∨
      (∃ q w, i = .jtagTransferScan q w) ∨ i = .clockCycle ∨ (∃ b, i = .writeCycle b) ∨ i = .readCycle ∨
      (∃ b, i = .readWriteCycle b) ∨ (∃ v, i = .swdOutEnable v) ∨ i = .swdOutDisable ∨ ∃ m d, i = .jcycle m d)
    (s : State) : Leaves s (WireMove s) (exec i s) := by
  have hret : ∀ u, WireMove s u → u.ret = s.ret := fun _ h => h.frame.ret
  rcases hi with ⟨req, w, rfl⟩ | ⟨r, rfl⟩ | ⟨ir, rfl⟩ | rfl | ⟨req, w, rfl⟩ | rfl | ⟨b, rfl⟩ | rfl | ⟨b, rfl⟩ | ⟨v, rfl⟩ |
    rfl | ⟨tms, tdi, rfl⟩
  · exact (exec_swdPacket_leaves req w s).mono fun _ h => h.1.wireMove
  · exact leaves_next hret ⟨writeBits_frame (bitsOf (headerByte r)) s, writeBits_grows _ s⟩ _
  · exact leaves_outcome hret (setInstructionRegister_noFraming ir s)
      (Ends_mono (setInstructionRegister_moves ir s) fun _ h => h.wireMove)
  · exact leaves_returned hret (readDataRegister32_noFraming s)
      (Ends_mono (readDataRegister32_moves s) fun _ h => h.wireMove) fun _ _ => ⟨_, rfl⟩
  · exact leaves_returned hret (jtagTransferScan_noFraming req w s)
      (Ends_mono (jtagTransferScan_moves req w s) fun _ h => h.wireMove) fun _ _ => ⟨_, rfl⟩
  · exact leaves_next hret ⟨clockCycles_frame 1 s, clockCycle_grows s⟩ _
  · exact leaves_next hret ⟨writeBits_frame [b] s, writeBits_grows [b] s⟩ _
  · exact leaves_next hret ⟨readCycle_frame s, readCycle_grows s⟩ _
  · exact leaves_next hret ⟨readWriteCycle_frame b s, readWriteCycle_grows b s⟩ _
  · exact leaves_outcome hret (fun _ _ => swdOutEnable_ne_framing)
      (Ends_mono (swdOutEnable_moves v s) fun _ h => h.1.wireMove)
  · exact leaves_outcome hret (fun _ _ => swdOutDisable_ne_framing)
      (Ends_mono (swdOutDisable_moves s) fun _ h => h.1.wireMove)
  · exact leaves_next hret ⟨jcycle_frame tms tdi s, jrun_grows [(tms, tdi)] s⟩ _

/-- The operations made of transfers, which may load the IR too (R230). -/
theorem exec_transferMove {i : Instr}
    (hi : (∃ q w, i = .transferOp q w) ∨ (∃ q w, i = .transferRetry q w) ∨ ∃ q v, i = .matchRead q v) (s : State) :
    Leaves s (TransferMove s) (exec i s) := by
  have hret : ∀ u, TransferMove s u → u.ret = s.ret := fun _ h => h.frame.ret
  rcases hi with ⟨req, w, rfl⟩ | ⟨req, w, rfl⟩ | ⟨req, mv, rfl⟩
  · exact leaves_returned hret (transfer_noFraming req w s) (transfer_moves req w s) fun _ _ => ⟨_, rfl⟩
  · exact leaves_returned hret (transferRetry_noFraming req w s) (transferRetry_moves req w s) fun _ _ => ⟨_, rfl⟩
  · exact leaves_returned hret (matchRead_noFraming req mv s) (matchRead_moves req mv s) fun _ _ => ⟨_, rfl⟩

/-- Settles O39: no wire operation ends in a FramingError, and each move's frame is what its instruction leaves. -/
theorem wireOperationsFrame : Obligations.WireOperationsFrame := by
  intro s t i h
  refine ⟨?_, fun hi => ?_, fun hi => ?_⟩
  · rintro ⟨req, w, rfl⟩
    obtain ⟨hmove, hpark⟩ := exec_swdPacket_leaves req w s t h
    exact ⟨hmove.taps, hpark⟩
  · obtain ⟨hframe, hgrows⟩ := exec_wireMove hi s t h
    exact ⟨hframe, hgrows⟩
  · have hmove := exec_transferMove hi s t h
    exact ⟨hmove.frame, hmove.grows⟩

end Sys2Proof.Machine
end

section
/-! A transfer and a match read run as instructions (R230, R247): what each answers and leaves, on SWD and on JTAG. -/

namespace Sys2Proof.Machine

/-! ### One transfer (R230) -/

theorem exec_transferOp (req : Byte) (w : Word) (s : State) :
    exec (.transferOp req w) s = ((transfer req w s).bind retPair).outcome := rfl

/-- A transfer on JTAG is the scan where the IR holds its space. -/
theorem transfer_jtagHeld {s : State} {req : Byte} {w : Word} (hp : s.driver.port = .jtag)
    (hir : s.work.irCache = some (spaceOf req)) : transfer req w s = jtagTransferScan req w s := by
  have hsel : selectIr (neededIr req) s = .ok () s := if_pos hir
  simp only [transfer, hp, hsel, bind_ok]

/-- The Set-IR scan before a transfer, where the IR does not hold its space. -/
theorem irLines_of_ne {d : Driver} {ir : Option IrSel} {req : Byte} {e : Device} (hir : ir ≠ some (spaceOf req))
    (he : selected d = some e) : irLines d ir req = setIrLines e (if req.getLsbD 0 then 0x0b#8 else 0x0a#8) := by
  have he' : d.chain[d.index.toNat]? = some e := he
  rw [irLines, if_neg hir, he']

/-- Settles O40: `transfer` by port, and on JTAG the Set-IR scan by what the IR holds. -/
theorem transferDispatches : Obligations.TransferDispatches := by
  refine ⟨?_, ?_, ?_, ?_, ?_⟩
  · intro s req w hp
    rw [exec_transferOp, transfer_swd hp]; rfl
  · intro s req w hp hir
    rw [exec_transferOp, transfer_jtagHeld hp hir]; rfl
  · intro s req w hp
    rw [exec_transferOp, transfer, hp]; rfl
  · intro s req w v e irs pre post rest hp hir he hirs hpre hpost hq
    have hlines := irLines_of_ne (req := req) hir he
    have hl : irs.length = (irLines s.driver s.work.irCache req).length := by
      rw [hirs, hlines, setIrLines_eq, setIrCycles_length]
    obtain ⟨hidx, -⟩ := List.getElem?_eq_some_iff.mp (he : s.driver.chain[s.driver.index.toNat]? = some e)
    obtain ⟨p, ta, n, h⟩ := transfer_jtagOk s.pins s.trace s.taps s.input s.free (w := w) hp hidx hl hpre hpost hq
    rw [onWire_self, jtagRecords_append _ hl.symm, hlines] at h
    obtain ⟨t, ht, hres, hdata, htrace, -, hwork, hframe⟩ := outcome_scanned (by rfl) (by rfl) h
    exact ⟨t, ht, hres, hdata, hwork, by rw [htrace, List.append_assoc], hframe.driver, hframe.mem⟩
  · intro s req w v rest hp hr hd hq
    obtain ⟨p, hoe, hout, h⟩ := swdPacket_read s s.pins s.trace s.taps s.input s.free (w := w) (pb := dataParity v) hr hd hq
    rw [onWire_self, ← transfer_swd hp, readResult, if_pos rfl] at h
    obtain ⟨t, ht, hres, hdata, -⟩ := outcome_parked hoe hout h
    exact ⟨t, ht, hres, hdata⟩

/-! ### Courses on SWD -/

section
variable {req : Byte} (hr : req.getLsbD 1 = true) (vs : List Word)
include hr

theorem swdAnswersOf_polls : swdAnswersOf (polls req vs) = vs.flatMap swdOkRead := by
  simp only [swdAnswersOf, polls, List.flatMap_map, hr, if_true]

theorem swdRecordsOf_polls (d : Driver) :
    swdRecordsOf d (polls req vs) = vs.flatMap fun x => readPacket d req x (dataParity x) := by
  simp only [swdRecordsOf, polls, List.flatMap_map, hr, if_true]

end

/-- What answers transfers on SWD, as it stands in `Answers`. -/
theorem answers_swd {s : State} {xs : List Access} {rest : List Bool} (hp : s.driver.port = .swd)
    (hd : s.input.dirFail = none) (hq : s.input.swdio = swdAnswersOf xs ++ rest) :
    Answers s xs (swdRecordsOf s.driver xs) rest := by
  unfold Answers
  rw [hp]
  exact ⟨hd, hq, rfl⟩

/-- What answers transfers on JTAG, as it stands in `Answers`. -/
theorem answers_jtag {s : State} {xs : List Access} {ans rest : List Bool} (hp : s.driver.port = .jtag)
    (hidx : s.driver.index.toNat < s.driver.chain.length) (ha : JtagAnswers s.driver s.work.irCache xs ans)
    (hq : s.input.tdo = ans ++ rest) :
    Answers s xs (jtagRecords (jtagLinesOf s.driver s.work.irCache xs) ans s.driver.halfDelay) rest := by
  unfold Answers
  rw [hp]
  exact ⟨hidx, ans, ha, hq, rfl⟩

theorem queue_swd {s : State} (hp : s.driver.port = .swd) : queue s = s.input.swdio := if_neg (by rw [hp]; decide)

theorem queue_jtag {s : State} (hp : s.driver.port = .jtag) : queue s = s.input.tdo := if_pos hp

/-- A DP's match read on SWD has no post step (R247). -/
theorem matchPost_dpSwd {s : State} {req : Byte} (hp : s.driver.port = .swd) (h0 : req.getLsbD 0 = false) (v : Word) :
    matchPost s req v = [] := if_neg (by rw [hp, h0]; decide)

/-! ### The match read (R247) -/

/-- A match read run as an instruction has ended with `code`; `cs` are the records it left. -/
structure MatchReadEnds (s t : State) (req code : Byte) (cs : List Cycle) (rest : List Bool) : Prop where
  res : t.ret.res = code
  trace : t.trace = s.trace ++ cs
  left : queue t = rest
  mem : t.mem = s.mem
  driver : t.driver = s.driver
  work : t.work = { s.work with irCache := irMove s req }

theorem MatchReadEnds.swdio {s t : State} {req code : Byte} {cs : List Cycle} {rest : List Bool}
    (h : MatchReadEnds s t req code cs rest) (hp : s.driver.port = .swd) : t.input.swdio = rest := by
  rw [← queue_swd (by rw [h.driver]; exact hp)]
  exact h.left

/-- As an instruction it hands back its code, and leaves all else as it is. -/
theorem exec_matchRead_ends {s u : State} {req code : Byte} {mv : Word} {cs : List Cycle} {rest : List Bool}
    (h : matchRead req mv s = .ok code u) (hw : Wired s u (irMove s req) cs) (hq : queue u = rest) :
    ∃ t, exec (.matchRead req mv) s = .next t ∧ MatchReadEnds s t req code cs rest := by
  have he : exec (.matchRead req mv) s = ((matchRead req mv s).bind retCode).outcome := rfl
  rw [h] at he
  exact ⟨_, he, rfl, hw.trace, hq, hw.mem, hw.driver, hw.work⟩

section
variable {s : State} {req : Byte} {mv v1 v : Word} {vs : List Word} {cs : List Cycle} {rest : List Bool}
  (hr : req.getLsbD 1 = true) (hv : ∀ x ∈ vs, x &&& s.driver.matchMask ≠ mv)
include hr hv

theorem exec_matchRead_matches (hl : vs.length ≤ s.driver.matchRetry.toNat) (hm : v &&& s.driver.matchMask = mv)
    (h : Answers s (matchPost s req v1 ++ polls req (vs ++ [v])) cs rest) :
    ∃ t, exec (.matchRead req mv) s = .next t ∧ MatchReadEnds s t req 1#8 cs rest := by
  have hc : Course s (matchPost s req v1 ++ polls req (vs ++ [v]) ++ []) none cs rest := by rwa [List.append_nil]
  obtain ⟨u, c, c', hu, rfl, hw, hdone⟩ := matchRead_course hc hr hl hv hm
  obtain ⟨rfl, hq⟩ := hdone.done
  exact exec_matchRead_ends hu (by rwa [List.append_nil]) hq

theorem exec_matchRead_exhausts (hl : vs.length = s.driver.matchRetry.toNat + 1)
    (h : Answers s (matchPost s req v1 ++ polls req vs) cs rest) :
    ∃ t, exec (.matchRead req mv) s = .next t ∧ MatchReadEnds s t req 0x11#8 cs rest := by
  have hc : Course s (matchPost s req v1 ++ polls req vs ++ []) none cs rest := by rwa [List.append_nil]
  obtain ⟨u, c, c', hu, rfl, hw, hdone⟩ := matchRead_exhausted hc hr hl hv
  obtain ⟨rfl, hq⟩ := hdone.done
  exact exec_matchRead_ends hu (by rwa [List.append_nil]) hq

/-- It fails at its first transfer or after the polls `vs`. -/
theorem exec_matchRead_fails {xs : List Access} {code : Byte} (hl : vs.length ≤ s.driver.matchRetry.toNat)
    (hxs : xs = [] ∨ xs = matchPost s req v1 ++ polls req vs) (h : AnswersThenFails s xs req code cs rest) :
    ∃ t, exec (.matchRead req mv) s = .next t ∧ MatchReadEnds s t req code cs rest := by
  rcases hxs with rfl | rfl
  · obtain ⟨u, hu, -, hw, hq⟩ := matchRead_fails (mv := mv) (h : Course s _ (some (req, code)) cs rest)
    exact exec_matchRead_ends hu hw hq
  · obtain ⟨u, hu, -, hw, hq⟩ := matchRead_pollFails (mv := mv) (h : Course s _ (some (req, code)) cs rest) hr hl hv
    exact exec_matchRead_ends hu hw hq

end

/-- Settles O42: the ways a match read ends, on either port; on SWD a DP's has polls only. -/
theorem matchReadPolls : Obligations.MatchReadPolls := by
  have dpSwd {s : State} {req : Byte} {vs : List Word} {rest : List Bool} (hp : s.driver.port = .swd)
      (h0 : req.getLsbD 0 = false) (hr : req.getLsbD 1 = true) (hd : s.input.dirFail = none)
      (hq : s.input.swdio = vs.flatMap swdOkRead ++ rest) :
      Answers s (matchPost s req 0#32 ++ polls req vs)
        (vs.flatMap fun x => readPacket s.driver req x (dataParity x)) rest := by
    rw [matchPost_dpSwd hp h0, List.nil_append, ← swdRecordsOf_polls hr]
    exact answers_swd hp hd (by rw [swdAnswersOf_polls hr]; exact hq)
  refine ⟨?_, ?_, ?_, ?_, ?_⟩
  · intro s req mv v vs rest hp h0 hr hd hl hv hm hq
    obtain ⟨t, ht, h⟩ := exec_matchRead_matches hr hv hl hm (dpSwd hp h0 hr hd hq)
    exact ⟨t, ht, h.res, h.swdio hp, h.mem, h.trace⟩
  · intro s req mv vs rest hp h0 hr hd hl hv hq
    obtain ⟨t, ht, h⟩ := exec_matchRead_exhausts hr hv hl (dpSwd hp h0 hr hd hq)
    exact ⟨t, ht, h.res, h.swdio hp, h.mem, h.trace⟩
  · intro s req mv v1 v vs cs rest hr hl hv hm ha
    obtain ⟨t, ht, h⟩ := exec_matchRead_matches hr hv hl hm ha
    exact ⟨t, ht, h.res, h.trace, h.left, h.mem, h.driver, h.work⟩
  · intro s req mv v1 vs cs rest hr hl hv ha
    obtain ⟨t, ht, h⟩ := exec_matchRead_exhausts hr hv hl ha
    exact ⟨t, ht, h.res, h.trace, h.left, h.mem, h.driver, h.work⟩
  · intro s req code mv v1 vs xs cs rest hr hl hv hxs ha
    obtain ⟨t, ht, h⟩ := exec_matchRead_fails hr hv hl hxs ha
    exact ⟨t, ht, h.res, h.trace, h.left, h.mem, h.driver, h.work⟩

end Sys2Proof.Machine
end

section
/-! What a request's transfers leave besides their records: on JTAG the IR holds the space of the last one (R232), and on SWD
the line is parked (R200). -/

namespace Sys2Proof.Machine

/-- What transfers begun in `s` leave in `t`, the last of them one of `req`. -/
structure Transferred (s : State) (req : Byte) (t : State) : Prop where
  port : t.driver.port = s.driver.port
  ir : t.work.irCache = irMove s req
  park : s.driver.port = .swd → Parked t

/-- Only the last transfer counts. -/
theorem Transferred.trans {s t u : State} {q r : Byte} (h : Transferred s q t) (k : Transferred t r u) :
    Transferred s r u := by
  refine ⟨k.port.trans h.port, ?_, fun hp => k.park (h.port.trans hp)⟩
  rw [k.ir, irMove, irMove, h.port, h.ir, irMove]
  split <;> rfl

/-- What leaves the port, the IR's content and the pins does not count. -/
theorem Transferred.of_eq {s t u : State} {q : Byte} (h : Transferred s q t) (hd : u.driver.port = t.driver.port)
    (hi : u.work.irCache = t.work.irCache) (hp : u.pins = t.pins) : Transferred s q u :=
  ⟨hd.trans h.port, hi.trans h.ir, fun hs => by rw [Parked, hp]; exact h.park hs⟩

/-! ### Transfers -/

theorem transfer_transferred {req : Byte} {w : Word} {s t : State} {r : Byte × Word}
    (h : transfer req w s = .ok r t) : Transferred s req t := by
  cases hp : s.driver.port with
  | swd =>
    have hm := swdPacket_moves req w s
    rw [← transfer_swd hp, h] at hm
    obtain ⟨hm, hpark⟩ := hm
    refine ⟨by rw [hm.frame.driver], ?_, fun _ => hpark⟩
    rw [hm.frame.work, irMove, if_neg (by rw [hp]; decide)]
  | jtag =>
    simp only [transfer, hp] at h
    obtain ⟨_, u, hu, h⟩ := bind_eq_ok.mp h
    have hsel : u.driver = s.driver ∧ u.work.irCache = some (neededIr req) := by
      unfold selectIr at hu
      split at hu
      · rename_i hir
        cases hu
        exact ⟨rfl, hir⟩
      · obtain ⟨_, v, hv, hu⟩ := bind_eq_ok.mp hu
        cases hu
        have hm := setInstructionRegister_moves (irValue (neededIr req)) s
        rw [hv] at hm
        exact ⟨hm.frame.driver, rfl⟩
    have hm := jtagTransferScan_moves req w u
    rw [h] at hm
    have hd : t.driver = s.driver := hm.frame.driver.trans hsel.1
    refine ⟨by rw [hd], ?_, fun hs => by rw [hp] at hs; cases hs⟩
    rw [hm.frame.work, hsel.2, irMove, if_pos hp]
    rfl
  | disabled =>
    simp only [transfer, hp] at h
    cases h

theorem transferRetry_transferred {req : Byte} {w : Word} {s t : State} {r : Byte × Word}
    (h : transferRetry req w s = .ok r t) : Transferred s req t := by
  suffices hn : ∀ n s, retryLoop req w n s = .ok r t → Transferred s req t from hn _ s h
  intro n
  induction n with
  | zero => exact fun s h => transfer_transferred h
  | succ n ih =>
    intro s h
    obtain ⟨x, u, hx, h⟩ := bind_eq_ok.mp h
    have hu := transfer_transferred hx
    split at h
    · exact hu.trans (ih u h)
    · cases h; exact hu

theorem pollLoop_transferred {req r : Byte} {mv : Word} {n : Nat} {s t : State} (h : pollLoop req mv n s = .ok r t) :
    Transferred s req t := by
  induction n generalizing s with
  | zero =>
    obtain ⟨x, u, hx, h⟩ := bind_eq_ok.mp h
    have hu := transferRetry_transferred hx
    split at h
    · cases h; exact hu
    · split at h <;> (cases h; exact hu)
  | succ n ih =>
    obtain ⟨x, u, hx, h⟩ := bind_eq_ok.mp h
    have hu := transferRetry_transferred hx
    split at h
    · cases h; exact hu
    · split at h
      · cases h; exact hu
      · exact hu.trans (ih h)

theorem matchRead_transferred {req r : Byte} {mv : Word} {s t : State} (h : matchRead req mv s = .ok r t) :
    Transferred s req t := by
  unfold matchRead at h
  split at h
  · obtain ⟨x, u, hx, h⟩ := bind_eq_ok.mp h
    have hu := transferRetry_transferred hx
    split at h
    · cases h; exact hu
    · exact hu.trans (pollLoop_transferred h)
  · exact pollLoop_transferred h

/-! ### The parts of a request -/

/-- `onOk` that has ended has gone on, or stopped with its code. -/
theorem onOk_eq_ok {r c : Byte} {s t : State} {k : State → Res Byte} (h : onOk r s k = .ok c t) :
    r = ackOk ∧ k s = .ok c t ∨ r ≠ ackOk ∧ c = r ∧ t = s := by
  unfold onOk at h
  split at h
  · rename_i hr; exact .inl ⟨hr, h⟩
  · rename_i hr; cases h; exact .inr ⟨hr, rfl, rfl⟩

/-- Writing a word to the response touches the response alone. -/
theorem respWrite4_eq_ok {v : Word} {s t : State} {r : Unit} (h : respWrite4 v s = .ok r t) :
    ∃ m, t = { s with mem := m } := by
  rcases respWrite_cases (bytes32 v) s with ⟨-, he⟩ | ⟨-, he⟩
  · rw [respWrite4, he] at h; cases h; exact ⟨_, rfl⟩
  · rw [respWrite4, he] at h; cases h

theorem writeCollected_eq_ok {x : Byte × Word} {c : Byte} {s t : State} (h : writeCollected x s = .ok c t) :
    ∃ m, t = { s with mem := m } := by
  rcases onOk_eq_ok h with ⟨-, h⟩ | ⟨-, -, rfl⟩
  · obtain ⟨_, u, hu, h⟩ := bind_eq_ok.mp h
    cases h
    exact respWrite4_eq_ok hu
  · exact ⟨_, rfl⟩

theorem collectSame_transferred {req r : Byte} {s t : State} (h : collectSame req s = .ok r t) :
    Transferred s req t := by
  obtain ⟨x, u, hx, h⟩ := bind_eq_ok.mp h
  obtain ⟨m, rfl⟩ := writeCollected_eq_ok h
  exact (transferRetry_transferred hx).of_eq rfl rfl rfl

theorem collectRdbuff_transferred {r : Byte} {s t : State} (h : collectRdbuff s = .ok r t) :
    Transferred s 0x0e#8 t ∧ t.work.postRead = false := by
  obtain ⟨x, u, hx, h⟩ := bind_eq_ok.mp h
  obtain ⟨m, rfl⟩ := writeCollected_eq_ok h
  exact ⟨(transferRetry_transferred hx).of_eq rfl rfl rfl, rfl⟩

/-- A plain read clocks its transfer, unless its word was collected in the one that posts it. -/
theorem plainRead_transferred {req r : Byte} {s t : State} (h : plainRead req s = .ok r t) :
    s.work.postRead = true ∧ t = s ∨ Transferred s req t := by
  unfold plainRead at h
  split at h
  · split at h
    · rename_i hp; cases h; exact .inl ⟨hp, rfl⟩
    · obtain ⟨x, u, hx, h⟩ := bind_eq_ok.mp h
      have hu := transferRetry_transferred hx
      rcases onOk_eq_ok h with ⟨-, h⟩ | ⟨-, -, rfl⟩
      · cases h; exact .inr (hu.of_eq rfl rfl rfl)
      · exact .inr hu
  · exact .inr (collectSame_transferred h)

/-- The first part of a read leaves the state as it is, or has clocked RDBUFF and cleared `post_read`, or the read itself. -/
theorem collectForRead_transferred {req r : Byte} {mv : Option Word} {s t : State}
    (h : collectForRead req mv s = .ok r t) : (s.work.postRead = false ∧ t = s ∧ r = ackOk) ∨
      (Transferred s 0x0e#8 t ∧ t.work.postRead = false) ∨ Transferred s req t := by
  unfold collectForRead at h
  split at h
  · split at h
    · exact .inr (.inr (collectSame_transferred h))
    · exact .inr (.inl (collectRdbuff_transferred h))
  · rename_i hp; cases h; exact .inl ⟨by simpa using hp, rfl, rfl⟩

/-- A read request that has ended has clocked a transfer, and where it ended OK the last one was its own. -/
theorem readRequest_transferred {req r : Byte} {mv : Option Word} {s t : State} (h : readRequest req mv s = .ok r t) :
    ∃ q, Transferred s q t ∧ (r = ackOk → q = req) := by
  obtain ⟨r1, u, hu, h⟩ := bind_eq_ok.mp h
  have hfirst := collectForRead_transferred hu
  rcases onOk_eq_ok h with ⟨rfl, h⟩ | ⟨hne, rfl, rfl⟩
  · obtain ⟨r2, v, hv, h⟩ := bind_eq_ok.mp h
    have hread : u.work.postRead = true ∧ v = u ∨ Transferred u req v := by
      cases mv with
      | some mv => exact .inr (matchRead_transferred hv)
      | none => exact plainRead_transferred hv
    have hown : Transferred s req v := by
      rcases hread with ⟨hp, rfl⟩ | hread
      · rcases hfirst with ⟨hn, he, -⟩ | ⟨-, hn⟩ | hq
        · rw [← he, hp] at hn; cases hn
        · rw [hp] at hn; cases hn
        · exact hq
      · rcases hfirst with ⟨-, rfl, -⟩ | ⟨hq, -⟩ | hq
        · exact hread
        · exact hq.trans hread
        · exact hq.trans hread
    refine ⟨req, ?_, fun _ => rfl⟩
    rcases onOk_eq_ok h with ⟨-, h⟩ | ⟨-, -, rfl⟩
    · cases h; exact hown.of_eq rfl rfl rfl
    · exact hown
  · rcases hfirst with ⟨-, -, h⟩ | ⟨hq, -⟩ | hq
    · exact absurd h hne
    · exact ⟨_, hq, fun h => absurd h hne⟩
    · exact ⟨_, hq, fun h => absurd h hne⟩

/-- The first part of a write leaves the state as it is, or has clocked RDBUFF. -/
theorem collectForWrite_transferred {r : Byte} {s t : State} (h : collectForWrite s = .ok r t) :
    (t = s ∧ r = ackOk) ∨ Transferred s 0x0e#8 t := by
  unfold collectForWrite at h
  split at h
  · obtain ⟨x, u, hx, h⟩ := bind_eq_ok.mp h
    have hu := collectSame_transferred hx
    rcases onOk_eq_ok h with ⟨-, h⟩ | ⟨-, -, rfl⟩
    · cases h; exact .inr (hu.of_eq rfl rfl rfl)
    · exact .inr hu
  · cases h; exact .inl ⟨rfl, rfl⟩

/-- The same of a write request. -/
theorem writeRequest_transferred {req r : Byte} {w : Word} {s t : State} (h : writeRequest req w s = .ok r t) :
    ∃ q, Transferred s q t ∧ (r = ackOk → q = req) := by
  obtain ⟨r1, u, hu, h⟩ := bind_eq_ok.mp h
  have hfirst := collectForWrite_transferred hu
  rcases onOk_eq_ok h with ⟨rfl, h⟩ | ⟨hne, rfl, rfl⟩
  · obtain ⟨x, v, hv, h⟩ := bind_eq_ok.mp h
    have hown : Transferred s req v := by
      rcases hfirst with ⟨rfl, -⟩ | hq
      · exact transferRetry_transferred hv
      · exact hq.trans (transferRetry_transferred hv)
    refine ⟨req, ?_, fun _ => rfl⟩
    rcases onOk_eq_ok h with ⟨-, h⟩ | ⟨-, -, rfl⟩
    · cases h
      split
      · exact hown.of_eq rfl rfl rfl
      · exact hown
    · exact hown
  · rcases hfirst with ⟨-, h⟩ | hq
    · exact absurd h hne
    · exact ⟨_, hq, fun h => absurd h hne⟩

/-! ### A request with others to come -/

theorem takeFramingError_phase (e : FramingError) (s : State) : (takeFramingError e s).phase = .idle := by
  unfold takeFramingError
  split <;> rfl

/-- The command is over after the epilogue. -/
theorem epilogue_phase {s t : State} (h : epilogue s = .ok () t) : t.phase ≠ .request := by
  obtain ⟨r, u, -, h⟩ := bind_eq_ok.mp h
  cases h
  intro hp
  rcases endCommand_phase (respPatch u.work.slotAck [r] (respPatch u.work.slotCompleted [u.work.completed] u)) with h | h
  · rw [h] at hp; cases hp
  · rw [h] at hp; cases hp

/-- After a request that leaves the Transfer going on its body has ended, and only the loop's variables changed since. -/
theorem runRequest_goesOn {body : State → Res Byte} {s t : State} (hd : s.work.draining = false)
    (h : runRequest body s = .next t) (hp : t.phase = .request) : ∃ r u, body s = .ok r u ∧ t.work.lastAck = r ∧
      t.pins = u.pins ∧ t.driver = u.driver ∧ t.work.irCache = u.work.irCache := by
  rw [runRequest, if_neg (by rw [hd]; decide)] at h
  rcases outcome_next h with h | ⟨e, u, -, rfl⟩
  · obtain ⟨r, u, hb, h⟩ := bind_eq_ok.mp h
    refine ⟨r, u, hb, ?_⟩
    unfold nextRequest at h
    simp only at h
    split at h
    · exact absurd hp (epilogue_phase h)
    · cases h
      unfold recordResult
      split <;> exact ⟨rfl, rfl, rfl, rfl⟩
  · rw [takeFramingError_phase] at hp
    cases hp

/-- After a plain request that has ended OK the last transfer was its own. -/
theorem plainRequest_transferred {s t : State} {i : Instr} {req : Byte} {w : Word} (hi : plainRequest i = some (req, w))
    (hd : s.work.draining = false) (h : exec i s = .next t) (hp : t.phase = .request) (hk : t.work.lastAck = ackOk) :
    Transferred s req t := by
  have key {body : State → Res Byte} (he : exec i s = runRequest body s)
      (hb : ∀ r u, body s = .ok r u → ∃ q, Transferred s q u ∧ (r = ackOk → q = req)) : Transferred s req t := by
    obtain ⟨r, u, hu, hack, hpins, hdriver, hir⟩ := runRequest_goesOn hd (he ▸ h) hp
    obtain ⟨q, hq, hown⟩ := hb r u hu
    rw [← hown (hack.symm.trans hk)]
    exact hq.of_eq (by rw [hdriver]) hir hpins
  rcases plainRequest_cases hi with ⟨-, -, -, -, he⟩ | ⟨-, -, -, he⟩
  · exact key (he s) fun _ _ => readRequest_transferred
  · exact key (he s) fun _ _ => writeRequest_transferred

end Sys2Proof.Machine
end

section
/-! A request that completes with others to come (R243, R244): plain reads and writes on either port, and MatchMask writes. -/

namespace Sys2Proof.Machine

/-! ### What is left -/

/-- A request has completed with this effect, others to come: `cs` are the records it left since `s`, `ir` is what the IR
holds. -/
structure RequestGoesOn (s t : State) (e : Effect) (ir : Option IrSel) (cs : List Cycle) (rest : List Bool) : Prop where
  mem : t.mem = { s.mem with resp := s.mem.resp ++ e.words.flatMap bytes32 }
  work : t.work = { s.work with irCache := ir, postRead := e.post, checkWrite := e.check,
                                completed := s.work.completed + 1#8, lastAck := 1#8, left := s.work.left - 1 }
  trace : t.trace = s.trace ++ cs
  phase : t.phase = .request
  driver : t.driver = { s.driver with matchMask := e.mask }
  left : queue t = rest

theorem RequestGoesOn.swdio {s t : State} {e : Effect} {ir : Option IrSel} {cs : List Cycle} {rest : List Bool}
    (h : RequestGoesOn s t e ir cs rest) (hp : s.driver.port = .swd) : t.input.swdio = rest := by
  rw [← queue_swd (by rw [h.driver]; exact hp)]
  exact h.left

theorem RequestGoesOn.tdo {s t : State} {e : Effect} {ir : Option IrSel} {cs : List Cycle} {rest : List Bool}
    (h : RequestGoesOn s t e ir cs rest) (hp : s.driver.port = .jtag) : t.input.tdo = rest := by
  rw [← queue_jtag (by rw [h.driver]; exact hp)]
  exact h.left

/-- A body that has completed, run as a request that is not the last. -/
theorem runRequest_goesOn_of {body : State → Res Byte} {s u : State} {e : Effect} {ir : Option IrSel} {cs : List Cycle}
    {rest : List Bool} (hd : s.work.draining = false) (hl : 2 ≤ s.work.left) (hb : body s = .ok ackOk u)
    (hw : Wired (effected s e) u ir cs) (hq : queue u = rest) :
    ∃ t, runRequest body s = .next t ∧ RequestGoesOn s t e ir cs rest ∧ t.pins = u.pins := by
  have hu : u.work = { s.work with postRead := e.post, checkWrite := e.check, irCache := ir } := hw.work
  refine ⟨_, runRequest_ok hd hb (by rw [hu]; exact hl), ⟨hw.mem, ?_, hw.trace, rfl, hw.driver, hq⟩, rfl⟩
  simp only [hu]

/-- What the IR holds after a request on SWD is what it held. -/
theorem irMove_swd {s : State} (hp : s.driver.port = .swd) (req : Byte) : irMove s req = s.work.irCache :=
  if_neg (by rw [hp]; decide)

theorem irMove_jtag {s : State} (hp : s.driver.port = .jtag) (req : Byte) : irMove s req = some (spaceOf req) :=
  if_pos hp

/-! ### Plain requests -/

/-- A plain request that completes, with others to come: the IR holds its space, and on SWD the line is parked. -/
theorem plainRequest_goesOn {s : State} {i : Instr} {req : Byte} {w : Word} {e : Effect} {cs : List Cycle}
    {rest : List Bool} (hi : plainRequest i = some (req, w)) (h : Completes s i e) (hd : s.work.draining = false)
    (hl : 2 ≤ s.work.left) (hf : Fits s (4 * e.words.length)) (ha : Answers s e.accesses cs rest) :
    ∃ t, exec i s = .next t ∧ RequestGoesOn s t e (irMove s req) cs rest ∧ (s.driver.port = .swd → Parked t) := by
  obtain ⟨body, u, ir, c, c', he, hb, rfl, hw, hc⟩ := h.body (ys := []) (f := none) (by rwa [List.append_nil]) hf
  obtain ⟨rfl, hq⟩ := hc.done
  obtain ⟨t, ht, hgo, -⟩ := runRequest_goesOn_of hd hl hb hw hq
  have hlast := plainRequest_transferred hi hd (he.trans ht) hgo.phase (by rw [hgo.work]; rfl)
  have hir : ir = irMove s req := by rw [← hlast.ir, hgo.work]
  exact ⟨t, he.trans ht, by rwa [hir, ← List.append_nil c] at hgo, hlast.park⟩

/-- The request bytes of reads and writes, by their bits. -/
theorem readByte_bits {ap : Bool} {a : RegAddr} {req : Byte}
    (h : req = (if ap then 0x03#8 else 0x02#8) ||| (a.zeroExtend 8 <<< 2)) :
    req.getLsbD 1 = true ∧ req.getLsbD 0 = ap := by
  subst h; revert ap a; decide

theorem writeByte_bits {ap : Bool} {a : RegAddr} {req : Byte}
    (h : req = (if ap then 1#8 else 0#8) ||| (a.zeroExtend 8 <<< 2)) :
    req.getLsbD 1 = false ∧ req.getLsbD 0 = ap := by
  subst h; revert ap a; decide

theorem plainRequest_readOf (ap : Bool) (a : RegAddr) : plainRequest (if ap then .apR a else .dpR a) =
    some ((if ap then 0x03#8 else 0x02#8) ||| (a.zeroExtend 8 <<< 2), 0#32) := by
  cases ap <;> rfl

theorem plainRequest_writeOf (ap : Bool) (a : RegAddr) (w : Word) : plainRequest (if ap then .apW a w else .dpW a w) =
    some ((if ap then 1#8 else 0#8) ||| (a.zeroExtend 8 <<< 2), w) := by
  revert a
  cases ap <;> (intro a; simp [plainRequest])

theorem spaceOf_bit {req : Byte} {ap : Bool} (h : req.getLsbD 0 = ap) : spaceOf req = if ap then .apacc else .dpacc := by
  rw [spaceOf, h]

/-! ### An outstanding read that is collected first -/

theorem swdAnswersOf_one (x : Access) :
    swdAnswersOf [x] = if x.req.getLsbD 1 = true then swdOkRead x.answer else swdOkWrite :=
  List.append_nil _

section
variable (s : State) (v : Word)

theorem swdAnswersOf_collectReads :
    swdAnswersOf (collectReads s v) = if s.work.postRead then swdOkRead v else [] := by
  unfold collectReads
  split
  · exact (swdAnswersOf_one _).trans (if_pos (by decide : (0x0e#8 : Byte).getLsbD 1 = true))
  · rfl

theorem swdRecordsOf_collectReads (d : Driver) :
    swdRecordsOf d (collectReads s v) = if s.work.postRead then readPacket d 0x0e#8 v (dataParity v) else [] := by
  unfold collectReads
  split
  · exact (swdRecordsOf_one d _).trans (if_pos (by decide : (0x0e#8 : Byte).getLsbD 1 = true))
  · rfl

theorem bytes_collectWords : (collectWords s v).flatMap bytes32 = if s.work.postRead then bytes32 v else [] := by
  unfold collectWords
  split
  · exact List.append_nil _
  · rfl

theorem collectWords_length : (collectWords s v).length ≤ 1 := by
  unfold collectWords
  split <;> simp

end

theorem Fits.mono {s : State} {n m : Nat} (h : Fits s n) (hm : m ≤ n) : Fits s m := by unfold Fits at *; omega

/-- The outstanding read's word fits. -/
theorem collectWords_fits4 {s : State} (h : Fits s 4) (v : Word) : Fits s (4 * (collectWords s v).length) :=
  h.mono (by have := collectWords_length s v; omega)

/-! ### The statements -/

/-- Settles O43: a DP read on SWD is `Completes.immediate`. -/
theorem dpReadImmediate : Obligations.DpReadImmediate := by
  intro s a v v0 rest hp hdir hd hl hf hq
  obtain ⟨hr, h0⟩ := readByte_bits (ap := false) (a := a) (req := 0x02#8 ||| (a.zeroExtend 8 <<< 2)) rfl
  have hc : Completes s (.dpR a) _ := .immediate _ _ v0 v rfl hr hp h0
  have hlen := collectWords_length s v0
  obtain ⟨t, ht, h, hpark⟩ := plainRequest_goesOn rfl hc hd hl (hf.mono (by simp; omega)) (answers_swd hp hdir (rest := rest)
    (by rw [hq, swdAnswersOf_append, swdAnswersOf_collectReads, swdAnswersOf_one, if_pos hr]))
  refine ⟨t, ht, ?_, ?_, ?_, h.phase, h.driver, h.swdio hp, hpark hp⟩
  · rw [h.mem, List.flatMap_append, bytes_collectWords, ← List.append_assoc]
    simp
  · rw [h.work, irMove_swd hp]
  · rw [h.trace, swdRecordsOf_append, swdRecordsOf_collectReads, swdRecordsOf_one, if_pos hr, ← List.append_assoc]

/-- Settles O44: an AP read on SWD collects the outstanding read itself, or is posted. -/
theorem apReadPosted : Obligations.ApReadPosted := by
  intro s a v rest hp hdir hd hl hf hq
  obtain ⟨hr, h0⟩ := readByte_bits (ap := true) (a := a) (req := 0x03#8 ||| (a.zeroExtend 8 <<< 2)) rfl
  have hc : Completes s (.apR a) ⟨[⟨0x03#8 ||| (a.zeroExtend 8 <<< 2), 0#32, v⟩], collectWords s v, true, false,
      s.driver.matchMask⟩ := by
    cases hpost : s.work.postRead with
    | true =>
      rw [collectWords, if_pos hpost]
      refine .collected _ _ v rfl hpost ?_
      rw [collectsOutstanding, if_neg (by rw [hp]; decide)]
      exact (congrArg₂ (· && ·) hr h0 :)
    | false =>
      have := Completes.posted (s := s) (.apR a) _ v v rfl hr (.inr h0) fun h => by rw [hpost] at h; cases h
      rwa [collectReads, if_neg (by rw [hpost]; decide), List.nil_append] at this
  obtain ⟨t, ht, h, hpark⟩ := plainRequest_goesOn rfl hc hd hl (collectWords_fits4 hf v) (answers_swd hp hdir (rest := rest)
    (by rw [hq, swdAnswersOf_one, if_pos hr]))
  refine ⟨t, ht, by rw [h.mem, bytes_collectWords], by rw [h.work, irMove_swd hp], ?_, h.phase, h.driver, h.swdio hp,
    hpark hp⟩
  rw [h.trace, swdRecordsOf_one, if_pos hr]

/-- Settles O45: on JTAG a read collects the outstanding read itself where the IR holds its space, else it is posted. -/
theorem jtagReadPosted : Obligations.JtagReadPosted := by
  intro s ap a v v1 ans rest req xs hp hidx hd hl hf hreq hxs ha hq
  obtain ⟨hr, h0⟩ := readByte_bits hreq
  have hi : plainRequest (if ap then .apR a else .dpR a) = some (req, 0#32) := hreq ▸ plainRequest_readOf ap a
  have hspace : spaceOf req = if ap then .apacc else .dpacc := spaceOf_bit h0
  have hco : collectsOutstanding s req = decide (s.work.irCache = some (spaceOf req)) := by
    rw [collectsOutstanding, hr, if_pos hp, Bool.true_and]
  rw [← hspace] at hxs ⊢
  generalize (if ap then Instr.apR a else .dpR a) = i at hi ⊢
  have hc : Completes s i ⟨xs, collectWords s v, true, false, s.driver.matchMask⟩ := by
    by_cases hpost : s.work.postRead = true
    · by_cases hir : s.work.irCache = some (spaceOf req)
      · rw [hxs, if_neg (fun h => h.2 hir), collectWords, if_pos hpost]
        exact .collected _ _ v hi hpost (by rw [hco]; exact decide_eq_true hir)
      · have := Completes.posted (s := s) _ req v v1 hi hr (.inl hp) fun _ => by rw [hco]; exact decide_eq_false hir
        rw [hxs, if_pos ⟨hpost, hir⟩]
        rwa [collectReads, if_pos hpost] at this
    · have := Completes.posted (s := s) _ req v v hi hr (.inl hp) fun h => absurd h hpost
      rw [hxs, if_neg (fun h => hpost h.1)]
      rwa [collectReads, if_neg hpost, List.nil_append] at this
  obtain ⟨t, ht, h, -⟩ := plainRequest_goesOn hi hc hd hl (collectWords_fits4 hf v) (answers_jtag hp hidx ha hq)
  exact ⟨t, ht, by rw [h.mem, bytes_collectWords], by rw [h.work, irMove_jtag hp], h.trace, h.phase, h.driver, h.tdo hp⟩

/-- Settles O46: a write is `Completes.written`, on either port. -/
theorem writeRequests : Obligations.WriteRequests := by
  refine ⟨?_, ?_⟩
  · intro s ap a w v0 rest hp hdir hd hl hf hq
    obtain ⟨hr, -⟩ := writeByte_bits (ap := ap) (a := a) rfl
    have hi := plainRequest_writeOf ap a w
    have hr' := hr ▸ Bool.false_ne_true
    obtain ⟨t, ht, h, hpark⟩ := plainRequest_goesOn hi (.written _ _ w v0 0#32 hi hr) hd hl (collectWords_fits4 hf v0)
      (answers_swd hp hdir (rest := rest)
        (by rw [hq, swdAnswersOf_append, swdAnswersOf_collectReads, swdAnswersOf_one, if_neg hr']))
    refine ⟨t, ht, by rw [h.mem, bytes_collectWords], ?_, ?_, h.phase, h.driver, h.swdio hp, hpark hp⟩
    · rw [h.work, irMove_swd hp, hp]; rfl
    · rw [h.trace, swdRecordsOf_append, swdRecordsOf_collectReads, swdRecordsOf_one, if_neg hr', ← List.append_assoc]
  · intro s ap a w v0 v1 ans rest xs hp hidx hd hl hf hxs ha hq
    obtain ⟨hr, h0⟩ := writeByte_bits (ap := ap) (a := a) rfl
    have hi := plainRequest_writeOf ap a w
    have hc := Completes.written (s := s) _ _ w v0 v1 hi hr
    rw [show collectReads s v0 ++ _ = xs from hxs.symm] at hc
    obtain ⟨t, ht, h, -⟩ := plainRequest_goesOn hi hc hd hl (collectWords_fits4 hf v0) (answers_jtag hp hidx ha hq)
    refine ⟨t, ht, by rw [h.mem, bytes_collectWords], ?_, h.trace, h.phase, h.driver, h.tdo hp⟩
    rw [h.work, irMove_jtag hp, spaceOf_bit h0, hp]
    rfl

/-- A MatchMask write after the outstanding read, where there is one, is collected. -/
theorem maskRequest_collects {s : State} {m v : Word} {cs : List Cycle} {rest : List Bool} (hf : Fits s 4)
    (ha : Answers s (collectReads s v) cs rest) : ∃ u, maskRequest m s = .ok ackOk u ∧
      Wired (effected s ⟨collectReads s v, collectWords s v, false, s.work.checkWrite, m⟩) u (irCollected s) cs ∧
      queue u = rest := by
  obtain ⟨t, c, c', ht, rfl, hw, hc⟩ := collectForWrite_course (xs := []) (f := none) (by rwa [List.append_nil])
    (collectWords_fits4 hf v)
  obtain ⟨rfl, hq⟩ := hc.done
  refine ⟨{ t with driver := { t.driver with matchMask := m } }, ?_, by rw [List.append_nil]; exact hw.withMask m, hq⟩
  rw [maskRequest, ht, bind_ok, onOk_ok]

/-- Settles O48: with no read outstanding a MatchMask write touches the mask alone; an outstanding one is collected first. -/
theorem maskLoads : Obligations.MaskLoads := by
  refine ⟨?_, ?_⟩
  · intro s w v0 rest hd hl hpost
    by_cases h1 : s.work.postRead = true
    · obtain ⟨hp, hdir, hf, hq⟩ := hpost h1
      obtain ⟨u, hu, hw, hleft⟩ := maskRequest_collects (m := w) hf (answers_swd (xs := collectReads s v0) hp hdir
        (by rw [swdAnswersOf_collectReads, if_pos h1]; exact hq))
      obtain ⟨t, ht, h, -⟩ := runRequest_goesOn_of hd hl hu hw hleft
      refine ⟨t, ht, h.driver, by rw [h.mem, bytes_collectWords], ?_, by rw [h.trace, swdRecordsOf_collectReads], h.phase⟩
      rw [h.work, irCollected, irMove_swd hp, ite_self]
    · obtain ⟨t, ht, h, -⟩ := runRequest_goesOn_of hd hl (maskRequest_alone w (by simpa using h1)) (.self _) rfl
      refine ⟨t, ht, h.driver, ?_, h.work, by rw [h.trace, if_neg h1], h.phase⟩
      rw [h.mem, if_neg h1]; rfl
  · intro s w v0 ans rest xs hp hidx hd hl h1 hf hxs ha hq
    obtain rfl : xs = collectReads s v0 := by rw [hxs, collectReads, if_pos h1]
    obtain ⟨u, hu, hw, hleft⟩ := maskRequest_collects (m := w) hf (answers_jtag hp hidx ha hq)
    obtain ⟨t, ht, h, -⟩ := runRequest_goesOn_of hd hl hu hw hleft
    refine ⟨t, ht, h.driver, by rw [h.mem, bytes_collectWords, if_pos h1], ?_, h.trace, h.phase, h.tdo hp⟩
    rw [h.work, irCollected, if_pos h1, irMove_jtag hp]
    rfl

end Sys2Proof.Machine
end

section
/-! A match read request (R247), on either port and with a read outstanding or none; and what a request that stops leaves, as
one with others to come and as the last one (R242). -/

namespace Sys2Proof.Machine

/-! ### A request that stops -/

/-- A request has stopped with `code`, others to come, which will be drained: it wrote the words `ws`, `post_read` is then
`post` and the IR holds `ir`; `cs` are the records it left since `s`. -/
structure RequestStops (s t : State) (ws : List Word) (post : Bool) (ir : Option IrSel) (code : Byte) (cs : List Cycle)
    (rest : List Bool) : Prop where
  mem : t.mem = { s.mem with resp := s.mem.resp ++ ws.flatMap bytes32 }
  work : t.work = { s.work with irCache := ir, postRead := post, lastAck := code, draining := true,
                                left := s.work.left - 1 }
  trace : t.trace = s.trace ++ cs
  phase : t.phase = .request
  driver : t.driver = s.driver
  left : queue t = rest

theorem endCommand_responds {s : State} (h : s.batch = none) : (endCommand s).phase = .respond := by
  unfold endCommand
  rw [h]
  rfl

section
variable {body : State → Res Byte} {s u : State} {ws : List Word} {post : Bool} {ir : Option IrSel} {code : Byte}
  {cs : List Cycle} {rest : List Bool} (hd : s.work.draining = false) (hb : body s = .ok code u) (hne : code ≠ ackOk)
  (hw : Wired (halted s ws post) u ir cs) (hq : queue u = rest)
include hd hb hne hw hq

theorem runRequest_stops_of (hl : 2 ≤ s.work.left) :
    ∃ t, runRequest body s = .next t ∧ RequestStops s t ws post ir code cs rest ∧ t.pins = u.pins := by
  have hu : u.work = { s.work with postRead := post, irCache := ir } := hw.work
  refine ⟨_, runRequest_failed hd hb hne (by rw [hu]; exact hl), ⟨hw.mem, ?_, hw.trace, rfl, hw.driver, hq⟩, rfl⟩
  simp only [hu]

/-- As the last request it ends the command, with no trailer. -/
theorem runRequest_stopsLast (hl : s.work.left = 1) :
    ∃ t, runRequest body s = .next t ∧ t.driver = s.driver ∧ TransferEnds s t ws s.work.completed code cs rest ∧
      t.pins = u.pins := by
  have hu : u.work = { s.work with postRead := post, irCache := ir } := hw.work
  refine ⟨_, runRequest_lastFailed hd hb hne (by rw [hu]; exact hl), ?_, ⟨?_, ?_, fun hn => ?_, ?_, ?_⟩, ?_⟩
  · rw [endCommand_driver]; exact hw.driver
  · simp only [endCommand_mem, respPatch_mem, hu, hw.mem]; rfl
  · exact endCommand_work _
  · exact endCommand_responds (hw.batch.trans hn)
  · rw [endCommand_trace]; exact hw.trace
  · rw [queue, endCommand_driver, endCommand_input]; exact hq
  · rw [endCommand_pins]; rfl

end

/-! ### The parts of a match read request -/

/-- A match read collects the outstanding read through RDBUFF, where there is one, and then comes its post step. -/
theorem collectForMatch_course {s : State} {req : Byte} {mv v0 v1 : Word} {xs : List Access}
    {f : Option (Byte × Byte)} {cs : List Cycle} {rest : List Bool} (hf : s.work.postRead = true → Fits s 4)
    (h : Course s (collectReads s v0 ++ matchPost s req v1 ++ xs) f cs rest) :
    ∃ t c cs', collectForRead req (some mv) s = .ok ackOk t ∧ cs = c ++ cs' ∧ Wired (collected s v0) t (irCollected s) c ∧
      irMove t req = irMove s req ∧ Course t (matchPost t req v1 ++ xs) f cs' rest := by
  rw [List.append_assoc] at h
  have key : ∃ t c cs', collectForRead req (some mv) s = .ok ackOk t ∧ cs = c ++ cs' ∧
      Wired (collected s v0) t (irCollected s) c ∧ Course t (matchPost s req v1 ++ xs) f cs' rest := by
    by_cases hp : s.work.postRead = true
    · exact collectForRead_course h (fun _ => collectsItself_match _ _ _) (collectWords_fits4 (hf hp) v0)
    · rw [collectReads, if_neg hp] at h
      exact ⟨s, [], cs, by rw [collectForRead, if_neg hp], rfl, .collected_self v0 (by simpa using hp), h⟩
  obtain ⟨t, c, cs', ht, hcs, hw, hc⟩ := key
  have hmp : matchPost t req v1 = matchPost s req v1 := by rw [matchPost, hw.driver]; rfl
  exact ⟨t, c, cs', ht, hcs, hw, (irMove_of_wired hw fun hp => irCollected_swd hp).trans rfl, by rwa [hmp]⟩

section
variable {s : State} {req : Byte} {mv v0 v1 v : Word} {vs : List Word} {cs : List Cycle} {rest : List Bool}
  (hr : req.getLsbD 1 = true) (hf : s.work.postRead = true → Fits s 4) (hv : ∀ x ∈ vs, x &&& s.driver.matchMask ≠ mv)
include hr hf hv

/-- A match read request whose last poll matches. -/
theorem readRequest_matches (hl : vs.length ≤ s.driver.matchRetry.toNat) (hm : v &&& s.driver.matchMask = mv)
    (h : Answers s (collectReads s v0 ++ matchPost s req v1 ++ polls req (vs ++ [v])) cs rest) :
    ∃ u, readRequest req (some mv) s = .ok ackOk u ∧
      Wired (effected s ⟨collectReads s v0 ++ matchPost s req v1 ++ polls req (vs ++ [v]), collectWords s v0, false, false,
        s.driver.matchMask⟩) u (irMove s req) cs ∧ queue u = rest := by
  obtain ⟨t, c, cs', ht, rfl, hw, hir, hc⟩ := collectForMatch_course (mv := mv) (f := none) hf h
  obtain ⟨u, c2, cs2, hu, rfl, hw2, hdone⟩ := matchRead_course (mv := mv) (xs := []) (by rwa [List.append_nil]) hr
    (by rw [hw.driver]; exact hl) (by rw [hw.driver]; exact hv) (by rw [hw.driver]; exact hm)
  obtain ⟨rfl, hq⟩ := hdone.done
  refine ⟨_, readRequest_of_parts ht hu, ?_, hq⟩
  rw [List.append_nil, ← hir]
  exact (hw.trans hw2).setCheckWrite false

/-- A match read request that has polled to the limit without a match. -/
theorem readRequest_exhausts (hl : vs.length = s.driver.matchRetry.toNat + 1)
    (h : Answers s (collectReads s v0 ++ matchPost s req v1 ++ polls req vs) cs rest) :
    ∃ u, readRequest req (some mv) s = .ok 0x11#8 u ∧ Wired (halted s (collectWords s v0) false) u (irMove s req) cs ∧
      queue u = rest := by
  obtain ⟨t, c, cs', ht, rfl, hw, hir, hc⟩ := collectForMatch_course (mv := mv) (f := none) hf h
  obtain ⟨u, c2, cs2, hu, rfl, hw2, hdone⟩ := matchRead_exhausted (mv := mv) (xs := []) (by rwa [List.append_nil]) hr
    (by rw [hw.driver]; exact hl) (by rw [hw.driver]; exact hv)
  obtain ⟨rfl, hq⟩ := hdone.done
  refine ⟨u, readRequest_stops ht hu (by decide), ?_, hq⟩
  rw [List.append_nil, ← hir]
  exact hw.trans hw2

end

/-! ### The match read request (R243, R244) -/

theorem matchRequest_of (ap : Bool) (a : RegAddr) (mv : Word) : matchRequest (if ap then .apRM a mv else .dpRM a mv) =
    some ((if ap then 0x03#8 else 0x02#8) ||| (a.zeroExtend 8 <<< 2), mv) := by
  cases ap <;> rfl

section
variable {s : State} {ap : Bool} {req : Byte} (hp : s.driver.port = .swd) (hr : req.getLsbD 1 = true)
  (h0 : req.getLsbD 0 = ap)
include hp h0

theorem matchPost_swd (v : Word) : matchPost s req v = if ap then polls req [v] else [] := by
  rw [matchPost, hp, h0]
  cases ap <;> rfl

include hr

theorem swdAnswersOf_matchPost (v : Word) : swdAnswersOf (matchPost s req v) = if ap then swdOkRead v else [] := by
  rw [matchPost_swd hp h0]
  cases ap
  · rfl
  · exact (swdAnswersOf_polls hr [v]).trans (List.append_nil _)

theorem swdRecordsOf_matchPost (v : Word) (d : Driver) :
    swdRecordsOf d (matchPost s req v) = if ap then readPacket d req v (dataParity v) else [] := by
  rw [matchPost_swd hp h0]
  cases ap
  · rfl
  · exact (swdRecordsOf_polls hr [v] d).trans (List.append_nil _)

/-- A match read request on SWD, with no read outstanding, whose first poll is answered `v`. -/
theorem answers_matchSwd {v v0 : Word} {rest : List Bool} (hd : s.input.dirFail = none)
    (hpost : s.work.postRead = false)
    (hq : s.input.swdio = (if ap then swdOkRead v0 else []) ++ swdOkRead v ++ rest) :
    Answers s (collectReads s 0#32 ++ matchPost s req v0 ++ polls req [v])
      ((if ap then readPacket s.driver req v0 (dataParity v0) else []) ++ readPacket s.driver req v (dataParity v)) rest := by
  have hreads : collectReads s 0#32 = [] := if_neg (by rw [hpost]; decide)
  have h := answers_swd (xs := matchPost s req v0 ++ polls req [v]) hp hd
    (by rw [hq, swdAnswersOf_append, swdAnswersOf_matchPost hp hr h0, swdAnswersOf_polls hr, List.flatMap_singleton])
  rwa [swdRecordsOf_append, swdRecordsOf_matchPost hp hr h0, swdRecordsOf_polls hr, List.flatMap_singleton,
    ← List.nil_append (matchPost s req v0), ← hreads] at h

end

/-- Settles O47: a match read request collects, posts and polls (`readRequest_matches`), or stops (`readRequest_exhausts`). -/
theorem matchRequests : Obligations.MatchRequests := by
  refine ⟨?_, ?_, ?_, ?_⟩
  · intro s ap a mv v v0 rest req hp hdir hd hpost hl hm hreq hq
    obtain ⟨hr, h0⟩ := readByte_bits hreq
    obtain ⟨-, he⟩ := matchRequest_cases (hreq ▸ matchRequest_of ap a mv)
    obtain ⟨u, hu, hw, hleft⟩ := readRequest_matches (vs := []) hr (fun h => by rw [hpost] at h; cases h) (by simp)
      (Nat.zero_le _) hm (answers_matchSwd hp hr h0 hdir hpost hq)
    obtain ⟨t, ht, h, hpins⟩ := runRequest_goesOn_of hd hl hu hw hleft
    obtain ⟨q, htr, -⟩ := readRequest_transferred hu
    refine ⟨t, (he s).trans ht, ?_, ?_, by rw [h.trace, List.append_assoc], h.phase, h.driver, h.swdio hp,
      by rw [Parked, hpins]; exact htr.park hp⟩
    · rw [h.mem, bytes_collectWords, if_neg (by rw [hpost]; decide), List.append_nil]
    · rw [h.work, irMove_swd hp, ← hpost]
  · intro s ap a mv v v0 rest req hp hdir hd hpost hl hretry hm hreq hq
    obtain ⟨hr, h0⟩ := readByte_bits hreq
    obtain ⟨-, he⟩ := matchRequest_cases (hreq ▸ matchRequest_of ap a mv)
    obtain ⟨u, hu, hw, hleft⟩ := readRequest_exhausts (vs := [v]) hr (fun h => by rw [hpost] at h; cases h)
      (by simpa using hm) (by rw [hretry]; rfl) (answers_matchSwd hp hr h0 hdir hpost hq)
    obtain ⟨t, ht, h, -⟩ := runRequest_stops_of hd hu (by decide) hw hleft hl
    refine ⟨t, (he s).trans ht, ?_, ?_, by rw [h.trace, List.append_assoc], h.phase, h.driver, ?_⟩
    · rw [h.mem, bytes_collectWords, if_neg (by rw [hpost]; decide), List.append_nil]
    · rw [h.work, irMove_swd hp, ← hpost]
    · rw [← queue_swd (by rw [h.driver]; exact hp)]; exact h.left
  · intro s i req mv v0 v1 v vs cs rest hi hd hl hf hvs hv hm ha
    obtain ⟨hr, he⟩ := matchRequest_cases hi
    obtain ⟨u, hu, hw, hleft⟩ := readRequest_matches hr (fun _ => hf) hv hvs hm ha
    obtain ⟨t, ht, h, -⟩ := runRequest_goesOn_of hd hl hu hw hleft
    exact ⟨t, (he s).trans ht, by rw [h.mem, bytes_collectWords], h.work, h.trace, h.phase, h.driver, h.left⟩
  · intro s i req mv v0 v1 vs cs rest hi hd hf hvs hv ha
    obtain ⟨hr, he⟩ := matchRequest_cases hi
    obtain ⟨u, hu, hw, hleft⟩ := readRequest_exhausts hr (fun _ => hf) hv hvs ha
    refine ⟨fun hl => ?_, fun hl => ?_⟩
    · obtain ⟨t, ht, h, -⟩ := runRequest_stops_of hd hu (by decide) hw hleft hl
      exact ⟨t, (he s).trans ht, by rw [h.mem, bytes_collectWords], h.work, h.trace, h.phase, h.driver, h.left⟩
    · obtain ⟨t, ht, hdr, h, -⟩ := runRequest_stopsLast hd hu (by decide) hw hleft hl
      exact ⟨t, (he s).trans ht, hdr, h⟩

end Sys2Proof.Machine
end

section
/-! A request that stops at a transfer that fails (R231, R242), at its first one or at a later one, and requests that are
drained (R240, R242). -/

namespace Sys2Proof.Machine

/-! ### The first transfer of a plain request fails -/

/-- A failing transfer with none before it on SWD, as it stands in `AnswersThenFails`. -/
theorem course_swdFails {s : State} {req code : Byte} {bad rest : List Bool} {cs : List Cycle} (hp : s.driver.port = .swd)
    (hd : s.input.dirFail = none) (h : SwdFails s.driver req s.driver.waitRetry.toNat bad cs code)
    (hq : s.input.swdio = bad ++ rest) : Course s [] (some (req, code)) cs rest := by
  simp only [Course, AnswersThenFails, hp]
  exact ⟨hd, bad, cs, h, hq, rfl⟩

/-- A failing transfer with none before it on JTAG. -/
theorem course_jtagFails {s : State} {req code : Byte} {bad rest : List Bool} {cs : List (Bool × Bool)}
    (hp : s.driver.port = .jtag) (hidx : s.driver.index.toNat < s.driver.chain.length)
    (h : JtagFails s.driver req s.driver.waitRetry.toNat s.work.irCache bad cs code) (hq : s.input.tdo = bad ++ rest) :
    Course s [] (some (req, code)) (jtagRecords cs bad s.driver.halfDelay) rest := by
  simp only [Course, AnswersThenFails, hp]
  exact ⟨hidx, [], bad, cs, rfl, h, hq, rfl⟩

section
variable {s : State} {req code : Byte} {cs : List Cycle} {rest : List Bool}
  (h : Course s [] (some (firstTransfer s req, code)) cs rest)
include h

/-- A read stops at RDBUFF, or at its own transfer, which may be the one that collects. -/
theorem readRequest_firstFails (hr : req.getLsbD 1 = true) : ∃ u, readRequest req none s = .ok code u ∧ code ≠ ackOk ∧
    Wired (halted s [] (s.work.postRead && collectsOutstanding s req)) u (irMove s (firstTransfer s req)) cs ∧
      queue u = rest := by
  obtain ⟨t, d, ht, hne, hw, hq⟩ := h.fails 0#32
  have hself := collectsItself_eq h.port hr
  cases hp : s.work.postRead with
  | true =>
    cases hco : collectsOutstanding s req with
    | true =>
      rw [show firstTransfer s req = req by rw [firstTransfer, hp, hco]; rfl] at ht hw ⊢
      refine ⟨t, readRequest_collectFails ?_ hne, hne, by rw [Bool.true_and, halted_nil hp]; exact hw, hq⟩
      rw [collectForRead, if_pos hp, if_pos (hself.trans hco), collectSame, ht, bind_ok, writeCollected_ne hne]
    | false =>
      rw [show firstTransfer s req = 0x0e#8 by rw [firstTransfer, hp, hco]; rfl] at ht hw ⊢
      refine ⟨setPostRead false t, readRequest_collectFails ?_ hne, hne, ?_, hq⟩
      · rw [collectForRead, if_pos hp, if_neg (by rw [hself, hco]; decide), collectRdbuff_fails ht hne]
      · have hcleared := hw.setPostRead false
        rwa [show setPostRead false s = halted s [] false by simp [halted, setPostRead]] at hcleared
  | false =>
    rw [show firstTransfer s req = req by rw [firstTransfer, hp]; rfl] at ht hw ⊢
    refine ⟨t, readRequest_stops (t := s) ?_ (plainRead_fails hp ht hne) hne, hne, by rw [Bool.false_and, halted_nil hp]; exact hw, hq⟩
    rw [collectForRead, if_neg (by rw [hp]; decide)]

/-- A write stops at RDBUFF, where `post_read` is not yet cleared, or at its own transfer. -/
theorem writeRequest_firstFails (hr : req.getLsbD 1 = false) (w : Word) : ∃ u, writeRequest req w s = .ok code u ∧
    code ≠ ackOk ∧ Wired s u (irMove s (firstTransfer s req)) cs ∧ queue u = rest := by
  obtain ⟨t, d, ht, hne, hw, hq⟩ := h.fails (if s.work.postRead then 0#32 else w)
  refine ⟨t, ?_, hne, hw, hq⟩
  cases hp : s.work.postRead with
  | true =>
    have hfirst : firstTransfer s req = 0x0e#8 := by rw [firstTransfer, hp, collectsOutstanding, hr]; rfl
    rw [hfirst, hp] at ht
    rw [writeRequest, collectForWrite_fails hp ht hne, bind_ok, onOk_ne _ _ hne]
  | false =>
    rw [show firstTransfer s req = req by rw [firstTransfer, hp]; rfl, hp] at ht
    rw [writeRequest, collectForWrite, if_neg (by rw [hp]; decide), bind_ok, onOk_ok]
    rw [if_neg (by decide)] at ht
    rw [ht, bind_ok, onOk_ne _ _ hne]

/-- A plain request whose first transfer fails: nothing is written, and on SWD the line is parked. -/
theorem plainRequest_firstFails {i : Instr} {w : Word} (hi : plainRequest i = some (req, w)) :
    ∃ body u, exec i s = runRequest body s ∧ body s = .ok code u ∧ code ≠ ackOk ∧
      Wired (halted s [] (s.work.postRead && (collectsOutstanding s req || !req.getLsbD 1))) u
        (irMove s (firstTransfer s req)) cs ∧ queue u = rest ∧ (s.driver.port = .swd → Parked u) := by
  cases hr : req.getLsbD 1 with
  | true =>
    obtain ⟨u, hu, hne, hw, hq⟩ := readRequest_firstFails h hr
    obtain ⟨q, htr, -⟩ := readRequest_transferred hu
    exact ⟨_, u, plainRequest_read hi hr s, hu, hne, by rwa [Bool.not_true, Bool.or_false], hq, htr.park⟩
  | false =>
    obtain ⟨u, hu, hne, hw, hq⟩ := writeRequest_firstFails h hr w
    obtain ⟨q, htr, -⟩ := writeRequest_transferred hu
    exact ⟨_, u, plainRequest_write hi hr s, hu, hne,
      by rwa [Bool.not_false, Bool.or_true, Bool.and_true, halted_nil rfl], hq, htr.park⟩

end

/-! ### Drained requests -/

/-- A drained request changes the loop's count alone, and the last one ends the command (R240, R242). -/
theorem exec_drained {s : State} {i : Instr} (hi : i.context = some .request) (hd : s.work.draining = true) :
    (2 ≤ s.work.left →
      exec i s = .next { s with work := { s.work with left := s.work.left - 1 }, phase := .request }) ∧
    (s.work.left = 1 → s.work.lastAck ≠ ackOk →
      exec i s = .next (endCommand { s with mem := { s.mem with
        resp := overwrite s.work.slotAck [s.work.lastAck]
          (overwrite s.work.slotCompleted [s.work.completed] s.mem.resp) } })) := by
  obtain ⟨body, he, -⟩ := exec_request hi
  have hrun : exec i s = (nextRequest s).outcome := by rw [he, runRequest, if_pos hd]
  refine ⟨fun hl => ?_, fun hl hne => ?_⟩
  · rw [hrun, nextRequest, if_neg (by simp only; omega), outcome_ok]
  · rw [hrun, nextRequest, if_pos (by simp only; omega),
      epilogue_of_notOk (s := { s with work := { s.work with left := s.work.left - 1 } }) hne, outcome_ok]
    unfold endCommand respPatch
    simp only
    split <;> rfl

/-- Settles O49: where a request stops its code is recorded (`runRequest_stops_of`) or ends the command
(`runRequest_stopsLast`). -/
theorem drainedRequests : Obligations.DrainedRequests := by
  refine ⟨?_, ?_, ?_, ?_⟩
  · intro s i req code w bad rest cs hi hp hdir hd hbad hq
    obtain ⟨body, u, he, hb, hne, hw, hleft, hpark⟩ := plainRequest_firstFails (course_swdFails hp hdir hbad hq) hi
    refine ⟨fun hl => ?_, fun hl => ?_⟩
    · obtain ⟨t, ht, h, hpins⟩ := runRequest_stops_of hd hb hne hw hleft hl
      refine ⟨t, he.trans ht, by simpa using h.mem, by rw [h.work, irMove_swd hp], h.trace, h.phase, h.driver, ?_,
        by rw [Parked, hpins]; exact hpark hp⟩
      rw [← queue_swd (by rw [h.driver]; exact hp)]; exact h.left
    · obtain ⟨t, ht, hdr, h, hpins⟩ := runRequest_stopsLast hd hb hne hw hleft hl
      refine ⟨t, he.trans ht, by simpa using h.mem, h.work, h.phase, h.trace, hdr, ?_,
        by rw [Parked, hpins]; exact hpark hp⟩
      rw [← queue_swd (by rw [hdr]; exact hp)]; exact h.left
  · intro s i req code w bad rest cs hi hp hidx hd hbad hq
    obtain ⟨body, u, he, hb, hne, hw, hleft, -⟩ := plainRequest_firstFails (course_jtagFails hp hidx hbad hq) hi
    refine ⟨fun hl => ?_, fun hl => ?_⟩
    · obtain ⟨t, ht, h, -⟩ := runRequest_stops_of hd hb hne hw hleft hl
      refine ⟨t, he.trans ht, by simpa using h.mem, by rw [h.work, irMove_jtag hp], h.trace, h.phase, h.driver, ?_⟩
      rw [← queue_jtag (by rw [h.driver]; exact hp)]; exact h.left
    · obtain ⟨t, ht, hdr, h, -⟩ := runRequest_stopsLast hd hb hne hw hleft hl
      refine ⟨t, he.trans ht, by simpa using h.mem, h.work, h.phase, h.trace, hdr, ?_⟩
      rw [← queue_jtag (by rw [hdr]; exact hp)]; exact h.left
  · intro s i xs ws post req code cs rest hs hd hf ha
    obtain ⟨body, u, he, hb, hne, hw, hleft⟩ := hs.body (code := code) ha hf
    refine ⟨fun hl => ?_, fun hl => ?_⟩
    · obtain ⟨t, ht, h, -⟩ := runRequest_stops_of hd hb hne hw hleft hl
      exact ⟨t, he.trans ht, h.mem, h.work, h.trace, h.phase, h.driver, h.left⟩
    · obtain ⟨t, ht, hdr, h, -⟩ := runRequest_stopsLast hd hb hne hw hleft hl
      exact ⟨t, he.trans ht, hdr, h⟩
  · exact fun s i hi hd => exec_drained hi hd

end Sys2Proof.Machine
end

section
/-! Transfer Block (R260, R261): its header, the blocks that clock nothing, and a read block as a whole, answered OK or
failing. -/

namespace Sys2Proof.Machine

/-- Settles O52: the header's step writes the working state and the phase alone. -/
theorem blockHeader : Obligations.BlockHeader :=
  fun _ _ _ => ⟨_, rfl, rfl, rfl, rfl, rfl, rfl, ⟨rfl, rfl, rfl, rfl, rfl, rfl, rfl, rfl⟩⟩

/-! ### Blocks that clock nothing (R260, R323) -/

/-- TB_READ is the block of a read request byte. -/
theorem exec_tbRead {ap : Bool} {a : RegAddr} {req : Byte}
    (h : req = (if ap then 0x03#8 else 0x02#8) ||| (a.zeroExtend 8 <<< 2)) (s : State) :
    exec (.tbRead ap a) s = runBlock req s := by
  have hreq : (if ap then 0x03#8 else 0x02#8) ||| (a.zeroExtend 8 <<< 2) = portRequest ap true a := by
    clear h; revert ap a; decide
  rw [h, hreq]
  rfl

/-- Code and slots go to the response, and nothing moves. -/
theorem blockStart_quiet (s : State) : QuietFrame s (blockStart s) := ⟨rfl, rfl, rfl, rfl, rfl, rfl, rfl, rfl⟩

theorem blockReady_quiet (s : State) : QuietFrame s (blockReady s) := by
  unfold blockReady selectIndex
  split <;> exact ⟨rfl, rfl, rfl, rfl, rfl, rfl, rfl, rfl⟩

/-- A block whose body has no words to answer. -/
theorem runBlock_empty {req : Byte} {s u : State} (hf : Fits s 4) (hb : blockBody req (blockStart s) = .ok (0#8, 0#16) u)
    (hq : QuietFrame s u) (hm : u.mem.resp = (blockStart s).mem.resp) : ∃ t, runBlock req s = .next t ∧ QuietFrame s t ∧
      t.driver = u.driver ∧ t.mem = { u.mem with resp := s.mem.resp ++ [0x06#8, 0#8, 0#8, 0#8] } ∧
      t.work = Work.initial ∧ (u.batch = none → t.phase = .respond) := by
  obtain ⟨t, ht, hmem, hquiet, hdriver, hwork, hphase⟩ := runBlock_of_body (m := []) hf hb (by rw [hm, List.append_nil])
  exact ⟨t, ht, hq.trans hquiet, hdriver, by simpa [bytes16] using hmem, hwork, hphase⟩

/-- The body of a block whose precondition fails. -/
theorem blockBody_notReady {req : Byte} {s : State} (h : preconditionFails s.work.blockIndex s.driver = true) :
    blockBody req (blockStart s) = blockDrain (reqRnW req) s.work.blockCount.toNat (blockStart s) :=
  if_pos h

/-- The body of a block of count 0 on a ready port. -/
theorem blockBody_countZero {req : Byte} {s : State} (hp : preconditionFails s.work.blockIndex s.driver = false)
    (hn : s.work.blockCount = 0#16) : blockBody req (blockStart s) = .ok (0#8, 0#16) (blockReady s) := by
  have hc : (blockReady s).work.blockCount = 0#16 := by rw [blockReady_work]; exact hn
  have hbody : blockBody req (blockStart s) = blockDrain (reqRnW req) 0 (blockReady s) :=
    (if_neg (by rw [show preconditionFails (blockStart s).work.blockIndex (blockStart s).driver = false from hp]; decide)).trans
      (if_pos hc)
  rw [hbody, blockDrain]
  split <;> rfl

/-- Settles O55: neither body clocks a cycle (`blockBody_notReady`, `blockBody_countZero`). -/
theorem blockPrecondition : Obligations.BlockPrecondition := by
  refine ⟨?_, ?_⟩
  · intro s ap a hf hp
    have hbody := fun req => blockBody_notReady (req := req) (s := s) (by rw [preconditionFails_eq]; exact decide_eq_true hp)
    refine ⟨?_, fun hroom => ?_⟩
    · obtain ⟨hr, -⟩ := readByte_bits (ap := ap) (a := a) rfl
      have hb := (hbody _).trans (if_pos hr)
      obtain ⟨t, ht, hquiet, hdriver, hmem, -⟩ := runBlock_empty hf hb (blockStart_quiet s) rfl
      exact ⟨t, (exec_tbRead rfl s).trans ht, hquiet, hdriver, hmem⟩
    · obtain ⟨hr, he⟩ := exec_tbWrite (ap := ap) (a := a) rfl
      have hb := (hbody _).trans (if_neg (hr ▸ Bool.false_ne_true))
      rw [reqSkip4_ok _ (blockStart s) hroom, bind_ok] at hb
      obtain ⟨t, ht, hquiet, hdriver, hmem, -⟩ := runBlock_empty hf hb ⟨rfl, rfl, rfl, rfl, rfl, rfl, rfl, rfl⟩ rfl
      exact ⟨t, (he s).trans ht, hquiet, hdriver, hmem⟩
  · intro s i hi hf hn hp
    obtain ⟨req, he⟩ := exec_block (i := i) (by obtain ⟨ap, a, rfl | rfl⟩ := hi <;> rfl)
    have hready : preconditionFails s.work.blockIndex s.driver = false := by
      rw [preconditionFails_eq]
      rcases hp with hp | ⟨hp, hi⟩
      · simp [hp]
      · simp [hp, hi]
    obtain ⟨t, ht, hquiet, hdriver, hmem, hwork, hphase⟩ := runBlock_empty hf (blockBody_countZero (req := req) hready hn)
      (blockReady_quiet s) (by rw [blockReady_mem])
    refine ⟨t, (he s).trans ht, hquiet, by rw [hmem, blockReady_mem]; rfl, ?_, hwork,
      fun hb => hphase (by rw [blockReady_batch]; exact hb)⟩
    rw [hdriver, blockReady_driver]
    rfl

/-! ### The line after a read block (R200) -/

/-- The reads of a block leave the line parked, where it was or at least one is clocked. -/
theorem blockReadLoop_parks {req : Byte} {posted : Bool} {n : Nat} {c : Half} {s t : State} {r : Byte × Half}
    (hp : s.driver.port = .swd) (hk : Parked s ∨ n ≠ 0) (h : blockReadLoop req posted n c s = .ok r t) : Parked t := by
  induction n generalizing c s with
  | zero => cases h; exact hk.resolve_right (fun h => h rfl)
  | succ n ih =>
    obtain ⟨x, u, hx, h⟩ := bind_eq_ok.mp h
    have hu := transferRetry_transferred hx
    split at h
    · obtain ⟨_, v, hv, h⟩ := bind_eq_ok.mp h
      obtain ⟨m, rfl⟩ := respWrite4_eq_ok hv
      exact ih (s := { u with mem := m }) (hu.port.trans hp) (.inl (hu.park hp)) h
    · cases h; exact hu.park hp

theorem blockRead_parks {req : Byte} {n : Nat} {s t : State} {r : Byte × Half} (hp : s.driver.port = .swd) (hn : n ≠ 0)
    (h : blockRead req n s = .ok r t) : Parked t := by
  unfold blockRead at h
  split at h
  · obtain ⟨x, u, hx, h⟩ := bind_eq_ok.mp h
    have hu := transferRetry_transferred hx
    split at h
    · exact blockReadLoop_parks (hu.port.trans hp) (.inl (hu.park hp)) h
    · cases h; exact hu.park hp
  · exact blockReadLoop_parks hp (.inr hn) h

/-! ### A read block that ends -/

/-- A read block has ended: it answered the words `ws`, the slots hold `c` and `code`; `cs` are the records it left since
`s`. -/
structure ReadBlockEnds (s t : State) (ws : List Word) (c : Half) (code : Byte) (cs : List Cycle) (rest : List Bool) :
    Prop where
  mem : t.mem = { s.mem with resp := s.mem.resp ++ [0x06#8] ++ bytes16 c ++ [code] ++ ws.flatMap bytes32 }
  trace : t.trace = s.trace ++ cs
  work : t.work = Work.initial
  phase : s.batch = none → t.phase = .respond
  driver : t.driver = (atBlock s).driver
  left : queue t = rest
  parked : s.driver.port = .swd → Parked t

/-- What is queued on SWD after a block. -/
theorem ReadBlockEnds.swdio {s t : State} {ws : List Word} {c : Half} {code : Byte} {cs : List Cycle} {rest : List Bool}
    (h : ReadBlockEnds s t ws c code cs rest) (hp : s.driver.port = .swd) : t.input.swdio = rest := by
  rw [← queue_swd (by rw [h.driver, atBlock_port]; exact hp)]
  exact h.left

/-- The block posts before it reads, on JTAG and for an AP (R260). -/
theorem matchPosts_iff {req : Byte} {d : Driver} :
    matchPosts req d = true ↔ d.port = .jtag ∨ req.getLsbD 0 = true := by
  simp [matchPosts, reqAPnDP]

/-- The post step of a block, or none, with the reads to come. -/
theorem blockRead_course {s : State} {req : Byte} {v : Word} {xs : List Access} {f : Option (Byte × Byte)} {n : Nat}
    {cs : List Cycle} {rest : List Bool} (h : Course s (matchPost s req v ++ xs) f cs rest) : ∃ t ir c cs',
      blockRead req n s = blockReadLoop req (matchPosts req s.driver) n 0#16 t ∧ cs = c ++ cs' ∧ Wired s t ir c ∧
        Course t xs f cs' rest := by
  by_cases hp : matchPosts req s.driver = true
  · rw [matchPost, if_pos (matchPosts_iff.mp hp)] at h
    obtain ⟨t, c, cs', d, ht, -, hcs, hw, hc⟩ := h.first
    refine ⟨t, _, c, cs', ?_, hcs, hw, hc⟩
    rw [hp]
    exact (if_pos hp).trans (by rw [ht, bind_ok]; rfl)
  · rw [matchPost, if_neg fun h => hp (matchPosts_iff.mpr h)] at h
    refine ⟨s, _, [], cs, ?_, rfl, .self s, h⟩
    rw [Bool.not_eq_true] at hp
    rw [hp]
    exact if_neg (by rw [show (decide (s.driver.port = .jtag) || reqAPnDP req) = false from hp]; decide)

/-- The last transfer of a block reads, be it RDBUFF or the request. -/
theorem lastRequest_reads (posted : Bool) {req : Byte} (hr : req.getLsbD 1 = true) :
    (if posted then 0x0e#8 else req).getLsbD 1 = true := by
  cases posted
  · exact hr
  · exact (by decide : (0x0e#8 : Byte).getLsbD 1 = true)

/-- The last word of a block: through RDBUFF where the reads are posted. -/
theorem blockReadLoop_last {req : Byte} {posted : Bool} {c : Half} {s : State} {v : Word} {cs : List Cycle}
    {rest : List Bool} (h : Course s [⟨if posted then 0x0e#8 else req, 0#32, v⟩] none cs rest)
    (hr : req.getLsbD 1 = true) (hf : Fits s 4) : ∃ t ir, blockReadLoop req posted 1 c s = .ok (ackOk, c + 1#16) t ∧
      Wired (grown s (bytes32 v)) t ir cs ∧ queue t = rest := by
  obtain ⟨t, c', cs', d, ht, hd, rfl, hw, hc⟩ := h.first
  obtain ⟨rfl, hq⟩ := hc.done
  obtain rfl : d = v := hd (lastRequest_reads posted hr)
  refine ⟨grown t (bytes32 d), _, ?_, by rw [List.append_nil]; exact hw.grown _, hq⟩
  have hreq : (if posted && 0 == 0 then Config.rdbuffRead else req) = if posted then 0x0e#8 else req := by
    rw [show ((0 : Nat) == 0) = true from rfl, Bool.and_true]; rfl
  have hwrite := respWrite4_onWire t t.pins t.trace t.taps t.input t.free d (hw.fits hf)
  rw [onWire_self] at hwrite
  rw [blockReadLoop, hreq, ht, bind_ok, if_pos rfl, hwrite, bind_ok]
  rfl

section
variable {s : State} {req code : Byte} {v v0 : Word} {us : List Word} {cs : List Cycle} {rest : List Bool}
  (hr : req.getLsbD 1 = true)
include hr

/-- A block whose reads have ended with a result. -/
theorem readBlock_ends {u : State} {ir : Option IrSel} {ws : List Word} {c : Half} (hf : Fits s 4)
    (hp : preconditionFails s.work.blockIndex s.driver = false) (hn : s.work.blockCount.toNat ≠ 0)
    (hb : blockRead req s.work.blockCount.toNat (blockReady s) = .ok (code, c) u)
    (hw : Wired (grown (blockReady s) (ws.flatMap bytes32)) u ir cs) (hq : queue u = rest) :
    ∃ t, runBlock req s = .next t ∧ ReadBlockEnds s t ws c code cs rest := by
  have hbody : blockBody req (blockStart s) = .ok (code, c) u := by
    rw [blockBody_ready hp (fun h => hn (by rw [h]; rfl)), if_pos (show reqRnW req = true from hr), hb]
  obtain ⟨t, ht, hmem, htrace, hwork, hphase, hdriver, hleft⟩ := runBlock_done (n := 0) hf hbody hw hq
  obtain ⟨t', ht', -, hquiet, -⟩ := runBlock_of_body hf hbody (by rw [hw.mem, grown_mem, blockReady_mem])
  obtain rfl : t = t' := by rw [ht] at ht'; injection ht'
  refine ⟨t, ht, hmem, htrace, hwork, hphase, hdriver, hleft, fun hswd => ?_⟩
  rw [Parked, hquiet.pins]
  exact blockRead_parks (by rw [blockReady_driver, atBlock_port]; exact hswd) hn hb

/-- The post step and the words answered OK, with the rest of the block and of the course to come. -/
theorem readBlock_course {k : Nat} {xs : List Access} {f : Option (Byte × Byte)}
    (h : Course (atBlock s) (matchPost (atBlock s) req v0 ++ polls req us ++ xs) f cs rest)
    (hf : Fits s (4 + 4 * us.length)) (hc : us.length + (k + 1) = s.work.blockCount.toNat) : ∃ t ir d cs',
      blockRead req s.work.blockCount.toNat (blockReady s) =
        blockReadLoop req (matchPosts req s.driver) (k + 1) (BitVec.ofNat 16 us.length) t ∧ cs = d ++ cs' ∧
      Wired (grown (blockReady s) (us.flatMap bytes32)) t ir d ∧ Course t xs f cs' rest := by
  have hmp : matchPost (blockReady s) req v0 = matchPost (atBlock s) req v0 := by
    rw [matchPost, matchPost, blockReady_driver]
  have hposts : matchPosts req (blockReady s).driver = matchPosts req s.driver := by
    rw [matchPosts, matchPosts, blockReady_driver, atBlock_port]
  rw [List.append_assoc, ← hmp] at h
  obtain ⟨t, ir, d, cs', ht, rfl, hw, hcourse⟩ := blockRead_course (n := us.length + (k + 1)) (course_blockReady.mpr h)
  have hroom : Fits (blockReady s) (4 * us.length) := by
    unfold Fits at *
    rw [blockReady_mem, blockReady_params]
    simp only [blockStart, List.length_append, List.length_cons, List.length_nil]
    omega
  obtain ⟨u, ir', d', cs2, hu, rfl, hwu, hcourse⟩ := blockReadLoop_course (posted := matchPosts req s.driver) (k := k + 1) t
    0#16 hcourse (fun _ => Nat.le_add_left 1 k) hr (hw.fits hroom)
  refine ⟨u, ir', d ++ d', cs2, ?_, (List.append_assoc _ _ _).symm, (hw.grown _).trans hwu, hcourse⟩
  rw [← hc, ht, hposts, hu, BitVec.zero_add]

/-- Every word answered OK. -/
theorem readBlock_ok (hc : us.length + 1 = s.work.blockCount.toNat) (hf : Fits s (8 + 4 * us.length))
    (h : Course (atBlock s) (matchPost (atBlock s) req v0 ++ polls req us ++
      [⟨if matchPosts req s.driver then 0x0e#8 else req, 0#32, v⟩]) none cs rest) :
    ∃ t, runBlock req s = .next t ∧ ReadBlockEnds s t (us ++ [v]) s.work.blockCount 1#8 cs rest := by
  obtain ⟨t, ir, d, cs', ht, rfl, hw, hcourse⟩ := readBlock_course (k := 0) hr h (hf.mono (by omega)) hc
  have hroom : Fits t 4 := by
    refine hw.fits ?_
    unfold Fits at *
    rw [grown_mem, grown_params, blockReady_mem, blockReady_params]
    simp only [blockStart, List.length_append, List.length_cons, List.length_nil, flatMap_bytes32_length]
    omega
  obtain ⟨u, ir', hu, hwu, hq⟩ := blockReadLoop_last (c := BitVec.ofNat 16 us.length) hcourse hr hroom
  have hcount : BitVec.ofNat 16 us.length + 1#16 = s.work.blockCount := by
    rw [← BitVec.ofNat_add, hc, BitVec.ofNat_toNat, BitVec.setWidth_eq]
  have hws := (hw.grown (bytes32 v)).trans hwu
  rw [grown_grown, show us.flatMap bytes32 ++ bytes32 v = (us ++ [v]).flatMap bytes32 by simp] at hws
  exact readBlock_ends hr (hf.mono (by omega)) h.precondition (by omega) (by rw [ht, hu, hcount]; rfl) hws hq

/-- A read or RDBUFF fails, after the words `us`. -/
theorem readBlock_fails (hc : us.length < s.work.blockCount.toNat) (hf : Fits s (4 + 4 * us.length))
    (h : Course (atBlock s) (matchPost (atBlock s) req v0 ++ polls req us)
      (some (if matchPosts req s.driver = true ∧ us.length + 1 = s.work.blockCount.toNat then 0x0e#8 else req, code))
      cs rest) :
    ∃ t, runBlock req s = .next t ∧ ReadBlockEnds s t us (BitVec.ofNat 16 us.length) code cs rest := by
  obtain ⟨k, hk⟩ := Nat.exists_eq_add_of_lt hc
  have hlast : (matchPosts req s.driver = true ∧ us.length + 1 = s.work.blockCount.toNat) ↔
      (matchPosts req s.driver && k == 0) = true := by
    rw [hk, Bool.and_eq_true, beq_iff_eq]
    exact and_congr_right fun _ => by omega
  rw [if_congr hlast rfl rfl, ← List.append_nil (_ ++ _)] at h
  obtain ⟨t, ir, d, cs', ht, rfl, hw, hcourse⟩ := readBlock_course (k := k) hr h hf (by omega)
  obtain ⟨u, ir', hu, hwu, hq⟩ := blockReadLoop_stops (c := BitVec.ofNat 16 us.length) hcourse
  exact readBlock_ends hr (hf.mono (by omega)) h.precondition (by omega) (ht.trans hu) (hw.trans hwu) hq

/-- The post step fails. -/
theorem readBlock_postFails (hn : s.work.blockCount ≠ 0#16) (hf : Fits s 4) (hp : matchPosts req s.driver = true)
    (h : Course (atBlock s) [] (some (req, code)) cs rest) :
    ∃ t, runBlock req s = .next t ∧ ReadBlockEnds s t [] 0#16 code cs rest := by
  obtain ⟨t, d, ht, hne, hw, hq⟩ := (course_blockReady.mpr h).fails 0#32
  have hposts : matchPosts req (blockReady s).driver = true := by
    rw [matchPosts, blockReady_driver, atBlock_port]; exact hp
  refine readBlock_ends (ws := []) hr hf h.precondition (fun h0 => hn (BitVec.eq_of_toNat_eq h0)) (u := t) ?_
    (by rw [List.flatMap_nil, grown_nil]; exact hw) hq
  exact (if_pos hposts).trans (by rw [ht, bind_ok]; exact if_neg hne)

end

/-! ### Read blocks on SWD -/

section
variable {s : State} {ap : Bool} {req : Byte} (hp : s.driver.port = .swd) (hr : req.getLsbD 1 = true)
  (h0 : req.getLsbD 0 = ap) (v0 : Word) (us : List Word)
include hp h0

theorem matchPosts_swd : matchPosts req s.driver = ap := by
  rw [matchPosts, hp]
  exact h0

include hr

theorem swdAnswersOf_block : swdAnswersOf (matchPost (atBlock s) req v0 ++ polls req us) =
    (if ap then swdOkRead v0 else []) ++ us.flatMap swdOkRead := by
  rw [swdAnswersOf_append, swdAnswersOf_matchPost (by rw [atBlock_port]; exact hp) hr h0, swdAnswersOf_polls hr]

theorem swdRecordsOf_block : swdRecordsOf s.driver (matchPost (atBlock s) req v0 ++ polls req us) =
    (if ap then readPacket s.driver req v0 (dataParity v0) else []) ++
      us.flatMap fun x => readPacket s.driver req x (dataParity x) := by
  rw [swdRecordsOf_append, swdRecordsOf_matchPost (by rw [atBlock_port]; exact hp) hr h0, swdRecordsOf_polls hr]

end

/-- Settles O53: a read block's course is its post step, its reads and RDBUFF, any of which may fail. -/
theorem blockReads : Obligations.BlockReads := by
  refine ⟨?_, ?_, ?_, ?_, ?_, ?_⟩
  · intro s ap a v0 v us rest req hp hd hc hf hreq hq
    obtain ⟨hr, h0⟩ := readByte_bits hreq
    have hlast := lastRequest_reads ap hr
    have hposts := matchPosts_swd hp h0
    have ha := answers_swd (s := atBlock s) (xs := matchPost (atBlock s) req v0 ++ polls req us ++
      [⟨if matchPosts req s.driver then 0x0e#8 else req, 0#32, v⟩]) (rest := rest) (by rw [atBlock_port]; exact hp) hd (by
        rw [swdAnswersOf_append, swdAnswersOf_block hp hr h0, swdAnswersOf_one, hposts, if_pos hlast]
        simpa [atBlock] using hq)
    obtain ⟨t, ht, h⟩ := readBlock_ok hr hc hf ha
    refine ⟨t, (exec_tbRead hreq s).trans ht, h.mem, ?_, h.work, h.phase, h.driver.trans (atBlock_swd hp), h.swdio hp,
      h.parked hp⟩
    rw [h.trace, atBlock_swd hp, swdRecordsOf_append, swdRecordsOf_block hp hr h0, swdRecordsOf_one, hposts, if_pos hlast]
    simp only [List.append_assoc]
  · intro s ap a v0 us bad rest cs req code hp hd hc hf hreq hbad hq
    obtain ⟨hr, h0⟩ := readByte_bits hreq
    have hcourse : Course (atBlock s) (matchPost (atBlock s) req v0 ++ polls req us)
        (some (if matchPosts req s.driver = true ∧ us.length + 1 = s.work.blockCount.toNat then 0x0e#8 else req, code))
        ((if ap then readPacket s.driver req v0 (dataParity v0) else []) ++
          (us.flatMap fun x => readPacket s.driver req x (dataParity x)) ++ cs) rest := by
      simp only [Course, AnswersThenFails, atBlock_swd hp, hp, matchPosts_swd hp h0, swdAnswersOf_block hp hr h0,
        swdRecordsOf_block hp hr h0]
      exact ⟨hd, bad, cs, hbad, hq, rfl⟩
    obtain ⟨t, ht, h⟩ := readBlock_fails hr hc hf hcourse
    exact ⟨t, (exec_tbRead hreq s).trans ht, h.mem, by rw [h.trace]; simp only [List.append_assoc],
      h.driver.trans (atBlock_swd hp), h.swdio hp, h.parked hp⟩
  · intro s a bad rest cs code hp hd hn hf hbad hq
    obtain ⟨hr, h0⟩ := readByte_bits (ap := true) (a := a) (req := 0x03#8 ||| (a.zeroExtend 8 <<< 2)) rfl
    obtain ⟨t, ht, h⟩ := readBlock_postFails hr hn hf (matchPosts_swd hp h0)
      (course_swdFails (s := atBlock s) (by rw [atBlock_port]; exact hp) hd (by rw [atBlock_swd hp]; exact hbad) hq)
    exact ⟨t, (exec_tbRead rfl s).trans ht, by simpa [bytes16] using h.mem, h.trace, h.driver.trans (atBlock_swd hp),
      h.swdio hp, h.parked hp⟩
  · intro s ap a v0 v us ans rest req d xs hp hidx hc hf hreq hdd hxs hans hq
    obtain ⟨hr, h0⟩ := readByte_bits hreq
    have hdriver : (atBlock s).driver = d := (atBlock_jtag hp).trans hdd.symm
    have hpj : (atBlock s).driver.port = .jtag := by rw [atBlock_port]; exact hp
    have hposts : matchPosts req s.driver = true := matchPosts_iff.mpr (.inl hp)
    have hxs' : xs = matchPost (atBlock s) req v0 ++ polls req us ++
        [⟨if matchPosts req s.driver then 0x0e#8 else req, 0#32, v⟩] := by
      rw [hxs, matchPost, if_pos (.inl hpj), hposts]
      rfl
    have ha := answers_jtag (s := atBlock s) (xs := xs) hpj (by rw [hdriver, hdd]; exact hidx) (by rw [hdriver]; exact hans) hq
    obtain ⟨t, ht, h⟩ := readBlock_ok hr hc hf (hxs' ▸ ha)
    rw [← hxs'] at h
    refine ⟨t, (exec_tbRead hreq s).trans ht, h.mem, ?_, h.work, h.phase, h.driver.trans hdriver, ?_⟩
    · rw [h.trace, hdriver, hdd]; rfl
    · rw [← queue_jtag (by rw [h.driver]; exact hpj)]; exact h.left
  · intro s ap a v0 us cs rest req cur code post hc hf hreq hpost hcur ha
    obtain ⟨hr, h0⟩ := readByte_bits hreq
    have hposts : (ap = true ∨ s.driver.port = .jtag) ↔ matchPosts req s.driver = true := by
      rw [matchPosts_iff, h0, or_comm]
    have hmp : post = matchPost (atBlock s) req v0 := by
      rw [hpost, matchPost, atBlock_port, h0]
      exact if_congr or_comm rfl rfl
    rw [hmp, hcur, if_congr (and_congr_left fun _ => hposts) rfl rfl] at ha
    obtain ⟨t, ht, h⟩ := readBlock_fails hr hc hf ha
    exact ⟨t, (exec_tbRead hreq s).trans ht, h.mem, h.trace, h.work, h.phase, h.driver, h.left⟩
  · intro s ap a cs rest req code hn hf hposts hreq ha
    obtain ⟨hr, h0⟩ := readByte_bits hreq
    obtain ⟨t, ht, h⟩ := readBlock_postFails hr hn hf (matchPosts_iff.mpr (by rw [h0]; exact hposts.symm)) ha
    exact ⟨t, (exec_tbRead hreq s).trans ht, by simpa [bytes16] using h.mem, h.trace, h.work, h.phase, h.driver, h.left⟩

end Sys2Proof.Machine
end

section
/-! The configuration commands (R290 to R293): each prepares Driver State and answers its code and a status byte. -/

namespace Sys2Proof.Machine

/-- A command that comes to an answer, which fits, has appended it and ended. -/
theorem exec_of_answer {i : Instr} {s s' : State} {code result : Byte} (he : exec i s = (answer code result s').outcome)
    (hf : Fits s' 2) :
    exec i s = .next (endCommand { s' with mem := { s'.mem with resp := s'.mem.resp ++ [code, result] } }) := by
  rw [he, answer_fits hf, outcome_ok]

/-! ### The chain (R33 to R35) -/

theorem sumLens_le (lens : List Byte) : sumLens lens ≤ lens.length * 255 := by
  have h := List.sum_le_card_nsmul (lens.map BitVec.toNat) 255 fun n hn => by
    obtain ⟨l, -, rfl⟩ := List.mem_map.mp hn
    exact Nat.le_of_lt_succ l.isLt
  rwa [List.length_map] at h

/-- Each entry of a chain has its own IR length, the sum of those before it and the sum of those after it. -/
theorem chainFrom_getElem? (before : Nat) (lens : List Byte) (i : Nat) :
    (chainFrom before lens)[i]? = lens[i]?.map fun l =>
      ⟨l, BitVec.ofNat 16 (before + sumLens (lens.take i)), BitVec.ofNat 16 (sumLens (lens.drop (i + 1)))⟩ := by
  induction lens generalizing before i with
  | nil => rfl
  | cons l ls ih =>
    cases i with
    | zero => rfl
    | succ i =>
      rw [chainFrom, List.getElem?_cons_succ, ih, Nat.add_assoc]
      rfl

/-- A sum of at most MAX_CHAIN lengths does not wrap in the 16 bits that hold it. -/
theorem toNat_ofNat_sumLens {lens : List Byte} (h : lens.length ≤ 4) :
    (BitVec.ofNat 16 (sumLens lens)).toNat = sumLens lens := by
  have hs := sumLens_le lens
  rw [BitVec.toNat_ofNat, Nat.mod_eq_of_lt (by omega)]

theorem chainOf_bookkeeping {lens : List Byte} (h : lens.length ≤ 4) {i : Nat} {d : Device}
    (hd : (chainOf lens)[i]? = some d) : lens[i]? = some d.irLength ∧
      d.irBitsBefore.toNat = sumLens (lens.take i) ∧ d.irBitsAfter.toNat = sumLens (lens.drop (i + 1)) := by
  rw [chainOf, chainFrom_getElem?, Option.map_eq_some_iff] at hd
  obtain ⟨l, hl, rfl⟩ := hd
  rw [Nat.zero_add]
  exact ⟨hl, toNat_ofNat_sumLens (by rw [List.length_take]; omega),
    toNat_ofNat_sumLens (by rw [List.length_drop]; omega)⟩

theorem chainOf_length (lens : List Byte) : (chainOf lens).length = lens.length := by
  rw [← List.length_map (f := Device.irLength), chainOf, chainFrom_irLengths]

/-! ### JTAG Configure (R293) -/

theorem chainRejected_iff {lens : List Byte} : chainRejected lens = true ↔ 4 < lens.length ∨ ∃ l ∈ lens, l = 0#8 := by
  simp only [chainRejected, Bool.or_eq_true, decide_eq_true_eq, List.any_eq_true, beq_iff_eq]
  rfl

theorem exec_jtagCfg_rejected {lens : List Byte} (h : chainRejected lens = true) (s : State) :
    exec (.jtagCfg lens) s = (answer 0x15#8 statusError s).outcome := by
  show execJtagCfg lens s = _
  rw [execJtagCfg, if_pos h]

theorem exec_jtagCfg_accepted {lens : List Byte} (h : ¬ chainRejected lens = true) (s : State) :
    exec (.jtagCfg lens) s =
      (answer 0x15#8 statusOk { s with driver := { s.driver with chain := chainOf lens, index := 0#8 } }).outcome := by
  show execJtagCfg lens s = _
  rw [execJtagCfg, if_neg h]

/-- Settles O22: the chain is `chainOf` of the lengths read, whose sums fit their fields at four devices. -/
theorem jtagCfgBuilds : Obligations.JtagCfgBuilds := by
  refine ⟨fun n lens more hl => ?_, fun s lens hf => ⟨fun h => ?_, fun hlen hne => ?_⟩⟩
  · have hn : n = BitVec.ofNat 8 lens.length := by rw [hl, BitVec.ofNat_toNat, BitVec.setWidth_eq]
    have h255 : lens.length ≤ 255 := by omega
    rw [← hl, hn, Nat.add_comm]
    exact decodeJtagCfg_fields h255 more
  · exact exec_of_answer (exec_jtagCfg_rejected (chainRejected_iff.mpr h) s) hf
  · have hacc : ¬ chainRejected lens = true := by
      rw [chainRejected_iff]
      rintro (h | ⟨l, hl, h0⟩)
      · omega
      · exact hne l hl h0
    exact ⟨chainOf lens, chainOf_length lens, fun i d hd => chainOf_bookkeeping hlen hd,
      exec_of_answer (exec_jtagCfg_accepted hacc s) hf⟩

/-! ### Transfer Configure, SWJ Clock, SWD Configure (R290 to R292) -/

/-- Settles O19: the three fields are set one after the other, before the answer. -/
theorem xferCfgStores : Obligations.XferCfgStores := fun s idle wait mtch hf =>
  exec_of_answer (s' := setMatchRetry mtch (setWaitRetry wait (setIdleCycles idle s))) rfl hf

theorem exec_swjClock {c : Word} (h : c ≠ 0#32) (s : State) :
    exec (.swjClock c) s = (answer 0x11#8 statusOk (setClock c s)).outcome := by
  show execSwjClock c s = _
  rw [execSwjClock, if_neg h]

theorem halfDelayOf_eq_ofNat {c : Word} (h : c ≠ 0#32) : halfDelayOf c = BitVec.ofNat 32 (500000000 / c.toNat) := by
  rw [← toNat_halfDelayOf h, BitVec.ofNat_toNat, BitVec.setWidth_eq]

/-- Settles O20: a rate but 0 is set by `setClock`, together with its `halfDelayOf`. -/
theorem swjClockSets : Obligations.SwjClockSets := by
  refine fun s hf => ⟨fun c hc => ?_, exec_of_answer rfl hf⟩
  rw [← halfDelayOf_eq_ofNat hc]
  exact exec_of_answer (exec_swjClock hc s) hf

theorem toNat_configTrn (c : Byte) : (configTrn c).toNat = c.toNat % 4 := by
  simp [configTrn]

theorem exec_swdCfg (c : Byte) (s : State) : exec (.swdCfg c) s = (answer 0x13#8 statusOk
    { s with driver := { s.driver with trnField := configTrn c, dataPhase := configDataPhase c } }).outcome := rfl

/-- Settles O21: the turnaround field holds bits 1:0 (`toNat_configTrn`). -/
theorem swdCfgSets : Obligations.SwdCfgSets := fun s c hf =>
  ⟨{ s.driver with trnField := configTrn c, dataPhase := configDataPhase c },
    congrArg (· + 1) (toNat_configTrn c), rfl, rfl, exec_of_answer (exec_swdCfg c s) hf⟩

end Sys2Proof.Machine
end

section
/-! Connect and Disconnect (R287, R288). -/

namespace Sys2Proof.Machine

/-- The state in which Connect has answered: the port selected and its pins set, both as they were for an unlisted value. -/
def connected (p : Byte) (s : State) : State :=
  { s with
    driver := { s.driver with port := (connectPort p).getD s.driver.port }
    pins := (connectPort p).elim s.pins (connectPins · s.pins)
    mem := { s.mem with resp := s.mem.resp ++ [0x02#8, resultPort (connectPort p)] } }

theorem exec_connect {p : Byte} {s : State} (hf : Fits s 2) (hd : s.input.dirFail = none) :
    exec (.connect p) s = .next (endCommand (connected p s)) := by
  have he : exec (.connect p) s = execConnect p s := rfl
  unfold execConnect at he
  unfold connected
  cases hc : connectPort p with
  | none =>
    rw [hc] at he
    exact exec_of_answer he hf
  | some port =>
    rw [hc] at he
    simp only [setPort, pinDirection_none hd, bind_ok] at he
    exact exec_of_answer he hf

theorem connectPort_unlisted {p : Byte} (h : 3 ≤ p.toNat) : connectPort p = none := by
  rw [connectPort, if_neg (by bv_omega), if_neg (by bv_omega)]

theorem connectPins_connectPins (port : Port) (pins : Pins) :
    connectPins port (connectPins port pins) = connectPins port pins := by
  cases port <;> rfl

/-- Where Connect has set Driver State and pins, it sets them the same again. -/
theorem connected_again {p : Byte} {s t : State} (hd : t.driver = (connected p s).driver)
    (hp : t.pins = (connected p s).pins) :
    (connected p t).pins = t.pins ∧ (connected p t).driver = t.driver := by
  unfold connected at *
  cases hc : connectPort p with
  | none => exact ⟨rfl, rfl⟩
  | some port =>
    simp only [hc, Option.elim_some, Option.getD_some] at hd hp ⊢
    rw [hd, hp, connectPins_connectPins]
    exact ⟨rfl, rfl⟩

/-- Settles O16: Connect leaves `connected`, in which a second one finds Driver State and pins as it sets them. -/
theorem connectSelects : Obligations.ConnectSelects := by
  refine ⟨fun s hf hd => ⟨fun p hp => ?_, exec_connect hf hd, fun p hp => ?_⟩, fun s t u p hd hf ht hu => ?_⟩
  · rcases hp with rfl | rfl <;> exact exec_connect hf hd
  · rw [exec_connect hf hd, connected, connectPort_unlisted hp]
    rfl
  · have hfs : Fits s 2 := by unfold Fits at *; omega
    obtain rfl := Host.Outcome.next.inj ((exec_connect hfs hd).symm.trans ht)
    have hft : Fits (endCommand (connected p s)) 2 := by simpa [Fits, connected] using hf
    have hdt : (endCommand (connected p s)).input.dirFail = none := by rw [endCommand_input]; exact hd
    obtain rfl := Host.Outcome.next.inj ((exec_connect hft hdt).symm.trans hu)
    obtain ⟨hpins, hdriver⟩ := connected_again (endCommand_driver (connected p s)) (endCommand_pins (connected p s))
    exact ⟨(endCommand_pins _).trans hpins, (endCommand_driver _).trans hdriver,
      (endCommand_trace _).trans (endCommand_trace _), _, congrArg Memory.resp (endCommand_mem _),
      congrArg Memory.resp (endCommand_mem _)⟩

/-- Settles O18: after a good pin-direction draw Disconnect answers from the released state. -/
theorem disconnectReleases : Obligations.DisconnectReleases := by
  intro s hf hd
  refine exec_of_answer (s' := withPort .disabled { Pins.unspecified with swdioOe := .low } s.input.dirFail s) ?_ hf
  show execDisconnect s = _
  rw [execDisconnect, pinDirection_none hd]
  rfl

end Sys2Proof.Machine
end

section
/-! Batches (R282) and the codes without a rule (R284, R285). -/

namespace Sys2Proof.Machine

/-! ### The error answer -/

theorem answerError_fits {s : State} (h : Fits s 1) :
    answerError s = .ok () (endRequest { s with mem := { s.mem with resp := s.mem.resp ++ [statusError] } }) := by
  unfold answerError
  rw [respWrite_fits (bs := [statusError]) h, bind_ok]

/-- A step that reads a code and answers it 0xff ends the request and leaves the rest as it was. -/
theorem next_of_answerError {s : State} {o : Host.Outcome State Fault Refusal}
    (ho : o = (answerError (advance 1 s)).outcome) (hf : Fits s 1) :
    ∃ t, o = .next t ∧ t.mem.resp = s.mem.resp ++ [0xff#8] ∧ t.mem.rd = s.mem.rd + 1 ∧ t.phase = .respond ∧
      t.driver = s.driver ∧ t.pins = s.pins ∧ t.trace = s.trace := by
  rw [ho, answerError_fits (s := advance 1 s) hf]
  exact ⟨_, rfl, rfl, rfl, rfl, rfl, rfl, rfl⟩

/-! ### Codes that run no instruction -/

theorem step_of_nestedBatch {s : State} (hp : s.phase = .command) (hn : isNestedBatch s = true) :
    step s = (answerError (advance 1 s)).outcome := by
  rw [step_of_fetch, fetch_of_command hp, fetchCommand, if_pos hn]
  rfl

theorem step_of_noRule {s : State} {code : Byte} (hp : s.phase = .command) (hn : isNestedBatch s = false)
    (hd : decode .command (pending s) = .noRule code) : step s = codeWithoutRule code s := by
  rw [step_of_fetch, fetch_of_command hp, fetchCommand, hn, if_neg Bool.false_ne_true, fetchIn, hd]
  rfl

/-- A code that is none of R101's has no rule. -/
theorem decode_noRule {code : Byte} (rest : List Byte)
    (h : code ∉ [0x02#8, 0x03#8, 0x04#8, 0x05#8, 0x06#8, 0x11#8, 0x13#8, 0x15#8, 0x7f#8]) :
    decode .command (code :: rest) = .noRule code := by
  simp only [List.mem_cons, List.not_mem_nil, or_false, not_or] at h
  simp [decode, decodeCommand, h]

/-- Settles O14: the decoder finds no rule for the code, and `codeWithoutRule` looks it up among those known to be
unimplemented. -/
theorem codesWithoutRule : Obligations.CodesWithoutRule := by
  intro s code rest hp hn hb hc
  have hs : step s = codeWithoutRule code s := step_of_noRule hp hn (by rw [hb]; exact decode_noRule rest hc)
  refine ⟨fun hu => ?_, fun hu hf => next_of_answerError ?_ hf⟩
  · rw [hs, codeWithoutRule, if_neg (by simpa using hu)]
  · rw [hs, codeWithoutRule, if_pos (by simpa using hu)]

theorem isNestedBatch_of_code {s : State} {k : Nat} {code : Byte} {rest : List Byte} (hb : s.batch = some k)
    (hp : pending s = code :: rest) (hc : code = 0x7f#8 ∨ code = 0x7e#8) : isNestedBatch s = true := by
  rw [isNestedBatch, hb, hp]
  rcases hc with rfl | rfl <;> rfl

/-- Settles O15: inside a batch both codes are refused before the decoder is asked. -/
theorem nestedBatchRefused : Obligations.NestedBatchRefused := fun _ _ _ _ hp hb hpend hc hf =>
  next_of_answerError (step_of_nestedBatch hp (isNestedBatch_of_code hb hpend hc)) hf

/-! ### The batch -/

/-- A command that ends inside a batch goes on with the next (R282). -/
theorem endCommand_of_more {s : State} {k : Nat} (h : s.batch = some (k + 1)) :
    endCommand s = { s with work := Work.initial, phase := .command, batch := some k } := by
  rw [endCommand, h]

/-- The last command of a request ends it (R280, R282). -/
theorem endCommand_of_last {s : State} (h : s.batch = none ∨ s.batch = some 0) : endCommand s = endRequest s := by
  unfold endCommand
  rcases h with h | h <;> rw [h]

theorem exec_execCommands {s : State} (n : Byte) (hb : s.batch = none) (hf : Fits s 2) :
    exec (.execCommands n) s = .next (endCommand { s with
      mem := { s.mem with resp := s.mem.resp ++ [0x7f#8, n] }, batch := some n.toNat }) := by
  show execExecCommands n s = _
  rw [execExecCommands, hb, if_neg (by decide), respPair_fits hf]
  rfl

theorem exec_execCommands_nested {s : State} {k : Nat} (n : Byte) (hb : s.batch = some k) :
    exec (.execCommands n) s = (answerError s).outcome := by
  show execExecCommands n s = _
  rw [execExecCommands, hb]
  rfl

/-- Settles O23: the header ends as a command does whose batch has all its inner commands to come. -/
theorem batchRuns : Obligations.BatchRuns := by
  refine ⟨fun s n hb hf => ?_, fun s n k hb hf => ?_, fun s k hb => endCommand_of_more hb,
    fun s hb => endCommand_of_last hb⟩
  · rw [exec_execCommands n hb hf]
    by_cases h0 : n = 0#8
    · rw [endCommand_of_last (.inr (by rw [h0]; rfl)), h0]
      rfl
    · obtain ⟨k, hk⟩ : ∃ k, n.toNat = k + 1 := Nat.exists_eq_succ_of_ne_zero (by bv_omega)
      rw [endCommand_of_more (congrArg some hk), if_neg h0, hk, Nat.add_sub_cancel]
  · rw [exec_execCommands_nested n hb, answerError_fits hf]
    exact ⟨_, rfl, rfl, rfl, rfl⟩

end Sys2Proof.Machine
end

section
/-! A request's arrival and its response's hand-over (R280, R351). -/

namespace Sys2Proof.Machine

theorem receive_of_request {s : State} {bytes : List Byte} {evs : List HostEvent}
    (h : s.input.recv = .request bytes :: evs) (hl : bytes.length ≤ s.params.requestCapacity) :
    receive s = .next (acceptRequest bytes { s with input := { s.input with recv := evs } }) := by
  simp only [receive, h, if_pos hl]

theorem receive_of_no_event {s : State} (h : s.input.recv = []) : receive s = .next s := by
  simp only [receive, h]

theorem sendResponse_of_good {s : State} (h : s.input.sendFail.head? ≠ some true) :
    sendResponse s = { s with
      input := { s.input with sendFail := s.input.sendFail.tail }, sent := s.sent ++ [s.mem.resp]
      mem := { s.mem with req := [], rd := 0 }, phase := .idle, batch := none } := by
  simp only [sendResponse, if_neg h]

/-- Settles O10: `recv` accepts the request or waits, and `send` hands over the response. -/
theorem hostExchange : Obligations.HostExchange := by
  refine ⟨fun s bytes evs hp hr hl => ?_, fun s hp hs => ?_, fun s hp hr => ?_⟩
  · rw [step_of_idle hp, receive_of_request hr hl]
    exact ⟨_, rfl, rfl, rfl, rfl, rfl, rfl, rfl, rfl, rfl, rfl, rfl⟩
  · rw [step_of_respond hp, sendResponse_of_good hs]
    exact ⟨_, rfl, rfl, rfl, rfl, rfl, rfl, rfl, rfl, rfl, rfl⟩
  · rw [step_of_idle hp, receive_of_no_event hr]

end Sys2Proof.Machine
end
